-- ==== Sys2Proof/Word.lean ====
section
/-! DEFINITION. The word and byte types of OSOROM (00_scope R2, 10_state R10, 20_memory R40). -/

namespace Sys2Proof

/-- A 32-bit word: the width of a general register, a virtual address and an instruction (R2). -/
abbrev Word := BitVec 32

/-- The smallest addressable unit, 8 bits (20_memory R40). -/
abbrev Byte := BitVec 8

/-- The 5-bit number of a general register, R0 to R31 (10_state R11). -/
abbrev Reg := BitVec 5

/-- The position of an instruction in its packet, called slot or lane (00_scope R9). -/
abbrev Lane := Fin 4

end Sys2Proof
end

