-- ==== Sys2Proof/Machine/Flags.lean ====
section
/-! DEFINITION. The results an instruction computes from its operands alone: the functions of the ALU
instructions (41_alu R157 to R167), the conditions of the compares, which are the machine's only flag
computations (42_compare R181 to R187; 41_alu R168: no other flag exists), and products and quotients
(45_control R242 to R244). -/

namespace Sys2Proof.Machine

/-- ADD (R157): wraps modulo 2^32. -/
def aluAdd (a b : Word) : Word := a + b

/-- AND (R158). -/
def aluAnd (a b : Word) : Word := a &&& b

/-- NOR (R159). -/
def aluNor (a b : Word) : Word := ~~~(a ||| b)

/-- OR (R160). -/
def aluOr (a b : Word) : Word := a ||| b

/-- SUB (R161): Rs - OP2, wraps. -/
def aluSub (a b : Word) : Word := a - b

/-- RSB (R162): OP2 - Rs, wraps. -/
def aluRsb (a b : Word) : Word := b - a

/-- XOR (R163). -/
def aluXor (a b : Word) : Word := a ^^^ b

/-- MOV (R164). -/
def aluMov (b : Word) : Word := b

/-- MVN (R165). -/
def aluMvn (b : Word) : Word := ~~~b

/-- SXB (R166): the low byte, sign-extended. -/
def aluSxb (b : Word) : Word := (b.setWidth 8).signExtend 32

/-- SXH (R167): the low half-word, sign-extended. -/
def aluSxh (b : Word) : Word := (b.setWidth 16).signExtend 32

/-- CMPLTU (42_compare R181). -/
def condLtu (a b : Word) : Bool := decide (a.toNat < b.toNat)

/-- CMPLEU (R182). -/
def condLeu (a b : Word) : Bool := decide (a.toNat ≤ b.toNat)

/-- CMPEQ (R183). -/
def condEq (a b : Word) : Bool := decide (a = b)

/-- CMPLTS (R184): exact, not the sign of a wrapped difference. -/
def condLts (a b : Word) : Bool := decide (a.toInt < b.toInt)

/-- CMPLES (R185). -/
def condLes (a b : Word) : Bool := decide (a.toInt ≤ b.toInt)

/-- CMPBS (R186): some selected bit is set. -/
def condBs (a b : Word) : Bool := decide (a &&& b ≠ 0#32)

/-- CMPBC (R187, the formula of 90_conflicts C3): some selected bit is clear. -/
def condBc (a b : Word) : Bool := decide (~~~a &&& b ≠ 0#32)

/-- MULT (45_control R242): the unsigned 64-bit product. -/
def productU (a b : Word) : BitVec 64 := BitVec.ofNat 64 (a.toNat * b.toNat)

/-- MULTS (R243): the two's complement 64-bit product. -/
def productS (a b : Word) : BitVec 64 := BitVec.ofInt 64 (a.toInt * b.toInt)

/-- The low word of a product. -/
def lowWord (v : BitVec 64) : Word := v.extractLsb' 0 32

/-- The high word of a product. -/
def highWord (v : BitVec 64) : Word := v.extractLsb' 32 32

/-- The quotient of DIV (R244): unsigned, or, were DIV_SIGNED true, truncated (92 D16). -/
def quotient (signed : Bool) (a b : Word) : Word := if signed then a.sdiv b else a.udiv b

/-- The remainder of DIV (R244): unsigned, or, were DIV_SIGNED true, with the dividend's sign (92 D16). -/
def remainder (signed : Bool) (a b : Word) : Word := if signed then a.srem b else a.umod b

end Sys2Proof.Machine
end

