-- ==== Sys2Proof/Config.lean ====
section
/-! DEFINITION. What one implementation of OSOROM fixes (the parameters of 00_scope R3) and the
free values (constants without a body: no proof can see what they are). -/

namespace Sys2Proof

/-- RESET_PC (00_scope R3, 70_reset R300), a multiple of 16.
DESIGN CHOICE, unsafe (log 1): the spec gives no value; its own test packets start here. -/
def Config.resetPc : Word := 0x00001000#32

/-- The number of physical byte addresses: 29 address bits (20_memory R41). -/
def Config.physBytes : Nat := 2 ^ 29

/-- PhysValid(pa, n) (00_scope R3): the `n` bytes at `pa` exist.
DESIGN CHOICE, unsafe (log 7): the spec's suggested default, all of 0 .. 2^29 - 1. -/
def Config.physValid (pa n : Nat) : Bool := decide (pa + n ≤ Config.physBytes)

/-- IsDevice(pa) (00_scope R3). DESIGN CHOICE, unsafe (log 8): the spec's suggested default, nowhere. -/
def Config.isDevice (_pa : Nat) : Bool := false

/-- CTRLOP_MFHI (30_encoding R105). DESIGN CHOICE, unsafe (log 9): the spec's suggested value. -/
def Config.ctrlopMfhi : BitVec 4 := 0b1010#4

/-- CTRLOP_MTC (30_encoding R105). DESIGN CHOICE, unsafe (log 9): the spec's suggested value. -/
def Config.ctrlopMtc : BitVec 4 := 0b0111#4

/-- CTRLOP_MTHI (30_encoding R105). DESIGN CHOICE, unsafe (log 9): the spec's suggested value. -/
def Config.ctrlopMthi : BitVec 4 := 0b1011#4

/-- DIV_SIGNED (45_control R244), default false: DIV is unsigned (log 10). -/
def Config.divSigned : Bool := false

/-- DUPDEST_STATIC (40_packet_execution R127), default false: only live instructions count (log 11). -/
def Config.dupdestStatic : Bool := false

/-- FREE VALUE: the byte a physical address holds before anything has written it (70_reset R301,
93 U16: any value until first written). Safe (log 6). -/
opaque Config.powerOnByte : Nat → Byte

/-- FREE VALUE: the byte a device address answers, by the packet's number and the address
(20_memory R49, 93 U28). Safe (log 8). -/
opaque Config.deviceByte : Nat → Nat → Byte

/-- FREE VALUE: whether a translation whose page has an entry in the TLB uses it (`true`) or walks, by the packet's
number and the port (20_memory R58). Safe (log 13). -/
opaque Config.tlbHit : Nat → Nat → Bool

/-- FREE VALUE: whether the entry of such a walk replaces the one in the TLB, by the packet's number and the port
(20_memory R58). Safe (log 13). -/
opaque Config.tlbKeep : Nat → Nat → Bool

/-- FREE VALUE: which older value a fetch of an aligned word that was written and not yet flushed returns, by the
packet's number and the number of the word; an index past the older values means the newest one
(20_memory R66, 93 U27). Safe (log 16). -/
opaque Config.fetchPick : Nat → Nat → Nat

/-- FREE VALUE: whether, of two overlapping accesses of one packet, slot 1's goes first, by the packet's
number (20_memory R69, 93 U11). Safe (log 18). -/
opaque Config.slot1First : Nat → Bool

end Sys2Proof
end

