-- ==== Sys2Proof/Syntax.lean ====
section
/-! DEFINITION. The instructions of OSOROM: one constructor per row (mnemonic and format) of
spec/opcode_table.json. Fields are already pulled out of the words (30_encoding R83 to R94); bits the
listings draw `X`, the unused `RS` of the one-operand Long forms and the `C` bit of FLUSH are not kept
(R106, R107, log 29). -/

namespace Sys2Proof

/-- The number of a predicate register, P0 to P3 (10_state R13, R14). -/
abbrev PredReg := BitVec 2

/-- The predicate field `inst[31:29]` (30_encoding R81): a predicate register, optionally inverted. -/
structure Pred where
  reg : PredReg
  inv : Bool
deriving DecidableEq, Repr

/-- The shift types (30_encoding R98). -/
inductive ShiftType where
  | lsl | lsr | asr | ror
deriving DecidableEq, Repr

/-- The targets of FLUSH (30_encoding R106). -/
inductive FlushType where
  | data | inst | dtlb | itlb
deriving DecidableEq, Repr

/-- The coprocessor registers (10_state R18). -/
inductive CpReg where
  | pflags | ptb | eha | epc | ec0 | ec1 | ec2 | ec3 | ea0 | ea1 | sp0 | sp1 | sp2 | sp3
deriving DecidableEq, Repr

/-- The listed coprocessor register numbers; every other number names no register (10_state R18). -/
def CpReg.ofNumber (n : BitVec 5) : Option CpReg :=
  match n.toNat with
  | 0 => some .pflags
  | 1 => some .ptb
  | 2 => some .eha
  | 3 => some .epc
  | 4 => some .ec0
  | 5 => some .ec1
  | 6 => some .ec2
  | 7 => some .ec3
  | 8 => some .ea0
  | 9 => some .ea1
  | 16 => some .sp0
  | 17 => some .sp1
  | 18 => some .sp2
  | 19 => some .sp3
  | _ => none

/-- The three instruction types (30_encoding R113). -/
inductive Kind where
  | alu | memory | control
deriving DecidableEq, Repr

/-- One instruction with its predicate and operands. `imm` and `rot` are the constant and rotate fields,
`amt` and `st` the shift amount and type, `off` an offset field as the encoding holds it
(packets for branches, bytes for loads and stores), `pd` the destination predicate. -/
inductive Instr where
  -- ALU, two operands (41_alu R157 to R163; formats R83, R86, R94)
  | addShort (p : Pred) (imm : BitVec 10) (rot : BitVec 4) (rd rs : Reg)
  | addReg (p : Pred) (amt : BitVec 5) (st : ShiftType) (rt rd rs : Reg)
  | addLong (p : Pred) (imm : Word) (rd rs : Reg)
  | andShort (p : Pred) (imm : BitVec 10) (rot : BitVec 4) (rd rs : Reg)
  | andReg (p : Pred) (amt : BitVec 5) (st : ShiftType) (rt rd rs : Reg)
  | andLong (p : Pred) (imm : Word) (rd rs : Reg)
  | norShort (p : Pred) (imm : BitVec 10) (rot : BitVec 4) (rd rs : Reg)
  | norReg (p : Pred) (amt : BitVec 5) (st : ShiftType) (rt rd rs : Reg)
  | norLong (p : Pred) (imm : Word) (rd rs : Reg)
  | orShort (p : Pred) (imm : BitVec 10) (rot : BitVec 4) (rd rs : Reg)
  | orReg (p : Pred) (amt : BitVec 5) (st : ShiftType) (rt rd rs : Reg)
  | orLong (p : Pred) (imm : Word) (rd rs : Reg)
  | subShort (p : Pred) (imm : BitVec 10) (rot : BitVec 4) (rd rs : Reg)
  | subReg (p : Pred) (amt : BitVec 5) (st : ShiftType) (rt rd rs : Reg)
  | subLong (p : Pred) (imm : Word) (rd rs : Reg)
  | rsbShort (p : Pred) (imm : BitVec 10) (rot : BitVec 4) (rd rs : Reg)
  | rsbReg (p : Pred) (amt : BitVec 5) (st : ShiftType) (rt rd rs : Reg)
  | rsbLong (p : Pred) (imm : Word) (rd rs : Reg)
  | xorShort (p : Pred) (imm : BitVec 10) (rot : BitVec 4) (rd rs : Reg)
  | xorReg (p : Pred) (amt : BitVec 5) (st : ShiftType) (rt rd rs : Reg)
  | xorLong (p : Pred) (imm : Word) (rd rs : Reg)
  -- ALU, one operand (41_alu R164 to R167; formats R84, R86, R93, R94)
  | movShort (p : Pred) (imm : BitVec 15) (rot : BitVec 4) (rd : Reg)
  | movReg (p : Pred) (amt : BitVec 5) (st : ShiftType) (rt rd : Reg)
  | movRegsh (p : Pred) (st : ShiftType) (rt rd rs : Reg)
  | movLong (p : Pred) (imm : Word) (rd : Reg)
  | mvnShort (p : Pred) (imm : BitVec 15) (rot : BitVec 4) (rd : Reg)
  | mvnReg (p : Pred) (amt : BitVec 5) (st : ShiftType) (rt rd : Reg)
  | mvnRegsh (p : Pred) (st : ShiftType) (rt rd rs : Reg)
  | mvnLong (p : Pred) (imm : Word) (rd : Reg)
  | sxbShort (p : Pred) (imm : BitVec 15) (rot : BitVec 4) (rd : Reg)
  | sxbReg (p : Pred) (amt : BitVec 5) (st : ShiftType) (rt rd : Reg)
  | sxbRegsh (p : Pred) (st : ShiftType) (rt rd rs : Reg)
  | sxbLong (p : Pred) (imm : Word) (rd : Reg)
  | sxhShort (p : Pred) (imm : BitVec 15) (rot : BitVec 4) (rd : Reg)
  | sxhReg (p : Pred) (amt : BitVec 5) (st : ShiftType) (rt rd : Reg)
  | sxhRegsh (p : Pred) (st : ShiftType) (rt rd rs : Reg)
  | sxhLong (p : Pred) (imm : Word) (rd : Reg)
  -- Compare (42_compare R181 to R187; formats R85, R87, R94)
  | cmpltuShort (p : Pred) (imm : BitVec 10) (rot : BitVec 4) (pd : PredReg) (rs : Reg)
  | cmpltuReg (p : Pred) (amt : BitVec 5) (st : ShiftType) (rt : Reg) (pd : PredReg) (rs : Reg)
  | cmpltuLong (p : Pred) (imm : Word) (pd : PredReg) (rs : Reg)
  | cmpleuShort (p : Pred) (imm : BitVec 10) (rot : BitVec 4) (pd : PredReg) (rs : Reg)
  | cmpleuReg (p : Pred) (amt : BitVec 5) (st : ShiftType) (rt : Reg) (pd : PredReg) (rs : Reg)
  | cmpleuLong (p : Pred) (imm : Word) (pd : PredReg) (rs : Reg)
  | cmpeqShort (p : Pred) (imm : BitVec 10) (rot : BitVec 4) (pd : PredReg) (rs : Reg)
  | cmpeqReg (p : Pred) (amt : BitVec 5) (st : ShiftType) (rt : Reg) (pd : PredReg) (rs : Reg)
  | cmpeqLong (p : Pred) (imm : Word) (pd : PredReg) (rs : Reg)
  | cmpltsShort (p : Pred) (imm : BitVec 10) (rot : BitVec 4) (pd : PredReg) (rs : Reg)
  | cmpltsReg (p : Pred) (amt : BitVec 5) (st : ShiftType) (rt : Reg) (pd : PredReg) (rs : Reg)
  | cmpltsLong (p : Pred) (imm : Word) (pd : PredReg) (rs : Reg)
  | cmplesShort (p : Pred) (imm : BitVec 10) (rot : BitVec 4) (pd : PredReg) (rs : Reg)
  | cmplesReg (p : Pred) (amt : BitVec 5) (st : ShiftType) (rt : Reg) (pd : PredReg) (rs : Reg)
  | cmplesLong (p : Pred) (imm : Word) (pd : PredReg) (rs : Reg)
  | cmpbsShort (p : Pred) (imm : BitVec 10) (rot : BitVec 4) (pd : PredReg) (rs : Reg)
  | cmpbsReg (p : Pred) (amt : BitVec 5) (st : ShiftType) (rt : Reg) (pd : PredReg) (rs : Reg)
  | cmpbsLong (p : Pred) (imm : Word) (pd : PredReg) (rs : Reg)
  | cmpbcShort (p : Pred) (imm : BitVec 10) (rot : BitVec 4) (pd : PredReg) (rs : Reg)
  | cmpbcReg (p : Pred) (amt : BitVec 5) (st : ShiftType) (rt : Reg) (pd : PredReg) (rs : Reg)
  | cmpbcLong (p : Pred) (imm : Word) (pd : PredReg) (rs : Reg)
  -- Branch (44_branch R221, R222; formats R90, R91)
  | bImm (p : Pred) (off : BitVec 25)
  | bReg (p : Pred) (off : BitVec 20) (rs : Reg)
  | blImm (p : Pred) (off : BitVec 25)
  | blReg (p : Pred) (off : BitVec 20) (rs : Reg)
  -- Load and store (43_loadstore R203 to R209, R212; formats R88, R89)
  | lb (p : Pred) (off : BitVec 12) (rd rs : Reg)
  | lh (p : Pred) (off : BitVec 12) (rd rs : Reg)
  | lw (p : Pred) (off : BitVec 12) (rd rs : Reg)
  | ll (p : Pred) (off : BitVec 12) (rd rs : Reg)
  | sb (p : Pred) (off : BitVec 12) (rt rs : Reg)
  | sh (p : Pred) (off : BitVec 12) (rt rs : Reg)
  | sw (p : Pred) (off : BitVec 12) (rt rs : Reg)
  | sc (p : Pred) (off : BitVec 12) (rt rs : Reg)
  -- Control (45_control R231 to R244; format R92)
  | breakpoint (p : Pred)
  | syscall (p : Pred)
  | fence (p : Pred)
  | eret (p : Pred)
  | flush (p : Pred) (t : FlushType) (rs : Reg)
  | mfc (p : Pred) (rd : Reg) (cprs : BitVec 5)
  | mtc (p : Pred) (cprd : BitVec 5) (rs : Reg)
  | mfhi (p : Pred) (rd : Reg)
  | mthi (p : Pred) (rs : Reg)
  | mult (p : Pred) (rt rd rs : Reg)
  | mults (p : Pred) (rt rd rs : Reg)
  | div (p : Pred) (rt rd rs : Reg)
deriving DecidableEq, Repr

end Sys2Proof
end

