-- ==== Sys2Proof/Decode.lean ====
section
/-! DEFINITION. The decoder and the encoder (30_encoding). The decoder is total: every word (with the word
after it, for a Long form) gives an instruction or a named rejection; every rejected word is Illegal
Instruction when its predicate is true (R108). -/

namespace Sys2Proof

/-- Why a word selects no instruction (R108, R110). -/
inductive DecodeError where
  /-- ALU opcode `1100` to `1111` (Short, Register, Long and Regsh formats). -/
  | unassignedAluOpcode
  /-- Compare with Ctype `011`. -/
  | unassignedCompareType
  /-- A Regsh word whose ALU opcode is not MOV, MVN, SXB or SXH. -/
  | unassignedRegshOpcode
  /-- `inst[28:24]` = `10000`, `inst[23:21]` = `000` with `inst[20:14]` not all zero. -/
  | nonzeroLongBits
  /-- `inst[28:24]` = `10000` with `inst[23:21]` = `010` to `111`. -/
  | unassignedFormat
  /-- Control opcode that names no instruction. -/
  | unassignedControlOpcode
  /-- A Long form with no slot after it. -/
  | longFormInLastSlot
  /-- Fewer bytes than the instruction takes. -/
  | truncated
deriving DecidableEq, Repr

/-- `w[lo+k-1 : lo]`, the field of `k` bits at bit `lo` (00_scope R4). -/
def field (lo k : Nat) (w : Word) : BitVec k := w.extractLsb' lo k

/-- The word whose field of `k` bits at bit `lo` is `f` and whose other bits are 0. -/
def put (lo : Nat) {k : Nat} (f : BitVec k) : Word := f.setWidth 32 <<< lo

/-- The predicate field: `inst[31:30]` the register, `inst[29]` = 1 inverts (R81). -/
def decodePred (w : Word) : Pred := { reg := field 30 2 w, inv := field 29 1 w == 1#1 }

def encodePred (p : Pred) : Word := put 30 p.reg ||| put 29 (BitVec.ofBool p.inv)

/-- The shift types by number (R98). -/
def ShiftType.ofBits (b : BitVec 2) : ShiftType :=
  match b.toNat with
  | 0 => .lsl
  | 1 => .lsr
  | 2 => .asr
  | _ => .ror

def ShiftType.bits : ShiftType → BitVec 2
  | .lsl => 0b00#2
  | .lsr => 0b01#2
  | .asr => 0b10#2
  | .ror => 0b11#2

/-- The FLUSH types by number (R106). -/
def FlushType.ofBits (b : BitVec 2) : FlushType :=
  match b.toNat with
  | 0 => .data
  | 1 => .inst
  | 2 => .dtlb
  | _ => .itlb

def FlushType.bits : FlushType → BitVec 2
  | .data => 0b00#2
  | .inst => 0b01#2
  | .dtlb => 0b10#2
  | .itlb => 0b11#2

/-- The word is a Long form: `inst[28:14]` = `100000000000000` (R94, 40_packet_execution R123). -/
def isLongWord (w : Word) : Bool := field 14 15 w == 0b100000000000000#15

/-- Compare type, `inst[9:7]` (R103), Short format (R85). -/
def decodeCompareShort (w : Word) : Except DecodeError Instr :=
  let p := decodePred w
  let pd := field 5 2 w
  let rs := field 0 5 w
  let imm := field 18 10 w
  let rot := field 14 4 w
  match (field 7 3 w).toNat with
  | 0 => .ok (.cmpltuShort p imm rot pd rs)
  | 1 => .ok (.cmpleuShort p imm rot pd rs)
  | 2 => .ok (.cmpeqShort p imm rot pd rs)
  | 4 => .ok (.cmpltsShort p imm rot pd rs)
  | 5 => .ok (.cmplesShort p imm rot pd rs)
  | 6 => .ok (.cmpbsShort p imm rot pd rs)
  | 7 => .ok (.cmpbcShort p imm rot pd rs)
  | _ => .error .unassignedCompareType

/-- Compare type, `inst[9:7]` (R103), Register format (R87). -/
def decodeCompareReg (w : Word) : Except DecodeError Instr :=
  let p := decodePred w
  let pd := field 5 2 w
  let rs := field 0 5 w
  let amt := field 21 5 w
  let st := ShiftType.ofBits (field 19 2 w)
  let rt := field 14 5 w
  match (field 7 3 w).toNat with
  | 0 => .ok (.cmpltuReg p amt st rt pd rs)
  | 1 => .ok (.cmpleuReg p amt st rt pd rs)
  | 2 => .ok (.cmpeqReg p amt st rt pd rs)
  | 4 => .ok (.cmpltsReg p amt st rt pd rs)
  | 5 => .ok (.cmplesReg p amt st rt pd rs)
  | 6 => .ok (.cmpbsReg p amt st rt pd rs)
  | 7 => .ok (.cmpbcReg p amt st rt pd rs)
  | _ => .error .unassignedCompareType

/-- Compare type, `inst[9:7]` (R103), Long format (R94). -/
def decodeCompareLong (w imm : Word) : Except DecodeError Instr :=
  let p := decodePred w
  let pd := field 5 2 w
  let rs := field 0 5 w
  match (field 7 3 w).toNat with
  | 0 => .ok (.cmpltuLong p imm pd rs)
  | 1 => .ok (.cmpleuLong p imm pd rs)
  | 2 => .ok (.cmpeqLong p imm pd rs)
  | 4 => .ok (.cmpltsLong p imm pd rs)
  | 5 => .ok (.cmplesLong p imm pd rs)
  | 6 => .ok (.cmpbsLong p imm pd rs)
  | 7 => .ok (.cmpbcLong p imm pd rs)
  | _ => .error .unassignedCompareType

/-- ALU opcode, `inst[13:10]` (R102), Short formats (R83, R84). -/
def decodeAluShort (w : Word) : Except DecodeError Instr :=
  let p := decodePred w
  let imm := field 18 10 w
  let rot := field 14 4 w
  let rd := field 5 5 w
  let rs := field 0 5 w
  match (field 10 4 w).toNat with
  | 0 => .ok (.addShort p imm rot rd rs)
  | 1 => .ok (.andShort p imm rot rd rs)
  | 2 => .ok (.norShort p imm rot rd rs)
  | 3 => .ok (.orShort p imm rot rd rs)
  | 4 => .ok (.subShort p imm rot rd rs)
  | 5 => .ok (.rsbShort p imm rot rd rs)
  | 6 => .ok (.xorShort p imm rot rd rs)
  | 7 => decodeCompareShort w
  | 8 => .ok (.movShort p (field 0 5 w ++ field 18 10 w) rot rd)
  | 9 => .ok (.mvnShort p (field 0 5 w ++ field 18 10 w) rot rd)
  | 10 => .ok (.sxbShort p (field 0 5 w ++ field 18 10 w) rot rd)
  | 11 => .ok (.sxhShort p (field 0 5 w ++ field 18 10 w) rot rd)
  | _ => .error .unassignedAluOpcode

/-- ALU opcode, `inst[13:10]` (R102), Register format (R86). -/
def decodeAluReg (w : Word) : Except DecodeError Instr :=
  let p := decodePred w
  let amt := field 21 5 w
  let st := ShiftType.ofBits (field 19 2 w)
  let rt := field 14 5 w
  let rd := field 5 5 w
  let rs := field 0 5 w
  match (field 10 4 w).toNat with
  | 0 => .ok (.addReg p amt st rt rd rs)
  | 1 => .ok (.andReg p amt st rt rd rs)
  | 2 => .ok (.norReg p amt st rt rd rs)
  | 3 => .ok (.orReg p amt st rt rd rs)
  | 4 => .ok (.subReg p amt st rt rd rs)
  | 5 => .ok (.rsbReg p amt st rt rd rs)
  | 6 => .ok (.xorReg p amt st rt rd rs)
  | 7 => decodeCompareReg w
  | 8 => .ok (.movReg p amt st rt rd)
  | 9 => .ok (.mvnReg p amt st rt rd)
  | 10 => .ok (.sxbReg p amt st rt rd)
  | 11 => .ok (.sxhReg p amt st rt rd)
  | _ => .error .unassignedAluOpcode

/-- ALU opcode, `inst[13:10]` (R102), Long format (R94); `imm` is the word in the next slot. -/
def decodeAluLong (w imm : Word) : Except DecodeError Instr :=
  let p := decodePred w
  let rd := field 5 5 w
  let rs := field 0 5 w
  match (field 10 4 w).toNat with
  | 0 => .ok (.addLong p imm rd rs)
  | 1 => .ok (.andLong p imm rd rs)
  | 2 => .ok (.norLong p imm rd rs)
  | 3 => .ok (.orLong p imm rd rs)
  | 4 => .ok (.subLong p imm rd rs)
  | 5 => .ok (.rsbLong p imm rd rs)
  | 6 => .ok (.xorLong p imm rd rs)
  | 7 => decodeCompareLong w imm
  | 8 => .ok (.movLong p imm rd)
  | 9 => .ok (.mvnLong p imm rd)
  | 10 => .ok (.sxbLong p imm rd)
  | 11 => .ok (.sxhLong p imm rd)
  | _ => .error .unassignedAluOpcode

/-- ALU opcode in the Regsh format (R93): only the four one-operand instructions have it (R108). -/
def decodeRegsh (w : Word) : Except DecodeError Instr :=
  let p := decodePred w
  let st := ShiftType.ofBits (field 19 2 w)
  let rt := field 14 5 w
  let rd := field 5 5 w
  let rs := field 0 5 w
  match (field 10 4 w).toNat with
  | 8 => .ok (.movRegsh p st rt rd rs)
  | 9 => .ok (.mvnRegsh p st rt rd rs)
  | 10 => .ok (.sxbRegsh p st rt rd rs)
  | 11 => .ok (.sxhRegsh p st rt rd rs)
  | _ => .error .unassignedRegshOpcode

/-- The load offset, `inst[24:13]` (R99). -/
def loadOffset (w : Word) : BitVec 12 := field 13 12 w

/-- The store offset, in three parts with bit 13 the middle one, offset bit 5 (R100). -/
def storeOffset (w : Word) : BitVec 12 := field 19 6 w ++ field 13 1 w ++ field 5 5 w

/-- LSU opcode, `inst[12:10]` (R104), Load and Store formats (R88, R89). -/
def decodeLsu (w : Word) : Instr :=
  let p := decodePred w
  let rd := field 5 5 w
  let rt := field 14 5 w
  let rs := field 0 5 w
  match (field 10 3 w).toNat with
  | 0 => .lb p (loadOffset w) rd rs
  | 1 => .lh p (loadOffset w) rd rs
  | 2 => .lw p (loadOffset w) rd rs
  | 3 => .ll p (loadOffset w) rd rs
  | 4 => .sb p (storeOffset w) rt rs
  | 5 => .sh p (storeOffset w) rt rs
  | 6 => .sw p (storeOffset w) rt rs
  | _ => .sc p (storeOffset w) rt rs

/-- Control opcode, `inst[23:20]` (R105), Control format (R92). The opcodes of MFHI, MTC and MTHI are the
parameters of Config (log 9). -/
def decodeControl (w : Word) : Except DecodeError Instr :=
  let p := decodePred w
  let op := field 20 4 w
  let rt := field 14 5 w
  let rd := field 5 5 w
  let rs := field 0 5 w
  if op = 0b0001#4 then .ok (.breakpoint p)
  else if op = 0b0010#4 then .ok (.syscall p)
  else if op = 0b0011#4 then .ok (.fence p)
  else if op = 0b0100#4 then .ok (.eret p)
  else if op = 0b0101#4 then .ok (.flush p (FlushType.ofBits (field 10 2 w)) rs)
  else if op = 0b0110#4 then .ok (.mfc p rd (field 0 5 w))
  else if op = 0b1000#4 then .ok (if field 19 1 w = 0#1 then .mult p rt rd rs else .mults p rt rd rs)
  else if op = 0b1001#4 then .ok (.div p rt rd rs)
  else if op = Config.ctrlopMtc then .ok (.mtc p (field 5 5 w) rs)
  else if op = Config.ctrlopMfhi then .ok (.mfhi p rd)
  else if op = Config.ctrlopMthi then .ok (.mthi p rs)
  else .error .unassignedControlOpcode

/-- Branch immediate, `inst[25]` = 1 is BL (R90). -/
def decodeBranchImm (w : Word) : Instr :=
  let p := decodePred w
  if field 25 1 w = 0#1 then .bImm p (field 0 25 w) else .blImm p (field 0 25 w)

/-- Branch register, `inst[25]` = 1 is BL (R91). -/
def decodeBranchReg (w : Word) : Instr :=
  let p := decodePred w
  if field 25 1 w = 0#1 then .bReg p (field 5 20 w) (field 0 5 w)
  else .blReg p (field 5 20 w) (field 0 5 w)

/-- The format tree (R82). `next` is the word in the next slot, which only a Long form takes; a Long form
without one is rejected (R110). -/
def decodeWord (w : Word) (next : Option Word) : Except DecodeError Instr :=
  if field 28 1 w = 0#1 then decodeAluShort w
  else if field 26 2 w = 0b01#2 then decodeAluReg w
  else if field 26 2 w = 0b10#2 then .ok (decodeBranchImm w)
  else if field 26 2 w = 0b11#2 then .ok (decodeBranchReg w)
  else if field 25 1 w = 1#1 then .ok (decodeLsu w)
  else if field 24 1 w = 1#1 then decodeControl w
  else if field 21 3 w = 0b001#3 then decodeRegsh w
  else if field 21 3 w = 0b000#3 then
    if field 14 7 w = 0#7 then
      match next with
      | some imm => decodeAluLong w imm
      | none => .error .longFormInLastSlot
    else .error .nonzeroLongBits
  else .error .unassignedFormat

/-- Four bytes in memory order as a little-endian word (20_memory R43). -/
def wordOfBytes (b0 b1 b2 b3 : Byte) : Word := put 0 b0 ||| put 8 b1 ||| put 16 b2 ||| put 24 b3

/-- The bytes of a word in memory order (20_memory R43). -/
def bytesOfWord (w : Word) : List Byte := [field 0 8 w, field 8 8 w, field 16 8 w, field 24 8 w]

/-- Reads one instruction from a list of bytes and answers it with the bytes after it. -/
def decodeBytes (bs : List Byte) : Except DecodeError (Instr × List Byte) :=
  match bs with
  | b0 :: b1 :: b2 :: b3 :: rest =>
    let w := wordOfBytes b0 b1 b2 b3
    if isLongWord w then
      match rest with
      | c0 :: c1 :: c2 :: c3 :: rest' =>
        (decodeWord w (some (wordOfBytes c0 c1 c2 c3))).map fun i => (i, rest')
      | _ => .error .truncated
    else (decodeWord w none).map fun i => (i, rest)
  | _ => .error .truncated

/-- The instruction read from the bits `w` of an instruction, the first word the lowest 32 bits; bits from
`nbits` on are 0. -/
def decodeTableWord (nbits w : Nat) : Option Instr :=
  let v : BitVec 64 := BitVec.ofNat 64 (w % 2 ^ nbits)
  match decodeBytes (bytesOfWord (v.extractLsb' 0 32) ++ bytesOfWord (v.extractLsb' 32 32)) with
  | .ok (i, _) => some i
  | .error _ => none

/-- ALU and Compare Short words (R83, R84, R85): `low` holds bits 9:0. -/
def encodeShort (p : Pred) (imm : BitVec 10) (rot : BitVec 4) (op : BitVec 4) (low : Word) : Word :=
  encodePred p ||| put 18 imm ||| put 14 rot ||| put 10 op ||| low

/-- ALU and Compare Register words (R86, R87): `low` holds bits 9:0. -/
def encodeReg (p : Pred) (amt : BitVec 5) (st : ShiftType) (rt : Reg) (op : BitVec 4) (low : Word) : Word :=
  encodePred p ||| put 26 0b101#3 ||| put 21 amt ||| put 19 st.bits ||| put 14 rt ||| put 10 op ||| low

/-- ALU Regsh words (R93). -/
def encodeRegsh (p : Pred) (st : ShiftType) (rt : Reg) (op : BitVec 4) (rd rs : Reg) : Word :=
  encodePred p ||| put 21 0b10000001#8 ||| put 19 st.bits ||| put 14 rt ||| put 10 op ||| put 5 rd ||| put 0 rs

/-- ALU and Compare Long words with their operand word (R94): `low` holds bits 9:0. -/
def encodeLong (p : Pred) (op : BitVec 4) (low imm : Word) : List Word :=
  [encodePred p ||| put 28 1#1 ||| put 10 op ||| low, imm]

/-- Bits 9:0 of the two-operand ALU formats: Rd and Rs. -/
def lowRegs (rd rs : Reg) : Word := put 5 rd ||| put 0 rs

/-- Bits 9:0 of the compare formats: Ctype, Pd and Rs (R103). -/
def lowCompare (ctype : BitVec 3) (pd : PredReg) (rs : Reg) : Word := put 7 ctype ||| put 5 pd ||| put 0 rs

/-- Bits 9:0 of the one-operand Short format: Rd and the high five bits of the constant (R84). -/
def lowConst (rd : Reg) (imm : BitVec 15) : Word := put 5 rd ||| put 0 (imm.extractLsb' 10 5)

/-- Load words (R88). -/
def encodeLoad (p : Pred) (off : BitVec 12) (op : BitVec 3) (rd rs : Reg) : Word :=
  encodePred p ||| put 25 0b1001#4 ||| put 13 off ||| put 10 op ||| put 5 rd ||| put 0 rs

/-- Store words (R89, R100). -/
def encodeStore (p : Pred) (off : BitVec 12) (op : BitVec 3) (rt rs : Reg) : Word :=
  encodePred p ||| put 25 0b1001#4 ||| put 19 (off.extractLsb' 6 6) ||| put 14 rt |||
    put 13 (off.extractLsb' 5 1) ||| put 10 op ||| put 5 (off.extractLsb' 0 5) ||| put 0 rs

/-- Control words (R92): `low` holds the bits below 20; bits drawn `X` are written 0 (R107). -/
def encodeControl (p : Pred) (op : BitVec 4) (low : Word) : Word :=
  encodePred p ||| put 24 0b10001#5 ||| put 20 op ||| low

/-- The words of an instruction, in slot order (30_encoding R83 to R94, R102 to R106). -/
def encode : Instr → List Word
  | .addShort p imm rot rd rs => [encodeShort p imm rot 0b0000#4 (lowRegs rd rs)]
  | .addReg p amt st rt rd rs => [encodeReg p amt st rt 0b0000#4 (lowRegs rd rs)]
  | .addLong p imm rd rs => encodeLong p 0b0000#4 (lowRegs rd rs) imm
  | .andShort p imm rot rd rs => [encodeShort p imm rot 0b0001#4 (lowRegs rd rs)]
  | .andReg p amt st rt rd rs => [encodeReg p amt st rt 0b0001#4 (lowRegs rd rs)]
  | .andLong p imm rd rs => encodeLong p 0b0001#4 (lowRegs rd rs) imm
  | .norShort p imm rot rd rs => [encodeShort p imm rot 0b0010#4 (lowRegs rd rs)]
  | .norReg p amt st rt rd rs => [encodeReg p amt st rt 0b0010#4 (lowRegs rd rs)]
  | .norLong p imm rd rs => encodeLong p 0b0010#4 (lowRegs rd rs) imm
  | .orShort p imm rot rd rs => [encodeShort p imm rot 0b0011#4 (lowRegs rd rs)]
  | .orReg p amt st rt rd rs => [encodeReg p amt st rt 0b0011#4 (lowRegs rd rs)]
  | .orLong p imm rd rs => encodeLong p 0b0011#4 (lowRegs rd rs) imm
  | .subShort p imm rot rd rs => [encodeShort p imm rot 0b0100#4 (lowRegs rd rs)]
  | .subReg p amt st rt rd rs => [encodeReg p amt st rt 0b0100#4 (lowRegs rd rs)]
  | .subLong p imm rd rs => encodeLong p 0b0100#4 (lowRegs rd rs) imm
  | .rsbShort p imm rot rd rs => [encodeShort p imm rot 0b0101#4 (lowRegs rd rs)]
  | .rsbReg p amt st rt rd rs => [encodeReg p amt st rt 0b0101#4 (lowRegs rd rs)]
  | .rsbLong p imm rd rs => encodeLong p 0b0101#4 (lowRegs rd rs) imm
  | .xorShort p imm rot rd rs => [encodeShort p imm rot 0b0110#4 (lowRegs rd rs)]
  | .xorReg p amt st rt rd rs => [encodeReg p amt st rt 0b0110#4 (lowRegs rd rs)]
  | .xorLong p imm rd rs => encodeLong p 0b0110#4 (lowRegs rd rs) imm
  | .movShort p imm rot rd => [encodeShort p (imm.extractLsb' 0 10) rot 0b1000#4 (lowConst rd imm)]
  | .movReg p amt st rt rd => [encodeReg p amt st rt 0b1000#4 (lowRegs rd 0#5)]
  | .movRegsh p st rt rd rs => [encodeRegsh p st rt 0b1000#4 rd rs]
  | .movLong p imm rd => encodeLong p 0b1000#4 (lowRegs rd 0#5) imm
  | .mvnShort p imm rot rd => [encodeShort p (imm.extractLsb' 0 10) rot 0b1001#4 (lowConst rd imm)]
  | .mvnReg p amt st rt rd => [encodeReg p amt st rt 0b1001#4 (lowRegs rd 0#5)]
  | .mvnRegsh p st rt rd rs => [encodeRegsh p st rt 0b1001#4 rd rs]
  | .mvnLong p imm rd => encodeLong p 0b1001#4 (lowRegs rd 0#5) imm
  | .sxbShort p imm rot rd => [encodeShort p (imm.extractLsb' 0 10) rot 0b1010#4 (lowConst rd imm)]
  | .sxbReg p amt st rt rd => [encodeReg p amt st rt 0b1010#4 (lowRegs rd 0#5)]
  | .sxbRegsh p st rt rd rs => [encodeRegsh p st rt 0b1010#4 rd rs]
  | .sxbLong p imm rd => encodeLong p 0b1010#4 (lowRegs rd 0#5) imm
  | .sxhShort p imm rot rd => [encodeShort p (imm.extractLsb' 0 10) rot 0b1011#4 (lowConst rd imm)]
  | .sxhReg p amt st rt rd => [encodeReg p amt st rt 0b1011#4 (lowRegs rd 0#5)]
  | .sxhRegsh p st rt rd rs => [encodeRegsh p st rt 0b1011#4 rd rs]
  | .sxhLong p imm rd => encodeLong p 0b1011#4 (lowRegs rd 0#5) imm
  | .cmpltuShort p imm rot pd rs => [encodeShort p imm rot 0b0111#4 (lowCompare 0b000#3 pd rs)]
  | .cmpltuReg p amt st rt pd rs => [encodeReg p amt st rt 0b0111#4 (lowCompare 0b000#3 pd rs)]
  | .cmpltuLong p imm pd rs => encodeLong p 0b0111#4 (lowCompare 0b000#3 pd rs) imm
  | .cmpleuShort p imm rot pd rs => [encodeShort p imm rot 0b0111#4 (lowCompare 0b001#3 pd rs)]
  | .cmpleuReg p amt st rt pd rs => [encodeReg p amt st rt 0b0111#4 (lowCompare 0b001#3 pd rs)]
  | .cmpleuLong p imm pd rs => encodeLong p 0b0111#4 (lowCompare 0b001#3 pd rs) imm
  | .cmpeqShort p imm rot pd rs => [encodeShort p imm rot 0b0111#4 (lowCompare 0b010#3 pd rs)]
  | .cmpeqReg p amt st rt pd rs => [encodeReg p amt st rt 0b0111#4 (lowCompare 0b010#3 pd rs)]
  | .cmpeqLong p imm pd rs => encodeLong p 0b0111#4 (lowCompare 0b010#3 pd rs) imm
  | .cmpltsShort p imm rot pd rs => [encodeShort p imm rot 0b0111#4 (lowCompare 0b100#3 pd rs)]
  | .cmpltsReg p amt st rt pd rs => [encodeReg p amt st rt 0b0111#4 (lowCompare 0b100#3 pd rs)]
  | .cmpltsLong p imm pd rs => encodeLong p 0b0111#4 (lowCompare 0b100#3 pd rs) imm
  | .cmplesShort p imm rot pd rs => [encodeShort p imm rot 0b0111#4 (lowCompare 0b101#3 pd rs)]
  | .cmplesReg p amt st rt pd rs => [encodeReg p amt st rt 0b0111#4 (lowCompare 0b101#3 pd rs)]
  | .cmplesLong p imm pd rs => encodeLong p 0b0111#4 (lowCompare 0b101#3 pd rs) imm
  | .cmpbsShort p imm rot pd rs => [encodeShort p imm rot 0b0111#4 (lowCompare 0b110#3 pd rs)]
  | .cmpbsReg p amt st rt pd rs => [encodeReg p amt st rt 0b0111#4 (lowCompare 0b110#3 pd rs)]
  | .cmpbsLong p imm pd rs => encodeLong p 0b0111#4 (lowCompare 0b110#3 pd rs) imm
  | .cmpbcShort p imm rot pd rs => [encodeShort p imm rot 0b0111#4 (lowCompare 0b111#3 pd rs)]
  | .cmpbcReg p amt st rt pd rs => [encodeReg p amt st rt 0b0111#4 (lowCompare 0b111#3 pd rs)]
  | .cmpbcLong p imm pd rs => encodeLong p 0b0111#4 (lowCompare 0b111#3 pd rs) imm
  | .bImm p off => [encodePred p ||| put 26 0b110#3 ||| put 25 0#1 ||| put 0 off]
  | .bReg p off rs => [encodePred p ||| put 26 0b111#3 ||| put 25 0#1 ||| put 5 off ||| put 0 rs]
  | .blImm p off => [encodePred p ||| put 26 0b110#3 ||| put 25 1#1 ||| put 0 off]
  | .blReg p off rs => [encodePred p ||| put 26 0b111#3 ||| put 25 1#1 ||| put 5 off ||| put 0 rs]
  | .lb p off rd rs => [encodeLoad p off 0b000#3 rd rs]
  | .lh p off rd rs => [encodeLoad p off 0b001#3 rd rs]
  | .lw p off rd rs => [encodeLoad p off 0b010#3 rd rs]
  | .ll p off rd rs => [encodeLoad p off 0b011#3 rd rs]
  | .sb p off rt rs => [encodeStore p off 0b100#3 rt rs]
  | .sh p off rt rs => [encodeStore p off 0b101#3 rt rs]
  | .sw p off rt rs => [encodeStore p off 0b110#3 rt rs]
  | .sc p off rt rs => [encodeStore p off 0b111#3 rt rs]
  | .breakpoint p => [encodeControl p 0b0001#4 0#32]
  | .syscall p => [encodeControl p 0b0010#4 0#32]
  | .fence p => [encodeControl p 0b0011#4 0#32]
  | .eret p => [encodeControl p 0b0100#4 0#32]
  | .flush p t rs => [encodeControl p 0b0101#4 (put 10 t.bits ||| put 0 rs)]
  | .mfc p rd cprs => [encodeControl p 0b0110#4 (put 5 rd ||| put 0 cprs)]
  | .mtc p cprd rs => [encodeControl p Config.ctrlopMtc (put 5 cprd ||| put 0 rs)]
  | .mfhi p rd => [encodeControl p Config.ctrlopMfhi (put 5 rd)]
  | .mthi p rs => [encodeControl p Config.ctrlopMthi (put 0 rs)]
  | .mult p rt rd rs => [encodeControl p 0b1000#4 (put 19 0#1 ||| put 14 rt ||| put 5 rd ||| put 0 rs)]
  | .mults p rt rd rs => [encodeControl p 0b1000#4 (put 19 1#1 ||| put 14 rt ||| put 5 rd ||| put 0 rs)]
  | .div p rt rd rs => [encodeControl p 0b1001#4 (put 14 rt ||| put 5 rd ||| put 0 rs)]

/-- The bytes of an instruction in memory order. -/
def encodeBytes (i : Instr) : List Byte := (encode i).flatMap bytesOfWord

end Sys2Proof
end

