-- ==== Sys2Proof/Machine/State.lean ====
section
/-! DEFINITION. The state of OSOROM (10_state R36) as plain data, the reasons a step can stop, and the state
after reset (70_reset R300, R301). -/

namespace Sys2Proof.Machine

/-- Physical memory as (address, byte) pairs with strictly rising addresses; an address that is not listed has
never been written (log 6). -/
abbrev Memory := List Host.Cell

/-- The two modes (10_state R17). -/
inductive Mode where
  | user | kernel
deriving DecidableEq, Repr

/-- The four interrupt sources (10_state R26). -/
inductive IrqSource where
  | timer | usb | framebuffer | sdCard
deriving DecidableEq, Repr

/-- A translation of the 4 KB page `vpn`: the physical page and the G, K, W bits combined over the two levels
(20_memory R54, R55). -/
structure TlbEntry where
  vpn : BitVec 20
  ppn : BitVec 17
  g : Bool
  k : Bool
  w : Bool
deriving DecidableEq, Repr

/-- The byte that the L2 cache, which DMA peripherals read and write, holds where the L1 data cache holds another
one (20_memory R67, R68, log 22). -/
inductive L2Copy where
  /-- The core has stored a newer byte that is not yet written back; `none`: the L2 byte has never been written. -/
  | behind (old : Option Byte)
  /-- A DMA peripheral has written a newer byte than the clean L1 line holds. -/
  | ahead (new : Byte)
deriving DecidableEq, Repr

/-- The L2 byte at physical address `addr`. -/
structure L2Byte where
  addr : Nat
  copy : L2Copy
deriving DecidableEq, Repr

/-- An older value of an aligned word that the L1 instruction cache may still hold; `word` is the word's physical
address divided by 4 (20_memory R66, 93 U27, log 16). -/
structure OldWord where
  word : Nat
  value : Word
deriving DecidableEq, Repr

/-- What FLUSH removes (45_control R234, R235), and what the environment may drop silently (40_packet_execution R132):
a cache line, by a physical address in it, or a TLB entry, by its virtual page. -/
inductive Flush where
  | data (pa : Nat)
  | inst (pa : Nat)
  | dtlb (vpn : BitVec 20)
  | itlb (vpn : BitVec 20)
deriving DecidableEq, Repr

/-- The width of a data access (20_memory R42). -/
inductive Size where
  | byte | half | word
deriving DecidableEq, Repr

/-- A write of memory by a DMA peripheral, at the L2 cache (20_memory R68): the `unit`-th aligned unit of its size
takes the low bytes of `value`. `held` says that the L1 data cache holds the word and keeps its older bytes. -/
structure DmaWrite where
  unit : Nat
  size : Size
  value : Word
  held : Bool
deriving DecidableEq, Repr

/-- What the environment may do between two steps besides interrupt requests (40_packet_execution R132 (b), (c)). -/
inductive EnvAction where
  | write (w : DmaWrite)
  | drop (f : Flush)
deriving DecidableEq, Repr

/-- What the environment does before one step: the request lines `irq(0..3)` as bits 0 to 3, the source it delivers,
if any (60_exceptions R275, log 21), and its DMA writes and silent drops in order (log 22). -/
structure Input where
  irq : BitVec 4
  serve : Option IrqSource
  acts : List EnvAction
deriving DecidableEq, Repr

/-- The whole state of the machine. -/
structure State where
  /-- R0 to R31 (10_state R10). -/
  regs : Vector Word 32
  /-- The address of the packet to execute (R12). -/
  pc : Word
  /-- The writable predicate registers (R13); P3 is constant (R14). -/
  p0 : Bool
  p1 : Bool
  p2 : Bool
  /-- The multiply/divide overflow register (R15). -/
  hi : Word
  /-- The link bit (R16). -/
  link : Bool
  /-- The mode flag (R17). -/
  mode : Mode
  /-- The coprocessor registers (R18 to R29). -/
  pflags : Word
  ptb : Word
  eha : Word
  epc : Word
  ec0 : Word
  ec1 : Word
  ec2 : Word
  ec3 : Word
  ea0 : Word
  ea1 : Word
  sp0 : Word
  sp1 : Word
  sp2 : Word
  sp3 : Word
  /-- Physical memory as the core's data accesses see it (R37). -/
  mem : Memory
  /-- The entries of the instruction TLB, at most one for a page (R31, log 13). -/
  itlb : List TlbEntry
  /-- The entries of the data TLB, at most one for a page (R31, log 13). -/
  dtlb : List TlbEntry
  /-- The bytes that the L2 cache holds otherwise than `mem`, at most one for an address (R32, log 22). -/
  l2 : List L2Byte
  /-- Older words that the L1 instruction cache may still hold (R32, log 16). -/
  l1i : List OldWord
  /-- The environment's actions before the coming steps, the next first (R33, 40_packet_execution R132, logs 21, 22). -/
  inputs : List Input
  /-- The model's own field: an MTC has written EHA (70_reset R301, 93 U16, log 5). -/
  ehaWritten : Bool
  /-- The model's own field: the number of packets run, from which free values are drawn (log 26). -/
  draw : Nat
deriving DecidableEq, Repr

/-- Why the machine stops with a fault. -/
inductive Fault where
  /-- Raised by the fetch when `pc` is not a multiple of 16, which no run reaches (10_state R12, 44_branch R224).
  Safe: the spec gives such a state no behaviour (log 24). -/
  | misalignedPc
  /-- Raised by trap entry, for an exception or an interrupt, while no MTC has written EHA: the end of defined
  behaviour (70_reset R301, 93 U16 "stuck"). Safe: the spec gives no next state (log 5). -/
  | ehaNeverWritten
deriving DecidableEq, Repr

/-- Why the model gives no meaning. -/
inductive Refusal where
  /-- Raised by an arm of exec whose instruction is not modelled; no arm does so. Safe. -/
  | notModelled (mnemonic : String)
  /-- Raised by MFC and MTC in kernel mode for a number that names no coprocessor register
  (10_state R19, 93 U8). Safe: the spec says the model refuses it (log 20). -/
  | unlistedCoprocessorRegister (number : BitVec 5)
  /-- Raised when a packet that no exception cancels both sets and clears the link bit (LL with SC, or LL with
  ERET; 43_loadstore R211, 93 U12). Safe: the spec says the model refuses it (log 19). -/
  | linkConflict
deriving DecidableEq, Repr

/-- The machine right after reset (70_reset R300): kernel mode, PFLAGS 0, link 0, TLBs empty, `pc` at RESET_PC.
Every register for which the spec states no reset value is 0, no cache holds an older value, and the environment does
nothing (DESIGN CHOICE, unsafe; logs 2 to 5, 16, 21, 22). -/
def State.reset : State where
  regs := Vector.replicate 32 0#32
  pc := Config.resetPc
  p0 := false
  p1 := false
  p2 := false
  hi := 0#32
  link := false
  mode := .kernel
  pflags := 0#32
  ptb := 0#32
  eha := 0#32
  epc := 0#32
  ec0 := 0#32
  ec1 := 0#32
  ec2 := 0#32
  ec3 := 0#32
  ea0 := 0#32
  ea1 := 0#32
  sp0 := 0#32
  sp1 := 0#32
  sp2 := 0#32
  sp3 := 0#32
  mem := []
  itlb := []
  dtlb := []
  l2 := []
  l1i := []
  inputs := []
  ehaWritten := false
  draw := 0

end Sys2Proof.Machine
end

