-- ==== Sys2Proof/Machine/Ops.lean ====
section
/-! DEFINITION. The named operations over registers, memory, caches, translation, trap entry and trap return.
Every meaning reads and writes the state through these. -/

namespace Sys2Proof.Machine

/-- The meaning of one step or one instruction: a next state, a fault or a refusal. -/
abbrev Result := Host.Outcome State Fault Refusal

-- Registers ----------------------------------------------------------------------------------------------------

/-- `x[r]` (00_scope R5, 10_state R10): no register is hard-wired. -/
def State.reg (s : State) (r : Reg) : Word := s.regs.get r.toFin

/-- `x[r] <- v`. -/
def State.setReg (s : State) (r : Reg) (v : Word) : State :=
  { s with regs := s.regs.set r.toNat v r.isLt }

/-- `p[n]`; P3 reads 1 (10_state R14). -/
def State.pred (s : State) (n : PredReg) : Bool :=
  match n.toNat with
  | 0 => s.p0
  | 1 => s.p1
  | 2 => s.p2
  | _ => true

/-- `p[n] <- b`; a write to P3 is dropped (10_state R14). -/
def State.setPred (s : State) (n : PredReg) (b : Bool) : State :=
  match n.toNat with
  | 0 => { s with p0 := b }
  | 1 => { s with p1 := b }
  | 2 => { s with p2 := b }
  | _ => s

/-- The predicate of an instruction holds: `p[n] XOR invert` (40_packet_execution R121). -/
def State.predTrue (s : State) (p : Pred) : Bool := s.pred p.reg ^^ p.inv

/-- PFLAGS bit 0, interrupts enabled (10_state R20). -/
def State.interruptsEnabled (s : State) : Bool := s.pflags.getLsbD 0

/-- PFLAGS bit 1, paging enabled (10_state R20). -/
def State.paging (s : State) : Bool := s.pflags.getLsbD 1

/-- The bits of PFLAGS that exist; the others read 0 and drop writes (10_state R20). -/
def pflagsMask : Word := 3#32

/-- `v` with bit 0 replaced by `b`. -/
def withBit0 (v : Word) (b : Bool) : Word := (v &&& ~~~1#32) ||| put 0 (BitVec.ofBool b)

/-- `v` with its low 4 bits cleared: the packet address in `v` (10_state R22, 44_branch R220). -/
def packetAddress (v : Word) : Word := v &&& 0xFFFFFFF0#32

/-- `cp[c]` as MFC reads it (45_control R238); reading has no side effect. -/
def State.readCp (s : State) (c : CpReg) : Word :=
  match c with
  | .pflags => s.pflags &&& pflagsMask
  | .ptb => s.ptb
  | .eha => s.eha
  | .epc => s.epc
  | .ec0 => s.ec0
  | .ec1 => s.ec1
  | .ec2 => s.ec2
  | .ec3 => s.ec3
  | .ea0 => s.ea0
  | .ea1 => s.ea1
  | .sp0 => s.sp0
  | .sp1 => s.sp1
  | .sp2 => s.sp2
  | .sp3 => s.sp3

/-- `cp[c] <- v` as MTC writes it, with the side effects of 45_control R245: PFLAGS keeps bits 1:0, PTB drops
every entry not marked global from both TLBs. -/
def State.writeCp (s : State) (c : CpReg) (v : Word) : State :=
  match c with
  | .pflags => { s with pflags := v &&& pflagsMask }
  | .ptb => { s with ptb := v, itlb := s.itlb.filter (·.g), dtlb := s.dtlb.filter (·.g) }
  | .eha => { s with eha := v, ehaWritten := true }
  | .epc => { s with epc := v }
  | .ec0 => { s with ec0 := v }
  | .ec1 => { s with ec1 := v }
  | .ec2 => { s with ec2 := v }
  | .ec3 => { s with ec3 := v }
  | .ea0 => { s with ea0 := v }
  | .ea1 => { s with ea1 := v }
  | .sp0 => { s with sp0 := v }
  | .sp1 => { s with sp1 := v }
  | .sp2 => { s with sp2 := v }
  | .sp3 => { s with sp3 := v }

-- Memory -------------------------------------------------------------------------------------------------------

/-- The number of bytes of an access (20_memory R42). -/
def Size.bytes : Size → Nat
  | .byte => 1
  | .half => 2
  | .word => 4

/-- The byte last written at `a`; `none` if nothing has written it. -/
def Memory.get? : Memory → Nat → Option Byte
  | [], _ => none
  | (k, v) :: m, a => if a = k then some v else Memory.get? m a

/-- Writes the byte at `a`, keeping the addresses strictly rising. -/
def Memory.set : Memory → Nat → Byte → Memory
  | [], a, b => [(a, b)]
  | (k, v) :: m, a, b =>
    if a < k then (a, b) :: (k, v) :: m
    else if a = k then (a, b) :: m
    else (k, v) :: Memory.set m a b

/-- The addresses rise strictly. -/
def Memory.rising : Memory → Bool
  | [] => true
  | (k, _) :: m => m.all (fun c => k < c.1) && Memory.rising m

/-- The canonical form: strictly rising addresses, all of them physical addresses. -/
def Memory.wf (m : Memory) : Bool := Memory.rising m && m.all (fun c => c.1 < Config.physBytes)

/-- A byte of RAM as the core reads it: the last one written, or a free value if nothing has written it
(70_reset R301, 93 U16, log 6). -/
def State.memByte (s : State) (pa : Nat) : Byte := (Memory.get? s.mem pa).getD (Config.powerOnByte pa)

/-- A byte as a data read sees it; a device address answers any value (20_memory R49, log 8). -/
def State.loadByte (s : State) (pa : Nat) : Byte :=
  if Config.isDevice pa then Config.deviceByte s.draw pa else s.memByte pa

/-- `n` bytes from `pa` on, assembled little-endian (20_memory R43). -/
def assembleLE (byte : Nat → Byte) : Nat → Nat → Word
  | _, 0 => 0#32
  | pa, n + 1 => (byte pa).setWidth 32 ||| assembleLE byte (pa + 1) n <<< 8

/-- `n` bytes read little-endian and zero-extended (20_memory R45, R47). -/
def State.loadLE (s : State) (pa n : Nat) : Word := assembleLE s.loadByte pa n

-- Caches (20_memory R66 to R68, logs 16 and 22) -----------------------------------------------------------------------

/-- The byte that an `L2Copy` stands for. -/
def L2Copy.value : L2Copy → Option Byte
  | .behind old => old
  | .ahead new => some new

/-- What the L2 cache holds at `pa` if it is not what the core's data accesses see. -/
def State.l2Copy (s : State) (pa : Nat) : Option L2Copy := (s.l2.find? fun e => e.addr == pa).map (·.copy)

/-- The byte at `pa` in the L2 cache; `none` if nothing has written it. -/
def State.l2Get (s : State) (pa : Nat) : Option Byte :=
  match s.l2Copy pa with
  | some c => c.value
  | none => Memory.get? s.mem pa

/-- The byte at `pa` as a DMA peripheral reads it, at the L2 cache (R68). -/
def State.l2Byte (s : State) (pa : Nat) : Byte := (s.l2Get pa).getD (Config.powerOnByte pa)

/-- `n` bytes from `pa` on in the L2 cache, little-endian. -/
def State.l2LE (s : State) (pa n : Nat) : Word := assembleLE s.l2Byte pa n

/-- Records what the L2 cache holds at `pa`. -/
def setL2 (l : List L2Byte) (pa : Nat) (c : L2Copy) : List L2Byte :=
  { addr := pa, copy := c } :: l.filter fun e => !(e.addr == pa)

/-- The L1 data cache holds the aligned word `word`, with bytes that the L2 cache does not have. -/
def State.l1Holds (s : State) (word : Nat) : Bool := s.l2.any fun e => e.addr / 4 == word

/-- The L1 instruction cache may keep the values that the aligned word `word` has now, above and below the L1 data
cache (R66, log 16). -/
def State.noteOld (s : State) (word : Nat) : State :=
  { s with
    l1i := { word := word, value := s.l2LE (4 * word) 4 } :: { word := word, value := s.loadLE (4 * word) 4 } :: s.l1i }

/-- Writes one byte of RAM: the core's data accesses see it at once, the L2 cache keeps what it has (R60, R68). A
device write changes nothing of this state (93 U28, log 8). -/
def State.storeByte (s : State) (pa : Nat) (b : Byte) : State :=
  if Config.isDevice pa then s
  else { s with mem := Memory.set s.mem pa b, l2 := setL2 s.l2 pa (.behind (s.l2Get pa)) }

/-- Writes the low `n` bytes of `v` from `pa` on, little-endian (20_memory R46). -/
def State.storeLE (s : State) (pa : Nat) : Nat → Word → State
  | 0, _ => s
  | n + 1, v => (s.storeByte pa (v.setWidth 8)).storeLE (pa + 1) n (v >>> 8)

/-- `m` with the byte at `pa` that a DMA peripheral has written and the L1 data cache did not show. -/
def State.takeNewer (s : State) (m : Memory) (pa : Nat) : Memory :=
  match s.l2Copy pa with
  | some (.ahead b) => Memory.set m pa b
  | some (.behind _) => m
  | none => m

/-- The L1 data cache lets go of the aligned word that holds `pa`: the bytes the core stored are written out to the L2
cache, the others are read from it again (R67, R68). The L1 instruction cache may keep the older values.
DESIGN CHOICE, unsafe (logs 16 and 22): the unit is an aligned word, found by its physical address (log 30). -/
def State.flushDataLine (s : State) (pa : Nat) : State :=
  let w := pa / 4
  if s.l1Holds w then
    let t := s.noteOld w
    { t with
      mem := [4 * w, 4 * w + 1, 4 * w + 2, 4 * w + 3].foldl s.takeNewer s.mem
      l2 := s.l2.filter fun e => !(e.addr / 4 == w) }
  else s

/-- The L1 instruction cache lets go of the aligned word that holds `pa` (R67; DESIGN CHOICE, unsafe, logs 16 and
30). -/
def State.flushInstLine (s : State) (pa : Nat) : State :=
  { s with l1i := s.l1i.filter fun e => !(e.word == pa / 4) }

/-- The older values of an aligned word that a fetch may return: the L2 cache's, if the L1 data cache has another
one, and those the L1 instruction cache may hold (R66). -/
def State.fetchOlds (s : State) (word : Nat) : List Word :=
  (if s.l1Holds word then [s.l2LE (4 * word) 4] else []) ++ (s.l1i.filter fun e => e.word == word).map (·.value)

/-- An aligned word as the fetch sees it: the newest value, or any older one as a whole (R66, 93 U27, log 16). -/
def State.fetchWord (s : State) (word : Nat) : Word :=
  match s.fetchOlds word with
  | [] => s.loadLE (4 * word) 4
  | olds => olds.getD (Config.fetchPick s.draw word) (s.loadLE (4 * word) 4)

/-- A DMA peripheral that reads the `unit`-th aligned unit of `z` may see `v`: all of the unit as the L2 cache holds
it, or all of it as the L1 data cache would write it back (R48, R68, 93 U15; log 22). -/
def State.dmaMaySee (s : State) (unit : Nat) (z : Size) (v : Word) : Bool :=
  let pa := unit * z.bytes
  s.l2LE pa z.bytes == v || (s.flushDataLine pa).l2LE pa z.bytes == v

/-- A DMA peripheral writes one byte at the L2 cache; the core sees it unless the L1 data cache holds the word
(R60, R68). -/
def State.dmaByte (s : State) (held : Bool) (pa : Nat) (b : Byte) : State :=
  match s.l2Copy pa with
  | some (.behind _) => { s with l2 := setL2 s.l2 pa (.behind (some b)) }
  | some (.ahead _) => { s with l2 := setL2 s.l2 pa (.ahead b) }
  | none =>
    if held then { s with l2 := setL2 s.l2 pa (.ahead b) } else { s with mem := Memory.set s.mem pa b }

/-- A DMA peripheral writes the low `n` bytes of `v` from `pa` on. -/
def State.dmaBytes (s : State) (held : Bool) (pa : Nat) : Nat → Word → State
  | 0, _ => s
  | n + 1, v => (s.dmaByte held pa (v.setWidth 8)).dmaBytes held (pa + 1) n (v >>> 8)

/-- One DMA write, of RAM that exists (R132 (b), R68, log 22). -/
def State.dmaWrite (s : State) (w : DmaWrite) : State :=
  let pa := w.unit * w.size.bytes
  if Config.physValid pa w.size.bytes && !Config.isDevice pa then
    (s.noteOld (pa / 4)).dmaBytes (w.held || s.l1Holds (pa / 4)) pa w.size.bytes w.value
  else s

-- Translation (20_memory R51 to R59) ------------------------------------------------------------------------------

/-- What an access does with the mapping (R56). -/
inductive AccessKind where
  | fetch | read | write
deriving DecidableEq, Repr

/-- The result of a page walk (R55). -/
inductive WalkResult where
  | entry (e : TlbEntry)
  | pageFault
  | invalidPhys
deriving DecidableEq, Repr

/-- The result of a translation: a physical address, or the exception it raises (R57). -/
inductive Translated where
  | ok (pa : Nat)
  | pageFault
  | invalidPhys
deriving DecidableEq, Repr

/-- A translation with the entry that it adds to the TLB. -/
structure Translation where
  fill : Option TlbEntry
  result : Translated
deriving DecidableEq, Repr

/-- The virtual page number, `va[31:12]` (R58). -/
def vpnOf (va : Word) : BitVec 20 := field 12 20 va

/-- PhysRead32: an untranslated little-endian word (R55). -/
def State.physRead32 (s : State) (pa : Nat) : Word := s.loadLE pa 4

/-- The entry that a present PDE and a present PTE give a page (R55): K and G from either level, W from both. -/
def entryOf (va pde pte : Word) : TlbEntry where
  vpn := vpnOf va
  ppn := field 12 17 pte
  g := pde.getLsbD 3 || pte.getLsbD 3
  k := pde.getLsbD 2 || pte.getLsbD 2
  w := pde.getLsbD 1 && pte.getLsbD 1

/-- The physical address of the page directory entry for `va` (R52, R53, R55). -/
def State.pdeAddress (s : State) (va : Word) : Nat :=
  (s.ptb &&& 0xFFFFF000#32).toNat + 4 * (field 22 10 va).toNat

/-- The physical address of the page table entry for `va` under `pde` (R53, R54, R55). -/
def pteAddress (pde va : Word) : Nat :=
  (field 12 17 pde).toNat * 4096 + 4 * (field 12 10 va).toNat

/-- The page walk (R55). -/
def State.walk (s : State) (va : Word) : WalkResult :=
  if !Config.physValid (s.pdeAddress va) 4 then .invalidPhys
  else
    let pde := s.physRead32 (s.pdeAddress va)
    if !pde.getLsbD 0 then .pageFault
    else if !Config.physValid (pteAddress pde va) 4 then .invalidPhys
    else
      let pte := s.physRead32 (pteAddress pde va)
      if !pte.getLsbD 0 then .pageFault else .entry (entryOf va pde pte)

/-- The entry that a walk found. -/
def WalkResult.entry? : WalkResult → Option TlbEntry
  | .entry e => some e
  | .pageFault => none
  | .invalidPhys => none

/-- What a translation uses for a page, and the entry it adds to the TLB. -/
structure Lookup where
  result : WalkResult
  fill : Option TlbEntry
deriving DecidableEq, Repr

/-- Hit or walk (R58): without an entry for the page the walk decides, and its entry is always added, where R58 says that
it may be (DEDUCED, log 13). With one, the free `hit` says whether it is used; where it is not, the free `keep` says
whether the walk's entry replaces it. Where it agrees with the walk there is nothing to choose (log 13). -/
def hitOrWalk (tlb : List TlbEntry) (vpn : BitVec 20) (w : WalkResult) (hit keep : Bool) : Lookup :=
  match tlb.find? fun e => e.vpn == vpn with
  | none => { result := w, fill := w.entry? }
  | some e =>
    if w = .entry e then { result := w, fill := none }
    else if hit then { result := .entry e, fill := none }
    else { result := w, fill := if keep then w.entry? else none }

/-- The permission check (R56): K bars user mode from every kind of access, W bars writes in both modes. -/
def TlbEntry.permits (e : TlbEntry) (kind : AccessKind) (mode : Mode) : Bool :=
  !(e.k && decide (mode = .user)) && !(decide (kind = .write) && !e.w)

/-- The physical address of `va` in the page of `e` (R59). -/
def TlbEntry.physAddress (e : TlbEntry) (va : Word) : Nat := e.ppn.toNat * 4096 + (field 0 12 va).toNat

/-- The TLB an access uses (R59): the fetch the instruction TLB, data accesses and FLUSH the data TLB. -/
def State.tlbFor (s : State) (kind : AccessKind) : List TlbEntry :=
  match kind with
  | .fetch => s.itlb
  | .read => s.dtlb
  | .write => s.dtlb

/-- Translation up to the page (R59 without its last test). `port` numbers the translations of one packet:
0 the fetch, 1 + n the data access of lane n. -/
def State.translatePage (s : State) (kind : AccessKind) (port : Nat) (va : Word) : Translation :=
  if !s.paging then { fill := none, result := .ok va.toNat }
  else
    let l := hitOrWalk (s.tlbFor kind) (vpnOf va) (s.walk va) (Config.tlbHit s.draw port) (Config.tlbKeep s.draw port)
    match l.result with
    | .pageFault => { fill := l.fill, result := .pageFault }
    | .invalidPhys => { fill := l.fill, result := .invalidPhys }
    | .entry e => { fill := l.fill, result := if e.permits kind s.mode then .ok (e.physAddress va) else .pageFault }

/-- Translate(va, kind, lane) for an access of `n` bytes (R59): the last test is that the address is valid. -/
def State.translate (s : State) (kind : AccessKind) (port : Nat) (va : Word) (n : Nat) : Translation :=
  let t := s.translatePage kind port va
  match t.result with
  | .ok pa => if Config.physValid pa n then t else { t with result := .invalidPhys }
  | .pageFault => t
  | .invalidPhys => t

/-- Adds an entry to a TLB, in the place of any entry of the same page (R58). -/
def addEntry (tlb : List TlbEntry) (fill : Option TlbEntry) : List TlbEntry :=
  match fill with
  | none => tlb
  | some e => e :: tlb.filter fun f => !(f.vpn == e.vpn)

/-- FLUSH DTLB: removes the translations of one page from the data TLB, global or not (45_control R235). -/
def State.flushDtlb (s : State) (vpn : BitVec 20) : State :=
  { s with dtlb := s.dtlb.filter fun e => !(e.vpn == vpn) }

/-- FLUSH ITLB: removes the translations of one page from the instruction TLB (45_control R235). -/
def State.flushItlb (s : State) (vpn : BitVec 20) : State :=
  { s with itlb := s.itlb.filter fun e => !(e.vpn == vpn) }

/-- FLUSH of one line or entry (45_control R234), and the silent drop of one by the environment
(40_packet_execution R132 (c)). -/
def State.flush (s : State) (f : Flush) : State :=
  match f with
  | .data pa => s.flushDataLine pa
  | .inst pa => s.flushInstLine pa
  | .dtlb vpn => s.flushDtlb vpn
  | .itlb vpn => s.flushItlb vpn

-- Traps (60_exceptions R260 to R276) ------------------------------------------------------------------------------

/-- The exceptions of an instruction or its fetch (10_state R25). -/
inductive Exc where
  | fetchPageFault | illegalInstruction | duplicateDestination | dataPageFault | invalidPhysicalAddress
  | divideByZero | syscall | breakpoint
deriving DecidableEq, Repr

/-- EXNTYPE, the 5-bit exception code (10_state R25). -/
def Exc.code : Exc → BitVec 5
  | .fetchPageFault => 1#5
  | .illegalInstruction => 2#5
  | .duplicateDestination => 3#5
  | .dataPageFault => 4#5
  | .invalidPhysicalAddress => 5#5
  | .divideByZero => 6#5
  | .syscall => 8#5
  | .breakpoint => 9#5

/-- INT, the 2-bit interrupt code (10_state R26), also the number of its request line. -/
def IrqSource.code : IrqSource → BitVec 2
  | .timer => 0b00#2
  | .usb => 0b01#2
  | .framebuffer => 0b10#2
  | .sdCard => 0b11#2

/-- What one lane reports on an exception: its code and, for a data access or FLUSH, the address. -/
structure LaneReport where
  exc : Option Exc
  ea : Option Word
deriving DecidableEq, Repr

/-- The lane raised nothing. -/
def LaneReport.none : LaneReport := { exc := Option.none, ea := Option.none }

/-- EC of a lane on an exception (60_exceptions R271): the code with INT and RESERVED 0, or 0 for No Error. -/
def LaneReport.ec (r : LaneReport) : Word :=
  match r.exc with
  | some e => put 0 e.code
  | Option.none => 0#32

/-- The mode as EPC[M] records it (10_state R17, R23). -/
def Mode.bit : Mode → Bool
  | .user => false
  | .kernel => true

/-- EPC as trap entry writes it: PC, RESV 0, IF, M (10_state R23, 60_exceptions R270). -/
def State.savedContext (s : State) : Word :=
  put 4 (field 4 28 s.pc) ||| put 1 (BitVec.ofBool s.interruptsEnabled) ||| put 0 (BitVec.ofBool s.mode.bit)

/-- Trap entry, the part common to exceptions and interrupts (60_exceptions R270). -/
def State.enterTrap (s : State) : State :=
  { s with
    epc := s.savedContext
    pflags := withBit0 s.pflags false
    mode := .kernel
    link := false
    pc := packetAddress s.eha }

/-- Trap entry for an exception with the reports of the four lanes (60_exceptions R270 to R272). -/
def State.takeException (s : State) (r0 r1 r2 r3 : LaneReport) : State :=
  { s.enterTrap with
    ec0 := r0.ec
    ec1 := r1.ec
    ec2 := r2.ec
    ec3 := r3.ec
    ea0 := r0.ea.getD s.ea0
    ea1 := r1.ea.getD s.ea1 }

/-- EC0 for an interrupt: INT and EXNTYPE = 7 (60_exceptions R267). -/
def IrqSource.ec (src : IrqSource) : Word := put 5 src.code ||| put 0 7#5

/-- Trap entry for an interrupt: of the EC registers only EC0 is written (60_exceptions R270). -/
def State.takeInterrupt (s : State) (src : IrqSource) : State := { s.enterTrap with ec0 := src.ec }

/-- The end of a trap: `t`, the state after trap entry, or the end of defined behaviour if no MTC has written EHA
(70_reset R301, 93 U16, log 5). -/
def State.trapTo (s t : State) : Result := if s.ehaWritten then .next t else .fault .ehaNeverWritten

/-- The mode that EPC[M] asks for (45_control R236). -/
def modeOfBit (b : Bool) : Mode := if b then .kernel else .user

/-- Return from a trap (45_control R236, 60_exceptions R276): mode from EPC[0], PFLAGS[0] from EPC[1], link
cleared; the return address is `packetAddress` of the EPC. -/
def State.returnFromTrap (s : State) (epc : Word) : State :=
  { s with
    mode := modeOfBit (epc.getLsbD 0)
    pflags := withBit0 s.pflags (epc.getLsbD 1)
    link := false }

-- The environment (60_exceptions R275, 40_packet_execution R132) ------------------------------------------------------

/-- The interrupt taken before this step: interrupts are enabled, and the environment delivers a source whose
request line is 1 (log 21). -/
def State.interrupt (s : State) : Option IrqSource :=
  match s.inputs with
  | [] => none
  | i :: _ => if s.interruptsEnabled then i.serve.filter (fun src => i.irq.getLsbD src.code.toNat) else none

/-- What the environment does before this step besides interrupts (40_packet_execution R132). -/
def State.acts (s : State) : List EnvAction :=
  match s.inputs with
  | [] => []
  | i :: _ => i.acts

/-- One action of the environment (R132 (b), (c)). -/
def State.act (s : State) (a : EnvAction) : State :=
  match a with
  | .write w => s.dmaWrite w
  | .drop f => s.flush f

/-- The state in which a step begins: the environment has acted, and its input for this step is used up. -/
def State.arrived (s : State) : State := { s.acts.foldl State.act s with inputs := s.inputs.tail }

/-- The next free values are drawn afresh (log 26). -/
def State.nextDraw (s : State) : State := { s with draw := s.draw + 1 }

end Sys2Proof.Machine
end

