-- ==== Sys2Proof/Machine/Operands.lean ====
section
/-! DEFINITION. Operand forms: the second operand of ALU and compare instructions (41_alu R150 to R155), load and
store addresses (43_loadstore R200 to R202) and branch targets (44_branch R220). -/

namespace Sys2Proof.Machine

/-- Shift(v, t, n) (41_alu R155). -/
def shift (v : Word) (t : ShiftType) (n : Nat) : Word :=
  match t with
  | .lsl => if n > 31 then 0#32 else v <<< n
  | .lsr => if n > 31 then 0#32 else v >>> n
  | .asr => if n > 31 then (if v.getLsbD 31 then 0xFFFFFFFF#32 else 0#32) else v.sshiftRight n
  | .ror => v.rotateRight (n % 32)

/-- OP2, Short format, two operands and compares: a zero-extended 10-bit constant rotated right by twice the
rotate field (R150). -/
def op2Short (imm : BitVec 10) (rot : BitVec 4) : Word := (imm.setWidth 32).rotateRight (2 * rot.toNat)

/-- OP2, Short format, one operand: the constant has 15 bits (R151). -/
def op2Short15 (imm : BitVec 15) (rot : BitVec 4) : Word := (imm.setWidth 32).rotateRight (2 * rot.toNat)

/-- OP2, Long format: the word in the next slot (R152). -/
def op2Long (imm : Word) : Word := imm

/-- OP2, Register format: `Rt` shifted by a 5-bit amount (R153). -/
def State.op2Reg (s : State) (amt : BitVec 5) (t : ShiftType) (rt : Reg) : Word :=
  shift (s.reg rt) t amt.toNat

/-- OP2, Regsh format: `Rt` shifted by the unsigned value of `Rs` (R154). -/
def State.op2Regsh (s : State) (t : ShiftType) (rt rs : Reg) : Word := shift (s.reg rt) t (s.reg rs).toNat

/-- The address an access uses: low bits are dropped, never checked (20_memory R44). -/
def Size.align (z : Size) (addr : Word) : Word :=
  match z with
  | .byte => addr
  | .half => addr &&& 0xFFFFFFFE#32
  | .word => addr &&& 0xFFFFFFFC#32

/-- The computed address of a load or store, base plus signed byte offset (43_loadstore R200, R201). -/
def State.address (s : State) (off : BitVec 12) (rs : Reg) : Word := s.reg rs + off.signExtend 32

/-- Branch target, immediate form: 25-bit packet offset from the packet's own address (44_branch R220). -/
def State.targetImm (s : State) (off : BitVec 25) : Word := s.pc + (off.signExtend 32 <<< 4)

/-- Branch target, register form: 20-bit packet offset from `Rs`, rounded down to a packet (44_branch R220). -/
def State.targetReg (s : State) (off : BitVec 20) (rs : Reg) : Word :=
  packetAddress (s.reg rs + (off.signExtend 32 <<< 4))

end Sys2Proof.Machine
end

