-- ==== Sys2Proof/Machine/Packet.lean ====
section
/-! DEFINITION. How the lanes of a packet run together (40_packet_execution R120 to R131): what one lane pends,
which lanes are live, misplaced, privileged or duplicate, and the trap or the common commit at the end.
A single instruction is the packet that holds it alone in slot 0 (`alone`, log 23). -/

namespace Sys2Proof.Machine

/-- One value for each slot, slot 0 first. -/
structure Packet (α : Type) where
  s0 : α
  s1 : α
  s2 : α
  s3 : α
deriving DecidableEq, Repr

/-- Applies a function to each slot with its number. -/
def Packet.mapLanes {α β : Type} (p : Packet α) (f : Lane → α → β) : Packet β :=
  { s0 := f 0 p.s0, s1 := f 1 p.s1, s2 := f 2 p.s2, s3 := f 3 p.s3 }

/-- The slots in order. -/
def Packet.toList {α : Type} (p : Packet α) : List α := [p.s0, p.s1, p.s2, p.s3]

-- What a lane pends ------------------------------------------------------------------------------------------------

/-- A load that commits with its packet: the register it writes, zero-extended, and the physical bytes it reads. -/
structure Load where
  rd : Reg
  pa : Nat
  size : Size
deriving DecidableEq, Repr

/-- A store that commits with its packet: the physical bytes it writes. -/
structure Store where
  pa : Nat
  size : Size
  value : Word
deriving DecidableEq, Repr

/-- The pending writes of one live instruction (40_packet_execution R120 part 5, R125). -/
structure Writes where
  /-- General register. -/
  reg : Option (Reg × Word) := none
  /-- Predicate register. -/
  pred : Option (PredReg × Bool) := none
  hi : Option Word := none
  link : Option Bool := none
  /-- Coprocessor register, by MTC. -/
  cp : Option (CpReg × Word) := none
  load : Option Load := none
  store : Option Store := none
  flush : Option Flush := none
  /-- ERET, with the EPC it returns by. -/
  ret : Option Word := none
  /-- The address of the next packet, if not the following one. -/
  target : Option Word := none
  /-- The entry that this instruction's translation adds to the data TLB. -/
  fill : Option TlbEntry := none
deriving DecidableEq, Repr

/-- What evaluating an instruction on the state before its packet gives. -/
inductive Effect where
  /-- The writes it pends. -/
  | writes (w : Writes)
  /-- An exception on its lane, with the address for EA if it is one of a data access or FLUSH. -/
  | raises (e : Exc) (ea : Option Word)
  /-- The model gives the instruction no meaning. -/
  | refuses (r : Refusal)
deriving DecidableEq, Repr

/-- A destination that Duplicate Destination compares (R127). -/
inductive Dest where
  | reg (r : Reg)
  | pred (n : PredReg)
deriving DecidableEq, Repr

/-- The predicate destination of a compare: writes to P3 are dropped and never collide (R127). -/
def predDest (n : PredReg) : Option Dest := if n = 3#2 then none else some (.pred n)

/-- An instruction as the packet runs it: predicate, type, privilege, destination, and its rule, a function of
the lane and of the state before the packet. -/
structure LaneOp where
  pred : Pred
  kind : Kind
  privileged : Bool := false
  dest : Option Dest := none
  effect : Lane → State → Effect

/-- A slot of a packet (R123): an operand (or nothing), a word that selects no instruction, or an instruction. -/
inductive Slot where
  | operand
  | undecodable (p : Pred)
  | op (o : LaneOp)

-- Commit -----------------------------------------------------------------------------------------------------------

def State.applyReg (s : State) (w : Option (Reg × Word)) : State :=
  match w with
  | none => s
  | some (r, v) => s.setReg r v

def State.applyPred (s : State) (w : Option (PredReg × Bool)) : State :=
  match w with
  | none => s
  | some (n, b) => s.setPred n b

def State.applyHi (s : State) (w : Option Word) : State :=
  match w with
  | none => s
  | some v => { s with hi := v }

def State.applyLink (s : State) (w : Option Bool) : State :=
  match w with
  | none => s
  | some b => { s with link := b }

def State.applyCp (s : State) (w : Option (CpReg × Word)) : State :=
  match w with
  | none => s
  | some (c, v) => s.writeCp c v

/-- A load's register write, zero-extended (20_memory R47). `commitOrder` applies it while memory is as it was before
the packet (R124), but for an overlapping store that goes first (20_memory R69). -/
def State.applyLoad (s : State) (w : Option Load) : State :=
  match w with
  | none => s
  | some l => s.setReg l.rd (s.loadLE l.pa l.size.bytes)

/-- A store's memory write (43_loadstore R210). -/
def State.applyStore (s : State) (w : Option Store) : State :=
  match w with
  | none => s
  | some t => s.storeLE t.pa t.size.bytes t.value

def State.applyFlush (s : State) (w : Option Flush) : State :=
  match w with
  | none => s
  | some f => s.flush f

def State.applyRet (s : State) (w : Option Word) : State :=
  match w with
  | none => s
  | some epc => s.returnFromTrap epc

/-- All pending writes of one lane but the TLB fill and the next packet's address. -/
def State.apply (s : State) (w : Writes) : State :=
  (((((((((s.applyLoad w.load).applyReg w.reg).applyPred w.pred).applyHi w.hi).applyLink w.link).applyCp
    w.cp).applyStore w.store).applyFlush w.flush).applyRet w.ret)

/-- The physical bytes a lane accesses, and whether it stores: (first, count, store). -/
def Writes.access (w : Writes) : Option (Nat × Nat × Bool) :=
  match w.load, w.store with
  | some l, _ => some (l.pa, l.size.bytes, false)
  | none, some t => some (t.pa, t.size.bytes, true)
  | none, none => none

/-- Two accesses share a byte and at least one stores (20_memory R69). -/
def accessesConflict (a b : Option (Nat × Nat × Bool)) : Bool :=
  match a, b with
  | some (pa, n, st), some (pa', n', st') =>
    (st || st') && decide (pa < pa' + n') && decide (pa' < pa + n)
  | _, _ => false

/-- The writes of slot 1 are applied before those of slot 0. A load beside a FLUSH goes first, so that it reads memory
as it was before the packet (R124); overlapping accesses may go in either order (20_memory R69, log 18). -/
def slot1Precedes (ws : Packet Writes) (draw : Nat) : Bool :=
  ws.s0.flush.isSome && ws.s1.load.isSome || accessesConflict ws.s0.access ws.s1.access && Config.slot1First draw

/-- The order in which the lanes' writes are applied. It matters only for memory: slot 0 may store, or FLUSH a line,
where slot 1 has an access. A store in slot 1 goes after the FLUSH in slot 0 (DESIGN CHOICE, safe, log 17). -/
def commitOrder (ws : Packet Writes) (draw : Nat) : List Writes :=
  if slot1Precedes ws draw then [ws.s1, ws.s0, ws.s2, ws.s3] else [ws.s0, ws.s1, ws.s2, ws.s3]

/-- The data TLB takes up the translations of the packet before the packet's own removals (log 15). -/
def State.fillDtlb (s : State) (ws : Packet Writes) : State :=
  { s with dtlb := ws.toList.foldl (fun t w => addEntry t w.fill) s.dtlb }

/-- `pc` and the draw counter after a committed packet (R129, 10_state R35). -/
def State.advance (s : State) (target : Option Word) (pc : Word) : State :=
  { s with pc := target.getD (pc + 16#32), draw := s.draw + 1 }

/-- Commit of all pending writes together (R125, R129); only slot 0 can hold a branch or ERET. -/
def commit (ws : Packet Writes) (s : State) : State :=
  ((commitOrder ws s.draw).foldl State.apply (s.fillDtlb ws)).advance ws.s0.target s.pc

-- Issue ------------------------------------------------------------------------------------------------------------

/-- A slot after the checks of R120 parts 2 and 3. -/
inductive Issued where
  /-- Nothing runs: an operand, or an instruction whose predicate is false, with its destination. -/
  | idle (d : Option Dest)
  /-- Illegal Instruction: unassigned, misplaced, or privileged in user mode. -/
  | illegal
  | live (o : LaneOp)

/-- A live instruction of type `k` may execute in slot `n` (40_packet_execution R126). -/
def mayIssueIn (k : Kind) (n : Lane) : Bool :=
  match k with
  | .alu => true
  | .memory => decide (n.val < 2)
  | .control => decide (n.val = 0)

/-- The checks on one slot, in the order of R120 and R130. -/
def issue (s : State) (n : Lane) (x : Slot) : Issued :=
  match x with
  | .operand => .idle none
  | .undecodable p => if s.predTrue p then .illegal else .idle none
  | .op o =>
    if !s.predTrue o.pred then .idle o.dest
    else if !mayIssueIn o.kind n then .illegal
    else if o.privileged && decide (s.mode = .user) then .illegal
    else .live o

/-- The destination with which a slot takes part in the Duplicate Destination check (R127). -/
def Issued.claim (x : Issued) : Option Dest :=
  match x with
  | .idle d => if Config.dupdestStatic then d else none
  | .illegal => none
  | .live o => o.dest

/-- The claim is a destination that one of the others claims too. -/
def claimedTwice (c : Option Dest) (others : List (Option Dest)) : Bool := c.isSome && others.contains c

/-- The slot shares its destination with another one (R127). -/
def Packet.duplicate (q : Packet Issued) (n : Lane) : Bool :=
  match n with
  | 0 => claimedTwice q.s0.claim [q.s1.claim, q.s2.claim, q.s3.claim]
  | 1 => claimedTwice q.s1.claim [q.s0.claim, q.s2.claim, q.s3.claim]
  | 2 => claimedTwice q.s2.claim [q.s0.claim, q.s1.claim, q.s3.claim]
  | 3 => claimedTwice q.s3.claim [q.s0.claim, q.s1.claim, q.s2.claim]

/-- The outcome of one slot (R120 parts 3 to 5, R130): Illegal Instruction, then Duplicate Destination, then
the instruction's own rule. -/
def evaluate (q : Packet Issued) (s : State) (n : Lane) (x : Issued) : Effect :=
  match x with
  | .illegal => .raises .illegalInstruction none
  | .idle _ => if q.duplicate n then .raises .duplicateDestination none else .writes {}
  | .live o => if q.duplicate n then .raises .duplicateDestination none else o.effect n s

-- Packet -----------------------------------------------------------------------------------------------------------

/-- What a lane reports if the packet traps. -/
def Effect.report (e : Effect) : LaneReport :=
  match e with
  | .raises x ea => { exc := some x, ea := ea }
  | .writes _ => .none
  | .refuses _ => .none

/-- The pending writes of a lane that raised nothing. -/
def Effect.pending (e : Effect) : Writes :=
  match e with
  | .writes w => w
  | .raises _ _ => {}
  | .refuses _ => {}

/-- The refusal of a lane, if any. -/
def Effect.refusal? (e : Effect) : Option Refusal :=
  match e with
  | .refuses r => some r
  | .writes _ => none
  | .raises _ _ => none

/-- The lane raised an exception. -/
def Effect.raised (e : Effect) : Bool :=
  match e with
  | .raises _ _ => true
  | .writes _ => false
  | .refuses _ => false

/-- Two lanes pend different values for the link bit (43_loadstore R211). ERET clears it. -/
def linkConflict (ws : Packet Writes) : Bool :=
  let sets := ws.toList.any fun w => decide (w.link = some true)
  let clears := ws.toList.any fun w => decide (w.link = some false) || w.ret.isSome
  sets && clears

/-- The end of a packet (R120 parts 6 to 8, R128): a refusal, or the trap that cancels the whole packet, or the
refusal of a link conflict, or the commit. -/
def finish (e : Packet Effect) (s : State) : Result :=
  match e.toList.findSome? Effect.refusal? with
  | some r => .refused r
  | none =>
    if e.toList.any Effect.raised then
      s.trapTo (s.takeException e.s0.report e.s1.report e.s2.report e.s3.report).nextDraw
    else
      let ws := e.mapLanes fun _ x => x.pending
      if linkConflict ws then .refused .linkConflict else .next (commit ws s)

/-- The outcomes of the four slots, each from the state before the packet (R120 parts 2 to 5, R124). -/
def laneEffects (p : Packet Slot) (s : State) : Packet Effect :=
  let q := p.mapLanes (issue s)
  q.mapLanes (evaluate q s)

/-- Runs the slots of one packet from the state before it (R120 parts 2 to 8). -/
def runPacket (p : Packet Slot) (s : State) : Result := finish (laneEffects p s) s

/-- Runs the packet that holds one instruction in slot 0 and nothing else (log 23). -/
def alone (o : LaneOp) (s : State) : Result :=
  runPacket { s0 := .op o, s1 := .operand, s2 := .operand, s3 := .operand } s

-- Shapes shared by many instructions ---------------------------------------------------------------------------------

/-- An ALU instruction that writes `f` of the old state to Rd (41_alu R156). -/
def aluOp (p : Pred) (rd : Reg) (f : State → Word) : LaneOp where
  pred := p
  kind := .alu
  dest := some (.reg rd)
  effect _ s := .writes { reg := some (rd, f s) }

/-- A compare that writes `f` of the old state to Pd (42_compare R180). -/
def compareOp (p : Pred) (pd : PredReg) (f : State → Bool) : LaneOp where
  pred := p
  kind := .alu
  dest := predDest pd
  effect _ s := .writes { pred := some (pd, f s) }

/-- A Control instruction (45_control R230). -/
def controlOp (p : Pred) (dest : Option Dest) (f : State → Effect) : LaneOp where
  pred := p
  kind := .control
  dest := dest
  effect _ s := f s

/-- A Control instruction of kernel mode only (45_control R237). -/
def privilegedOp (p : Pred) (dest : Option Dest) (f : State → Effect) : LaneOp where
  pred := p
  kind := .control
  privileged := true
  dest := dest
  effect _ s := f s

/-- A data access of lane `n` at the computed address `addr` (43_loadstore R202): translated at the aligned
address, reported at the computed one. -/
def dataAccess (s : State) (n : Lane) (kind : AccessKind) (size : Size) (addr : Word)
    (k : Nat → Option TlbEntry → Writes) : Effect :=
  let t := s.translate kind (1 + n.val) (size.align addr) size.bytes
  match t.result with
  | .ok pa => .writes (k pa t.fill)
  | .pageFault => .raises .dataPageFault (some addr)
  | .invalidPhys => .raises .invalidPhysicalAddress (some addr)

/-- A load of `size` into Rd (43_loadstore R202 to R206); `link` is what it does to the link bit. -/
def loadEffect (size : Size) (link : Option Bool) (off : BitVec 12) (rd rs : Reg) (n : Lane) (s : State) :
    Effect :=
  dataAccess s n .read size (s.address off rs) fun pa fill =>
    { load := some { rd := rd, pa := pa, size := size }, link := link, fill := fill }

/-- A store of the low bytes of Rt (43_loadstore R202, R207 to R210); `flag` and `link` are what it does to P0
and to the link bit. -/
def storeEffect (size : Size) (flag : Option (PredReg × Bool)) (link : Option Bool) (off : BitVec 12)
    (rt rs : Reg) (n : Lane) (s : State) : Effect :=
  dataAccess s n .write size (s.address off rs) fun pa fill =>
    { store := some { pa := pa, size := size, value := s.reg rt }, pred := flag, link := link, fill := fill }

end Sys2Proof.Machine
end

