-- ==== Sys2Proof/Machine/AluOne.lean ====
section
/-! DEFINITION. The one-operand ALU instructions MOV, MVN, SXB, SXH (41_alu R156, R164 to R167), each in the Short,
Register, Regsh and Long forms. -/

namespace Sys2Proof.Machine

/-- MOV, Short form (41_alu R164). -/
def opMovShort (p : Pred) (imm : BitVec 15) (rot : BitVec 4) (rd : Reg) : LaneOp :=
  aluOp p rd fun _ => aluMov (op2Short15 imm rot)

/-- MOV (Short form) alone in its packet. -/
def execMovShort (p : Pred) (imm : BitVec 15) (rot : BitVec 4) (rd : Reg) (s : State) : Result :=
  alone (opMovShort p imm rot rd) s

/-- MOV, Register form (41_alu R164). -/
def opMovReg (p : Pred) (amt : BitVec 5) (st : ShiftType) (rt rd : Reg) : LaneOp :=
  aluOp p rd fun s => aluMov (s.op2Reg amt st rt)

/-- MOV (Register form) alone in its packet. -/
def execMovReg (p : Pred) (amt : BitVec 5) (st : ShiftType) (rt rd : Reg) (s : State) : Result :=
  alone (opMovReg p amt st rt rd) s

/-- MOV, Regsh form (41_alu R164). -/
def opMovRegsh (p : Pred) (st : ShiftType) (rt rd rs : Reg) : LaneOp :=
  aluOp p rd fun s => aluMov (s.op2Regsh st rt rs)

/-- MOV (Regsh form) alone in its packet. -/
def execMovRegsh (p : Pred) (st : ShiftType) (rt rd rs : Reg) (s : State) : Result :=
  alone (opMovRegsh p st rt rd rs) s

/-- MOV, Long form (41_alu R164). -/
def opMovLong (p : Pred) (imm : Word) (rd : Reg) : LaneOp :=
  aluOp p rd fun _ => aluMov (op2Long imm)

/-- MOV (Long form) alone in its packet. -/
def execMovLong (p : Pred) (imm : Word) (rd : Reg) (s : State) : Result :=
  alone (opMovLong p imm rd) s

/-- MVN, Short form (41_alu R165). -/
def opMvnShort (p : Pred) (imm : BitVec 15) (rot : BitVec 4) (rd : Reg) : LaneOp :=
  aluOp p rd fun _ => aluMvn (op2Short15 imm rot)

/-- MVN (Short form) alone in its packet. -/
def execMvnShort (p : Pred) (imm : BitVec 15) (rot : BitVec 4) (rd : Reg) (s : State) : Result :=
  alone (opMvnShort p imm rot rd) s

/-- MVN, Register form (41_alu R165). -/
def opMvnReg (p : Pred) (amt : BitVec 5) (st : ShiftType) (rt rd : Reg) : LaneOp :=
  aluOp p rd fun s => aluMvn (s.op2Reg amt st rt)

/-- MVN (Register form) alone in its packet. -/
def execMvnReg (p : Pred) (amt : BitVec 5) (st : ShiftType) (rt rd : Reg) (s : State) : Result :=
  alone (opMvnReg p amt st rt rd) s

/-- MVN, Regsh form (41_alu R165). -/
def opMvnRegsh (p : Pred) (st : ShiftType) (rt rd rs : Reg) : LaneOp :=
  aluOp p rd fun s => aluMvn (s.op2Regsh st rt rs)

/-- MVN (Regsh form) alone in its packet. -/
def execMvnRegsh (p : Pred) (st : ShiftType) (rt rd rs : Reg) (s : State) : Result :=
  alone (opMvnRegsh p st rt rd rs) s

/-- MVN, Long form (41_alu R165). -/
def opMvnLong (p : Pred) (imm : Word) (rd : Reg) : LaneOp :=
  aluOp p rd fun _ => aluMvn (op2Long imm)

/-- MVN (Long form) alone in its packet. -/
def execMvnLong (p : Pred) (imm : Word) (rd : Reg) (s : State) : Result :=
  alone (opMvnLong p imm rd) s

/-- SXB, Short form (41_alu R166). -/
def opSxbShort (p : Pred) (imm : BitVec 15) (rot : BitVec 4) (rd : Reg) : LaneOp :=
  aluOp p rd fun _ => aluSxb (op2Short15 imm rot)

/-- SXB (Short form) alone in its packet. -/
def execSxbShort (p : Pred) (imm : BitVec 15) (rot : BitVec 4) (rd : Reg) (s : State) : Result :=
  alone (opSxbShort p imm rot rd) s

/-- SXB, Register form (41_alu R166). -/
def opSxbReg (p : Pred) (amt : BitVec 5) (st : ShiftType) (rt rd : Reg) : LaneOp :=
  aluOp p rd fun s => aluSxb (s.op2Reg amt st rt)

/-- SXB (Register form) alone in its packet. -/
def execSxbReg (p : Pred) (amt : BitVec 5) (st : ShiftType) (rt rd : Reg) (s : State) : Result :=
  alone (opSxbReg p amt st rt rd) s

/-- SXB, Regsh form (41_alu R166). -/
def opSxbRegsh (p : Pred) (st : ShiftType) (rt rd rs : Reg) : LaneOp :=
  aluOp p rd fun s => aluSxb (s.op2Regsh st rt rs)

/-- SXB (Regsh form) alone in its packet. -/
def execSxbRegsh (p : Pred) (st : ShiftType) (rt rd rs : Reg) (s : State) : Result :=
  alone (opSxbRegsh p st rt rd rs) s

/-- SXB, Long form (41_alu R166). -/
def opSxbLong (p : Pred) (imm : Word) (rd : Reg) : LaneOp :=
  aluOp p rd fun _ => aluSxb (op2Long imm)

/-- SXB (Long form) alone in its packet. -/
def execSxbLong (p : Pred) (imm : Word) (rd : Reg) (s : State) : Result :=
  alone (opSxbLong p imm rd) s

/-- SXH, Short form (41_alu R167). -/
def opSxhShort (p : Pred) (imm : BitVec 15) (rot : BitVec 4) (rd : Reg) : LaneOp :=
  aluOp p rd fun _ => aluSxh (op2Short15 imm rot)

/-- SXH (Short form) alone in its packet. -/
def execSxhShort (p : Pred) (imm : BitVec 15) (rot : BitVec 4) (rd : Reg) (s : State) : Result :=
  alone (opSxhShort p imm rot rd) s

/-- SXH, Register form (41_alu R167). -/
def opSxhReg (p : Pred) (amt : BitVec 5) (st : ShiftType) (rt rd : Reg) : LaneOp :=
  aluOp p rd fun s => aluSxh (s.op2Reg amt st rt)

/-- SXH (Register form) alone in its packet. -/
def execSxhReg (p : Pred) (amt : BitVec 5) (st : ShiftType) (rt rd : Reg) (s : State) : Result :=
  alone (opSxhReg p amt st rt rd) s

/-- SXH, Regsh form (41_alu R167). -/
def opSxhRegsh (p : Pred) (st : ShiftType) (rt rd rs : Reg) : LaneOp :=
  aluOp p rd fun s => aluSxh (s.op2Regsh st rt rs)

/-- SXH (Regsh form) alone in its packet. -/
def execSxhRegsh (p : Pred) (st : ShiftType) (rt rd rs : Reg) (s : State) : Result :=
  alone (opSxhRegsh p st rt rd rs) s

/-- SXH, Long form (41_alu R167). -/
def opSxhLong (p : Pred) (imm : Word) (rd : Reg) : LaneOp :=
  aluOp p rd fun _ => aluSxh (op2Long imm)

/-- SXH (Long form) alone in its packet. -/
def execSxhLong (p : Pred) (imm : Word) (rd : Reg) (s : State) : Result :=
  alone (opSxhLong p imm rd) s

end Sys2Proof.Machine
end

