-- ==== Sys2Proof/Machine/AluTwo.lean ====
section
/-! DEFINITION. The two-operand ALU instructions ADD, AND, NOR, OR, SUB, RSB, XOR (41_alu R156 to R163), each in
the Short, Register and Long forms. -/

namespace Sys2Proof.Machine

/-- ADD, Short form (41_alu R157). -/
def opAddShort (p : Pred) (imm : BitVec 10) (rot : BitVec 4) (rd rs : Reg) : LaneOp :=
  aluOp p rd fun s => aluAdd (s.reg rs) (op2Short imm rot)

/-- ADD (Short form) alone in its packet. -/
def execAddShort (p : Pred) (imm : BitVec 10) (rot : BitVec 4) (rd rs : Reg) (s : State) : Result :=
  alone (opAddShort p imm rot rd rs) s

/-- ADD, Register form (41_alu R157). -/
def opAddReg (p : Pred) (amt : BitVec 5) (st : ShiftType) (rt rd rs : Reg) : LaneOp :=
  aluOp p rd fun s => aluAdd (s.reg rs) (s.op2Reg amt st rt)

/-- ADD (Register form) alone in its packet. -/
def execAddReg (p : Pred) (amt : BitVec 5) (st : ShiftType) (rt rd rs : Reg) (s : State) : Result :=
  alone (opAddReg p amt st rt rd rs) s

/-- ADD, Long form (41_alu R157). -/
def opAddLong (p : Pred) (imm : Word) (rd rs : Reg) : LaneOp :=
  aluOp p rd fun s => aluAdd (s.reg rs) (op2Long imm)

/-- ADD (Long form) alone in its packet. -/
def execAddLong (p : Pred) (imm : Word) (rd rs : Reg) (s : State) : Result :=
  alone (opAddLong p imm rd rs) s

/-- AND, Short form (41_alu R158). -/
def opAndShort (p : Pred) (imm : BitVec 10) (rot : BitVec 4) (rd rs : Reg) : LaneOp :=
  aluOp p rd fun s => aluAnd (s.reg rs) (op2Short imm rot)

/-- AND (Short form) alone in its packet. -/
def execAndShort (p : Pred) (imm : BitVec 10) (rot : BitVec 4) (rd rs : Reg) (s : State) : Result :=
  alone (opAndShort p imm rot rd rs) s

/-- AND, Register form (41_alu R158). -/
def opAndReg (p : Pred) (amt : BitVec 5) (st : ShiftType) (rt rd rs : Reg) : LaneOp :=
  aluOp p rd fun s => aluAnd (s.reg rs) (s.op2Reg amt st rt)

/-- AND (Register form) alone in its packet. -/
def execAndReg (p : Pred) (amt : BitVec 5) (st : ShiftType) (rt rd rs : Reg) (s : State) : Result :=
  alone (opAndReg p amt st rt rd rs) s

/-- AND, Long form (41_alu R158). -/
def opAndLong (p : Pred) (imm : Word) (rd rs : Reg) : LaneOp :=
  aluOp p rd fun s => aluAnd (s.reg rs) (op2Long imm)

/-- AND (Long form) alone in its packet. -/
def execAndLong (p : Pred) (imm : Word) (rd rs : Reg) (s : State) : Result :=
  alone (opAndLong p imm rd rs) s

/-- NOR, Short form (41_alu R159). -/
def opNorShort (p : Pred) (imm : BitVec 10) (rot : BitVec 4) (rd rs : Reg) : LaneOp :=
  aluOp p rd fun s => aluNor (s.reg rs) (op2Short imm rot)

/-- NOR (Short form) alone in its packet. -/
def execNorShort (p : Pred) (imm : BitVec 10) (rot : BitVec 4) (rd rs : Reg) (s : State) : Result :=
  alone (opNorShort p imm rot rd rs) s

/-- NOR, Register form (41_alu R159). -/
def opNorReg (p : Pred) (amt : BitVec 5) (st : ShiftType) (rt rd rs : Reg) : LaneOp :=
  aluOp p rd fun s => aluNor (s.reg rs) (s.op2Reg amt st rt)

/-- NOR (Register form) alone in its packet. -/
def execNorReg (p : Pred) (amt : BitVec 5) (st : ShiftType) (rt rd rs : Reg) (s : State) : Result :=
  alone (opNorReg p amt st rt rd rs) s

/-- NOR, Long form (41_alu R159). -/
def opNorLong (p : Pred) (imm : Word) (rd rs : Reg) : LaneOp :=
  aluOp p rd fun s => aluNor (s.reg rs) (op2Long imm)

/-- NOR (Long form) alone in its packet. -/
def execNorLong (p : Pred) (imm : Word) (rd rs : Reg) (s : State) : Result :=
  alone (opNorLong p imm rd rs) s

/-- OR, Short form (41_alu R160). -/
def opOrShort (p : Pred) (imm : BitVec 10) (rot : BitVec 4) (rd rs : Reg) : LaneOp :=
  aluOp p rd fun s => aluOr (s.reg rs) (op2Short imm rot)

/-- OR (Short form) alone in its packet. -/
def execOrShort (p : Pred) (imm : BitVec 10) (rot : BitVec 4) (rd rs : Reg) (s : State) : Result :=
  alone (opOrShort p imm rot rd rs) s

/-- OR, Register form (41_alu R160). -/
def opOrReg (p : Pred) (amt : BitVec 5) (st : ShiftType) (rt rd rs : Reg) : LaneOp :=
  aluOp p rd fun s => aluOr (s.reg rs) (s.op2Reg amt st rt)

/-- OR (Register form) alone in its packet. -/
def execOrReg (p : Pred) (amt : BitVec 5) (st : ShiftType) (rt rd rs : Reg) (s : State) : Result :=
  alone (opOrReg p amt st rt rd rs) s

/-- OR, Long form (41_alu R160). -/
def opOrLong (p : Pred) (imm : Word) (rd rs : Reg) : LaneOp :=
  aluOp p rd fun s => aluOr (s.reg rs) (op2Long imm)

/-- OR (Long form) alone in its packet. -/
def execOrLong (p : Pred) (imm : Word) (rd rs : Reg) (s : State) : Result :=
  alone (opOrLong p imm rd rs) s

/-- SUB, Short form (41_alu R161). -/
def opSubShort (p : Pred) (imm : BitVec 10) (rot : BitVec 4) (rd rs : Reg) : LaneOp :=
  aluOp p rd fun s => aluSub (s.reg rs) (op2Short imm rot)

/-- SUB (Short form) alone in its packet. -/
def execSubShort (p : Pred) (imm : BitVec 10) (rot : BitVec 4) (rd rs : Reg) (s : State) : Result :=
  alone (opSubShort p imm rot rd rs) s

/-- SUB, Register form (41_alu R161). -/
def opSubReg (p : Pred) (amt : BitVec 5) (st : ShiftType) (rt rd rs : Reg) : LaneOp :=
  aluOp p rd fun s => aluSub (s.reg rs) (s.op2Reg amt st rt)

/-- SUB (Register form) alone in its packet. -/
def execSubReg (p : Pred) (amt : BitVec 5) (st : ShiftType) (rt rd rs : Reg) (s : State) : Result :=
  alone (opSubReg p amt st rt rd rs) s

/-- SUB, Long form (41_alu R161). -/
def opSubLong (p : Pred) (imm : Word) (rd rs : Reg) : LaneOp :=
  aluOp p rd fun s => aluSub (s.reg rs) (op2Long imm)

/-- SUB (Long form) alone in its packet. -/
def execSubLong (p : Pred) (imm : Word) (rd rs : Reg) (s : State) : Result :=
  alone (opSubLong p imm rd rs) s

/-- RSB, Short form (41_alu R162). -/
def opRsbShort (p : Pred) (imm : BitVec 10) (rot : BitVec 4) (rd rs : Reg) : LaneOp :=
  aluOp p rd fun s => aluRsb (s.reg rs) (op2Short imm rot)

/-- RSB (Short form) alone in its packet. -/
def execRsbShort (p : Pred) (imm : BitVec 10) (rot : BitVec 4) (rd rs : Reg) (s : State) : Result :=
  alone (opRsbShort p imm rot rd rs) s

/-- RSB, Register form (41_alu R162). -/
def opRsbReg (p : Pred) (amt : BitVec 5) (st : ShiftType) (rt rd rs : Reg) : LaneOp :=
  aluOp p rd fun s => aluRsb (s.reg rs) (s.op2Reg amt st rt)

/-- RSB (Register form) alone in its packet. -/
def execRsbReg (p : Pred) (amt : BitVec 5) (st : ShiftType) (rt rd rs : Reg) (s : State) : Result :=
  alone (opRsbReg p amt st rt rd rs) s

/-- RSB, Long form (41_alu R162). -/
def opRsbLong (p : Pred) (imm : Word) (rd rs : Reg) : LaneOp :=
  aluOp p rd fun s => aluRsb (s.reg rs) (op2Long imm)

/-- RSB (Long form) alone in its packet. -/
def execRsbLong (p : Pred) (imm : Word) (rd rs : Reg) (s : State) : Result :=
  alone (opRsbLong p imm rd rs) s

/-- XOR, Short form (41_alu R163). -/
def opXorShort (p : Pred) (imm : BitVec 10) (rot : BitVec 4) (rd rs : Reg) : LaneOp :=
  aluOp p rd fun s => aluXor (s.reg rs) (op2Short imm rot)

/-- XOR (Short form) alone in its packet. -/
def execXorShort (p : Pred) (imm : BitVec 10) (rot : BitVec 4) (rd rs : Reg) (s : State) : Result :=
  alone (opXorShort p imm rot rd rs) s

/-- XOR, Register form (41_alu R163). -/
def opXorReg (p : Pred) (amt : BitVec 5) (st : ShiftType) (rt rd rs : Reg) : LaneOp :=
  aluOp p rd fun s => aluXor (s.reg rs) (s.op2Reg amt st rt)

/-- XOR (Register form) alone in its packet. -/
def execXorReg (p : Pred) (amt : BitVec 5) (st : ShiftType) (rt rd rs : Reg) (s : State) : Result :=
  alone (opXorReg p amt st rt rd rs) s

/-- XOR, Long form (41_alu R163). -/
def opXorLong (p : Pred) (imm : Word) (rd rs : Reg) : LaneOp :=
  aluOp p rd fun s => aluXor (s.reg rs) (op2Long imm)

/-- XOR (Long form) alone in its packet. -/
def execXorLong (p : Pred) (imm : Word) (rd rs : Reg) (s : State) : Result :=
  alone (opXorLong p imm rd rs) s

end Sys2Proof.Machine
end

