-- ==== Sys2Proof/Machine/Branch.lean ====
section
/-! DEFINITION. The branches B and BL (44_branch R220 to R222). -/

namespace Sys2Proof.Machine

/-- B to a label (44_branch R221). -/
def opBImm (p : Pred) (off : BitVec 25) : LaneOp :=
  controlOp p none fun s => .writes { target := some (s.targetImm off) }

/-- B alone in its packet. -/
def execBImm (p : Pred) (off : BitVec 25) (s : State) : Result :=
  alone (opBImm p off) s

/-- B to a base register plus offset (44_branch R221). -/
def opBReg (p : Pred) (off : BitVec 20) (rs : Reg) : LaneOp :=
  controlOp p none fun s => .writes { target := some (s.targetReg off rs) }

/-- B (Register form) alone in its packet. -/
def execBReg (p : Pred) (off : BitVec 20) (rs : Reg) (s : State) : Result :=
  alone (opBReg p off rs) s

/-- BL to a label: R31 gets the address of the BL itself (44_branch R222). -/
def opBlImm (p : Pred) (off : BitVec 25) : LaneOp :=
  controlOp p (some (.reg 31#5)) fun s =>
    .writes { reg := some (31#5, s.pc), target := some (s.targetImm off) }

/-- BL alone in its packet. -/
def execBlImm (p : Pred) (off : BitVec 25) (s : State) : Result :=
  alone (opBlImm p off) s

/-- BL to a base register plus offset; the base is the old value (44_branch R222). -/
def opBlReg (p : Pred) (off : BitVec 20) (rs : Reg) : LaneOp :=
  controlOp p (some (.reg 31#5)) fun s =>
    .writes { reg := some (31#5, s.pc), target := some (s.targetReg off rs) }

/-- BL (Register form) alone in its packet. -/
def execBlReg (p : Pred) (off : BitVec 20) (rs : Reg) (s : State) : Result :=
  alone (opBlReg p off rs) s

end Sys2Proof.Machine
end

