-- ==== Sys2Proof/Machine/Compare.lean ====
section
/-! DEFINITION. The compares CMPLTU, CMPLEU, CMPEQ, CMPLTS, CMPLES, CMPBS, CMPBC (42_compare R180 to R187), each in
the Short, Register and Long forms. -/

namespace Sys2Proof.Machine

/-- CMPLTU, Short form (42_compare R181). -/
def opCmpltuShort (p : Pred) (imm : BitVec 10) (rot : BitVec 4) (pd : PredReg) (rs : Reg) : LaneOp :=
  compareOp p pd fun s => condLtu (s.reg rs) (op2Short imm rot)

/-- CMPLTU (Short form) alone in its packet. -/
def execCmpltuShort (p : Pred) (imm : BitVec 10) (rot : BitVec 4) (pd : PredReg) (rs : Reg) (s : State) : Result :=
  alone (opCmpltuShort p imm rot pd rs) s

/-- CMPLTU, Register form (42_compare R181). -/
def opCmpltuReg (p : Pred) (amt : BitVec 5) (st : ShiftType) (rt : Reg) (pd : PredReg) (rs : Reg) : LaneOp :=
  compareOp p pd fun s => condLtu (s.reg rs) (s.op2Reg amt st rt)

/-- CMPLTU (Register form) alone in its packet. -/
def execCmpltuReg (p : Pred) (amt : BitVec 5) (st : ShiftType) (rt : Reg) (pd : PredReg) (rs : Reg) (s : State) : Result :=
  alone (opCmpltuReg p amt st rt pd rs) s

/-- CMPLTU, Long form (42_compare R181). -/
def opCmpltuLong (p : Pred) (imm : Word) (pd : PredReg) (rs : Reg) : LaneOp :=
  compareOp p pd fun s => condLtu (s.reg rs) (op2Long imm)

/-- CMPLTU (Long form) alone in its packet. -/
def execCmpltuLong (p : Pred) (imm : Word) (pd : PredReg) (rs : Reg) (s : State) : Result :=
  alone (opCmpltuLong p imm pd rs) s

/-- CMPLEU, Short form (42_compare R182). -/
def opCmpleuShort (p : Pred) (imm : BitVec 10) (rot : BitVec 4) (pd : PredReg) (rs : Reg) : LaneOp :=
  compareOp p pd fun s => condLeu (s.reg rs) (op2Short imm rot)

/-- CMPLEU (Short form) alone in its packet. -/
def execCmpleuShort (p : Pred) (imm : BitVec 10) (rot : BitVec 4) (pd : PredReg) (rs : Reg) (s : State) : Result :=
  alone (opCmpleuShort p imm rot pd rs) s

/-- CMPLEU, Register form (42_compare R182). -/
def opCmpleuReg (p : Pred) (amt : BitVec 5) (st : ShiftType) (rt : Reg) (pd : PredReg) (rs : Reg) : LaneOp :=
  compareOp p pd fun s => condLeu (s.reg rs) (s.op2Reg amt st rt)

/-- CMPLEU (Register form) alone in its packet. -/
def execCmpleuReg (p : Pred) (amt : BitVec 5) (st : ShiftType) (rt : Reg) (pd : PredReg) (rs : Reg) (s : State) : Result :=
  alone (opCmpleuReg p amt st rt pd rs) s

/-- CMPLEU, Long form (42_compare R182). -/
def opCmpleuLong (p : Pred) (imm : Word) (pd : PredReg) (rs : Reg) : LaneOp :=
  compareOp p pd fun s => condLeu (s.reg rs) (op2Long imm)

/-- CMPLEU (Long form) alone in its packet. -/
def execCmpleuLong (p : Pred) (imm : Word) (pd : PredReg) (rs : Reg) (s : State) : Result :=
  alone (opCmpleuLong p imm pd rs) s

/-- CMPEQ, Short form (42_compare R183). -/
def opCmpeqShort (p : Pred) (imm : BitVec 10) (rot : BitVec 4) (pd : PredReg) (rs : Reg) : LaneOp :=
  compareOp p pd fun s => condEq (s.reg rs) (op2Short imm rot)

/-- CMPEQ (Short form) alone in its packet. -/
def execCmpeqShort (p : Pred) (imm : BitVec 10) (rot : BitVec 4) (pd : PredReg) (rs : Reg) (s : State) : Result :=
  alone (opCmpeqShort p imm rot pd rs) s

/-- CMPEQ, Register form (42_compare R183). -/
def opCmpeqReg (p : Pred) (amt : BitVec 5) (st : ShiftType) (rt : Reg) (pd : PredReg) (rs : Reg) : LaneOp :=
  compareOp p pd fun s => condEq (s.reg rs) (s.op2Reg amt st rt)

/-- CMPEQ (Register form) alone in its packet. -/
def execCmpeqReg (p : Pred) (amt : BitVec 5) (st : ShiftType) (rt : Reg) (pd : PredReg) (rs : Reg) (s : State) : Result :=
  alone (opCmpeqReg p amt st rt pd rs) s

/-- CMPEQ, Long form (42_compare R183). -/
def opCmpeqLong (p : Pred) (imm : Word) (pd : PredReg) (rs : Reg) : LaneOp :=
  compareOp p pd fun s => condEq (s.reg rs) (op2Long imm)

/-- CMPEQ (Long form) alone in its packet. -/
def execCmpeqLong (p : Pred) (imm : Word) (pd : PredReg) (rs : Reg) (s : State) : Result :=
  alone (opCmpeqLong p imm pd rs) s

/-- CMPLTS, Short form (42_compare R184). -/
def opCmpltsShort (p : Pred) (imm : BitVec 10) (rot : BitVec 4) (pd : PredReg) (rs : Reg) : LaneOp :=
  compareOp p pd fun s => condLts (s.reg rs) (op2Short imm rot)

/-- CMPLTS (Short form) alone in its packet. -/
def execCmpltsShort (p : Pred) (imm : BitVec 10) (rot : BitVec 4) (pd : PredReg) (rs : Reg) (s : State) : Result :=
  alone (opCmpltsShort p imm rot pd rs) s

/-- CMPLTS, Register form (42_compare R184). -/
def opCmpltsReg (p : Pred) (amt : BitVec 5) (st : ShiftType) (rt : Reg) (pd : PredReg) (rs : Reg) : LaneOp :=
  compareOp p pd fun s => condLts (s.reg rs) (s.op2Reg amt st rt)

/-- CMPLTS (Register form) alone in its packet. -/
def execCmpltsReg (p : Pred) (amt : BitVec 5) (st : ShiftType) (rt : Reg) (pd : PredReg) (rs : Reg) (s : State) : Result :=
  alone (opCmpltsReg p amt st rt pd rs) s

/-- CMPLTS, Long form (42_compare R184). -/
def opCmpltsLong (p : Pred) (imm : Word) (pd : PredReg) (rs : Reg) : LaneOp :=
  compareOp p pd fun s => condLts (s.reg rs) (op2Long imm)

/-- CMPLTS (Long form) alone in its packet. -/
def execCmpltsLong (p : Pred) (imm : Word) (pd : PredReg) (rs : Reg) (s : State) : Result :=
  alone (opCmpltsLong p imm pd rs) s

/-- CMPLES, Short form (42_compare R185). -/
def opCmplesShort (p : Pred) (imm : BitVec 10) (rot : BitVec 4) (pd : PredReg) (rs : Reg) : LaneOp :=
  compareOp p pd fun s => condLes (s.reg rs) (op2Short imm rot)

/-- CMPLES (Short form) alone in its packet. -/
def execCmplesShort (p : Pred) (imm : BitVec 10) (rot : BitVec 4) (pd : PredReg) (rs : Reg) (s : State) : Result :=
  alone (opCmplesShort p imm rot pd rs) s

/-- CMPLES, Register form (42_compare R185). -/
def opCmplesReg (p : Pred) (amt : BitVec 5) (st : ShiftType) (rt : Reg) (pd : PredReg) (rs : Reg) : LaneOp :=
  compareOp p pd fun s => condLes (s.reg rs) (s.op2Reg amt st rt)

/-- CMPLES (Register form) alone in its packet. -/
def execCmplesReg (p : Pred) (amt : BitVec 5) (st : ShiftType) (rt : Reg) (pd : PredReg) (rs : Reg) (s : State) : Result :=
  alone (opCmplesReg p amt st rt pd rs) s

/-- CMPLES, Long form (42_compare R185). -/
def opCmplesLong (p : Pred) (imm : Word) (pd : PredReg) (rs : Reg) : LaneOp :=
  compareOp p pd fun s => condLes (s.reg rs) (op2Long imm)

/-- CMPLES (Long form) alone in its packet. -/
def execCmplesLong (p : Pred) (imm : Word) (pd : PredReg) (rs : Reg) (s : State) : Result :=
  alone (opCmplesLong p imm pd rs) s

/-- CMPBS, Short form (42_compare R186). -/
def opCmpbsShort (p : Pred) (imm : BitVec 10) (rot : BitVec 4) (pd : PredReg) (rs : Reg) : LaneOp :=
  compareOp p pd fun s => condBs (s.reg rs) (op2Short imm rot)

/-- CMPBS (Short form) alone in its packet. -/
def execCmpbsShort (p : Pred) (imm : BitVec 10) (rot : BitVec 4) (pd : PredReg) (rs : Reg) (s : State) : Result :=
  alone (opCmpbsShort p imm rot pd rs) s

/-- CMPBS, Register form (42_compare R186). -/
def opCmpbsReg (p : Pred) (amt : BitVec 5) (st : ShiftType) (rt : Reg) (pd : PredReg) (rs : Reg) : LaneOp :=
  compareOp p pd fun s => condBs (s.reg rs) (s.op2Reg amt st rt)

/-- CMPBS (Register form) alone in its packet. -/
def execCmpbsReg (p : Pred) (amt : BitVec 5) (st : ShiftType) (rt : Reg) (pd : PredReg) (rs : Reg) (s : State) : Result :=
  alone (opCmpbsReg p amt st rt pd rs) s

/-- CMPBS, Long form (42_compare R186). -/
def opCmpbsLong (p : Pred) (imm : Word) (pd : PredReg) (rs : Reg) : LaneOp :=
  compareOp p pd fun s => condBs (s.reg rs) (op2Long imm)

/-- CMPBS (Long form) alone in its packet. -/
def execCmpbsLong (p : Pred) (imm : Word) (pd : PredReg) (rs : Reg) (s : State) : Result :=
  alone (opCmpbsLong p imm pd rs) s

/-- CMPBC, Short form (42_compare R187). -/
def opCmpbcShort (p : Pred) (imm : BitVec 10) (rot : BitVec 4) (pd : PredReg) (rs : Reg) : LaneOp :=
  compareOp p pd fun s => condBc (s.reg rs) (op2Short imm rot)

/-- CMPBC (Short form) alone in its packet. -/
def execCmpbcShort (p : Pred) (imm : BitVec 10) (rot : BitVec 4) (pd : PredReg) (rs : Reg) (s : State) : Result :=
  alone (opCmpbcShort p imm rot pd rs) s

/-- CMPBC, Register form (42_compare R187). -/
def opCmpbcReg (p : Pred) (amt : BitVec 5) (st : ShiftType) (rt : Reg) (pd : PredReg) (rs : Reg) : LaneOp :=
  compareOp p pd fun s => condBc (s.reg rs) (s.op2Reg amt st rt)

/-- CMPBC (Register form) alone in its packet. -/
def execCmpbcReg (p : Pred) (amt : BitVec 5) (st : ShiftType) (rt : Reg) (pd : PredReg) (rs : Reg) (s : State) : Result :=
  alone (opCmpbcReg p amt st rt pd rs) s

/-- CMPBC, Long form (42_compare R187). -/
def opCmpbcLong (p : Pred) (imm : Word) (pd : PredReg) (rs : Reg) : LaneOp :=
  compareOp p pd fun s => condBc (s.reg rs) (op2Long imm)

/-- CMPBC (Long form) alone in its packet. -/
def execCmpbcLong (p : Pred) (imm : Word) (pd : PredReg) (rs : Reg) (s : State) : Result :=
  alone (opCmpbcLong p imm pd rs) s

end Sys2Proof.Machine
end

