-- ==== Sys2Proof/Machine/Control.lean ====
section
/-! DEFINITION. The Control instructions but the branches: BREAK, SYSCALL, FENCE, ERET, FLUSH, MFC, MTC, MFHI, MTHI,
MULT, MULTS, DIV (45_control R230 to R245). -/

namespace Sys2Proof.Machine

/-- BREAK: exception code 9 on lane 0 (45_control R231). -/
def opBreakpoint (p : Pred) : LaneOp :=
  controlOp p none fun _ => .raises .breakpoint none

/-- BREAK alone in its packet. -/
def execBreakpoint (p : Pred) (s : State) : Result :=
  alone (opBreakpoint p) s

/-- SYSCALL: exception code 8 on lane 0 (45_control R232). -/
def opSyscall (p : Pred) : LaneOp :=
  controlOp p none fun _ => .raises .syscall none

/-- SYSCALL alone in its packet. -/
def execSyscall (p : Pred) (s : State) : Result :=
  alone (opSyscall p) s

/-- FENCE: no effect (45_control R233). -/
def opFence (p : Pred) : LaneOp :=
  controlOp p none fun _ => .writes {}

/-- FENCE alone in its packet. -/
def execFence (p : Pred) (s : State) : Result :=
  alone (opFence p) s

/-- ERET: returns to the state EPC describes (45_control R236). -/
def opEret (p : Pred) : LaneOp :=
  privilegedOp p none fun s => .writes { ret := some s.epc, target := some (packetAddress s.epc) }

/-- ERET alone in its packet. -/
def execEret (p : Pred) (s : State) : Result :=
  alone (opEret p) s

/-- The cache types of FLUSH (45_control R234, 92 D33): the address is translated as a read of lane 0; a page
fault is code 4 with EA0, anything else but a physical address is a no-op (log 27). The line that holds the address is
found by the physical address, so that a FLUSH through one virtual address also serves every other one of the same
memory (DESIGN CHOICE, unsafe: the spec gives no cache geometry, log 30). -/
def flushCacheEffect (s : State) (va : Word) (f : Nat → Flush) : Effect :=
  let t := s.translatePage .read 1 va
  match t.result with
  | .ok pa => .writes { flush := some (f pa), fill := t.fill }
  | .pageFault => .raises .dataPageFault (some va)
  | .invalidPhys => .writes {}

/-- FLUSH by type (45_control R234, R235); the TLB types never raise. -/
def flushEffect (t : FlushType) (rs : Reg) (s : State) : Effect :=
  match t with
  | .data => flushCacheEffect s (s.reg rs) .data
  | .inst => flushCacheEffect s (s.reg rs) .inst
  | .dtlb => .writes { flush := some (.dtlb (vpnOf (s.reg rs))) }
  | .itlb => .writes { flush := some (.itlb (vpnOf (s.reg rs))) }

/-- FLUSH (45_control R234). -/
def opFlush (p : Pred) (t : FlushType) (rs : Reg) : LaneOp :=
  controlOp p none (flushEffect t rs)

/-- FLUSH alone in its packet. -/
def execFlush (p : Pred) (t : FlushType) (rs : Reg) (s : State) : Result :=
  alone (opFlush p t rs) s

/-- MFC: a listed coprocessor register into Rd (45_control R238); an unlisted number is refused (log 20). -/
def opMfc (p : Pred) (rd : Reg) (cprs : BitVec 5) : LaneOp :=
  privilegedOp p (some (.reg rd)) fun s =>
    match CpReg.ofNumber cprs with
    | some c => .writes { reg := some (rd, s.readCp c) }
    | none => .refuses (.unlistedCoprocessorRegister cprs)

/-- MFC alone in its packet. -/
def execMfc (p : Pred) (rd : Reg) (cprs : BitVec 5) (s : State) : Result :=
  alone (opMfc p rd cprs) s

/-- MTC: Rs into a listed coprocessor register, with its side effects (45_control R239, R245); an unlisted
number is refused (log 20). -/
def opMtc (p : Pred) (cprd : BitVec 5) (rs : Reg) : LaneOp :=
  privilegedOp p none fun s =>
    match CpReg.ofNumber cprd with
    | some c => .writes { cp := some (c, s.reg rs) }
    | none => .refuses (.unlistedCoprocessorRegister cprd)

/-- MTC alone in its packet. -/
def execMtc (p : Pred) (cprd : BitVec 5) (rs : Reg) (s : State) : Result :=
  alone (opMtc p cprd rs) s

/-- MFHI (45_control R240). -/
def opMfhi (p : Pred) (rd : Reg) : LaneOp :=
  controlOp p (some (.reg rd)) fun s => .writes { reg := some (rd, s.hi) }

/-- MFHI alone in its packet. -/
def execMfhi (p : Pred) (rd : Reg) (s : State) : Result :=
  alone (opMfhi p rd) s

/-- MTHI (45_control R241). -/
def opMthi (p : Pred) (rs : Reg) : LaneOp :=
  controlOp p none fun s => .writes { hi := some (s.reg rs) }

/-- MTHI alone in its packet. -/
def execMthi (p : Pred) (rs : Reg) (s : State) : Result :=
  alone (opMthi p rs) s

/-- The two words of a product: the low one to Rd, the high one to `hi` (45_control R242, R243). -/
def productWrites (rd : Reg) (v : BitVec 64) : Writes := { reg := some (rd, lowWord v), hi := some (highWord v) }

/-- MULT, unsigned (45_control R242). -/
def opMult (p : Pred) (rt rd rs : Reg) : LaneOp :=
  controlOp p (some (.reg rd)) fun s => .writes (productWrites rd (productU (s.reg rs) (s.reg rt)))

/-- MULT alone in its packet. -/
def execMult (p : Pred) (rt rd rs : Reg) (s : State) : Result :=
  alone (opMult p rt rd rs) s

/-- MULTS, signed (45_control R243). -/
def opMults (p : Pred) (rt rd rs : Reg) : LaneOp :=
  controlOp p (some (.reg rd)) fun s => .writes (productWrites rd (productS (s.reg rs) (s.reg rt)))

/-- MULTS alone in its packet. -/
def execMults (p : Pred) (rt rd rs : Reg) (s : State) : Result :=
  alone (opMults p rt rd rs) s

/-- DIV: quotient to Rd, remainder to `hi`; a zero divisor is code 6 (45_control R244, log 10). -/
def opDiv (p : Pred) (rt rd rs : Reg) : LaneOp :=
  controlOp p (some (.reg rd)) fun s =>
    if s.reg rt = 0#32 then .raises .divideByZero none
    else
      .writes
        { reg := some (rd, quotient Config.divSigned (s.reg rs) (s.reg rt))
          hi := some (remainder Config.divSigned (s.reg rs) (s.reg rt)) }

/-- DIV alone in its packet. -/
def execDiv (p : Pred) (rt rd rs : Reg) (s : State) : Result :=
  alone (opDiv p rt rd rs) s

end Sys2Proof.Machine
end

