-- ==== Sys2Proof/Machine/LoadStore.lean ====
section
/-! DEFINITION. The Memory instructions LB, LH, LW, LL, SB, SH, SW, SC (43_loadstore R200 to R212). -/

namespace Sys2Proof.Machine

/-- LB, zero-extended (43_loadstore R203). -/
def opLb (p : Pred) (off : BitVec 12) (rd rs : Reg) : LaneOp :=
  { pred := p, kind := .memory, dest := some (.reg rd), effect := loadEffect .byte none off rd rs }

/-- LB alone in its packet. -/
def execLb (p : Pred) (off : BitVec 12) (rd rs : Reg) (s : State) : Result :=
  alone (opLb p off rd rs) s

/-- LH, zero-extended (43_loadstore R204). -/
def opLh (p : Pred) (off : BitVec 12) (rd rs : Reg) : LaneOp :=
  { pred := p, kind := .memory, dest := some (.reg rd), effect := loadEffect .half none off rd rs }

/-- LH alone in its packet. -/
def execLh (p : Pred) (off : BitVec 12) (rd rs : Reg) (s : State) : Result :=
  alone (opLh p off rd rs) s

/-- LW, zero-extended (43_loadstore R205). -/
def opLw (p : Pred) (off : BitVec 12) (rd rs : Reg) : LaneOp :=
  { pred := p, kind := .memory, dest := some (.reg rd), effect := loadEffect .word none off rd rs }

/-- LW alone in its packet. -/
def execLw (p : Pred) (off : BitVec 12) (rd rs : Reg) (s : State) : Result :=
  alone (opLw p off rd rs) s

/-- LL: a word load that sets the link bit (43_loadstore R206). -/
def opLl (p : Pred) (off : BitVec 12) (rd rs : Reg) : LaneOp :=
  { pred := p, kind := .memory, dest := some (.reg rd), effect := loadEffect .word (some true) off rd rs }

/-- LL alone in its packet. -/
def execLl (p : Pred) (off : BitVec 12) (rd rs : Reg) (s : State) : Result :=
  alone (opLl p off rd rs) s

/-- SB (43_loadstore R207). -/
def opSb (p : Pred) (off : BitVec 12) (rt rs : Reg) : LaneOp :=
  { pred := p, kind := .memory, effect := storeEffect .byte none none off rt rs }

/-- SB alone in its packet. -/
def execSb (p : Pred) (off : BitVec 12) (rt rs : Reg) (s : State) : Result :=
  alone (opSb p off rt rs) s

/-- SH (43_loadstore R208). -/
def opSh (p : Pred) (off : BitVec 12) (rt rs : Reg) : LaneOp :=
  { pred := p, kind := .memory, effect := storeEffect .half none none off rt rs }

/-- SH alone in its packet. -/
def execSh (p : Pred) (off : BitVec 12) (rt rs : Reg) (s : State) : Result :=
  alone (opSh p off rt rs) s

/-- SW (43_loadstore R209). -/
def opSw (p : Pred) (off : BitVec 12) (rt rs : Reg) : LaneOp :=
  { pred := p, kind := .memory, effect := storeEffect .word none none off rt rs }

/-- SW alone in its packet. -/
def execSw (p : Pred) (off : BitVec 12) (rt rs : Reg) (s : State) : Result :=
  alone (opSw p off rt rs) s

/-- SC: stores and writes P0 = 1 if the link bit is set, else P0 = 0 with no access; the link bit is cleared
either way (43_loadstore R212). -/
def opSc (p : Pred) (off : BitVec 12) (rt rs : Reg) : LaneOp :=
  { pred := p
    kind := .memory
    dest := some (.pred 0#2)
    effect := fun n s =>
      if s.link then storeEffect .word (some (0#2, true)) (some false) off rt rs n s
      else .writes { pred := some (0#2, false), link := some false } }

/-- SC alone in its packet. -/
def execSc (p : Pred) (off : BitVec 12) (rt rs : Reg) (s : State) : Result :=
  alone (opSc p off rt rs) s

end Sys2Proof.Machine
end

