-- ==== Sys2Proof/Machine/Fetch.lean ====
section
/-! DEFINITION. From fetched words to a packet of lane operations, and the fetch (40_packet_execution R122, R123). -/

namespace Sys2Proof.Machine

/-- An instruction as a packet runs it: the same operation that its exec arm runs alone. -/
def opOf (i : Instr) : LaneOp :=
  match i with
  | .addShort p imm rot rd rs => opAddShort p imm rot rd rs
  | .addReg p amt st rt rd rs => opAddReg p amt st rt rd rs
  | .addLong p imm rd rs => opAddLong p imm rd rs
  | .andShort p imm rot rd rs => opAndShort p imm rot rd rs
  | .andReg p amt st rt rd rs => opAndReg p amt st rt rd rs
  | .andLong p imm rd rs => opAndLong p imm rd rs
  | .norShort p imm rot rd rs => opNorShort p imm rot rd rs
  | .norReg p amt st rt rd rs => opNorReg p amt st rt rd rs
  | .norLong p imm rd rs => opNorLong p imm rd rs
  | .orShort p imm rot rd rs => opOrShort p imm rot rd rs
  | .orReg p amt st rt rd rs => opOrReg p amt st rt rd rs
  | .orLong p imm rd rs => opOrLong p imm rd rs
  | .subShort p imm rot rd rs => opSubShort p imm rot rd rs
  | .subReg p amt st rt rd rs => opSubReg p amt st rt rd rs
  | .subLong p imm rd rs => opSubLong p imm rd rs
  | .rsbShort p imm rot rd rs => opRsbShort p imm rot rd rs
  | .rsbReg p amt st rt rd rs => opRsbReg p amt st rt rd rs
  | .rsbLong p imm rd rs => opRsbLong p imm rd rs
  | .xorShort p imm rot rd rs => opXorShort p imm rot rd rs
  | .xorReg p amt st rt rd rs => opXorReg p amt st rt rd rs
  | .xorLong p imm rd rs => opXorLong p imm rd rs
  | .movShort p imm rot rd => opMovShort p imm rot rd
  | .movReg p amt st rt rd => opMovReg p amt st rt rd
  | .movRegsh p st rt rd rs => opMovRegsh p st rt rd rs
  | .movLong p imm rd => opMovLong p imm rd
  | .mvnShort p imm rot rd => opMvnShort p imm rot rd
  | .mvnReg p amt st rt rd => opMvnReg p amt st rt rd
  | .mvnRegsh p st rt rd rs => opMvnRegsh p st rt rd rs
  | .mvnLong p imm rd => opMvnLong p imm rd
  | .sxbShort p imm rot rd => opSxbShort p imm rot rd
  | .sxbReg p amt st rt rd => opSxbReg p amt st rt rd
  | .sxbRegsh p st rt rd rs => opSxbRegsh p st rt rd rs
  | .sxbLong p imm rd => opSxbLong p imm rd
  | .sxhShort p imm rot rd => opSxhShort p imm rot rd
  | .sxhReg p amt st rt rd => opSxhReg p amt st rt rd
  | .sxhRegsh p st rt rd rs => opSxhRegsh p st rt rd rs
  | .sxhLong p imm rd => opSxhLong p imm rd
  | .cmpltuShort p imm rot pd rs => opCmpltuShort p imm rot pd rs
  | .cmpltuReg p amt st rt pd rs => opCmpltuReg p amt st rt pd rs
  | .cmpltuLong p imm pd rs => opCmpltuLong p imm pd rs
  | .cmpleuShort p imm rot pd rs => opCmpleuShort p imm rot pd rs
  | .cmpleuReg p amt st rt pd rs => opCmpleuReg p amt st rt pd rs
  | .cmpleuLong p imm pd rs => opCmpleuLong p imm pd rs
  | .cmpeqShort p imm rot pd rs => opCmpeqShort p imm rot pd rs
  | .cmpeqReg p amt st rt pd rs => opCmpeqReg p amt st rt pd rs
  | .cmpeqLong p imm pd rs => opCmpeqLong p imm pd rs
  | .cmpltsShort p imm rot pd rs => opCmpltsShort p imm rot pd rs
  | .cmpltsReg p amt st rt pd rs => opCmpltsReg p amt st rt pd rs
  | .cmpltsLong p imm pd rs => opCmpltsLong p imm pd rs
  | .cmplesShort p imm rot pd rs => opCmplesShort p imm rot pd rs
  | .cmplesReg p amt st rt pd rs => opCmplesReg p amt st rt pd rs
  | .cmplesLong p imm pd rs => opCmplesLong p imm pd rs
  | .cmpbsShort p imm rot pd rs => opCmpbsShort p imm rot pd rs
  | .cmpbsReg p amt st rt pd rs => opCmpbsReg p amt st rt pd rs
  | .cmpbsLong p imm pd rs => opCmpbsLong p imm pd rs
  | .cmpbcShort p imm rot pd rs => opCmpbcShort p imm rot pd rs
  | .cmpbcReg p amt st rt pd rs => opCmpbcReg p amt st rt pd rs
  | .cmpbcLong p imm pd rs => opCmpbcLong p imm pd rs
  | .bImm p off => opBImm p off
  | .bReg p off rs => opBReg p off rs
  | .blImm p off => opBlImm p off
  | .blReg p off rs => opBlReg p off rs
  | .lb p off rd rs => opLb p off rd rs
  | .lh p off rd rs => opLh p off rd rs
  | .lw p off rd rs => opLw p off rd rs
  | .ll p off rd rs => opLl p off rd rs
  | .sb p off rt rs => opSb p off rt rs
  | .sh p off rt rs => opSh p off rt rs
  | .sw p off rt rs => opSw p off rt rs
  | .sc p off rt rs => opSc p off rt rs
  | .breakpoint p => opBreakpoint p
  | .syscall p => opSyscall p
  | .fence p => opFence p
  | .eret p => opEret p
  | .flush p t rs => opFlush p t rs
  | .mfc p rd cprs => opMfc p rd cprs
  | .mtc p cprd rs => opMtc p cprd rs
  | .mfhi p rd => opMfhi p rd
  | .mthi p rs => opMthi p rs
  | .mult p rt rd rs => opMult p rt rd rs
  | .mults p rt rd rs => opMults p rt rd rs
  | .div p rt rd rs => opDiv p rt rd rs

/-- A word as a slot; `next` is the word in the slot after it (30_encoding R108, R110). -/
def slotOf (w : Word) (next : Option Word) : Slot :=
  match decodeWord w next with
  | .ok i => .op (opOf i)
  | .error _ => .undecodable (decodePred w)

/-- The slots of a packet (40_packet_execution R123): the slot after a Long form that is itself no operand is
an operand, whatever the predicates are. -/
def decodePacket (w : Packet Word) : Packet Slot :=
  let operand1 := isLongWord w.s0
  let operand2 := !operand1 && isLongWord w.s1
  let operand3 := !operand2 && isLongWord w.s2
  { s0 := slotOf w.s0 (some w.s1)
    s1 := if operand1 then .operand else slotOf w.s1 (some w.s2)
    s2 := if operand2 then .operand else slotOf w.s2 (some w.s3)
    s3 := if operand3 then .operand else slotOf w.s3 none }

/-- The four words fetched from physical address `pa`, a multiple of 16 (20_memory R44, R65). -/
def State.fetchWords (s : State) (pa : Nat) : Packet Word where
  s0 := s.fetchWord (pa / 4)
  s1 := s.fetchWord (pa / 4 + 1)
  s2 := s.fetchWord (pa / 4 + 2)
  s3 := s.fetchWord (pa / 4 + 3)

/-- The instruction TLB takes the entry of the fetch's translation (20_memory R58, log 14). -/
def State.fillItlb (s : State) (fill : Option TlbEntry) : State := { s with itlb := addEntry s.itlb fill }

/-- A fetch fault: the code in EC0, 0 in the others, EA untouched (60_exceptions R261, R265). -/
def State.takeFetchFault (s : State) (e : Exc) : Result :=
  s.trapTo (s.takeException { exc := some e, ea := none } .none .none .none).nextDraw

/-- Fetches the packet at `pc` and runs it (40_packet_execution R120 parts 1 to 8, R122). -/
def fetchAndRun (s : State) : Result :=
  if packetAddress s.pc ≠ s.pc then .fault .misalignedPc
  else
    let t := s.translate .fetch 0 s.pc 16
    let s' := s.fillItlb t.fill
    match t.result with
    | .pageFault => s'.takeFetchFault .fetchPageFault
    | .invalidPhys => s'.takeFetchFault .invalidPhysicalAddress
    | .ok pa => runPacket (decodePacket (s.fetchWords pa)) s'

/-- One step of the machine (40_packet_execution R120, R132): what the environment does, and then an interrupt that
it delivers, or a packet. -/
def runStep (s : State) : Result :=
  match s.interrupt with
  | some src => s.arrived.trapTo (s.arrived.takeInterrupt src)
  | none => fetchAndRun s.arrived

/-- A word that is never executed (30_encoding R109). -/
def fillerWord : Word := 0xE0000000#32

/-- The packet that holds only the instruction whose bits are `v`, in slot 0. -/
def soloWords (v : BitVec 64) : Packet Word :=
  let w := v.extractLsb' 0 32
  { s0 := w
    s1 := if isLongWord w then v.extractLsb' 32 32 else fillerWord
    s2 := fillerWord
    s3 := fillerWord }

/-- Places bytes in memory from outside the machine, as a loader does: no cache holds anything else (log 25). -/
def State.load (s : State) : Nat → List Byte → State
  | _, [] => s
  | pa, b :: bs =>
    State.load
      { s with
        mem := Memory.set s.mem pa b
        l2 := s.l2.filter fun e => !(e.addr == pa)
        l1i := s.l1i.filter fun e => !(e.word == pa / 4) }
      (pa + 1) bs

/-- Places a packet where the next fetch reads it; if the environment delivers an interrupt before that fetch or
acts on memory, caches or TLBs, its inputs are withdrawn. -/
def State.loadPacket (s : State) (w : Packet Word) : State :=
  let s' := if s.interrupt.isSome || !s.acts.isEmpty then { s with inputs := [] } else s
  match (s'.translate .fetch 0 s.pc 16).result with
  | .ok pa => s'.load pa (bytesOfWord w.s0 ++ bytesOfWord w.s1 ++ bytesOfWord w.s2 ++ bytesOfWord w.s3)
  | .pageFault => s'
  | .invalidPhys => s'

end Sys2Proof.Machine
end

