-- ==== Sys2Proof/Machine/Dispatch.lean ====
section
/-! DEFINITION. The meaning of each instruction. -/

namespace Sys2Proof.Machine

def exec (i : Instr) (s : State) : Host.Outcome State Fault Refusal :=
  match i with
  | .addShort p imm rot rd rs => Sys2Proof.Machine.execAddShort p imm rot rd rs s
  | .addReg p amt st rt rd rs => Sys2Proof.Machine.execAddReg p amt st rt rd rs s
  | .addLong p imm rd rs => Sys2Proof.Machine.execAddLong p imm rd rs s
  | .andShort p imm rot rd rs => Sys2Proof.Machine.execAndShort p imm rot rd rs s
  | .andReg p amt st rt rd rs => Sys2Proof.Machine.execAndReg p amt st rt rd rs s
  | .andLong p imm rd rs => Sys2Proof.Machine.execAndLong p imm rd rs s
  | .norShort p imm rot rd rs => Sys2Proof.Machine.execNorShort p imm rot rd rs s
  | .norReg p amt st rt rd rs => Sys2Proof.Machine.execNorReg p amt st rt rd rs s
  | .norLong p imm rd rs => Sys2Proof.Machine.execNorLong p imm rd rs s
  | .orShort p imm rot rd rs => Sys2Proof.Machine.execOrShort p imm rot rd rs s
  | .orReg p amt st rt rd rs => Sys2Proof.Machine.execOrReg p amt st rt rd rs s
  | .orLong p imm rd rs => Sys2Proof.Machine.execOrLong p imm rd rs s
  | .subShort p imm rot rd rs => Sys2Proof.Machine.execSubShort p imm rot rd rs s
  | .subReg p amt st rt rd rs => Sys2Proof.Machine.execSubReg p amt st rt rd rs s
  | .subLong p imm rd rs => Sys2Proof.Machine.execSubLong p imm rd rs s
  | .rsbShort p imm rot rd rs => Sys2Proof.Machine.execRsbShort p imm rot rd rs s
  | .rsbReg p amt st rt rd rs => Sys2Proof.Machine.execRsbReg p amt st rt rd rs s
  | .rsbLong p imm rd rs => Sys2Proof.Machine.execRsbLong p imm rd rs s
  | .xorShort p imm rot rd rs => Sys2Proof.Machine.execXorShort p imm rot rd rs s
  | .xorReg p amt st rt rd rs => Sys2Proof.Machine.execXorReg p amt st rt rd rs s
  | .xorLong p imm rd rs => Sys2Proof.Machine.execXorLong p imm rd rs s
  | .movShort p imm rot rd => Sys2Proof.Machine.execMovShort p imm rot rd s
  | .movReg p amt st rt rd => Sys2Proof.Machine.execMovReg p amt st rt rd s
  | .movRegsh p st rt rd rs => Sys2Proof.Machine.execMovRegsh p st rt rd rs s
  | .movLong p imm rd => Sys2Proof.Machine.execMovLong p imm rd s
  | .mvnShort p imm rot rd => Sys2Proof.Machine.execMvnShort p imm rot rd s
  | .mvnReg p amt st rt rd => Sys2Proof.Machine.execMvnReg p amt st rt rd s
  | .mvnRegsh p st rt rd rs => Sys2Proof.Machine.execMvnRegsh p st rt rd rs s
  | .mvnLong p imm rd => Sys2Proof.Machine.execMvnLong p imm rd s
  | .sxbShort p imm rot rd => Sys2Proof.Machine.execSxbShort p imm rot rd s
  | .sxbReg p amt st rt rd => Sys2Proof.Machine.execSxbReg p amt st rt rd s
  | .sxbRegsh p st rt rd rs => Sys2Proof.Machine.execSxbRegsh p st rt rd rs s
  | .sxbLong p imm rd => Sys2Proof.Machine.execSxbLong p imm rd s
  | .sxhShort p imm rot rd => Sys2Proof.Machine.execSxhShort p imm rot rd s
  | .sxhReg p amt st rt rd => Sys2Proof.Machine.execSxhReg p amt st rt rd s
  | .sxhRegsh p st rt rd rs => Sys2Proof.Machine.execSxhRegsh p st rt rd rs s
  | .sxhLong p imm rd => Sys2Proof.Machine.execSxhLong p imm rd s
  | .cmpltuShort p imm rot pd rs => Sys2Proof.Machine.execCmpltuShort p imm rot pd rs s
  | .cmpltuReg p amt st rt pd rs => Sys2Proof.Machine.execCmpltuReg p amt st rt pd rs s
  | .cmpltuLong p imm pd rs => Sys2Proof.Machine.execCmpltuLong p imm pd rs s
  | .cmpleuShort p imm rot pd rs => Sys2Proof.Machine.execCmpleuShort p imm rot pd rs s
  | .cmpleuReg p amt st rt pd rs => Sys2Proof.Machine.execCmpleuReg p amt st rt pd rs s
  | .cmpleuLong p imm pd rs => Sys2Proof.Machine.execCmpleuLong p imm pd rs s
  | .cmpeqShort p imm rot pd rs => Sys2Proof.Machine.execCmpeqShort p imm rot pd rs s
  | .cmpeqReg p amt st rt pd rs => Sys2Proof.Machine.execCmpeqReg p amt st rt pd rs s
  | .cmpeqLong p imm pd rs => Sys2Proof.Machine.execCmpeqLong p imm pd rs s
  | .cmpltsShort p imm rot pd rs => Sys2Proof.Machine.execCmpltsShort p imm rot pd rs s
  | .cmpltsReg p amt st rt pd rs => Sys2Proof.Machine.execCmpltsReg p amt st rt pd rs s
  | .cmpltsLong p imm pd rs => Sys2Proof.Machine.execCmpltsLong p imm pd rs s
  | .cmplesShort p imm rot pd rs => Sys2Proof.Machine.execCmplesShort p imm rot pd rs s
  | .cmplesReg p amt st rt pd rs => Sys2Proof.Machine.execCmplesReg p amt st rt pd rs s
  | .cmplesLong p imm pd rs => Sys2Proof.Machine.execCmplesLong p imm pd rs s
  | .cmpbsShort p imm rot pd rs => Sys2Proof.Machine.execCmpbsShort p imm rot pd rs s
  | .cmpbsReg p amt st rt pd rs => Sys2Proof.Machine.execCmpbsReg p amt st rt pd rs s
  | .cmpbsLong p imm pd rs => Sys2Proof.Machine.execCmpbsLong p imm pd rs s
  | .cmpbcShort p imm rot pd rs => Sys2Proof.Machine.execCmpbcShort p imm rot pd rs s
  | .cmpbcReg p amt st rt pd rs => Sys2Proof.Machine.execCmpbcReg p amt st rt pd rs s
  | .cmpbcLong p imm pd rs => Sys2Proof.Machine.execCmpbcLong p imm pd rs s
  | .bImm p off => Sys2Proof.Machine.execBImm p off s
  | .bReg p off rs => Sys2Proof.Machine.execBReg p off rs s
  | .blImm p off => Sys2Proof.Machine.execBlImm p off s
  | .blReg p off rs => Sys2Proof.Machine.execBlReg p off rs s
  | .lb p off rd rs => Sys2Proof.Machine.execLb p off rd rs s
  | .lh p off rd rs => Sys2Proof.Machine.execLh p off rd rs s
  | .lw p off rd rs => Sys2Proof.Machine.execLw p off rd rs s
  | .ll p off rd rs => Sys2Proof.Machine.execLl p off rd rs s
  | .sb p off rt rs => Sys2Proof.Machine.execSb p off rt rs s
  | .sh p off rt rs => Sys2Proof.Machine.execSh p off rt rs s
  | .sw p off rt rs => Sys2Proof.Machine.execSw p off rt rs s
  | .sc p off rt rs => Sys2Proof.Machine.execSc p off rt rs s
  | .breakpoint p => Sys2Proof.Machine.execBreakpoint p s
  | .syscall p => Sys2Proof.Machine.execSyscall p s
  | .fence p => Sys2Proof.Machine.execFence p s
  | .eret p => Sys2Proof.Machine.execEret p s
  | .flush p t rs => Sys2Proof.Machine.execFlush p t rs s
  | .mfc p rd cprs => Sys2Proof.Machine.execMfc p rd cprs s
  | .mtc p cprd rs => Sys2Proof.Machine.execMtc p cprd rs s
  | .mfhi p rd => Sys2Proof.Machine.execMfhi p rd s
  | .mthi p rs => Sys2Proof.Machine.execMthi p rs s
  | .mult p rt rd rs => Sys2Proof.Machine.execMult p rt rd rs s
  | .mults p rt rd rs => Sys2Proof.Machine.execMults p rt rd rs s
  | .div p rt rd rs => Sys2Proof.Machine.execDiv p rt rd rs s

end Sys2Proof.Machine
end

