-- ==== Sys2Proof/Machine/Step.lean ====
section
/-! DEFINITION. One step of the machine, and the state in which the next step fetches a given instruction. -/

namespace Sys2Proof.Machine

/-- One step (40_packet_execution R120): an interrupt is taken, or the packet at `pc` is fetched and run. -/
def step (s : State) : Host.Outcome State Fault Refusal := runStep s

/-- `s` with the instruction of bits `w` in slot 0 of the packet that the next step fetches, and the other
slots never executed. -/
def State.withFetchWord (s : State) (nbits w : Nat) : State :=
  s.loadPacket (soloWords (BitVec.ofNat 64 (w % 2 ^ nbits)))

end Sys2Proof.Machine
end

