-- ==== Sys2Proof/WellFormed.lean ====
section
/-! DEFINITION. Well-formed instructions and packets: what a correct program contains. The decoder and the
machine do not rely on it; an ill-formed packet has the meaning the spec gives it (a refusal, or an
Illegal Instruction exception). -/

namespace Sys2Proof

/-- The type of an instruction (30_encoding R113). -/
def Instr.kind : Instr → Kind
  | .addShort .. | .addReg .. | .addLong .. | .andShort .. | .andReg .. | .andLong .. | .norShort ..
  | .norReg .. | .norLong .. | .orShort .. | .orReg .. | .orLong .. | .subShort .. | .subReg ..
  | .subLong .. | .rsbShort .. | .rsbReg .. | .rsbLong .. | .xorShort .. | .xorReg .. | .xorLong ..
  | .movShort .. | .movReg .. | .movRegsh .. | .movLong .. | .mvnShort .. | .mvnReg .. | .mvnRegsh ..
  | .mvnLong .. | .sxbShort .. | .sxbReg .. | .sxbRegsh .. | .sxbLong .. | .sxhShort .. | .sxhReg ..
  | .sxhRegsh .. | .sxhLong .. | .cmpltuShort .. | .cmpltuReg .. | .cmpltuLong .. | .cmpleuShort ..
  | .cmpleuReg .. | .cmpleuLong .. | .cmpeqShort .. | .cmpeqReg .. | .cmpeqLong .. | .cmpltsShort ..
  | .cmpltsReg .. | .cmpltsLong .. | .cmplesShort .. | .cmplesReg .. | .cmplesLong ..
  | .cmpbsShort .. | .cmpbsReg .. | .cmpbsLong .. | .cmpbcShort .. | .cmpbcReg .. | .cmpbcLong .. => .alu
  | .lb .. | .lh .. | .lw .. | .ll .. | .sb .. | .sh .. | .sw .. | .sc .. => .memory
  | .bImm .. | .bReg .. | .blImm .. | .blReg .. | .breakpoint .. | .syscall .. | .fence .. | .eret ..
  | .flush .. | .mfc .. | .mtc .. | .mfhi .. | .mthi .. | .mult .. | .mults .. | .div .. => .control

/-- The instruction takes the next slot as its 32-bit operand (30_encoding R94, R97). -/
def Instr.isLong : Instr → Bool
  | .addLong .. | .andLong .. | .norLong .. | .orLong .. | .subLong .. | .rsbLong .. | .xorLong ..
  | .movLong .. | .mvnLong .. | .sxbLong .. | .sxhLong .. | .cmpltuLong .. | .cmpleuLong ..
  | .cmpeqLong .. | .cmpltsLong .. | .cmplesLong .. | .cmpbsLong .. | .cmpbcLong .. => true
  | .addShort .. | .addReg .. | .andShort .. | .andReg .. | .norShort .. | .norReg .. | .orShort ..
  | .orReg .. | .subShort .. | .subReg .. | .rsbShort .. | .rsbReg .. | .xorShort .. | .xorReg ..
  | .movShort .. | .movReg .. | .movRegsh .. | .mvnShort .. | .mvnReg .. | .mvnRegsh ..
  | .sxbShort .. | .sxbReg .. | .sxbRegsh .. | .sxhShort .. | .sxhReg .. | .sxhRegsh ..
  | .cmpltuShort .. | .cmpltuReg .. | .cmpleuShort .. | .cmpleuReg .. | .cmpeqShort .. | .cmpeqReg ..
  | .cmpltsShort .. | .cmpltsReg .. | .cmplesShort .. | .cmplesReg .. | .cmpbsShort .. | .cmpbsReg ..
  | .cmpbcShort .. | .cmpbcReg .. | .lb .. | .lh .. | .lw .. | .ll .. | .sb .. | .sh .. | .sw ..
  | .sc .. | .bImm .. | .bReg .. | .blImm .. | .blReg .. | .breakpoint .. | .syscall .. | .fence ..
  | .eret .. | .flush .. | .mfc .. | .mtc .. | .mfhi .. | .mthi .. | .mult .. | .mults .. | .div .. => false

/-- An instruction is well formed when every coprocessor register it names is a listed one (10_state R18);
all other fields admit every value. -/
def Instr.wellFormed (i : Instr) : Bool :=
  match i with
  | .mfc _ _ n => (CpReg.ofNumber n).isSome
  | .mtc _ n _ => (CpReg.ofNumber n).isSome
  | _ => true

/-- The slots a type may occupy (30_encoding R113). -/
def Kind.fits (k : Kind) (n : Lane) : Bool :=
  match k with
  | .alu => true
  | .memory => n.val ≤ 1
  | .control => n.val = 0

/-- An instruction may stand in slot `n`: its type allows the slot, and a Long form is not last (R113). -/
def Instr.fits (i : Instr) (n : Lane) : Bool :=
  i.kind.fits n && !(i.isLong && n.val = 3)

/-- Instructions laid from slot `n` on are a well-formed packet: each is well formed and fits its slot, a Long
form takes two slots, and the four slots are not exceeded (30_encoding R110, R113). -/
def wellFormedFrom : Nat → List Instr → Bool
  | _, [] => true
  | n, i :: is =>
    if h : n < 4 then
      i.wellFormed && i.fits ⟨n, h⟩ && wellFormedFrom (n + if i.isLong then 2 else 1) is
    else false

/-- A well-formed packet, its instructions in slot order. -/
def wellFormedPacket (is : List Instr) : Bool := wellFormedFrom 0 is

end Sys2Proof
end

