-- ==== Sys2Proof/Safety.lean ====
section
/-! DEFINITION. The terms in which statements about the machine are made: the invariant of every step, the states
that an instruction, a packet or a trap leaves (written out field by field, so that each is its own frame), and what
a fetch gives to run. -/

namespace Sys2Proof

/-- The predicate field of an instruction (30_encoding R81). -/
def Instr.pred : Instr → Pred
  | .addShort p .. | .addReg p .. | .addLong p .. | .andShort p .. | .andReg p .. | .andLong p ..
  | .norShort p .. | .norReg p .. | .norLong p .. | .orShort p .. | .orReg p .. | .orLong p ..
  | .subShort p .. | .subReg p .. | .subLong p .. | .rsbShort p .. | .rsbReg p .. | .rsbLong p ..
  | .xorShort p .. | .xorReg p .. | .xorLong p .. | .movShort p .. | .movReg p .. | .movRegsh p ..
  | .movLong p .. | .mvnShort p .. | .mvnReg p .. | .mvnRegsh p .. | .mvnLong p .. | .sxbShort p ..
  | .sxbReg p .. | .sxbRegsh p .. | .sxbLong p .. | .sxhShort p .. | .sxhReg p .. | .sxhRegsh p ..
  | .sxhLong p .. | .cmpltuShort p .. | .cmpltuReg p .. | .cmpltuLong p .. | .cmpleuShort p ..
  | .cmpleuReg p .. | .cmpleuLong p .. | .cmpeqShort p .. | .cmpeqReg p .. | .cmpeqLong p ..
  | .cmpltsShort p .. | .cmpltsReg p .. | .cmpltsLong p .. | .cmplesShort p .. | .cmplesReg p ..
  | .cmplesLong p .. | .cmpbsShort p .. | .cmpbsReg p .. | .cmpbsLong p .. | .cmpbcShort p .. | .cmpbcReg p ..
  | .cmpbcLong p .. | .bImm p .. | .bReg p .. | .blImm p .. | .blReg p .. | .lb p .. | .lh p .. | .lw p ..
  | .ll p .. | .sb p .. | .sh p .. | .sw p .. | .sc p .. | .breakpoint p | .syscall p | .fence p | .eret p
  | .flush p .. | .mfc p .. | .mtc p .. | .mfhi p .. | .mthi p .. | .mult p .. | .mults p .. | .div p .. => p

/-- The instructions of kernel mode only (45_control R237). -/
def Instr.privileged (i : Instr) : Bool :=
  match i with
  | .eret _ => true
  | .mfc .. => true
  | .mtc .. => true
  | _ => false

/-- An LL. -/
def Instr.isLl (i : Instr) : Bool :=
  match i with
  | .ll .. => true
  | _ => false

/-- An SC. -/
def Instr.isSc (i : Instr) : Bool :=
  match i with
  | .sc .. => true
  | _ => false

/-- An ERET. -/
def Instr.isEret (i : Instr) : Bool :=
  match i with
  | .eret _ => true
  | _ => false

/-- The destination that Duplicate Destination compares, by the table of 40_packet_execution R127: the `Rd` of ALU
instructions, loads, MFC, MFHI, MULT, MULTS and DIV, R31 of a BL, the `Pd` of a compare other than P3, P0 of an SC. -/
def Instr.destination (i : Instr) : Option Machine.Dest :=
  match i with
  | .addShort _ _ _ rd _ | .addReg _ _ _ _ rd _ | .addLong _ _ rd _
  | .andShort _ _ _ rd _ | .andReg _ _ _ _ rd _ | .andLong _ _ rd _
  | .norShort _ _ _ rd _ | .norReg _ _ _ _ rd _ | .norLong _ _ rd _
  | .orShort _ _ _ rd _ | .orReg _ _ _ _ rd _ | .orLong _ _ rd _
  | .subShort _ _ _ rd _ | .subReg _ _ _ _ rd _ | .subLong _ _ rd _
  | .rsbShort _ _ _ rd _ | .rsbReg _ _ _ _ rd _ | .rsbLong _ _ rd _
  | .xorShort _ _ _ rd _ | .xorReg _ _ _ _ rd _ | .xorLong _ _ rd _
  | .movShort _ _ _ rd | .movReg _ _ _ _ rd | .movRegsh _ _ _ rd _ | .movLong _ _ rd
  | .mvnShort _ _ _ rd | .mvnReg _ _ _ _ rd | .mvnRegsh _ _ _ rd _ | .mvnLong _ _ rd
  | .sxbShort _ _ _ rd | .sxbReg _ _ _ _ rd | .sxbRegsh _ _ _ rd _ | .sxbLong _ _ rd
  | .sxhShort _ _ _ rd | .sxhReg _ _ _ _ rd | .sxhRegsh _ _ _ rd _ | .sxhLong _ _ rd
  | .lb _ _ rd _ | .lh _ _ rd _ | .lw _ _ rd _ | .ll _ _ rd _
  | .mfc _ rd _ | .mfhi _ rd | .mult _ _ rd _ | .mults _ _ rd _ | .div _ _ rd _ => some (.reg rd)
  | .blImm .. | .blReg .. => some (.reg 31#5)
  | .cmpltuShort _ _ _ pd _ | .cmpltuReg _ _ _ _ pd _ | .cmpltuLong _ _ pd _
  | .cmpleuShort _ _ _ pd _ | .cmpleuReg _ _ _ _ pd _ | .cmpleuLong _ _ pd _
  | .cmpeqShort _ _ _ pd _ | .cmpeqReg _ _ _ _ pd _ | .cmpeqLong _ _ pd _
  | .cmpltsShort _ _ _ pd _ | .cmpltsReg _ _ _ _ pd _ | .cmpltsLong _ _ pd _
  | .cmplesShort _ _ _ pd _ | .cmplesReg _ _ _ _ pd _ | .cmplesLong _ _ pd _
  | .cmpbsShort _ _ _ pd _ | .cmpbsReg _ _ _ _ pd _ | .cmpbsLong _ _ pd _
  | .cmpbcShort _ _ _ pd _ | .cmpbcReg _ _ _ _ pd _ | .cmpbcLong _ _ pd _ =>
    if pd = 3#2 then none else some (.pred pd)
  | .sc .. => some (.pred 0#2)
  | .bImm .. | .bReg .. | .sb .. | .sh .. | .sw .. | .breakpoint _ | .syscall _ | .fence _ | .eret _ | .flush ..
  | .mtc .. | .mthi .. => none

end Sys2Proof

namespace Sys2Proof.Machine

-- Invariant ------------------------------------------------------------------------------------------------------

/-- What every step keeps: `pc` is a packet address (10_state R12, 44_branch R224), the bits of PFLAGS that do not
exist are 0 (10_state R20), memory has its canonical form inside the physical address space (20_memory R41), each TLB
holds at most one entry for a page (R58), and the L2 cache is recorded once for a byte of the physical address space. -/
def State.Inv (s : State) : Prop :=
  s.pc &&& 0xF#32 = 0#32 ∧ s.pflags &&& 0xFFFFFFFC#32 = 0#32 ∧ Memory.wf s.mem = true ∧
  (s.itlb.map (·.vpn)).Nodup ∧ (s.dtlb.map (·.vpn)).Nodup ∧
  (s.l2.map (·.addr)).Nodup ∧ ∀ e ∈ s.l2, e.addr < 2 ^ 29

-- States after one instruction -------------------------------------------------------------------------------------

/-- The machine passed on to the next packet and changed nothing else (10_state R35). -/
def State.onward (s : State) : State := { s with pc := s.pc + 16#32, draw := s.draw + 1 }

/-- The machine passed on with `v` in general register `r` and nothing else changed. -/
def State.onwardReg (s : State) (r : Reg) (v : Word) : State :=
  { s with regs := s.regs.set r.toNat v r.isLt, pc := s.pc + 16#32, draw := s.draw + 1 }

/-- The machine passed on with `b` in predicate register `n` (nowhere for P3, 10_state R14) and nothing else
changed. -/
def State.onwardPred (s : State) (n : PredReg) (b : Bool) : State :=
  { s with
    p0 := if n = 0#2 then b else s.p0
    p1 := if n = 1#2 then b else s.p1
    p2 := if n = 2#2 then b else s.p2
    pc := s.pc + 16#32
    draw := s.draw + 1 }

/-- The machine passed on with `v` in `hi`, `r` in register `rd`, and nothing else changed. -/
def State.onwardRegHi (s : State) (rd : Reg) (r v : Word) : State :=
  { s with regs := s.regs.set rd.toNat r rd.isLt, hi := v, pc := s.pc + 16#32, draw := s.draw + 1 }

/-- Control went to `target` and nothing else changed. -/
def State.jumped (s : State) (target : Word) : State := { s with pc := target, draw := s.draw + 1 }

/-- The instruction's predicate is true: `p[n] XOR invert`, with P3 = 1 (40_packet_execution R121). -/
def State.runs (s : State) (p : Pred) : Prop :=
  (if p.reg = 0#2 then s.p0 else if p.reg = 1#2 then s.p1 else if p.reg = 2#2 then s.p2 else true) ≠ p.inv

-- Forms of the ALU and compare instructions --------------------------------------------------------------------------

/-- The predicate field of a word (30_encoding R81). -/
def predField (w : Word) : Pred := { reg := w.extractLsb' 30 2, inv := w.getLsbD 29 }

/-- A Short word with the given ALU opcode: `inst[28]` = 0 (30_encoding R83 to R85). -/
def ShortWord (w : Word) (op : BitVec 4) : Prop := w.extractLsb' 28 1 = 0#1 ∧ w.extractLsb' 10 4 = op

/-- A Register word: `inst[28:26]` = `101` (R86, R87). -/
def RegisterWord (w : Word) (op : BitVec 4) : Prop := w.extractLsb' 26 3 = 0b101#3 ∧ w.extractLsb' 10 4 = op

/-- A Regsh word: `inst[28:21]` = `10000001` (R93). -/
def RegshWord (w : Word) (op : BitVec 4) : Prop := w.extractLsb' 21 8 = 0b10000001#8 ∧ w.extractLsb' 10 4 = op

/-- A Long word: `inst[28:14]` = `100000000000000` (R94). -/
def LongWord (w : Word) (op : BitVec 4) : Prop :=
  w.extractLsb' 14 15 = 0b100000000000000#15 ∧ w.extractLsb' 10 4 = op

/-- A Control word: `inst[28:24]` = `10001` (R92). -/
def ControlWord (w : Word) (op : BitVec 4) : Prop := w.extractLsb' 24 5 = 0b10001#5 ∧ w.extractLsb' 20 4 = op

/-- The three forms of a two-operand ALU instruction have ALU opcode `op` (R83, R86, R94, R102). -/
def TwoOperandForms (op : BitVec 4) (short : Pred → BitVec 10 → BitVec 4 → Reg → Reg → Instr)
    (reg : Pred → BitVec 5 → ShiftType → Reg → Reg → Reg → Instr) (long : Pred → Word → Reg → Reg → Instr) : Prop :=
  ∀ w imm : Word,
    (ShortWord w op → ∀ next, decodeWord w next =
      .ok (short (predField w) (w.extractLsb' 18 10) (w.extractLsb' 14 4) (w.extractLsb' 5 5) (w.extractLsb' 0 5))) ∧
    (RegisterWord w op → ∀ next, decodeWord w next =
      .ok (reg (predField w) (w.extractLsb' 21 5) (ShiftType.ofBits (w.extractLsb' 19 2)) (w.extractLsb' 14 5)
        (w.extractLsb' 5 5) (w.extractLsb' 0 5))) ∧
    (LongWord w op → decodeWord w (some imm) =
      .ok (long (predField w) imm (w.extractLsb' 5 5) (w.extractLsb' 0 5)))

/-- Every form of a two-operand ALU instruction writes `f (x[Rs], OP2)` to Rd and nothing else (41_alu R156). -/
def TwoOperandResult (f : Word → Word → Word) (short : Pred → BitVec 10 → BitVec 4 → Reg → Reg → Instr)
    (reg : Pred → BitVec 5 → ShiftType → Reg → Reg → Reg → Instr) (long : Pred → Word → Reg → Reg → Instr) : Prop :=
  ∀ (s : State) (p : Pred) (rd rs : Reg), s.runs p →
    (∀ imm rot, exec (short p imm rot rd rs) s = .next (s.onwardReg rd (f (s.reg rs) (op2Short imm rot)))) ∧
    (∀ amt st rt, exec (reg p amt st rt rd rs) s =
      .next (s.onwardReg rd (f (s.reg rs) (shift (s.reg rt) st amt.toNat)))) ∧
    (∀ imm, exec (long p imm rd rs) s = .next (s.onwardReg rd (f (s.reg rs) imm)))

/-- The four forms of a one-operand ALU instruction have ALU opcode `op`; the Short constant's high five bits stand
at 4:0, and the Register and Long forms ignore 4:0 (R84, R86, R93, R94, R96, R102). -/
def OneOperandForms (op : BitVec 4) (short : Pred → BitVec 15 → BitVec 4 → Reg → Instr)
    (reg : Pred → BitVec 5 → ShiftType → Reg → Reg → Instr) (regsh : Pred → ShiftType → Reg → Reg → Reg → Instr)
    (long : Pred → Word → Reg → Instr) : Prop :=
  ∀ w imm : Word,
    (ShortWord w op → ∀ next, decodeWord w next =
      .ok (short (predField w) (w.extractLsb' 0 5 ++ w.extractLsb' 18 10) (w.extractLsb' 14 4)
        (w.extractLsb' 5 5))) ∧
    (RegisterWord w op → ∀ next, decodeWord w next =
      .ok (reg (predField w) (w.extractLsb' 21 5) (ShiftType.ofBits (w.extractLsb' 19 2)) (w.extractLsb' 14 5)
        (w.extractLsb' 5 5))) ∧
    (RegshWord w op → ∀ next, decodeWord w next =
      .ok (regsh (predField w) (ShiftType.ofBits (w.extractLsb' 19 2)) (w.extractLsb' 14 5) (w.extractLsb' 5 5)
        (w.extractLsb' 0 5))) ∧
    (LongWord w op → decodeWord w (some imm) = .ok (long (predField w) imm (w.extractLsb' 5 5)))

/-- Every form of a one-operand ALU instruction writes `f (OP2)` to Rd and nothing else; in the Regsh form the
amount is the unsigned value of Rs (41_alu R154, R156). -/
def OneOperandResult (f : Word → Word) (short : Pred → BitVec 15 → BitVec 4 → Reg → Instr)
    (reg : Pred → BitVec 5 → ShiftType → Reg → Reg → Instr) (regsh : Pred → ShiftType → Reg → Reg → Reg → Instr)
    (long : Pred → Word → Reg → Instr) : Prop :=
  ∀ (s : State) (p : Pred) (rd : Reg), s.runs p →
    (∀ imm rot, exec (short p imm rot rd) s = .next (s.onwardReg rd (f (op2Short15 imm rot)))) ∧
    (∀ amt st rt, exec (reg p amt st rt rd) s = .next (s.onwardReg rd (f (shift (s.reg rt) st amt.toNat)))) ∧
    (∀ st rt rs, exec (regsh p st rt rd rs) s =
      .next (s.onwardReg rd (f (shift (s.reg rt) st (s.reg rs).toNat)))) ∧
    (∀ imm, exec (long p imm rd) s = .next (s.onwardReg rd (f imm)))

/-- The three forms of a compare have ALU opcode `0111` and compare type `ctype` (R85, R87, R94, R103). -/
def CompareForms (ctype : BitVec 3) (short : Pred → BitVec 10 → BitVec 4 → PredReg → Reg → Instr)
    (reg : Pred → BitVec 5 → ShiftType → Reg → PredReg → Reg → Instr) (long : Pred → Word → PredReg → Reg → Instr) :
    Prop :=
  ∀ w imm : Word, w.extractLsb' 7 3 = ctype →
    (ShortWord w 0b0111#4 → ∀ next, decodeWord w next =
      .ok (short (predField w) (w.extractLsb' 18 10) (w.extractLsb' 14 4) (w.extractLsb' 5 2) (w.extractLsb' 0 5))) ∧
    (RegisterWord w 0b0111#4 → ∀ next, decodeWord w next =
      .ok (reg (predField w) (w.extractLsb' 21 5) (ShiftType.ofBits (w.extractLsb' 19 2)) (w.extractLsb' 14 5)
        (w.extractLsb' 5 2) (w.extractLsb' 0 5))) ∧
    (LongWord w 0b0111#4 → decodeWord w (some imm) =
      .ok (long (predField w) imm (w.extractLsb' 5 2) (w.extractLsb' 0 5)))

/-- Every form of a compare writes 1 to Pd if `c (x[Rs], OP2)` holds and 0 otherwise (nothing for P3), and changes
nothing else (42_compare R180). -/
def CompareResult (c : Word → Word → Prop) (short : Pred → BitVec 10 → BitVec 4 → PredReg → Reg → Instr)
    (reg : Pred → BitVec 5 → ShiftType → Reg → PredReg → Reg → Instr) (long : Pred → Word → PredReg → Reg → Instr) :
    Prop :=
  ∀ (s : State) (p : Pred) (pd : PredReg) (rs : Reg) (b : Bool), s.runs p →
    (∀ imm rot, (b = true ↔ c (s.reg rs) (op2Short imm rot)) →
      exec (short p imm rot pd rs) s = .next (s.onwardPred pd b)) ∧
    (∀ amt st rt, (b = true ↔ c (s.reg rs) (shift (s.reg rt) st amt.toNat)) →
      exec (reg p amt st rt pd rs) s = .next (s.onwardPred pd b)) ∧
    (∀ imm, (b = true ↔ c (s.reg rs) imm) → exec (long p imm pd rs) s = .next (s.onwardPred pd b))

/-- The bits of an instruction's word that the listings do not draw `X` and the decoder does not ignore
(30_encoding R92, R106, R107). -/
def usedBits (i : Instr) : Word :=
  match i with
  | .movReg .. | .mvnReg .. | .sxbReg .. | .sxhReg .. => 0xFFFFFFE0#32
  | .movLong .. | .mvnLong .. | .sxbLong .. | .sxhLong .. => 0xFFFFFFE0#32
  | .breakpoint _ | .syscall _ | .fence _ | .eret _ => 0xFFF00000#32
  | .flush .. => 0xFFF00C1F#32
  | .mfc .. | .mtc .. => 0xFFF003FF#32
  | .mfhi .. => 0xFFF003E0#32
  | .mthi .. => 0xFFF0001F#32
  | .mult .. | .mults .. => 0xFFFFC3FF#32
  | .div .. => 0xFFF7C3FF#32
  | _ => 0xFFFFFFFF#32

-- Traps ------------------------------------------------------------------------------------------------------------

/-- EPC as a trap leaves it: the packet's address, two zero bits, the interrupt enable, the mode
(10_state R23, 60_exceptions R270). -/
def State.contextWord (s : State) : Word :=
  (s.pc &&& 0xFFFFFFF0#32) ||| (if s.pflags.getLsbD 0 then 2#32 else 0#32) ||| (if s.mode = .kernel then 1#32 else 0#32)

/-- The state after trap entry with the given EC and EA registers: everything a trap changes stands here
(60_exceptions R270). -/
def State.trapped (s : State) (ec : Packet Word) (ea0 ea1 : Word) : State :=
  { s with
    epc := s.contextWord
    pflags := s.pflags &&& 0xFFFFFFFE#32
    mode := .kernel
    link := false
    pc := s.eha &&& 0xFFFFFFF0#32
    ec0 := ec.s0
    ec1 := ec.s1
    ec2 := ec.s2
    ec3 := ec.s3
    ea0 := ea0
    ea1 := ea1
    draw := s.draw + 1 }

/-- The EC registers in lane order. -/
def State.ecs (s : State) : Packet Word := { s0 := s.ec0, s1 := s.ec1, s2 := s.ec2, s3 := s.ec3 }

/-- `t` is `s` after a trap: of `s` it changes what trap entry writes and nothing else, so that no register,
predicate or byte of memory that the packet would have written is (40_packet_execution R128). -/
def TrapOf (s t : State) : Prop := t = s.trapped t.ecs t.ea0 t.ea1

-- Memory -----------------------------------------------------------------------------------------------------------

/-- Byte `i` of a word, counted from the least significant: what a little-endian access has at offset `i`
(20_memory R43). -/
def byteAt (v : Word) (i : Nat) : Byte := v.extractLsb' (8 * i) 8

/-- The word whose bytes, from the lowest address up, are `b0` to `b3` (20_memory R43). -/
def wordLE (b0 b1 b2 b3 : Byte) : Word :=
  b0.setWidth 32 ||| b1.setWidth 32 <<< 8 ||| b2.setWidth 32 <<< 16 ||| b3.setWidth 32 <<< 24

/-- `t` is `s` after a store of the low `n` bytes of `v` at physical address `pa` that passed on to the next
packet: exactly those bytes of memory hold new values (43_loadstore R210), and the L2 cache keeps all its bytes
(20_memory R68). Besides them only `pc`, the data TLB (`fill`) and the draw counter change. -/
def StoredAt (s t : State) (pa n : Nat) (v : Word) (fill : Option TlbEntry) : Prop :=
  (∀ a, t.memByte a = if pa ≤ a ∧ a < pa + n then byteAt v (a - pa) else s.memByte a) ∧
  (∀ a, t.l2Byte a = s.l2Byte a) ∧
  t = { s with
        mem := t.mem
        l2 := t.l2
        dtlb := addEntry s.dtlb fill
        pc := s.pc + 16#32
        draw := s.draw + 1 }

/-- The L1 data cache shows the core an older byte at `x` than a DMA peripheral has written (20_memory R68). -/
def State.showsOlder (s : State) (x : Nat) : Bool :=
  match s.l2Copy x with
  | some (.ahead _) => true
  | some (.behind _) => false
  | none => false

/-- The core has stored the byte at `x`, and the L2 cache does not have it yet (20_memory R67). -/
def State.unwritten (s : State) (x : Nat) : Bool :=
  match s.l2Copy x with
  | some (.ahead _) => false
  | some (.behind _) => true
  | none => false

-- Packets ----------------------------------------------------------------------------------------------------------

/-- The value of one slot. -/
def Packet.get {α : Type} (p : Packet α) (n : Lane) : α :=
  match n with
  | 0 => p.s0
  | 1 => p.s1
  | 2 => p.s2
  | 3 => p.s3

/-- A slot that holds an instruction, or nothing. -/
def slotFor (x : Option Instr) : Slot :=
  match x with
  | some i => .op (opOf i)
  | none => .operand

/-- Runs the packet that holds these instructions in these slots. -/
def runInstrs (is : Packet (Option Instr)) (s : State) : Result := runPacket (is.mapLanes fun _ x => slotFor x) s

/-- The instruction in slot `n` executes: its predicate is true, its type may stand there, and the mode allows it
(40_packet_execution R121, R126, 45_control R237). -/
def LiveIn (s : State) (n : Lane) (i : Instr) : Prop :=
  s.runs i.pred ∧ i.kind.fits n = true ∧ (i.privileged = true → s.mode = .kernel)

/-- Every instruction of the packet names listed coprocessor registers only (10_state R18). -/
def WellFormedSlots (is : Packet (Option Instr)) : Prop :=
  ∀ n i, is.get n = some i → i.wellFormed = true

/-- A data access of an instruction: what it does, the address it computes, the aligned address it uses, and its
width in bytes (20_memory R42, R44, 43_loadstore R200, R201). -/
structure DataAccess where
  kind : AccessKind
  computed : Word
  aligned : Word
  bytes : Nat

/-- The data access of a Memory instruction at `s`; an SC makes one only with the link bit set (43_loadstore R212). -/
def dataAccessOf (i : Instr) (s : State) : Option DataAccess :=
  match i with
  | .lb _ off _ rs => some ⟨.read, s.reg rs + off.signExtend 32, s.reg rs + off.signExtend 32, 1⟩
  | .lh _ off _ rs => some ⟨.read, s.reg rs + off.signExtend 32, (s.reg rs + off.signExtend 32) &&& 0xFFFFFFFE#32, 2⟩
  | .lw _ off _ rs => some ⟨.read, s.reg rs + off.signExtend 32, (s.reg rs + off.signExtend 32) &&& 0xFFFFFFFC#32, 4⟩
  | .ll _ off _ rs => some ⟨.read, s.reg rs + off.signExtend 32, (s.reg rs + off.signExtend 32) &&& 0xFFFFFFFC#32, 4⟩
  | .sb _ off _ rs => some ⟨.write, s.reg rs + off.signExtend 32, s.reg rs + off.signExtend 32, 1⟩
  | .sh _ off _ rs => some ⟨.write, s.reg rs + off.signExtend 32, (s.reg rs + off.signExtend 32) &&& 0xFFFFFFFE#32, 2⟩
  | .sw _ off _ rs => some ⟨.write, s.reg rs + off.signExtend 32, (s.reg rs + off.signExtend 32) &&& 0xFFFFFFFC#32, 4⟩
  | .sc _ off _ rs => if s.link then some ⟨.write, s.reg rs + off.signExtend 32, (s.reg rs + off.signExtend 32) &&& 0xFFFFFFFC#32, 4⟩ else none
  | _ => none

/-- No other executing instruction of the packet has the destination of slot `n` (40_packet_execution R127). -/
def NoOtherWriter (s : State) (is : Packet (Option Instr)) (n : Lane) : Prop :=
  ∀ i j m, is.get n = some i → m ≠ n → is.get m = some j → s.runs j.pred → i.destination ≠ none →
    j.destination ≠ i.destination

-- Fetch ------------------------------------------------------------------------------------------------------------

/-- The next step of `s` takes no interrupt and, after what the environment does, fetches the words `w`; the
instruction TLB takes `fill` (40_packet_execution R120 parts 0 and 1, R122, R132). -/
def State.Fetches (s : State) (w : Packet Word) (fill : Option TlbEntry) : Prop :=
  s.interrupt = none ∧ s.pc &&& 0xF#32 = 0#32 ∧
  ∃ pa, s.arrived.translate .fetch 0 s.pc 16 = { fill := fill, result := .ok pa } ∧ s.arrived.fetchWords pa = w

/-- `s` after its fetch: the environment has acted, its input for this step is used up, and the instruction TLB takes
`fill`. Nothing else changes. -/
def State.fetched (s : State) (fill : Option TlbEntry) : State :=
  { s.arrived with itlb := addEntry s.arrived.itlb fill }

/-- The instruction word in slot `n` of a fetched packet and the word after it, unless the slot is the operand of a
Long form (40_packet_execution R123); slot 3 has no word after it (R126). -/
def slotWord (w : Packet Word) (n : Lane) : Option (Word × Option Word) :=
  let long (v : Word) : Bool := decide (v.extractLsb' 14 15 = 0b100000000000000#15)
  let operand1 := long w.s0
  let operand2 := long w.s1 && !operand1
  let operand3 := long w.s2 && !operand2
  match n with
  | 0 => some (w.s0, some w.s1)
  | 1 => if operand1 then none else some (w.s1, some w.s2)
  | 2 => if operand2 then none else some (w.s2, some w.s3)
  | 3 => if operand3 then none else some (w.s3, none)

/-- A word whose predicate is P3 inverted: no instruction in its slot executes (30_encoding R109, 10_state R14). -/
def neverExecuted (w : Word) : Prop := w.extractLsb' 29 3 = 0b111#3

/-- The bytes of a packet in memory order. -/
def packetBytes (w : Packet Word) : List Byte :=
  bytesOfWord w.s0 ++ bytesOfWord w.s1 ++ bytesOfWord w.s2 ++ bytesOfWord w.s3

/-- The slots that a list of instructions takes, in order; a Long form takes a second slot for its operand
(40_packet_execution R123). -/
def placed : List Instr → List (Option Instr)
  | [] => []
  | i :: is => if i.isLong then some i :: none :: placed is else some i :: placed is

/-- A list of instructions as a packet. -/
def packetOfList (is : List Instr) : Packet (Option Instr) :=
  let l := placed is
  { s0 := l[0]?.join, s1 := l[1]?.join, s2 := l[2]?.join, s3 := l[3]?.join }

/-- A list of instructions as the words of a packet, filled up with words that are never executed. -/
def wordsOfList (is : List Instr) : Packet Word :=
  let l := is.flatMap encode
  { s0 := l.getD 0 fillerWord, s1 := l.getD 1 fillerWord, s2 := l.getD 2 fillerWord, s3 := l.getD 3 fillerWord }

end Sys2Proof.Machine
end

