-- ==== Sys2Proof/Certificates/Slice0/Obligations.lean ====
section
/-! DEFINITION. The statements about the machine, for the provers. `exec i s` is the packet that holds `i` alone in
slot 0, at `s` (log 23); `s.runs p` says that the predicate `p` is true. A result stated as one state written out
field by field is also the frame: what it does not name is unchanged. -/

open Sys2Proof Sys2Proof.Machine

-- Encoding (30_encoding) -------------------------------------------------------------------------------------------

/-- Decoding the bytes of an encoded instruction gives it back with the bytes after it, for every instruction and
every operand (R82 to R106; the opcodes of MTC, MFHI and MTHI are the model's choice, log 9). -/
def Obligations.DecodeEncodeRoundTrip : Prop :=
  ∀ (i : Instr) (rest : List Byte), decodeBytes (encodeBytes i ++ rest) = .ok (i, rest)

/-- A word that decodes is, on its used bits, the word that the encoder writes for the instruction read
(R107; log 29). -/
def Obligations.EncodeDecodeRoundTrip : Prop :=
  ∀ (w : Word) (next : Option Word) (i : Instr), decodeWord w next = .ok i →
    (encode i).head? = some (w &&& usedBits i) ∧ (i.isLong = true → (encode i)[1]? = next)

/-- Words written out from the listings decode to the instructions they stand for. -/
def Obligations.DecodeWrittenWords : Prop :=
  decodeWord 0xC0140022#32 none = .ok (.addShort ⟨3, false⟩ 5 0 1 2) ∧
  decodeWord 0xD4414064#32 none = .ok (.addReg ⟨3, false⟩ 2 .lsl 5 3 4) ∧
  decodeWord 0xD0002020#32 (some 0xDEADBEEF#32) = .ok (.movLong ⟨3, false⟩ 0xDEADBEEF#32 1) ∧
  decodeWord 0xD0316486#32 none = .ok (.mvnRegsh ⟨3, false⟩ .asr 5 4 6) ∧
  decodeWord 0xC0281C01#32 none = .ok (.cmpltuShort ⟨3, false⟩ 10 0 0 1) ∧
  decodeWord 0x18000003#32 none = .ok (.bImm ⟨0, false⟩ 3) ∧
  decodeWord 0xD2F8F882#32 none = .ok (.sw ⟨3, false⟩ 0x7E4 3 2) ∧
  decodeWord 0xD3FF8822#32 none = .ok (.lw ⟨3, false⟩ 0xFFC 1 2) ∧
  decodeWord 0xD1500C02#32 none = .ok (.flush ⟨3, false⟩ .itlb 2) ∧
  decodeWord 0xD188C022#32 none = .ok (.mults ⟨3, false⟩ 3 1 2)

/-- The words of R108 select no instruction; which three Control opcodes are MFHI, MTC and MTHI is the model's
choice (log 9). -/
def Obligations.UnassignedWordsRejected : Prop :=
  ∀ (w : Word) (next : Option Word),
    (∀ op : BitVec 4, 12 ≤ op.toNat → ShortWord w op ∨ RegisterWord w op ∨ LongWord w op →
      ∃ e, decodeWord w next = .error e) ∧
    (w.extractLsb' 7 3 = 0b011#3 → ShortWord w 0b0111#4 ∨ RegisterWord w 0b0111#4 ∨ LongWord w 0b0111#4 →
      ∃ e, decodeWord w next = .error e) ∧
    (∀ op : BitVec 4, op.toNat ≤ 7 ∨ 12 ≤ op.toNat → RegshWord w op → ∃ e, decodeWord w next = .error e) ∧
    (w.extractLsb' 21 8 = 0b10000000#8 → w.extractLsb' 14 7 ≠ 0#7 → ∃ e, decodeWord w next = .error e) ∧
    (w.extractLsb' 24 5 = 0b10000#5 → 2 ≤ (w.extractLsb' 21 3).toNat → ∃ e, decodeWord w next = .error e) ∧
    (∀ op : BitVec 4, op = 0#4 ∨ op = 7#4 ∨ 10 ≤ op.toNat →
      op ≠ Config.ctrlopMfhi → op ≠ Config.ctrlopMtc → op ≠ Config.ctrlopMthi → ControlWord w op →
      ∃ e, decodeWord w next = .error e)

-- Reset, invariant, stops --------------------------------------------------------------------------------------------

/-- The state after reset. `pc`, `mode`, PFLAGS, `link` and the TLBs are R300's decision; RESET_PC and every other
value is the model's choice (logs 1 to 5, 16, 21, 22, 26). -/
def Obligations.ResetState : Prop :=
  State.reset.mode = .kernel ∧ State.reset.pflags = 0#32 ∧ State.reset.link = false ∧
  State.reset.itlb = [] ∧ State.reset.dtlb = [] ∧
  State.reset.pc = Config.resetPc ∧ Config.resetPc &&& 0xF#32 = 0#32 ∧
  (∀ r, State.reset.reg r = 0#32) ∧ (∀ n, State.reset.pred n = decide (n = 3#2)) ∧ State.reset.hi = 0#32 ∧
  (∀ c, State.reset.readCp c = 0#32) ∧ State.reset.ehaWritten = false ∧ State.reset.mem = [] ∧ State.reset.l2 = [] ∧
  State.reset.l1i = [] ∧ State.reset.inputs = [] ∧ State.reset.draw = 0

/-- The invariant holds after reset. -/
def Obligations.ResetKeepsInvariant : Prop := State.reset.Inv

/-- Every step keeps the invariant: an aligned `pc` (R12, R224), no bits in PFLAGS that do not exist (R20), memory
in canonical form inside the physical address space (R41), one TLB entry for a page (R58), and the L2 cache recorded
once for a byte of the physical address space. -/
def Obligations.StepKeepsInvariant : Prop := ∀ s t : State, s.Inv → step s = .next t → t.Inv

/-- The two faults of a step. It faults by `misalignedPc` exactly when no interrupt is taken and `pc` is not a multiple
of 16, which R12 says never is. It faults by `ehaNeverWritten` exactly when no MTC has written EHA and the step takes a
trap, which is to say that control would go to the address in EHA, whatever EHA held (R301; 93 U16, logs 5 and 24). -/
def Obligations.StepFaultsOnly : Prop :=
  ∀ s : State,
    (step s = .fault .misalignedPc ↔ s.interrupt = none ∧ s.pc &&& 0xF#32 ≠ 0#32) ∧
    (step s = .fault .ehaNeverWritten ↔ s.ehaWritten = false ∧
      ∀ v : Word, ∃ t, step { s with ehaWritten := true, eha := v } = .next t ∧ t.pc = v &&& 0xFFFFFFF0#32)

/-- A step is refused only in two cases. The fetched packet holds a live LL and a live SC in slots 0 and 1, in either
order, or a live ERET in slot 0 and a live LL in slot 1, in kernel mode (R211). Or slot 0 holds a live MFC or MTC, in
kernel mode, of the number that the refusal names, which R18 does not list (R19). -/
def Obligations.StepRefusesOnly : Prop :=
  ∀ (s : State) (r : Refusal), step s = .refused r →
    ∃ w fill i, s.Fetches w fill ∧ decodeWord w.s0 (some w.s1) = .ok i ∧ s.runs i.pred ∧
      ((r = .linkConflict ∧
        ∃ j, decodeWord w.s1 (some w.s2) = .ok j ∧ s.runs j.pred ∧
          ((i.isLl = true ∧ j.isSc = true) ∨ (i.isSc = true ∧ j.isLl = true) ∨
            (i.isEret = true ∧ j.isLl = true ∧ s.mode = .kernel))) ∨
       ∃ p rg, ∃ n : BitVec 5, r = .unlistedCoprocessorRegister n ∧ s.mode = .kernel ∧
         (10 ≤ n.toNat ∧ n.toNat ≤ 15 ∨ 20 ≤ n.toNat) ∧ (i = .mfc p rg n ∨ i = .mtc p n rg))

-- ALU (41_alu) ---------------------------------------------------------------------------------------------------------

/-- The operand forms: the shift function of R155, and Short constants zero-extended and rotated right by twice the
rotate field (R150, R151). -/
def Obligations.OperandForms : Prop :=
  (∀ (v : Word) (n : Nat),
    (shift v .lsl n).toNat = (if n > 31 then 0 else v.toNat * 2 ^ n % 2 ^ 32) ∧
    (shift v .lsr n).toNat = (if n > 31 then 0 else v.toNat / 2 ^ n) ∧
    (shift v .asr n).toInt = (if n > 31 then (if v.toInt < 0 then -1 else 0) else v.toInt / 2 ^ n) ∧
    (∀ i < 32, (shift v .ror n).getLsbD i = v.getLsbD ((i + n) % 32))) ∧
  ∀ (c : BitVec 10) (d : BitVec 15) (rot : BitVec 4) (i : Nat), i < 32 →
    (op2Short c rot).getLsbD i = c.getLsbD ((i + 2 * rot.toNat) % 32) ∧
    (op2Short15 d rot).getLsbD i = d.getLsbD ((i + 2 * rot.toNat) % 32)

/-- ADD, SUB and RSB, in every form: the sum or difference modulo 2^32 goes to Rd; nothing else changes but `pc`
(R157, R161, R162). -/
def Obligations.AddSubtractResults : Prop :=
  TwoOperandResult (fun a b => BitVec.ofNat 32 (a.toNat + b.toNat)) .addShort .addReg .addLong ∧
  TwoOperandResult (fun a b => BitVec.ofInt 32 ((a.toNat : Int) - b.toNat)) .subShort .subReg .subLong ∧
  TwoOperandResult (fun a b => BitVec.ofInt 32 ((b.toNat : Int) - a.toNat)) .rsbShort .rsbReg .rsbLong

/-- AND, NOR, OR and XOR: opcodes, encodings and results of every form (R158, R159, R160, R163). -/
def Obligations.LogicResults : Prop :=
  TwoOperandForms 0b0001#4 .andShort .andReg .andLong ∧
  TwoOperandResult (fun a b => a &&& b) .andShort .andReg .andLong ∧
  TwoOperandForms 0b0010#4 .norShort .norReg .norLong ∧
  TwoOperandResult (fun a b => ~~~(a ||| b)) .norShort .norReg .norLong ∧
  TwoOperandForms 0b0011#4 .orShort .orReg .orLong ∧
  TwoOperandResult (fun a b => a ||| b) .orShort .orReg .orLong ∧
  TwoOperandForms 0b0110#4 .xorShort .xorReg .xorLong ∧
  TwoOperandResult (fun a b => a ^^^ b) .xorShort .xorReg .xorLong

/-- MOV and MVN: opcodes, encodings and results of every form (R164, R165). That bits 4:0 of the Register and Long
words are ignored (R107, log 29) and that the Regsh form shifts Rt by Rs (R154) are the spec's own decisions. -/
def Obligations.MoveResults : Prop :=
  OneOperandForms 0b1000#4 .movShort .movReg .movRegsh .movLong ∧
  OneOperandResult (fun b => b) .movShort .movReg .movRegsh .movLong ∧
  OneOperandForms 0b1001#4 .mvnShort .mvnReg .mvnRegsh .mvnLong ∧
  OneOperandResult (fun b => ~~~b) .mvnShort .mvnReg .mvnRegsh .mvnLong

/-- SXB and SXH: opcodes, encodings and results of every form; the value written is the low byte or half-word of
OP2 as a two's complement number (R166, R167). That bits 4:0 of the Register and Long words are ignored (R107, log 29)
and that the Regsh form shifts Rt by Rs (R154) are the spec's own decisions. -/
def Obligations.SignExtendResults : Prop :=
  OneOperandForms 0b1010#4 .sxbShort .sxbReg .sxbRegsh .sxbLong ∧
  OneOperandResult (fun b => BitVec.ofInt 32 (if b.toNat % 256 < 128 then b.toNat % 256 else b.toNat % 256 - 256))
    .sxbShort .sxbReg .sxbRegsh .sxbLong ∧
  OneOperandForms 0b1011#4 .sxhShort .sxhReg .sxhRegsh .sxhLong ∧
  OneOperandResult
    (fun b => BitVec.ofInt 32 (if b.toNat % 65536 < 32768 then b.toNat % 65536 else b.toNat % 65536 - 65536))
    .sxhShort .sxhReg .sxhRegsh .sxhLong

-- Predicates and compares (42_compare, 40_packet_execution R121) --------------------------------------------------------

/-- An instruction whose predicate is false only lets the machine pass on (R121, R131). -/
def Obligations.FalsePredicateDoesNothing : Prop :=
  ∀ (i : Instr) (s : State), ¬s.runs i.pred → exec i s = .next s.onward

/-- P3 is always true: not inverted it always lets an instruction run, inverted never, and a compare into P3 changes
nothing (R14). -/
def Obligations.PredicateThreeConstant : Prop :=
  (∀ s : State, s.runs ⟨3#2, false⟩ ∧ ¬s.runs ⟨3#2, true⟩) ∧
  (∀ (i : Instr) (s : State), i.pred = ⟨3#2, true⟩ → exec i s = .next s.onward) ∧
  ∀ (s : State) (p : Pred) (imm : BitVec 10) (rot : BitVec 4) (amt : BitVec 5) (st : ShiftType) (rt rs : Reg)
    (v : Word), s.runs p → ∀ i ∈
      [Instr.cmpltuShort p imm rot 3#2 rs, .cmpltuReg p amt st rt 3#2 rs, .cmpltuLong p v 3#2 rs,
       .cmpleuShort p imm rot 3#2 rs, .cmpleuReg p amt st rt 3#2 rs, .cmpleuLong p v 3#2 rs,
       .cmpeqShort p imm rot 3#2 rs, .cmpeqReg p amt st rt 3#2 rs, .cmpeqLong p v 3#2 rs,
       .cmpltsShort p imm rot 3#2 rs, .cmpltsReg p amt st rt 3#2 rs, .cmpltsLong p v 3#2 rs,
       .cmplesShort p imm rot 3#2 rs, .cmplesReg p amt st rt 3#2 rs, .cmplesLong p v 3#2 rs,
       .cmpbsShort p imm rot 3#2 rs, .cmpbsReg p amt st rt 3#2 rs, .cmpbsLong p v 3#2 rs,
       .cmpbcShort p imm rot 3#2 rs, .cmpbcReg p amt st rt 3#2 rs, .cmpbcLong p v 3#2 rs],
      exec i s = .next s.onward

/-- CMPLTU, CMPLEU, CMPEQ, CMPLTS, CMPLES and CMPBS: encodings and results of every form. CMPBS writes 1 exactly if
some bit is set in both operands (R181 to R186). -/
def Obligations.CompareResults : Prop :=
  CompareForms 0b000#3 .cmpltuShort .cmpltuReg .cmpltuLong ∧
  CompareResult (fun a b => a.toNat < b.toNat) .cmpltuShort .cmpltuReg .cmpltuLong ∧
  CompareForms 0b001#3 .cmpleuShort .cmpleuReg .cmpleuLong ∧
  CompareResult (fun a b => a.toNat ≤ b.toNat) .cmpleuShort .cmpleuReg .cmpleuLong ∧
  CompareForms 0b010#3 .cmpeqShort .cmpeqReg .cmpeqLong ∧
  CompareResult (fun a b => a = b) .cmpeqShort .cmpeqReg .cmpeqLong ∧
  CompareForms 0b100#3 .cmpltsShort .cmpltsReg .cmpltsLong ∧
  CompareResult (fun a b => a.toInt < b.toInt) .cmpltsShort .cmpltsReg .cmpltsLong ∧
  CompareForms 0b101#3 .cmplesShort .cmplesReg .cmplesLong ∧
  CompareResult (fun a b => a.toInt ≤ b.toInt) .cmplesShort .cmplesReg .cmplesLong ∧
  CompareForms 0b110#3 .cmpbsShort .cmpbsReg .cmpbsLong ∧
  CompareResult (fun a b => ∃ k < 32, a.getLsbD k = true ∧ b.getLsbD k = true) .cmpbsShort .cmpbsReg .cmpbsLong

/-- CMPBC, by the formula that 90_conflicts C3 chooses: 1 exactly if some bit selected by OP2 is clear (R187). -/
def Obligations.BitsClearCompareResult : Prop :=
  CompareForms 0b111#3 .cmpbcShort .cmpbcReg .cmpbcLong ∧
  CompareResult (fun a b => ∃ k < 32, a.getLsbD k = false ∧ b.getLsbD k = true) .cmpbcShort .cmpbcReg .cmpbcLong

-- Branches (44_branch) ---------------------------------------------------------------------------------------------------

/-- B: control goes to the target and nothing else changes. Offsets count packets; the register form rounds the
sum down to a packet. BL: the same, with the address of the BL's own packet in R31 and the old register as base
(R220, R221, R222). -/
def Obligations.BranchResults : Prop :=
  ∀ (s : State) (p : Pred), s.runs p →
    (∀ off, let t := s.jumped (BitVec.ofInt 32 (s.pc.toNat + 16 * off.toInt))
      exec (.bImm p off) s = .next t ∧ exec (.blImm p off) s = .next { t with regs := s.regs.set 31 s.pc }) ∧
    (∀ off rs, let t := s.jumped (BitVec.ofInt 32 ((s.reg rs).toNat + 16 * off.toInt) &&& 0xFFFFFFF0#32)
      exec (.bReg p off rs) s = .next t ∧ exec (.blReg p off rs) s = .next { t with regs := s.regs.set 31 s.pc })

/-- Call and return: after a BL, `B (R31 + 1)` goes to the packet after the call (R223). -/
def Obligations.CallThenReturn : Prop :=
  ∀ (s : State) (p q : Pred) (off : BitVec 25) (off' : BitVec 20) (rs : Reg), s.pc &&& 0xF#32 = 0#32 →
    s.runs p → s.runs q → ∀ call ∈ [Instr.blImm p off, .blReg p off' rs],
      ∃ t u, exec call s = .next t ∧ exec (.bReg q 1#20 31#5) t = .next u ∧ u.pc = s.pc + 16#32

-- Loads and stores (43_loadstore) -------------------------------------------------------------------------------------------

/-- LB, LH, LW and LL where the access translates to `pa`: the bytes there, zero-extended, go to Rd; LL sets the
link bit. Besides that and `pc` only the data TLB changes (R200, R202 to R206). That it takes the entry of every walk is the
model's (log 13). -/
def Obligations.LoadResults : Prop :=
  ∀ (s : State) (p : Pred) (off : BitVec 12) (rd rs : Reg) (pa : Nat) (fill : Option TlbEntry), s.runs p →
    let a := s.reg rs + off.signExtend 32
    let after (v : Word) : State := { s.onwardReg rd v with dtlb := addEntry s.dtlb fill }
    let word := wordLE (s.memByte pa) (s.memByte (pa + 1)) (s.memByte (pa + 2)) (s.memByte (pa + 3))
    (s.translate .read 1 a 1 = { fill := fill, result := .ok pa } →
      exec (.lb p off rd rs) s = .next (after (wordLE (s.memByte pa) 0 0 0))) ∧
    (s.translate .read 1 (a &&& 0xFFFFFFFE#32) 2 = { fill := fill, result := .ok pa } →
      exec (.lh p off rd rs) s = .next (after (wordLE (s.memByte pa) (s.memByte (pa + 1)) 0 0))) ∧
    (s.translate .read 1 (a &&& 0xFFFFFFFC#32) 4 = { fill := fill, result := .ok pa } →
      exec (.lw p off rd rs) s = .next (after word) ∧
      exec (.ll p off rd rs) s = .next { after word with link := true })

/-- SB, SH and SW where the access translates to `pa`: exactly 1, 2 or 4 bytes from `pa` on take the low bytes of
Rt, little-endian; no register changes, and no byte of the L2 cache does (R68, R201, R202, R207 to R210). That
the data TLB takes the entry of every walk is the model's (log 13). -/
def Obligations.StoreResults : Prop :=
  ∀ (s : State) (p : Pred) (off : BitVec 12) (rt rs : Reg) (pa : Nat) (fill : Option TlbEntry), s.runs p →
    let a := s.reg rs + off.signExtend 32
    (s.translate .write 1 a 1 = { fill := fill, result := .ok pa } →
      ∃ t, exec (.sb p off rt rs) s = .next t ∧ StoredAt s t pa 1 (s.reg rt) fill) ∧
    (s.translate .write 1 (a &&& 0xFFFFFFFE#32) 2 = { fill := fill, result := .ok pa } →
      ∃ t, exec (.sh p off rt rs) s = .next t ∧ StoredAt s t pa 2 (s.reg rt) fill) ∧
    (s.translate .write 1 (a &&& 0xFFFFFFFC#32) 4 = { fill := fill, result := .ok pa } →
      ∃ t, exec (.sw p off rt rs) s = .next t ∧ StoredAt s t pa 4 (s.reg rt) fill)

/-- SC with the link bit set, where the access translates to `pa`: the word is stored, P0 is 1 and the link bit is
cleared. With the link bit clear: P0 is 0, no byte changes and no address can fault (R212). That the data TLB
takes the entry of every walk is the model's (log 13). -/
def Obligations.StoreConditionalResults : Prop :=
  ∀ (s : State) (p : Pred) (off : BitVec 12) (rt rs : Reg) (pa : Nat) (fill : Option TlbEntry), s.runs p →
    (s.link = true →
      s.translate .write 1 ((s.reg rs + off.signExtend 32) &&& 0xFFFFFFFC#32) 4 =
        { fill := fill, result := .ok pa } →
      ∃ t, exec (.sc p off rt rs) s = .next t ∧ t.p0 = true ∧ t.link = false ∧
        StoredAt s { t with p0 := s.p0, link := s.link } pa 4 (s.reg rt) fill) ∧
    (s.link = false → exec (.sc p off rt rs) s = .next { s.onward with p0 := false, link := false })

/-- A load or store that cannot be translated traps on its lane with code 4 or 5 and the computed address, low bits
included, in EA0; SC only with the link bit set (R202, R271, R272). -/
def Obligations.DataAccessFaults : Prop :=
  ∀ (s : State) (p : Pred) (off : BitVec 12) (r rs : Reg), s.runs p → s.ehaWritten = true →
    let a := s.reg rs + off.signExtend 32
    let cases := [(Instr.lb p off r rs, AccessKind.read, a, 1), (.lh p off r rs, .read, a &&& 0xFFFFFFFE#32, 2),
      (.lw p off r rs, .read, a &&& 0xFFFFFFFC#32, 4), (.ll p off r rs, .read, a &&& 0xFFFFFFFC#32, 4),
      (.sb p off r rs, .write, a, 1), (.sh p off r rs, .write, a &&& 0xFFFFFFFE#32, 2),
      (.sw p off r rs, .write, a &&& 0xFFFFFFFC#32, 4)] ++
      (if s.link then [(.sc p off r rs, .write, a &&& 0xFFFFFFFC#32, 4)] else [])
    ∀ c ∈ cases,
      ((s.translate c.2.1 1 c.2.2.1 c.2.2.2).result = .pageFault →
        exec c.1 s = .next (s.trapped ⟨4#32, 0#32, 0#32, 0#32⟩ a s.ea1)) ∧
      ((s.translate c.2.1 1 c.2.2.1 c.2.2.2).result = .invalidPhys →
        exec c.1 s = .next (s.trapped ⟨5#32, 0#32, 0#32, 0#32⟩ a s.ea1))

/-- With paging off, a word stored and loaded again comes back, and a byte load inside it gives the byte of that
place, the least significant first (R43). That every address below 2^29 exists and belongs to no device is the model's
choice (logs 7 and 8). -/
def Obligations.StoreThenLoad : Prop :=
  ∀ (s : State) (p q : Pred) (off off' : BitVec 12) (rt rs rd rb : Reg) (k : Nat), s.runs p → s.runs q →
    s.pflags.getLsbD 1 = false → k < 4 →
    let a := (s.reg rs + off.signExtend 32) &&& 0xFFFFFFFC#32
    a.toNat + 4 ≤ 2 ^ 29 → s.reg rb + off'.signExtend 32 = a + BitVec.ofNat 32 k →
    ∃ t, exec (.sw p off rt rs) s = .next t ∧
      exec (.lw q off rd rs) t = .next (t.onwardReg rd (s.reg rt)) ∧
      exec (.lb q off' rd rb) t = .next (t.onwardReg rd ((byteAt (s.reg rt) k).setWidth 32))

/-- Only LL sets the link bit and only SC, ERET and traps clear it (R63, R211). -/
def Obligations.LinkBitWriters : Prop :=
  ∀ (i : Instr) (s t : State), exec i s = .next t →
    (s.link = false → t.link = true → ∃ p off rd rs, i = .ll p off rd rs) ∧
    (s.link = true → t.link = false →
      (∃ p off rt rs, i = .sc p off rt rs) ∨ (∃ p, i = .eret p) ∨ TrapOf s t)

-- Translation (20_memory) ---------------------------------------------------------------------------------------------------

/-- With paging off the physical address is the virtual one and is invalid from 2^29 on; no TLB entry comes of it
(R51; the valid addresses are the model's choice, log 7). -/
def Obligations.PagingOffTranslation : Prop :=
  ∀ (s : State) (kind : AccessKind) (port : Nat) (va : Word) (n : Nat), s.pflags.getLsbD 1 = false →
    s.translate kind port va n =
      { fill := none, result := if va.toNat + n ≤ 2 ^ 29 then .ok va.toNat else .invalidPhys }

/-- The page walk of R55, with the addresses as numbers (that 2^29 bounds the valid addresses is the model's choice,
log 7). -/
def Obligations.PageWalk : Prop :=
  ∀ (s : State) (va : Word),
    let a1 := s.ptb.toNat / 4096 * 4096 + 4 * (va.toNat / 2 ^ 22)
    let pde := wordLE (s.memByte a1) (s.memByte (a1 + 1)) (s.memByte (a1 + 2)) (s.memByte (a1 + 3))
    let a2 := pde.toNat / 4096 % 2 ^ 17 * 4096 + 4 * (va.toNat / 4096 % 1024)
    let pte := wordLE (s.memByte a2) (s.memByte (a2 + 1)) (s.memByte (a2 + 2)) (s.memByte (a2 + 3))
    s.walk va =
      if 2 ^ 29 < a1 + 4 then .invalidPhys
      else if pde.getLsbD 0 = false then .pageFault
      else if pte.getLsbD 0 = false then .pageFault
      else .entry
        { vpn := va.extractLsb' 12 20, ppn := pte.extractLsb' 12 17
          g := pde.getLsbD 3 || pte.getLsbD 3, k := pde.getLsbD 2 || pte.getLsbD 2
          w := pde.getLsbD 1 && pte.getLsbD 1 }

/-- With paging on and no cached entry for the page, the walk decides: its faults, the K and W checks, and the page's
address plus the offset (R56, R58, R59). That every physical address so formed is valid is the model's choice (log 7).
That the TLB always takes the walk's entry is the model's too: R58 says only that the entry may be added (log 13). -/
def Obligations.WalkedTranslation : Prop :=
  ∀ (s : State) (kind : AccessKind) (port : Nat) (va : Word) (n : Nat), s.pflags.getLsbD 1 = true →
    (∀ e ∈ (if kind = .fetch then s.itlb else s.dtlb), e.vpn ≠ va.extractLsb' 12 20) →
    va.toNat % 4096 + n ≤ 4096 →
    (s.walk va = .pageFault → (s.translate kind port va n).result = .pageFault) ∧
    (s.walk va = .invalidPhys → (s.translate kind port va n).result = .invalidPhys) ∧
    ∀ e, s.walk va = .entry e → s.translate kind port va n =
      { fill := some e
        result :=
          if e.k = true ∧ s.mode = .user ∨ kind = .write ∧ e.w = false then .pageFault
          else .ok (e.ppn.toNat * 4096 + va.toNat % 4096) }

/-- A page that every entry in reach marks kernel-only cannot be reached from user mode (R54, R56). -/
def Obligations.KernelPagesClosedToUser : Prop :=
  ∀ (s : State) (kind : AccessKind) (port : Nat) (va : Word) (n pa : Nat), s.pflags.getLsbD 1 = true →
    s.mode = .user → (∀ e, s.walk va = .entry e → e.k = true) →
    (∀ e ∈ (if kind = .fetch then s.itlb else s.dtlb), e.vpn = va.extractLsb' 12 20 → e.k = true) →
    (s.translate kind port va n).result ≠ .ok pa

-- Control instructions (45_control) --------------------------------------------------------------------------------------------

/-- SYSCALL and BREAK trap on lane 0 with codes 8 and 9, in either mode (R268, R269), once EHA has been written. EC1 to
EC3 = 0, the RESV bits of EPC and the packet address taken from EHA are the spec's own decisions (R270 to R272,
log 12). -/
def Obligations.SyscallAndBreakTrap : Prop :=
  ∀ (s : State) (p : Pred), s.runs p → s.ehaWritten = true →
    exec (.syscall p) s = .next (s.trapped ⟨8#32, 0#32, 0#32, 0#32⟩ s.ea0 s.ea1) ∧
    exec (.breakpoint p) s = .next (s.trapped ⟨9#32, 0#32, 0#32, 0#32⟩ s.ea0 s.ea1)

/-- FENCE changes nothing but `pc`; every word of its opcode is a FENCE, and it takes the Control position of its
packet (R233). That the bits drawn X are ignored on decode is the spec's own decision (R107, log 29). -/
def Obligations.FenceDoesNothing : Prop :=
  (∀ w next, ControlWord w 0b0011#4 → decodeWord w next = .ok (.fence (predField w))) ∧
  ∀ (s : State) (p : Pred), exec (.fence p) s = .next s.onward ∧ (Instr.fence p).kind = .control

/-- ERET in kernel mode: `pc`, mode and interrupt enable come from EPC, the link bit is cleared, and nothing else
changes (R236). -/
def Obligations.EretResult : Prop :=
  ∀ (s : State) (p : Pred), s.runs p → s.mode = .kernel →
    exec (.eret p) s =
      .next { s with
              pc := s.epc &&& 0xFFFFFFF0#32
              mode := if s.epc.getLsbD 0 then .kernel else .user
              pflags := (s.pflags &&& 0xFFFFFFFE#32) ||| (if s.epc.getLsbD 1 then 1#32 else 0#32)
              link := false
              draw := s.draw + 1 }

/-- A trap followed by ERET goes back to the trapped packet with the mode and interrupt enable it had; what the trap
recorded stays (R270, R276). -/
def Obligations.TrapThenEret : Prop :=
  ∀ (s : State) (ec : Packet Word) (ea0 ea1 : Word) (p : Pred), s.runs p → s.pc &&& 0xF#32 = 0#32 →
    exec (.eret p) (s.trapped ec ea0 ea1) =
      .next { s with
              epc := s.contextWord, ec0 := ec.s0, ec1 := ec.s1, ec2 := ec.s2, ec3 := ec.s3, ea0 := ea0, ea1 := ea1
              link := false
              draw := s.draw + 2 }

/-- ERET, MFC and MTC in user mode raise Illegal Instruction on lane 0 and have no other effect (R237). -/
def Obligations.PrivilegedInUserMode : Prop :=
  ∀ (s : State) (p : Pred) (r : Reg) (n : BitVec 5), s.runs p → s.mode = .user → s.ehaWritten = true →
    ∀ i ∈ [Instr.eret p, .mfc p r n, .mtc p n r],
      exec i s = .next (s.trapped ⟨2#32, 0#32, 0#32, 0#32⟩ s.ea0 s.ea1)

/-- MFC in kernel mode copies each of the fourteen coprocessor registers to Rd; PFLAGS reads 0 in bits 31:2
(R18, R20, R238). -/
def Obligations.MfcResults : Prop :=
  ∀ (s : State) (p : Pred) (rd : Reg), s.runs p → s.mode = .kernel →
    ∀ c ∈ [(0#5, s.pflags &&& 3#32), (1#5, s.ptb), (2#5, s.eha), (3#5, s.epc), (4#5, s.ec0), (5#5, s.ec1),
           (6#5, s.ec2), (7#5, s.ec3), (8#5, s.ea0), (9#5, s.ea1), (16#5, s.sp0), (17#5, s.sp1), (18#5, s.sp2),
           (19#5, s.sp3)],
      exec (.mfc p rd c.1) s = .next (s.onwardReg rd c.2)

/-- MTC in kernel mode copies Rs to each of the fourteen coprocessor registers: PFLAGS takes bits 1:0, and a write of
PTB removes every entry not marked global from both TLBs (R18, R20, R21, R239, R245). A write of EHA ends the time in
which a trap is stuck (R301, log 5). -/
def Obligations.MtcResults : Prop :=
  ∀ (s : State) (p : Pred) (rs : Reg), s.runs p → s.mode = .kernel →
    let v := s.reg rs
    let o := s.onward
    ∀ c ∈ [(0#5, { o with pflags := v &&& 3#32 }),
           (1#5, { o with ptb := v, itlb := s.itlb.filter (·.g), dtlb := s.dtlb.filter (·.g) }),
           (2#5, { o with eha := v, ehaWritten := true }), (3#5, { o with epc := v }), (4#5, { o with ec0 := v }),
           (5#5, { o with ec1 := v }), (6#5, { o with ec2 := v }), (7#5, { o with ec3 := v }),
           (8#5, { o with ea0 := v }), (9#5, { o with ea1 := v }), (16#5, { o with sp0 := v }),
           (17#5, { o with sp1 := v }), (18#5, { o with sp2 := v }), (19#5, { o with sp3 := v })],
      exec (.mtc p c.1 rs) s = .next c.2

/-- MFC and MTC of a number that R18 does not list are refused in kernel mode (R19; 93 U8). -/
def Obligations.UnlistedRegisterRefused : Prop :=
  ∀ (s : State) (p : Pred) (r : Reg) (n : BitVec 5), s.runs p → s.mode = .kernel →
    10 ≤ n.toNat ∧ n.toNat ≤ 15 ∨ 20 ≤ n.toNat →
    exec (.mfc p r n) s = .refused (.unlistedCoprocessorRegister n) ∧
    exec (.mtc p n r) s = .refused (.unlistedCoprocessorRegister n)

/-- MFHI and MTHI move the overflow register (R240, R241). -/
def Obligations.MoveHiResults : Prop :=
  ∀ (s : State) (p : Pred) (r : Reg), s.runs p →
    exec (.mfhi p r) s = .next (s.onwardReg r s.hi) ∧
    exec (.mthi p r) s = .next { s.onward with hi := s.reg r }

/-- MULT and MULTS: encodings, and the 64-bit product of the operands, unsigned or two's complement, with the low word
in Rd and the high word in `hi` (R242, R243). That bits 13:10, drawn X, are ignored on decode is the spec's own decision
(R107, log 29). -/
def Obligations.MultiplyResults : Prop :=
  (∀ w next, ControlWord w 0b1000#4 → decodeWord w next =
    .ok (if w.getLsbD 19 then .mults (predField w) (w.extractLsb' 14 5) (w.extractLsb' 5 5) (w.extractLsb' 0 5)
      else .mult (predField w) (w.extractLsb' 14 5) (w.extractLsb' 5 5) (w.extractLsb' 0 5))) ∧
  ∀ (s : State) (p : Pred) (rt rd rs : Reg), s.runs p →
    let u := (s.reg rs).toNat * (s.reg rt).toNat
    let v := ((s.reg rs).toInt * (s.reg rt).toInt) % (2 ^ 64 : Int)
    exec (.mult p rt rd rs) s = .next (s.onwardRegHi rd (BitVec.ofNat 32 (u % 2 ^ 32)) (BitVec.ofNat 32 (u / 2 ^ 32))) ∧
    exec (.mults p rt rd rs) s =
      .next (s.onwardRegHi rd (BitVec.ofInt 32 (v % 2 ^ 32)) (BitVec.ofInt 32 (v / 2 ^ 32)))

/-- DIV by a divisor that is not 0: unsigned quotient to Rd, remainder to `hi` (R244; unsigned is the parameter
DIV_SIGNED, log 10). By 0: code 6 on lane 0. -/
def Obligations.DivideResults : Prop :=
  ∀ (s : State) (p : Pred) (rt rd rs : Reg), s.runs p →
    (∀ q r : Word, s.reg rt ≠ 0#32 → (s.reg rs).toNat = q.toNat * (s.reg rt).toNat + r.toNat →
      r.toNat < (s.reg rt).toNat → exec (.div p rt rd rs) s = .next (s.onwardRegHi rd q r)) ∧
    (s.reg rt = 0#32 → s.ehaWritten = true → exec (.div p rt rd rs) s = .next (s.trapped ⟨6#32, 0#32, 0#32, 0#32⟩ s.ea0 s.ea1))

/-- FLUSH DATA and FLUSH INST complete where a read of the address does not page-fault and change no register. FLUSH
DATA: in the aligned word of the address the L2 cache then has what the core reads, and the core reads the bytes that a
DMA peripheral wrote past the L1 data cache; every other byte stays. FLUSH INST: the older values of the word that the L1
instruction cache may hold are gone. Where a read would page-fault they raise code 4 with the address in EA0. FLUSH DTLB
and FLUSH ITLB remove the entry of one page, global or not, from the named TLB; no address makes them raise (R67, R68,
R234, R235). Model's choices: a FLUSH covers one aligned word (log 16), found by its physical address (log 30), and does
nothing at an invalid one (log 27); FLUSH DATA writes out exactly the bytes that the core stored, and bytes that a DMA
peripheral wrote beside them survive (log 22); the data TLB takes the entry of every walk (log 13). -/
def Obligations.FlushResults : Prop :=
  ∀ (s : State) (p : Pred) (rs : Reg) (pa : Nat) (fill : Option TlbEntry), s.runs p →
    (s.translatePage .read 1 (s.reg rs) = { fill := fill, result := .ok pa } →
      (∃ t, exec (.flush p .data rs) s = .next t ∧
        (∀ x, t.l2Byte x = if x / 4 = pa / 4 then t.memByte x else s.l2Byte x) ∧
        (∀ x, t.memByte x = if x / 4 = pa / 4 ∧ s.showsOlder x = true then s.l2Byte x else s.memByte x) ∧
        (∀ e ∈ t.l1i, e ∈ s.l1i ∨ e.word = pa / 4) ∧
        t = { s.onward with dtlb := addEntry s.dtlb fill, mem := t.mem, l2 := t.l2, l1i := t.l1i }) ∧
      exec (.flush p .inst rs) s =
        .next { s.onward with
                dtlb := addEntry s.dtlb fill
                l1i := s.l1i.filter fun e => decide (e.word ≠ pa / 4) }) ∧
    (s.translatePage .read 1 (s.reg rs) = { fill := fill, result := .pageFault } → s.ehaWritten = true →
      exec (.flush p .data rs) s = .next (s.trapped ⟨4#32, 0#32, 0#32, 0#32⟩ (s.reg rs) s.ea1) ∧
      exec (.flush p .inst rs) s = .next (s.trapped ⟨4#32, 0#32, 0#32, 0#32⟩ (s.reg rs) s.ea1)) ∧
    (s.translatePage .read 1 (s.reg rs) = { fill := none, result := .invalidPhys } →
      exec (.flush p .data rs) s = .next s.onward ∧ exec (.flush p .inst rs) s = .next s.onward) ∧
    exec (.flush p .dtlb rs) s =
      .next { s.onward with dtlb := s.dtlb.filter fun e => decide (e.vpn ≠ (s.reg rs).extractLsb' 12 20) } ∧
    exec (.flush p .itlb rs) s =
      .next { s.onward with itlb := s.itlb.filter fun e => decide (e.vpn ≠ (s.reg rs).extractLsb' 12 20) }

/-- After FLUSH DTLB on a page, every read and write of it follows a new walk, and after FLUSH ITLB every fetch does:
the walk's entry, its K and W checks, and its page (R56, R58, R67). That each of these walks leaves its entry in the TLB
is the model's: R58 says only that the entry may be added (log 13). -/
def Obligations.FlushForcesWalk : Prop :=
  ∀ (s : State) (p : Pred) (rs : Reg) (va : Word) (e : TlbEntry), s.runs p → s.pflags.getLsbD 1 = true →
    va.extractLsb' 12 20 = (s.reg rs).extractLsb' 12 20 → s.walk va = .entry e →
    let result (kind : AccessKind) : Translated :=
      if e.k = true ∧ s.mode = .user ∨ kind = .write ∧ e.w = false then .pageFault
      else .ok (e.ppn.toNat * 4096 + va.toNat % 4096)
    ∃ t u, exec (.flush p .dtlb rs) s = .next t ∧ exec (.flush p .itlb rs) s = .next u ∧
      (∀ port, t.translatePage .read port va = { fill := some e, result := result .read }) ∧
      (∀ port, t.translatePage .write port va = { fill := some e, result := result .write }) ∧
      (∀ port, u.translatePage .fetch port va = { fill := some e, result := result .fetch })

/-- With paging off. After a store into a word of which no cache held another value, a fetch of the aligned word gives
the old or the new value of the whole word, and a DMA peripheral that reads it sees no other (R48, R66, R68). In any state,
after FLUSH DATA then FLUSH INST on an address a fetch of its word gives what the core reads there, and after FLUSH DATA
alone a DMA peripheral sees no other value of any unit in the word. Completion below 2^29 (log 7), the free choice per
aligned word and the FLUSH of one word (log 16) and what a DMA peripheral sees (log 22) are the model's choices. -/
def Obligations.FetchCoherence : Prop :=
  ∀ (s : State) (p : Pred) (off : BitVec 12) (rt rs : Reg), s.runs p → s.pflags.getLsbD 1 = false →
    (let a := s.reg rs + off.signExtend 32
     let w := a.toNat / 4
     a.toNat < 2 ^ 29 → (∀ e ∈ s.l1i, e.word ≠ w) → (∀ e ∈ s.l2, e.addr / 4 ≠ w) →
      ∀ i ∈ [Instr.sb p off rt rs, .sh p off rt rs, .sw p off rt rs], ∃ t, exec i s = .next t ∧
        (t.fetchWord w = t.loadLE (4 * w) 4 ∨ t.fetchWord w = s.loadLE (4 * w) 4) ∧
        ∀ v, t.dmaMaySee w .word v = true → v = t.loadLE (4 * w) 4 ∨ v = s.loadLE (4 * w) 4) ∧
    (let w := (s.reg rs).toNat / 4
     ∃ t u, exec (.flush p .data rs) s = .next t ∧ exec (.flush p .inst rs) t = .next u ∧
      u.fetchWord w = u.loadLE (4 * w) 4 ∧
      ∀ (unit : Nat) (z : Size) (v : Word), unit * z.bytes / 4 = w → t.dmaMaySee unit z v = true →
        v = t.loadLE (unit * z.bytes) z.bytes)

-- Packets (40_packet_execution) --------------------------------------------------------------------------------------------

/-- A step runs the instruction that the fetched bytes decode to: if the other slots never execute, the step is
exec of that instruction after the fetch (R120, R122, R123; log 23, and log 11 for the slots that never execute). That the
instruction TLB takes the entry of every walk is the model's (log 13). -/
def Obligations.StepRunsInstruction : Prop :=
  ∀ (s : State) (w : Packet Word) (fill : Option TlbEntry) (i : Instr) (rest : List Byte), s.Fetches w fill →
    decodeBytes (packetBytes w) = .ok (i, rest) → (i.isLong = false → neverExecuted w.s1) →
    neverExecuted w.s2 → neverExecuted w.s3 → step s = exec i (s.fetched fill)

/-- A step runs the packet: where the fetched words are the encodings of a well-formed list of instructions, filled
up with words that are never executed, the step runs exactly those instructions in their slots (R110, R120, R123;
log 11; the instruction TLB takes the entry of every walk, log 13). -/
def Obligations.StepRunsEncodedPacket : Prop :=
  ∀ (s : State) (is : List Instr) (fill : Option TlbEntry), wellFormedPacket is = true →
    s.Fetches (wordsOfList is) fill → step s = runInstrs (packetOfList is) (s.fetched fill)

/-- A step whose fetch fails traps with code 1 or 5 in EC0 and leaves EA alone (R122, R261, R265, R272). That the
instruction TLB keeps the entry of its walk is the model's (logs 13 and 14). -/
def Obligations.FetchFaults : Prop :=
  ∀ (s : State) (fill : Option TlbEntry), s.interrupt = none → s.pc &&& 0xF#32 = 0#32 → s.ehaWritten = true →
    (s.arrived.translate .fetch 0 s.pc 16 = { fill := fill, result := .pageFault } →
      step s = .next ((s.fetched fill).trapped ⟨1#32, 0#32, 0#32, 0#32⟩ s.ea0 s.ea1)) ∧
    (s.arrived.translate .fetch 0 s.pc 16 = { fill := fill, result := .invalidPhys } →
      step s = .next ((s.fetched fill).trapped ⟨5#32, 0#32, 0#32, 0#32⟩ s.ea0 s.ea1))

/-- A live word that selects no instruction, in any slot, and a live Long form in slot 3 raise Illegal Instruction on
their lane; the packet is cancelled. If no other slot executes, no other lane reports anything (R108, R110, R120, R126,
R128). The packet holds no MFC or MTC of an unlisted number, which is refused first (log 20). -/
def Obligations.UnassignedWordTraps : Prop :=
  ∀ (s : State) (w : Packet Word) (fill : Option TlbEntry) (n : Lane) (x : Word) (next : Option Word),
    s.Fetches w fill → s.ehaWritten = true →
    (∀ i, decodeWord w.s0 (some w.s1) = .ok i → i.wellFormed = true) →
    slotWord w n = some (x, next) → s.runs (predField x) →
    (∃ e, decodeWord x next = .error e) ∨ n = 3 ∧ x.extractLsb' 14 15 = 0b100000000000000#15 →
    ∃ t, step s = .next t ∧ TrapOf (s.fetched fill) t ∧ t.ecs.get n = 2#32 ∧
      ((∀ m y next', m ≠ n → slotWord w m = some (y, next') → neverExecuted y) →
        (∀ m, m ≠ n → t.ecs.get m = 0#32) ∧ t.ea0 = s.ea0 ∧ t.ea1 = s.ea1)

/-- The fullest packet: a call, a load, an add and a compare commit together, all from the state before the packet
(R124, R125, R133). That the data TLB takes the entry of every walk is the model's (log 13). -/
def Obligations.MixedPacket : Prop :=
  ∀ (s : State) (p : Pred) (off : BitVec 25) (lo : BitVec 12) (rd rb r3 r4 r5 r6 r7 : Reg) (pd : PredReg)
    (pa : Nat) (fill : Option TlbEntry), s.runs p → rd ≠ 31#5 → r3 ≠ 31#5 → rd ≠ r3 →
    s.translate .read 2 ((s.reg rb + lo.signExtend 32) &&& 0xFFFFFFFC#32) 4 = { fill := fill, result := .ok pa } →
    ∃ t, runInstrs ⟨some (.blImm p off), some (.lw p lo rd rb), some (.addReg p 0 .lsl r5 r3 r4),
        some (.cmpeqReg p 0 .lsl r7 pd r6)⟩ s = .next t ∧
      t.pc = BitVec.ofInt 32 (s.pc.toNat + 16 * off.toInt) ∧
      (∀ r, t.reg r =
        if r = 31#5 then s.pc
        else if r = rd then wordLE (s.memByte pa) (s.memByte (pa + 1)) (s.memByte (pa + 2)) (s.memByte (pa + 3))
        else if r = r3 then s.reg r4 + s.reg r5 else s.reg r) ∧
      (∀ n, t.pred n = if n = pd ∧ pd ≠ 3#2 then decide (s.reg r6 = s.reg r7) else s.pred n) ∧
      t = { s.onward with
            pc := t.pc, regs := t.regs, p0 := t.p0, p1 := t.p1, p2 := t.p2, dtlb := addEntry s.dtlb fill }

/-- Two live instructions of a packet with the same destination in R127's table (`Instr.destination`): the packet is
cancelled, and both lanes report code 3 unless they report Illegal Instruction, which live instructions do not (R127,
R128, R130; log 11). -/
def Obligations.DuplicateDestinationTraps : Prop :=
  ∀ (s : State) (is : Packet (Option Instr)) (m n : Lane) (i j : Instr) (d : Dest), WellFormedSlots is → m ≠ n →
    is.get m = some i → is.get n = some j → LiveIn s m i → LiveIn s n j → s.ehaWritten = true →
    i.destination = some d → j.destination = some d →
    ∃ t, runInstrs is s = .next t ∧ TrapOf s t ∧ t.ecs.get m = 3#32 ∧ t.ecs.get n = 3#32

/-- An exception on any lane cancels the whole packet, whatever the other slots hold. Code 2: a live instruction in a
slot that its type may not occupy, and a live ERET, MFC or MTC in slot 0 in user mode. In slot 0, code 8: a live SYSCALL;
9: a live BREAK; 6: a live DIV by 0 without another writer of its Rd; 4: a live FLUSH DATA or FLUSH INST of an address
whose read page-faults. In slot 0 or 1, codes 4 and 5 with the computed address in EA of the lane: a live load or store
that cannot be translated, without another writer of its destination. No destination or store of any slot is written
(R113, R126, R127, R128, R237, R264, R265, R273; only live instructions count, log 11). -/
def Obligations.ExceptionCancelsPacket : Prop :=
  ∀ (s : State) (is : Packet (Option Instr)), WellFormedSlots is → s.ehaWritten = true →
    (∀ n i, is.get n = some i → s.runs i.pred → i.kind.fits n = false →
      ∃ t, runInstrs is s = .next t ∧ TrapOf s t ∧ t.ecs.get n = 2#32) ∧
    (∀ i, is.s0 = some i → s.runs i.pred → i.privileged = true → s.mode = .user →
      ∃ t, runInstrs is s = .next t ∧ TrapOf s t ∧ t.ec0 = 2#32) ∧
    (∀ p, is.s0 = some (.syscall p) → s.runs p → ∃ t, runInstrs is s = .next t ∧ TrapOf s t ∧ t.ec0 = 8#32) ∧
    (∀ p, is.s0 = some (.breakpoint p) → s.runs p → ∃ t, runInstrs is s = .next t ∧ TrapOf s t ∧ t.ec0 = 9#32) ∧
    (∀ p rt rd rs, is.s0 = some (.div p rt rd rs) → s.runs p → s.reg rt = 0#32 → NoOtherWriter s is 0 →
      ∃ t, runInstrs is s = .next t ∧ TrapOf s t ∧ t.ec0 = 6#32) ∧
    (∀ p k rs, is.s0 = some (.flush p k rs) → s.runs p → k = .data ∨ k = .inst →
      (s.translatePage .read 1 (s.reg rs)).result = .pageFault →
      ∃ t, runInstrs is s = .next t ∧ TrapOf s t ∧ t.ec0 = 4#32 ∧ t.ea0 = s.reg rs) ∧
    ∀ n i a, is.get n = some i → LiveIn s n i → dataAccessOf i s = some a → NoOtherWriter s is n →
      ((s.translate a.kind (1 + n.val) a.aligned a.bytes).result = .pageFault →
        ∃ t, runInstrs is s = .next t ∧ TrapOf s t ∧ t.ecs.get n = 4#32 ∧
          (if n = 0 then t.ea0 else t.ea1) = a.computed) ∧
      ((s.translate a.kind (1 + n.val) a.aligned a.bytes).result = .invalidPhys →
        ∃ t, runInstrs is s = .next t ∧ TrapOf s t ∧ t.ecs.get n = 5#32 ∧
          (if n = 0 then t.ea0 else t.ea1) = a.computed)

/-- A packet leaves nothing in between: where it answers a next state, that state is a trap of the old one with some
EC not 0, or no lane raised; then a coprocessor register changes only by an MTC or ERET, the mode only by an ERET,
and `pc` other than to the next packet only by a Control instruction, each in slot 0 (R120, R128, R129, R273). -/
def Obligations.PacketTrapsOrCommits : Prop :=
  ∀ (s t : State) (is : Packet (Option Instr)), runInstrs is s = .next t →
    (TrapOf s t ∧ ∃ n, t.ecs.get n ≠ 0#32) ∨
    (((∀ c, t.readCp c = s.readCp c) ∨ (∃ p n rs, is.s0 = some (.mtc p n rs)) ∨ ∃ p, is.s0 = some (.eret p)) ∧
      (t.mode = s.mode ∨ ∃ p, is.s0 = some (.eret p)) ∧
      (t.pc = s.pc + 16#32 ∨ ∃ i, is.s0 = some i ∧ i.kind = .control))

/-- A load in slot 1 that page-faults reports code 4 in EC1 and its address in EA1; lane 0 reports No Error
(R130, R271, R272). -/
def Obligations.LaneOneFault : Prop :=
  ∀ (s : State) (p : Pred) (off : BitVec 12) (rd rs : Reg), s.runs p → s.ehaWritten = true →
    (s.translate .read 2 ((s.reg rs + off.signExtend 32) &&& 0xFFFFFFFC#32) 4).result = .pageFault →
    runInstrs ⟨none, some (.lw p off rd rs), none, none⟩ s =
      .next (s.trapped ⟨0#32, 4#32, 0#32, 0#32⟩ s.ea0 (s.reg rs + off.signExtend 32))

/-- With paging off, two stores of a packet to the same word below 2^29 leave the value of one of the two (R69). That
every such word exists is the model's choice (log 7), and so is the form of the order, a free value (log 18). -/
def Obligations.OverlappingStores : Prop :=
  ∀ (s : State) (p : Pred) (off : BitVec 12) (ra rb rs : Reg), s.runs p → s.pflags.getLsbD 1 = false →
    let a := ((s.reg rs + off.signExtend 32) &&& 0xFFFFFFFC#32).toNat
    a + 4 ≤ 2 ^ 29 →
    ∃ t, runInstrs ⟨some (.sw p off ra rs), some (.sw p off rb rs), none, none⟩ s = .next t ∧
      (∀ x, x < a ∨ a + 4 ≤ x → t.memByte x = s.memByte x) ∧
      ((∀ k < 4, t.memByte (a + k) = byteAt (s.reg ra) k) ∨ (∀ k < 4, t.memByte (a + k) = byteAt (s.reg rb) k))

/-- A packet in which LL sets the link bit and SC or ERET clears it is refused: LL and SC in slots 0 and 1 in either
order, the link bit set (then SC's store must translate too) or clear, and ERET in slot 0 with LL in slot 1 in kernel
mode (R211; 93 U12, log 19). -/
def Obligations.LinkConflictRefused : Prop :=
  ∀ (s : State) (p q : Pred) (off off' : BitVec 12) (rd rs rt rs' : Reg), s.runs p → s.runs q →
    let loads (port : Nat) : Prop :=
      ∃ pa, (s.translate .read port ((s.reg rs + off.signExtend 32) &&& 0xFFFFFFFC#32) 4).result = .ok pa
    let stores (port : Nat) : Prop :=
      s.link = true →
        ∃ pa, (s.translate .write port ((s.reg rs' + off'.signExtend 32) &&& 0xFFFFFFFC#32) 4).result = .ok pa
    (loads 1 → stores 2 →
      runInstrs ⟨some (.ll p off rd rs), some (.sc q off' rt rs'), none, none⟩ s = .refused .linkConflict) ∧
    (stores 1 → loads 2 →
      runInstrs ⟨some (.sc q off' rt rs'), some (.ll p off rd rs), none, none⟩ s = .refused .linkConflict) ∧
    (s.mode = .kernel → loads 2 →
      runInstrs ⟨some (.eret q), some (.ll p off rd rs), none, none⟩ s = .refused .linkConflict)

-- Interrupts and modes (60_exceptions) ---------------------------------------------------------------------------------------

/-- An interrupt that is taken, once EHA has been written, writes its source and code 7 to EC0 and nothing to the other
EC registers; no instruction of the packet at `pc` runs (R267, R270, R275). EC1 to EC3, the RESV bits of EPC and the
packet address taken from EHA are the spec's own decisions (R270, R271, log 12); the form of the offers is the model's
choice (log 21). -/
def Obligations.InterruptTaken : Prop :=
  ∀ (s : State) (src : IrqSource), s.interrupt = some src → s.ehaWritten = true →
    step s =
      .next { s.arrived with
              epc := s.contextWord
              ec0 := match src with
                | .timer => 0x00000007#32
                | .usb => 0x00000027#32
                | .framebuffer => 0x00000047#32
                | .sdCard => 0x00000067#32
              pflags := s.pflags &&& 0xFFFFFFFE#32
              mode := .kernel
              link := false
              pc := s.eha &&& 0xFFFFFFF0#32 }

/-- With interrupts disabled the environment's offer of an interrupt has no influence on the step; with them enabled
exactly the delivery of a source whose request line is 1 is taken (R20, R275). -/
def Obligations.InterruptsMasked : Prop :=
  ∀ (s : State) (i j : Input) (rest : List Input),
    (s.pflags.getLsbD 0 = false → i.acts = j.acts →
      step { s with inputs := i :: rest } = step { s with inputs := j :: rest }) ∧
    ∀ src, State.interrupt { s with inputs := i :: rest } = some src ↔
      s.pflags.getLsbD 0 = true ∧ i.serve = some src ∧
      i.irq.getLsbD (match src with | .timer => 0 | .usb => 1 | .framebuffer => 2 | .sdCard => 3) = true

/-- Kernel mode is left only by a live ERET in slot 0 with EPC[0] = 0, to the address in EPC (R17, R278). -/
def Obligations.KernelModeLeftOnlyByEret : Prop :=
  ∀ s t : State, s.mode = .kernel → step s = .next t → t.mode = .user →
    ∃ w fill p, s.Fetches w fill ∧ decodeWord w.s0 (some w.s1) = .ok (.eret p) ∧ s.runs p ∧
      s.epc.getLsbD 0 = false ∧ t.pc = s.epc &&& 0xFFFFFFF0#32

/-- A step in user mode leaves every coprocessor register as it was and stays in user mode, or it is a trap: kernel
mode at EHA, with PTB, EHA, SP0 to SP3, every register and predicate, memory, the data TLB and the caches as the
environment left them before the step (R18, R132, R237, R270, R279). -/
def Obligations.UserModeConfined : Prop :=
  ∀ s t : State, s.mode = .user → step s = .next t →
    (t.mode = .user ∧ t.pflags = s.pflags ∧ t.ptb = s.ptb ∧ t.eha = s.eha ∧ t.ehaWritten = s.ehaWritten ∧
      t.epc = s.epc ∧ t.ecs = s.ecs ∧ t.ea0 = s.ea0 ∧ t.ea1 = s.ea1 ∧ t.sp0 = s.sp0 ∧ t.sp1 = s.sp1 ∧
      t.sp2 = s.sp2 ∧ t.sp3 = s.sp3) ∨
    (t.mode = .kernel ∧ t.pc = s.eha &&& 0xFFFFFFF0#32 ∧ t.epc = s.contextWord ∧
      t.pflags = s.pflags &&& 0xFFFFFFFE#32 ∧ t.link = false ∧ t.ptb = s.ptb ∧ t.eha = s.eha ∧
      s.ehaWritten = true ∧ t.ehaWritten = true ∧ t.sp0 = s.sp0 ∧
      t.sp1 = s.sp1 ∧ t.sp2 = s.sp2 ∧ t.sp3 = s.sp3 ∧ t.regs = s.regs ∧ t.p0 = s.p0 ∧ t.p1 = s.p1 ∧
      t.p2 = s.p2 ∧ t.hi = s.hi ∧ t.mem = s.arrived.mem ∧ t.dtlb = s.arrived.dtlb ∧ t.l2 = s.arrived.l2 ∧
      t.l1i = s.arrived.l1i)

-- The environment (40_packet_execution R132, 20_memory R68) ------------------------------------------------------------

/-- A DMA write of an aligned unit between two steps. A DMA peripheral then reads the bytes written and every other byte
as before. The core's load of the unit gives the new value or the old one, as a whole: the new one if the L1 data cache
held nothing of the word, the old one if it did; and after FLUSH DATA, with no byte of the word stored by the core and
not yet written back, the new one. No register, and not the link bit, changes (R48, R60, R63, R68, R132). Model's
choices: the form of the environment's actions and what the core then sees of them (log 22); every unit below 2^29 exists
(log 7), is no device (log 8) and so takes the write; FLUSH DATA on the unit's first address covers its aligned word, and so
the whole unit (log 16; R66 makes only the byte addressed certain). -/
def Obligations.DmaCoherence : Prop :=
  ∀ (s : State) (d : DmaWrite) (i : Input) (rest : List Input), s.inputs = i :: rest → i.acts = [.write d] →
    let n := d.size.bytes
    let pa := d.unit * n
    pa + n ≤ 2 ^ 29 →
    let t := s.arrived
    (∀ x, t.l2Byte x = if pa ≤ x ∧ x < pa + n then byteAt d.value (x - pa) else s.l2Byte x) ∧
    (∀ x, x < pa ∨ pa + n ≤ x → t.memByte x = s.memByte x) ∧
    (d.held = true ∨ (∃ e ∈ s.l2, e.addr / 4 = pa / 4) → ∀ x, t.memByte x = s.memByte x) ∧
    (d.held = false → (∀ e ∈ s.l2, e.addr / 4 ≠ pa / 4) → t.loadLE pa n = t.l2LE pa n) ∧
    t = { s with mem := t.mem, l2 := t.l2, l1i := t.l1i, inputs := rest } ∧
    ∀ (p : Pred) (rs : Reg), s.runs p → s.pflags.getLsbD 1 = false → (s.reg rs).toNat = pa →
      (∀ x, x / 4 = pa / 4 → s.unwritten x = false) →
      ∃ u, exec (.flush p .data rs) t = .next u ∧ u.loadLE pa n = t.l2LE pa n
end

