-- ==== Sys2Proof/Laws/Bits.lean ====
section
/-! SUPPORT. How `field` reads words built with `put` (30_encoding R80), and words as four bytes. -/

namespace Sys2Proof

/-- A field of a union of words is the union of the fields. -/
@[simp] theorem field_or (lo k : Nat) (a b : Word) : field lo k (a ||| b) = field lo k a ||| field lo k b := by
  ext i hi
  simp [field]

/-- A field reads back what `put` put there. -/
@[simp] theorem field_put_same {k : Nat} (lo : Nat) (f : BitVec k) (h : lo + k ≤ 32) :
    field lo k (put lo f) = f := by
  ext i hi
  have : lo + i < 32 := by omega
  simp [field, put, this, BitVec.getLsbD_eq_getElem hi]

/-- A field reads 0 where `put` put something beside it. -/
@[simp] theorem field_put_beside {j : Nat} (lo lo' k : Nat) (f : BitVec j) (h : lo + j ≤ lo' ∨ lo' + k ≤ lo) :
    field lo' k (put lo f) = 0#k := by
  ext i hi
  simp only [field, put, BitVec.getElem_extractLsb', BitVec.getLsbD_shiftLeft, BitVec.getLsbD_setWidth,
    BitVec.getElem_zero]
  rcases h with h | h
  · simp [BitVec.getLsbD_of_ge f (lo' + i - lo) (by omega)]
  · simp [show lo' + i < lo by omega]

@[simp] theorem field_zero (lo k : Nat) : field lo k 0#32 = 0#k := by
  ext i hi
  simp [field]

/-- The Long test of R94 as the steps of the format tree of R82. -/
theorem isLongWord_eq (w : Word) :
    isLongWord w = (field 28 1 w == 1#1 && field 26 2 w == 0#2 && field 25 1 w == 0#1 && field 24 1 w == 0#1 &&
      field 21 3 w == 0#3 && field 14 7 w == 0#7) := by
  have := w.isLt
  rw [Bool.eq_iff_iff]
  simp only [isLongWord, field, beq_iff_eq, Bool.and_eq_true, BitVec.toNat_eq, BitVec.extractLsb'_toNat,
    Nat.shiftRight_eq_div_pow, BitVec.toNat_ofNat]
  omega

/-- The predicate field reads back. -/
theorem decodePred_encodePred (p : Pred) : decodePred (encodePred p) = p := by
  cases p with
  | mk reg inv => cases inv <;> simp [decodePred, encodePred]

@[simp] theorem shiftType_ofBits_bits (t : ShiftType) : ShiftType.ofBits t.bits = t := by cases t <;> rfl

@[simp] theorem flushType_ofBits_bits (t : FlushType) : FlushType.ofBits t.bits = t := by cases t <;> rfl

/-- The two parts of the one-operand constant (R84, R97) make it up again. -/
@[simp] theorem constant_join (imm : BitVec 15) : imm.extractLsb' 10 5 ++ imm.extractLsb' 0 10 = imm := by
  rw [BitVec.extractLsb'_append_extractLsb'_eq_extractLsb' (by rfl)]
  simp

/-- The three parts of a store offset (R100) make it up again. -/
@[simp] theorem storeOffset_join (off : BitVec 12) :
    off.extractLsb' 6 6 ++ off.extractLsb' 5 1 ++ off.extractLsb' 0 5 = off := by
  rw [BitVec.extractLsb'_append_extractLsb'_eq_extractLsb' (by rfl)]
  simp only [Nat.reduceAdd]
  rw [BitVec.extractLsb'_append_extractLsb'_eq_extractLsb' (by rfl)]
  simp

/-- The four bytes of a word, read back in memory order, are the word (20_memory R43). -/
@[simp] theorem wordOfBytes_bytes (w : Word) :
    wordOfBytes (field 0 8 w) (field 8 8 w) (field 16 8 w) (field 24 8 w) = w := by
  ext i hi
  interval_cases i <;> simp [wordOfBytes, put, field]

-- How the format tree (R82) reads the fixed format bits that the encoder writes.
@[simp] theorem formatBits_26_5_at_28 : field 28 1 (put 26 5#3) = 1#1 := by decide
@[simp] theorem formatBits_26_5_at_26 : field 26 2 (put 26 5#3) = 1#2 := by decide
@[simp] theorem formatBits_26_6_at_28 : field 28 1 (put 26 6#3) = 1#1 := by decide
@[simp] theorem formatBits_26_6_at_26 : field 26 2 (put 26 6#3) = 2#2 := by decide
@[simp] theorem formatBits_26_7_at_28 : field 28 1 (put 26 7#3) = 1#1 := by decide
@[simp] theorem formatBits_26_7_at_26 : field 26 2 (put 26 7#3) = 3#2 := by decide
@[simp] theorem formatBits_21_129_at_28 : field 28 1 (put 21 129#8) = 1#1 := by decide
@[simp] theorem formatBits_21_129_at_26 : field 26 2 (put 21 129#8) = 0#2 := by decide
@[simp] theorem formatBits_21_129_at_25 : field 25 1 (put 21 129#8) = 0#1 := by decide
@[simp] theorem formatBits_21_129_at_24 : field 24 1 (put 21 129#8) = 0#1 := by decide
@[simp] theorem formatBits_21_129_at_21 : field 21 3 (put 21 129#8) = 1#3 := by decide
@[simp] theorem formatBits_25_9_at_28 : field 28 1 (put 25 9#4) = 1#1 := by decide
@[simp] theorem formatBits_25_9_at_26 : field 26 2 (put 25 9#4) = 0#2 := by decide
@[simp] theorem formatBits_25_9_at_25 : field 25 1 (put 25 9#4) = 1#1 := by decide
@[simp] theorem formatBits_24_17_at_28 : field 28 1 (put 24 17#5) = 1#1 := by decide
@[simp] theorem formatBits_24_17_at_26 : field 26 2 (put 24 17#5) = 0#2 := by decide
@[simp] theorem formatBits_24_17_at_25 : field 25 1 (put 24 17#5) = 0#1 := by decide
@[simp] theorem formatBits_24_17_at_24 : field 24 1 (put 24 17#5) = 1#1 := by decide

/-- A word whose predicate bits are those of `p` decodes to `p` (R81). -/
theorem decodePred_of_fields (w : Word) (p : Pred) (hr : field 30 2 w = p.reg)
    (hi : field 29 1 w = BitVec.ofBool p.inv) : decodePred w = p := by
  cases p with
  | mk reg inv => cases inv <;> simp_all [decodePred]

/-- One word that is no Long form is read alone. -/
theorem decodeBytes_oneWord (w : Word) (rest : List Byte) (h : isLongWord w = false) :
    decodeBytes (bytesOfWord w ++ rest) = (decodeWord w none).map fun i => (i, rest) := by
  simp [bytesOfWord, decodeBytes, h]

/-- A Long form is read with the word after it (R94). -/
theorem decodeBytes_twoWords (w v : Word) (rest : List Byte) (h : isLongWord w = true) :
    decodeBytes (bytesOfWord w ++ (bytesOfWord v ++ rest)) = (decodeWord w (some v)).map fun i => (i, rest) := by
  simp [bytesOfWord, decodeBytes, h]

end Sys2Proof
end

