-- ==== Sys2Proof/Laws/State.lean ====
section
/-! SUPPORT. One lemma per field and update of State that the update leaves alone, and what each update gives the
fields it changes, so that no proof unfolds a record update. -/

namespace Sys2Proof.Machine

variable (s : State)

-- setReg
@[simp] theorem setReg_pc (r : Reg) (v : Word) : (s.setReg r v).pc = s.pc := rfl
@[simp] theorem setReg_p0 (r : Reg) (v : Word) : (s.setReg r v).p0 = s.p0 := rfl
@[simp] theorem setReg_p1 (r : Reg) (v : Word) : (s.setReg r v).p1 = s.p1 := rfl
@[simp] theorem setReg_p2 (r : Reg) (v : Word) : (s.setReg r v).p2 = s.p2 := rfl
@[simp] theorem setReg_hi (r : Reg) (v : Word) : (s.setReg r v).hi = s.hi := rfl
@[simp] theorem setReg_link (r : Reg) (v : Word) : (s.setReg r v).link = s.link := rfl
@[simp] theorem setReg_mode (r : Reg) (v : Word) : (s.setReg r v).mode = s.mode := rfl
@[simp] theorem setReg_pflags (r : Reg) (v : Word) : (s.setReg r v).pflags = s.pflags := rfl
@[simp] theorem setReg_ptb (r : Reg) (v : Word) : (s.setReg r v).ptb = s.ptb := rfl
@[simp] theorem setReg_eha (r : Reg) (v : Word) : (s.setReg r v).eha = s.eha := rfl
@[simp] theorem setReg_epc (r : Reg) (v : Word) : (s.setReg r v).epc = s.epc := rfl
@[simp] theorem setReg_ec0 (r : Reg) (v : Word) : (s.setReg r v).ec0 = s.ec0 := rfl
@[simp] theorem setReg_ec1 (r : Reg) (v : Word) : (s.setReg r v).ec1 = s.ec1 := rfl
@[simp] theorem setReg_ec2 (r : Reg) (v : Word) : (s.setReg r v).ec2 = s.ec2 := rfl
@[simp] theorem setReg_ec3 (r : Reg) (v : Word) : (s.setReg r v).ec3 = s.ec3 := rfl
@[simp] theorem setReg_ea0 (r : Reg) (v : Word) : (s.setReg r v).ea0 = s.ea0 := rfl
@[simp] theorem setReg_ea1 (r : Reg) (v : Word) : (s.setReg r v).ea1 = s.ea1 := rfl
@[simp] theorem setReg_sp0 (r : Reg) (v : Word) : (s.setReg r v).sp0 = s.sp0 := rfl
@[simp] theorem setReg_sp1 (r : Reg) (v : Word) : (s.setReg r v).sp1 = s.sp1 := rfl
@[simp] theorem setReg_sp2 (r : Reg) (v : Word) : (s.setReg r v).sp2 = s.sp2 := rfl
@[simp] theorem setReg_sp3 (r : Reg) (v : Word) : (s.setReg r v).sp3 = s.sp3 := rfl
@[simp] theorem setReg_mem (r : Reg) (v : Word) : (s.setReg r v).mem = s.mem := rfl
@[simp] theorem setReg_itlb (r : Reg) (v : Word) : (s.setReg r v).itlb = s.itlb := rfl
@[simp] theorem setReg_dtlb (r : Reg) (v : Word) : (s.setReg r v).dtlb = s.dtlb := rfl
@[simp] theorem setReg_l2 (r : Reg) (v : Word) : (s.setReg r v).l2 = s.l2 := rfl
@[simp] theorem setReg_l1i (r : Reg) (v : Word) : (s.setReg r v).l1i = s.l1i := rfl
@[simp] theorem setReg_inputs (r : Reg) (v : Word) : (s.setReg r v).inputs = s.inputs := rfl
@[simp] theorem setReg_ehaWritten (r : Reg) (v : Word) : (s.setReg r v).ehaWritten = s.ehaWritten := rfl
@[simp] theorem setReg_draw (r : Reg) (v : Word) : (s.setReg r v).draw = s.draw := rfl
@[simp] theorem setReg_pred (r : Reg) (v : Word) (q : PredReg) : (s.setReg r v).pred q = s.pred q := rfl
@[simp] theorem setReg_memByte (r : Reg) (v : Word) (x : Nat) : (s.setReg r v).memByte x = s.memByte x := rfl

-- storeByte
@[simp] theorem storeByte_regs (pa : Nat) (b : Byte) : (s.storeByte pa b).regs = s.regs := rfl
@[simp] theorem storeByte_pc (pa : Nat) (b : Byte) : (s.storeByte pa b).pc = s.pc := rfl
@[simp] theorem storeByte_p0 (pa : Nat) (b : Byte) : (s.storeByte pa b).p0 = s.p0 := rfl
@[simp] theorem storeByte_p1 (pa : Nat) (b : Byte) : (s.storeByte pa b).p1 = s.p1 := rfl
@[simp] theorem storeByte_p2 (pa : Nat) (b : Byte) : (s.storeByte pa b).p2 = s.p2 := rfl
@[simp] theorem storeByte_hi (pa : Nat) (b : Byte) : (s.storeByte pa b).hi = s.hi := rfl
@[simp] theorem storeByte_link (pa : Nat) (b : Byte) : (s.storeByte pa b).link = s.link := rfl
@[simp] theorem storeByte_mode (pa : Nat) (b : Byte) : (s.storeByte pa b).mode = s.mode := rfl
@[simp] theorem storeByte_pflags (pa : Nat) (b : Byte) : (s.storeByte pa b).pflags = s.pflags := rfl
@[simp] theorem storeByte_ptb (pa : Nat) (b : Byte) : (s.storeByte pa b).ptb = s.ptb := rfl
@[simp] theorem storeByte_eha (pa : Nat) (b : Byte) : (s.storeByte pa b).eha = s.eha := rfl
@[simp] theorem storeByte_epc (pa : Nat) (b : Byte) : (s.storeByte pa b).epc = s.epc := rfl
@[simp] theorem storeByte_ec0 (pa : Nat) (b : Byte) : (s.storeByte pa b).ec0 = s.ec0 := rfl
@[simp] theorem storeByte_ec1 (pa : Nat) (b : Byte) : (s.storeByte pa b).ec1 = s.ec1 := rfl
@[simp] theorem storeByte_ec2 (pa : Nat) (b : Byte) : (s.storeByte pa b).ec2 = s.ec2 := rfl
@[simp] theorem storeByte_ec3 (pa : Nat) (b : Byte) : (s.storeByte pa b).ec3 = s.ec3 := rfl
@[simp] theorem storeByte_ea0 (pa : Nat) (b : Byte) : (s.storeByte pa b).ea0 = s.ea0 := rfl
@[simp] theorem storeByte_ea1 (pa : Nat) (b : Byte) : (s.storeByte pa b).ea1 = s.ea1 := rfl
@[simp] theorem storeByte_sp0 (pa : Nat) (b : Byte) : (s.storeByte pa b).sp0 = s.sp0 := rfl
@[simp] theorem storeByte_sp1 (pa : Nat) (b : Byte) : (s.storeByte pa b).sp1 = s.sp1 := rfl
@[simp] theorem storeByte_sp2 (pa : Nat) (b : Byte) : (s.storeByte pa b).sp2 = s.sp2 := rfl
@[simp] theorem storeByte_sp3 (pa : Nat) (b : Byte) : (s.storeByte pa b).sp3 = s.sp3 := rfl
@[simp] theorem storeByte_itlb (pa : Nat) (b : Byte) : (s.storeByte pa b).itlb = s.itlb := rfl
@[simp] theorem storeByte_dtlb (pa : Nat) (b : Byte) : (s.storeByte pa b).dtlb = s.dtlb := rfl
@[simp] theorem storeByte_l1i (pa : Nat) (b : Byte) : (s.storeByte pa b).l1i = s.l1i := rfl
@[simp] theorem storeByte_inputs (pa : Nat) (b : Byte) : (s.storeByte pa b).inputs = s.inputs := rfl
@[simp] theorem storeByte_ehaWritten (pa : Nat) (b : Byte) : (s.storeByte pa b).ehaWritten = s.ehaWritten := rfl
@[simp] theorem storeByte_draw (pa : Nat) (b : Byte) : (s.storeByte pa b).draw = s.draw := rfl
@[simp] theorem storeByte_reg (pa : Nat) (b : Byte) (q : Reg) : (s.storeByte pa b).reg q = s.reg q := rfl
@[simp] theorem storeByte_pred (pa : Nat) (b : Byte) (q : PredReg) : (s.storeByte pa b).pred q = s.pred q := rfl

-- noteOld
@[simp] theorem noteOld_regs (word : Nat) : (s.noteOld word).regs = s.regs := rfl
@[simp] theorem noteOld_pc (word : Nat) : (s.noteOld word).pc = s.pc := rfl
@[simp] theorem noteOld_p0 (word : Nat) : (s.noteOld word).p0 = s.p0 := rfl
@[simp] theorem noteOld_p1 (word : Nat) : (s.noteOld word).p1 = s.p1 := rfl
@[simp] theorem noteOld_p2 (word : Nat) : (s.noteOld word).p2 = s.p2 := rfl
@[simp] theorem noteOld_hi (word : Nat) : (s.noteOld word).hi = s.hi := rfl
@[simp] theorem noteOld_link (word : Nat) : (s.noteOld word).link = s.link := rfl
@[simp] theorem noteOld_mode (word : Nat) : (s.noteOld word).mode = s.mode := rfl
@[simp] theorem noteOld_pflags (word : Nat) : (s.noteOld word).pflags = s.pflags := rfl
@[simp] theorem noteOld_ptb (word : Nat) : (s.noteOld word).ptb = s.ptb := rfl
@[simp] theorem noteOld_eha (word : Nat) : (s.noteOld word).eha = s.eha := rfl
@[simp] theorem noteOld_epc (word : Nat) : (s.noteOld word).epc = s.epc := rfl
@[simp] theorem noteOld_ec0 (word : Nat) : (s.noteOld word).ec0 = s.ec0 := rfl
@[simp] theorem noteOld_ec1 (word : Nat) : (s.noteOld word).ec1 = s.ec1 := rfl
@[simp] theorem noteOld_ec2 (word : Nat) : (s.noteOld word).ec2 = s.ec2 := rfl
@[simp] theorem noteOld_ec3 (word : Nat) : (s.noteOld word).ec3 = s.ec3 := rfl
@[simp] theorem noteOld_ea0 (word : Nat) : (s.noteOld word).ea0 = s.ea0 := rfl
@[simp] theorem noteOld_ea1 (word : Nat) : (s.noteOld word).ea1 = s.ea1 := rfl
@[simp] theorem noteOld_sp0 (word : Nat) : (s.noteOld word).sp0 = s.sp0 := rfl
@[simp] theorem noteOld_sp1 (word : Nat) : (s.noteOld word).sp1 = s.sp1 := rfl
@[simp] theorem noteOld_sp2 (word : Nat) : (s.noteOld word).sp2 = s.sp2 := rfl
@[simp] theorem noteOld_sp3 (word : Nat) : (s.noteOld word).sp3 = s.sp3 := rfl
@[simp] theorem noteOld_mem (word : Nat) : (s.noteOld word).mem = s.mem := rfl
@[simp] theorem noteOld_itlb (word : Nat) : (s.noteOld word).itlb = s.itlb := rfl
@[simp] theorem noteOld_dtlb (word : Nat) : (s.noteOld word).dtlb = s.dtlb := rfl
@[simp] theorem noteOld_l2 (word : Nat) : (s.noteOld word).l2 = s.l2 := rfl
@[simp] theorem noteOld_inputs (word : Nat) : (s.noteOld word).inputs = s.inputs := rfl
@[simp] theorem noteOld_ehaWritten (word : Nat) : (s.noteOld word).ehaWritten = s.ehaWritten := rfl
@[simp] theorem noteOld_draw (word : Nat) : (s.noteOld word).draw = s.draw := rfl
@[simp] theorem noteOld_reg (word : Nat) (q : Reg) : (s.noteOld word).reg q = s.reg q := rfl
@[simp] theorem noteOld_pred (word : Nat) (q : PredReg) : (s.noteOld word).pred q = s.pred q := rfl
@[simp] theorem noteOld_memByte (word : Nat) (x : Nat) : (s.noteOld word).memByte x = s.memByte x := rfl

-- flushDataLine
@[simp] theorem flushDataLine_regs (pa : Nat) : (s.flushDataLine pa).regs = s.regs := by unfold State.flushDataLine; dsimp only; split <;> rfl
@[simp] theorem flushDataLine_pc (pa : Nat) : (s.flushDataLine pa).pc = s.pc := by unfold State.flushDataLine; dsimp only; split <;> rfl
@[simp] theorem flushDataLine_p0 (pa : Nat) : (s.flushDataLine pa).p0 = s.p0 := by unfold State.flushDataLine; dsimp only; split <;> rfl
@[simp] theorem flushDataLine_p1 (pa : Nat) : (s.flushDataLine pa).p1 = s.p1 := by unfold State.flushDataLine; dsimp only; split <;> rfl
@[simp] theorem flushDataLine_p2 (pa : Nat) : (s.flushDataLine pa).p2 = s.p2 := by unfold State.flushDataLine; dsimp only; split <;> rfl
@[simp] theorem flushDataLine_hi (pa : Nat) : (s.flushDataLine pa).hi = s.hi := by unfold State.flushDataLine; dsimp only; split <;> rfl
@[simp] theorem flushDataLine_link (pa : Nat) : (s.flushDataLine pa).link = s.link := by unfold State.flushDataLine; dsimp only; split <;> rfl
@[simp] theorem flushDataLine_mode (pa : Nat) : (s.flushDataLine pa).mode = s.mode := by unfold State.flushDataLine; dsimp only; split <;> rfl
@[simp] theorem flushDataLine_pflags (pa : Nat) : (s.flushDataLine pa).pflags = s.pflags := by unfold State.flushDataLine; dsimp only; split <;> rfl
@[simp] theorem flushDataLine_ptb (pa : Nat) : (s.flushDataLine pa).ptb = s.ptb := by unfold State.flushDataLine; dsimp only; split <;> rfl
@[simp] theorem flushDataLine_eha (pa : Nat) : (s.flushDataLine pa).eha = s.eha := by unfold State.flushDataLine; dsimp only; split <;> rfl
@[simp] theorem flushDataLine_epc (pa : Nat) : (s.flushDataLine pa).epc = s.epc := by unfold State.flushDataLine; dsimp only; split <;> rfl
@[simp] theorem flushDataLine_ec0 (pa : Nat) : (s.flushDataLine pa).ec0 = s.ec0 := by unfold State.flushDataLine; dsimp only; split <;> rfl
@[simp] theorem flushDataLine_ec1 (pa : Nat) : (s.flushDataLine pa).ec1 = s.ec1 := by unfold State.flushDataLine; dsimp only; split <;> rfl
@[simp] theorem flushDataLine_ec2 (pa : Nat) : (s.flushDataLine pa).ec2 = s.ec2 := by unfold State.flushDataLine; dsimp only; split <;> rfl
@[simp] theorem flushDataLine_ec3 (pa : Nat) : (s.flushDataLine pa).ec3 = s.ec3 := by unfold State.flushDataLine; dsimp only; split <;> rfl
@[simp] theorem flushDataLine_ea0 (pa : Nat) : (s.flushDataLine pa).ea0 = s.ea0 := by unfold State.flushDataLine; dsimp only; split <;> rfl
@[simp] theorem flushDataLine_ea1 (pa : Nat) : (s.flushDataLine pa).ea1 = s.ea1 := by unfold State.flushDataLine; dsimp only; split <;> rfl
@[simp] theorem flushDataLine_sp0 (pa : Nat) : (s.flushDataLine pa).sp0 = s.sp0 := by unfold State.flushDataLine; dsimp only; split <;> rfl
@[simp] theorem flushDataLine_sp1 (pa : Nat) : (s.flushDataLine pa).sp1 = s.sp1 := by unfold State.flushDataLine; dsimp only; split <;> rfl
@[simp] theorem flushDataLine_sp2 (pa : Nat) : (s.flushDataLine pa).sp2 = s.sp2 := by unfold State.flushDataLine; dsimp only; split <;> rfl
@[simp] theorem flushDataLine_sp3 (pa : Nat) : (s.flushDataLine pa).sp3 = s.sp3 := by unfold State.flushDataLine; dsimp only; split <;> rfl
@[simp] theorem flushDataLine_itlb (pa : Nat) : (s.flushDataLine pa).itlb = s.itlb := by unfold State.flushDataLine; dsimp only; split <;> rfl
@[simp] theorem flushDataLine_dtlb (pa : Nat) : (s.flushDataLine pa).dtlb = s.dtlb := by unfold State.flushDataLine; dsimp only; split <;> rfl
@[simp] theorem flushDataLine_inputs (pa : Nat) : (s.flushDataLine pa).inputs = s.inputs := by unfold State.flushDataLine; dsimp only; split <;> rfl
@[simp] theorem flushDataLine_ehaWritten (pa : Nat) : (s.flushDataLine pa).ehaWritten = s.ehaWritten := by unfold State.flushDataLine; dsimp only; split <;> rfl
@[simp] theorem flushDataLine_draw (pa : Nat) : (s.flushDataLine pa).draw = s.draw := by unfold State.flushDataLine; dsimp only; split <;> rfl
@[simp] theorem flushDataLine_reg (pa : Nat) (q : Reg) : (s.flushDataLine pa).reg q = s.reg q := by unfold State.flushDataLine; dsimp only; split <;> rfl
@[simp] theorem flushDataLine_pred (pa : Nat) (q : PredReg) : (s.flushDataLine pa).pred q = s.pred q := by unfold State.flushDataLine; dsimp only; split <;> rfl

-- flushInstLine
@[simp] theorem flushInstLine_regs (pa : Nat) : (s.flushInstLine pa).regs = s.regs := rfl
@[simp] theorem flushInstLine_pc (pa : Nat) : (s.flushInstLine pa).pc = s.pc := rfl
@[simp] theorem flushInstLine_p0 (pa : Nat) : (s.flushInstLine pa).p0 = s.p0 := rfl
@[simp] theorem flushInstLine_p1 (pa : Nat) : (s.flushInstLine pa).p1 = s.p1 := rfl
@[simp] theorem flushInstLine_p2 (pa : Nat) : (s.flushInstLine pa).p2 = s.p2 := rfl
@[simp] theorem flushInstLine_hi (pa : Nat) : (s.flushInstLine pa).hi = s.hi := rfl
@[simp] theorem flushInstLine_link (pa : Nat) : (s.flushInstLine pa).link = s.link := rfl
@[simp] theorem flushInstLine_mode (pa : Nat) : (s.flushInstLine pa).mode = s.mode := rfl
@[simp] theorem flushInstLine_pflags (pa : Nat) : (s.flushInstLine pa).pflags = s.pflags := rfl
@[simp] theorem flushInstLine_ptb (pa : Nat) : (s.flushInstLine pa).ptb = s.ptb := rfl
@[simp] theorem flushInstLine_eha (pa : Nat) : (s.flushInstLine pa).eha = s.eha := rfl
@[simp] theorem flushInstLine_epc (pa : Nat) : (s.flushInstLine pa).epc = s.epc := rfl
@[simp] theorem flushInstLine_ec0 (pa : Nat) : (s.flushInstLine pa).ec0 = s.ec0 := rfl
@[simp] theorem flushInstLine_ec1 (pa : Nat) : (s.flushInstLine pa).ec1 = s.ec1 := rfl
@[simp] theorem flushInstLine_ec2 (pa : Nat) : (s.flushInstLine pa).ec2 = s.ec2 := rfl
@[simp] theorem flushInstLine_ec3 (pa : Nat) : (s.flushInstLine pa).ec3 = s.ec3 := rfl
@[simp] theorem flushInstLine_ea0 (pa : Nat) : (s.flushInstLine pa).ea0 = s.ea0 := rfl
@[simp] theorem flushInstLine_ea1 (pa : Nat) : (s.flushInstLine pa).ea1 = s.ea1 := rfl
@[simp] theorem flushInstLine_sp0 (pa : Nat) : (s.flushInstLine pa).sp0 = s.sp0 := rfl
@[simp] theorem flushInstLine_sp1 (pa : Nat) : (s.flushInstLine pa).sp1 = s.sp1 := rfl
@[simp] theorem flushInstLine_sp2 (pa : Nat) : (s.flushInstLine pa).sp2 = s.sp2 := rfl
@[simp] theorem flushInstLine_sp3 (pa : Nat) : (s.flushInstLine pa).sp3 = s.sp3 := rfl
@[simp] theorem flushInstLine_mem (pa : Nat) : (s.flushInstLine pa).mem = s.mem := rfl
@[simp] theorem flushInstLine_itlb (pa : Nat) : (s.flushInstLine pa).itlb = s.itlb := rfl
@[simp] theorem flushInstLine_dtlb (pa : Nat) : (s.flushInstLine pa).dtlb = s.dtlb := rfl
@[simp] theorem flushInstLine_l2 (pa : Nat) : (s.flushInstLine pa).l2 = s.l2 := rfl
@[simp] theorem flushInstLine_inputs (pa : Nat) : (s.flushInstLine pa).inputs = s.inputs := rfl
@[simp] theorem flushInstLine_ehaWritten (pa : Nat) : (s.flushInstLine pa).ehaWritten = s.ehaWritten := rfl
@[simp] theorem flushInstLine_draw (pa : Nat) : (s.flushInstLine pa).draw = s.draw := rfl
@[simp] theorem flushInstLine_reg (pa : Nat) (q : Reg) : (s.flushInstLine pa).reg q = s.reg q := rfl
@[simp] theorem flushInstLine_pred (pa : Nat) (q : PredReg) : (s.flushInstLine pa).pred q = s.pred q := rfl
@[simp] theorem flushInstLine_memByte (pa : Nat) (x : Nat) : (s.flushInstLine pa).memByte x = s.memByte x := rfl

-- flushDtlb
@[simp] theorem flushDtlb_regs (v : BitVec 20) : (s.flushDtlb v).regs = s.regs := rfl
@[simp] theorem flushDtlb_pc (v : BitVec 20) : (s.flushDtlb v).pc = s.pc := rfl
@[simp] theorem flushDtlb_p0 (v : BitVec 20) : (s.flushDtlb v).p0 = s.p0 := rfl
@[simp] theorem flushDtlb_p1 (v : BitVec 20) : (s.flushDtlb v).p1 = s.p1 := rfl
@[simp] theorem flushDtlb_p2 (v : BitVec 20) : (s.flushDtlb v).p2 = s.p2 := rfl
@[simp] theorem flushDtlb_hi (v : BitVec 20) : (s.flushDtlb v).hi = s.hi := rfl
@[simp] theorem flushDtlb_link (v : BitVec 20) : (s.flushDtlb v).link = s.link := rfl
@[simp] theorem flushDtlb_mode (v : BitVec 20) : (s.flushDtlb v).mode = s.mode := rfl
@[simp] theorem flushDtlb_pflags (v : BitVec 20) : (s.flushDtlb v).pflags = s.pflags := rfl
@[simp] theorem flushDtlb_ptb (v : BitVec 20) : (s.flushDtlb v).ptb = s.ptb := rfl
@[simp] theorem flushDtlb_eha (v : BitVec 20) : (s.flushDtlb v).eha = s.eha := rfl
@[simp] theorem flushDtlb_epc (v : BitVec 20) : (s.flushDtlb v).epc = s.epc := rfl
@[simp] theorem flushDtlb_ec0 (v : BitVec 20) : (s.flushDtlb v).ec0 = s.ec0 := rfl
@[simp] theorem flushDtlb_ec1 (v : BitVec 20) : (s.flushDtlb v).ec1 = s.ec1 := rfl
@[simp] theorem flushDtlb_ec2 (v : BitVec 20) : (s.flushDtlb v).ec2 = s.ec2 := rfl
@[simp] theorem flushDtlb_ec3 (v : BitVec 20) : (s.flushDtlb v).ec3 = s.ec3 := rfl
@[simp] theorem flushDtlb_ea0 (v : BitVec 20) : (s.flushDtlb v).ea0 = s.ea0 := rfl
@[simp] theorem flushDtlb_ea1 (v : BitVec 20) : (s.flushDtlb v).ea1 = s.ea1 := rfl
@[simp] theorem flushDtlb_sp0 (v : BitVec 20) : (s.flushDtlb v).sp0 = s.sp0 := rfl
@[simp] theorem flushDtlb_sp1 (v : BitVec 20) : (s.flushDtlb v).sp1 = s.sp1 := rfl
@[simp] theorem flushDtlb_sp2 (v : BitVec 20) : (s.flushDtlb v).sp2 = s.sp2 := rfl
@[simp] theorem flushDtlb_sp3 (v : BitVec 20) : (s.flushDtlb v).sp3 = s.sp3 := rfl
@[simp] theorem flushDtlb_mem (v : BitVec 20) : (s.flushDtlb v).mem = s.mem := rfl
@[simp] theorem flushDtlb_itlb (v : BitVec 20) : (s.flushDtlb v).itlb = s.itlb := rfl
@[simp] theorem flushDtlb_l2 (v : BitVec 20) : (s.flushDtlb v).l2 = s.l2 := rfl
@[simp] theorem flushDtlb_l1i (v : BitVec 20) : (s.flushDtlb v).l1i = s.l1i := rfl
@[simp] theorem flushDtlb_inputs (v : BitVec 20) : (s.flushDtlb v).inputs = s.inputs := rfl
@[simp] theorem flushDtlb_ehaWritten (v : BitVec 20) : (s.flushDtlb v).ehaWritten = s.ehaWritten := rfl
@[simp] theorem flushDtlb_draw (v : BitVec 20) : (s.flushDtlb v).draw = s.draw := rfl
@[simp] theorem flushDtlb_reg (v : BitVec 20) (q : Reg) : (s.flushDtlb v).reg q = s.reg q := rfl
@[simp] theorem flushDtlb_pred (v : BitVec 20) (q : PredReg) : (s.flushDtlb v).pred q = s.pred q := rfl
@[simp] theorem flushDtlb_memByte (v : BitVec 20) (x : Nat) : (s.flushDtlb v).memByte x = s.memByte x := rfl

-- flushItlb
@[simp] theorem flushItlb_regs (v : BitVec 20) : (s.flushItlb v).regs = s.regs := rfl
@[simp] theorem flushItlb_pc (v : BitVec 20) : (s.flushItlb v).pc = s.pc := rfl
@[simp] theorem flushItlb_p0 (v : BitVec 20) : (s.flushItlb v).p0 = s.p0 := rfl
@[simp] theorem flushItlb_p1 (v : BitVec 20) : (s.flushItlb v).p1 = s.p1 := rfl
@[simp] theorem flushItlb_p2 (v : BitVec 20) : (s.flushItlb v).p2 = s.p2 := rfl
@[simp] theorem flushItlb_hi (v : BitVec 20) : (s.flushItlb v).hi = s.hi := rfl
@[simp] theorem flushItlb_link (v : BitVec 20) : (s.flushItlb v).link = s.link := rfl
@[simp] theorem flushItlb_mode (v : BitVec 20) : (s.flushItlb v).mode = s.mode := rfl
@[simp] theorem flushItlb_pflags (v : BitVec 20) : (s.flushItlb v).pflags = s.pflags := rfl
@[simp] theorem flushItlb_ptb (v : BitVec 20) : (s.flushItlb v).ptb = s.ptb := rfl
@[simp] theorem flushItlb_eha (v : BitVec 20) : (s.flushItlb v).eha = s.eha := rfl
@[simp] theorem flushItlb_epc (v : BitVec 20) : (s.flushItlb v).epc = s.epc := rfl
@[simp] theorem flushItlb_ec0 (v : BitVec 20) : (s.flushItlb v).ec0 = s.ec0 := rfl
@[simp] theorem flushItlb_ec1 (v : BitVec 20) : (s.flushItlb v).ec1 = s.ec1 := rfl
@[simp] theorem flushItlb_ec2 (v : BitVec 20) : (s.flushItlb v).ec2 = s.ec2 := rfl
@[simp] theorem flushItlb_ec3 (v : BitVec 20) : (s.flushItlb v).ec3 = s.ec3 := rfl
@[simp] theorem flushItlb_ea0 (v : BitVec 20) : (s.flushItlb v).ea0 = s.ea0 := rfl
@[simp] theorem flushItlb_ea1 (v : BitVec 20) : (s.flushItlb v).ea1 = s.ea1 := rfl
@[simp] theorem flushItlb_sp0 (v : BitVec 20) : (s.flushItlb v).sp0 = s.sp0 := rfl
@[simp] theorem flushItlb_sp1 (v : BitVec 20) : (s.flushItlb v).sp1 = s.sp1 := rfl
@[simp] theorem flushItlb_sp2 (v : BitVec 20) : (s.flushItlb v).sp2 = s.sp2 := rfl
@[simp] theorem flushItlb_sp3 (v : BitVec 20) : (s.flushItlb v).sp3 = s.sp3 := rfl
@[simp] theorem flushItlb_mem (v : BitVec 20) : (s.flushItlb v).mem = s.mem := rfl
@[simp] theorem flushItlb_dtlb (v : BitVec 20) : (s.flushItlb v).dtlb = s.dtlb := rfl
@[simp] theorem flushItlb_l2 (v : BitVec 20) : (s.flushItlb v).l2 = s.l2 := rfl
@[simp] theorem flushItlb_l1i (v : BitVec 20) : (s.flushItlb v).l1i = s.l1i := rfl
@[simp] theorem flushItlb_inputs (v : BitVec 20) : (s.flushItlb v).inputs = s.inputs := rfl
@[simp] theorem flushItlb_ehaWritten (v : BitVec 20) : (s.flushItlb v).ehaWritten = s.ehaWritten := rfl
@[simp] theorem flushItlb_draw (v : BitVec 20) : (s.flushItlb v).draw = s.draw := rfl
@[simp] theorem flushItlb_reg (v : BitVec 20) (q : Reg) : (s.flushItlb v).reg q = s.reg q := rfl
@[simp] theorem flushItlb_pred (v : BitVec 20) (q : PredReg) : (s.flushItlb v).pred q = s.pred q := rfl
@[simp] theorem flushItlb_memByte (v : BitVec 20) (x : Nat) : (s.flushItlb v).memByte x = s.memByte x := rfl

-- enterTrap
@[simp] theorem enterTrap_regs  : (s.enterTrap).regs = s.regs := rfl
@[simp] theorem enterTrap_p0  : (s.enterTrap).p0 = s.p0 := rfl
@[simp] theorem enterTrap_p1  : (s.enterTrap).p1 = s.p1 := rfl
@[simp] theorem enterTrap_p2  : (s.enterTrap).p2 = s.p2 := rfl
@[simp] theorem enterTrap_hi  : (s.enterTrap).hi = s.hi := rfl
@[simp] theorem enterTrap_ptb  : (s.enterTrap).ptb = s.ptb := rfl
@[simp] theorem enterTrap_eha  : (s.enterTrap).eha = s.eha := rfl
@[simp] theorem enterTrap_ec0  : (s.enterTrap).ec0 = s.ec0 := rfl
@[simp] theorem enterTrap_ec1  : (s.enterTrap).ec1 = s.ec1 := rfl
@[simp] theorem enterTrap_ec2  : (s.enterTrap).ec2 = s.ec2 := rfl
@[simp] theorem enterTrap_ec3  : (s.enterTrap).ec3 = s.ec3 := rfl
@[simp] theorem enterTrap_ea0  : (s.enterTrap).ea0 = s.ea0 := rfl
@[simp] theorem enterTrap_ea1  : (s.enterTrap).ea1 = s.ea1 := rfl
@[simp] theorem enterTrap_sp0  : (s.enterTrap).sp0 = s.sp0 := rfl
@[simp] theorem enterTrap_sp1  : (s.enterTrap).sp1 = s.sp1 := rfl
@[simp] theorem enterTrap_sp2  : (s.enterTrap).sp2 = s.sp2 := rfl
@[simp] theorem enterTrap_sp3  : (s.enterTrap).sp3 = s.sp3 := rfl
@[simp] theorem enterTrap_mem  : (s.enterTrap).mem = s.mem := rfl
@[simp] theorem enterTrap_itlb  : (s.enterTrap).itlb = s.itlb := rfl
@[simp] theorem enterTrap_dtlb  : (s.enterTrap).dtlb = s.dtlb := rfl
@[simp] theorem enterTrap_l2  : (s.enterTrap).l2 = s.l2 := rfl
@[simp] theorem enterTrap_l1i  : (s.enterTrap).l1i = s.l1i := rfl
@[simp] theorem enterTrap_inputs  : (s.enterTrap).inputs = s.inputs := rfl
@[simp] theorem enterTrap_ehaWritten  : (s.enterTrap).ehaWritten = s.ehaWritten := rfl
@[simp] theorem enterTrap_draw  : (s.enterTrap).draw = s.draw := rfl
@[simp] theorem enterTrap_reg  (q : Reg) : (s.enterTrap).reg q = s.reg q := rfl
@[simp] theorem enterTrap_pred  (q : PredReg) : (s.enterTrap).pred q = s.pred q := rfl
@[simp] theorem enterTrap_memByte  (x : Nat) : (s.enterTrap).memByte x = s.memByte x := rfl

-- takeException
@[simp] theorem takeException_regs (r0 r1 r2 r3 : LaneReport) : (s.takeException r0 r1 r2 r3).regs = s.regs := rfl
@[simp] theorem takeException_p0 (r0 r1 r2 r3 : LaneReport) : (s.takeException r0 r1 r2 r3).p0 = s.p0 := rfl
@[simp] theorem takeException_p1 (r0 r1 r2 r3 : LaneReport) : (s.takeException r0 r1 r2 r3).p1 = s.p1 := rfl
@[simp] theorem takeException_p2 (r0 r1 r2 r3 : LaneReport) : (s.takeException r0 r1 r2 r3).p2 = s.p2 := rfl
@[simp] theorem takeException_hi (r0 r1 r2 r3 : LaneReport) : (s.takeException r0 r1 r2 r3).hi = s.hi := rfl
@[simp] theorem takeException_ptb (r0 r1 r2 r3 : LaneReport) : (s.takeException r0 r1 r2 r3).ptb = s.ptb := rfl
@[simp] theorem takeException_eha (r0 r1 r2 r3 : LaneReport) : (s.takeException r0 r1 r2 r3).eha = s.eha := rfl
@[simp] theorem takeException_sp0 (r0 r1 r2 r3 : LaneReport) : (s.takeException r0 r1 r2 r3).sp0 = s.sp0 := rfl
@[simp] theorem takeException_sp1 (r0 r1 r2 r3 : LaneReport) : (s.takeException r0 r1 r2 r3).sp1 = s.sp1 := rfl
@[simp] theorem takeException_sp2 (r0 r1 r2 r3 : LaneReport) : (s.takeException r0 r1 r2 r3).sp2 = s.sp2 := rfl
@[simp] theorem takeException_sp3 (r0 r1 r2 r3 : LaneReport) : (s.takeException r0 r1 r2 r3).sp3 = s.sp3 := rfl
@[simp] theorem takeException_mem (r0 r1 r2 r3 : LaneReport) : (s.takeException r0 r1 r2 r3).mem = s.mem := rfl
@[simp] theorem takeException_itlb (r0 r1 r2 r3 : LaneReport) : (s.takeException r0 r1 r2 r3).itlb = s.itlb := rfl
@[simp] theorem takeException_dtlb (r0 r1 r2 r3 : LaneReport) : (s.takeException r0 r1 r2 r3).dtlb = s.dtlb := rfl
@[simp] theorem takeException_l2 (r0 r1 r2 r3 : LaneReport) : (s.takeException r0 r1 r2 r3).l2 = s.l2 := rfl
@[simp] theorem takeException_l1i (r0 r1 r2 r3 : LaneReport) : (s.takeException r0 r1 r2 r3).l1i = s.l1i := rfl
@[simp] theorem takeException_inputs (r0 r1 r2 r3 : LaneReport) : (s.takeException r0 r1 r2 r3).inputs = s.inputs := rfl
@[simp] theorem takeException_ehaWritten (r0 r1 r2 r3 : LaneReport) : (s.takeException r0 r1 r2 r3).ehaWritten = s.ehaWritten := rfl
@[simp] theorem takeException_draw (r0 r1 r2 r3 : LaneReport) : (s.takeException r0 r1 r2 r3).draw = s.draw := rfl
@[simp] theorem takeException_reg (r0 r1 r2 r3 : LaneReport) (q : Reg) : (s.takeException r0 r1 r2 r3).reg q = s.reg q := rfl
@[simp] theorem takeException_pred (r0 r1 r2 r3 : LaneReport) (q : PredReg) : (s.takeException r0 r1 r2 r3).pred q = s.pred q := rfl
@[simp] theorem takeException_memByte (r0 r1 r2 r3 : LaneReport) (x : Nat) : (s.takeException r0 r1 r2 r3).memByte x = s.memByte x := rfl

-- takeInterrupt
@[simp] theorem takeInterrupt_regs (src : IrqSource) : (s.takeInterrupt src).regs = s.regs := rfl
@[simp] theorem takeInterrupt_p0 (src : IrqSource) : (s.takeInterrupt src).p0 = s.p0 := rfl
@[simp] theorem takeInterrupt_p1 (src : IrqSource) : (s.takeInterrupt src).p1 = s.p1 := rfl
@[simp] theorem takeInterrupt_p2 (src : IrqSource) : (s.takeInterrupt src).p2 = s.p2 := rfl
@[simp] theorem takeInterrupt_hi (src : IrqSource) : (s.takeInterrupt src).hi = s.hi := rfl
@[simp] theorem takeInterrupt_ptb (src : IrqSource) : (s.takeInterrupt src).ptb = s.ptb := rfl
@[simp] theorem takeInterrupt_eha (src : IrqSource) : (s.takeInterrupt src).eha = s.eha := rfl
@[simp] theorem takeInterrupt_ec1 (src : IrqSource) : (s.takeInterrupt src).ec1 = s.ec1 := rfl
@[simp] theorem takeInterrupt_ec2 (src : IrqSource) : (s.takeInterrupt src).ec2 = s.ec2 := rfl
@[simp] theorem takeInterrupt_ec3 (src : IrqSource) : (s.takeInterrupt src).ec3 = s.ec3 := rfl
@[simp] theorem takeInterrupt_ea0 (src : IrqSource) : (s.takeInterrupt src).ea0 = s.ea0 := rfl
@[simp] theorem takeInterrupt_ea1 (src : IrqSource) : (s.takeInterrupt src).ea1 = s.ea1 := rfl
@[simp] theorem takeInterrupt_sp0 (src : IrqSource) : (s.takeInterrupt src).sp0 = s.sp0 := rfl
@[simp] theorem takeInterrupt_sp1 (src : IrqSource) : (s.takeInterrupt src).sp1 = s.sp1 := rfl
@[simp] theorem takeInterrupt_sp2 (src : IrqSource) : (s.takeInterrupt src).sp2 = s.sp2 := rfl
@[simp] theorem takeInterrupt_sp3 (src : IrqSource) : (s.takeInterrupt src).sp3 = s.sp3 := rfl
@[simp] theorem takeInterrupt_mem (src : IrqSource) : (s.takeInterrupt src).mem = s.mem := rfl
@[simp] theorem takeInterrupt_itlb (src : IrqSource) : (s.takeInterrupt src).itlb = s.itlb := rfl
@[simp] theorem takeInterrupt_dtlb (src : IrqSource) : (s.takeInterrupt src).dtlb = s.dtlb := rfl
@[simp] theorem takeInterrupt_l2 (src : IrqSource) : (s.takeInterrupt src).l2 = s.l2 := rfl
@[simp] theorem takeInterrupt_l1i (src : IrqSource) : (s.takeInterrupt src).l1i = s.l1i := rfl
@[simp] theorem takeInterrupt_inputs (src : IrqSource) : (s.takeInterrupt src).inputs = s.inputs := rfl
@[simp] theorem takeInterrupt_ehaWritten (src : IrqSource) : (s.takeInterrupt src).ehaWritten = s.ehaWritten := rfl
@[simp] theorem takeInterrupt_draw (src : IrqSource) : (s.takeInterrupt src).draw = s.draw := rfl
@[simp] theorem takeInterrupt_reg (src : IrqSource) (q : Reg) : (s.takeInterrupt src).reg q = s.reg q := rfl
@[simp] theorem takeInterrupt_pred (src : IrqSource) (q : PredReg) : (s.takeInterrupt src).pred q = s.pred q := rfl
@[simp] theorem takeInterrupt_memByte (src : IrqSource) (x : Nat) : (s.takeInterrupt src).memByte x = s.memByte x := rfl

-- returnFromTrap
@[simp] theorem returnFromTrap_regs (epc : Word) : (s.returnFromTrap epc).regs = s.regs := rfl
@[simp] theorem returnFromTrap_pc (epc : Word) : (s.returnFromTrap epc).pc = s.pc := rfl
@[simp] theorem returnFromTrap_p0 (epc : Word) : (s.returnFromTrap epc).p0 = s.p0 := rfl
@[simp] theorem returnFromTrap_p1 (epc : Word) : (s.returnFromTrap epc).p1 = s.p1 := rfl
@[simp] theorem returnFromTrap_p2 (epc : Word) : (s.returnFromTrap epc).p2 = s.p2 := rfl
@[simp] theorem returnFromTrap_hi (epc : Word) : (s.returnFromTrap epc).hi = s.hi := rfl
@[simp] theorem returnFromTrap_ptb (epc : Word) : (s.returnFromTrap epc).ptb = s.ptb := rfl
@[simp] theorem returnFromTrap_eha (epc : Word) : (s.returnFromTrap epc).eha = s.eha := rfl
@[simp] theorem returnFromTrap_epc (epc : Word) : (s.returnFromTrap epc).epc = s.epc := rfl
@[simp] theorem returnFromTrap_ec0 (epc : Word) : (s.returnFromTrap epc).ec0 = s.ec0 := rfl
@[simp] theorem returnFromTrap_ec1 (epc : Word) : (s.returnFromTrap epc).ec1 = s.ec1 := rfl
@[simp] theorem returnFromTrap_ec2 (epc : Word) : (s.returnFromTrap epc).ec2 = s.ec2 := rfl
@[simp] theorem returnFromTrap_ec3 (epc : Word) : (s.returnFromTrap epc).ec3 = s.ec3 := rfl
@[simp] theorem returnFromTrap_ea0 (epc : Word) : (s.returnFromTrap epc).ea0 = s.ea0 := rfl
@[simp] theorem returnFromTrap_ea1 (epc : Word) : (s.returnFromTrap epc).ea1 = s.ea1 := rfl
@[simp] theorem returnFromTrap_sp0 (epc : Word) : (s.returnFromTrap epc).sp0 = s.sp0 := rfl
@[simp] theorem returnFromTrap_sp1 (epc : Word) : (s.returnFromTrap epc).sp1 = s.sp1 := rfl
@[simp] theorem returnFromTrap_sp2 (epc : Word) : (s.returnFromTrap epc).sp2 = s.sp2 := rfl
@[simp] theorem returnFromTrap_sp3 (epc : Word) : (s.returnFromTrap epc).sp3 = s.sp3 := rfl
@[simp] theorem returnFromTrap_mem (epc : Word) : (s.returnFromTrap epc).mem = s.mem := rfl
@[simp] theorem returnFromTrap_itlb (epc : Word) : (s.returnFromTrap epc).itlb = s.itlb := rfl
@[simp] theorem returnFromTrap_dtlb (epc : Word) : (s.returnFromTrap epc).dtlb = s.dtlb := rfl
@[simp] theorem returnFromTrap_l2 (epc : Word) : (s.returnFromTrap epc).l2 = s.l2 := rfl
@[simp] theorem returnFromTrap_l1i (epc : Word) : (s.returnFromTrap epc).l1i = s.l1i := rfl
@[simp] theorem returnFromTrap_inputs (epc : Word) : (s.returnFromTrap epc).inputs = s.inputs := rfl
@[simp] theorem returnFromTrap_ehaWritten (epc : Word) : (s.returnFromTrap epc).ehaWritten = s.ehaWritten := rfl
@[simp] theorem returnFromTrap_draw (epc : Word) : (s.returnFromTrap epc).draw = s.draw := rfl
@[simp] theorem returnFromTrap_reg (epc : Word) (q : Reg) : (s.returnFromTrap epc).reg q = s.reg q := rfl
@[simp] theorem returnFromTrap_pred (epc : Word) (q : PredReg) : (s.returnFromTrap epc).pred q = s.pred q := rfl
@[simp] theorem returnFromTrap_memByte (epc : Word) (x : Nat) : (s.returnFromTrap epc).memByte x = s.memByte x := rfl

-- nextDraw
@[simp] theorem nextDraw_regs  : (s.nextDraw).regs = s.regs := rfl
@[simp] theorem nextDraw_pc  : (s.nextDraw).pc = s.pc := rfl
@[simp] theorem nextDraw_p0  : (s.nextDraw).p0 = s.p0 := rfl
@[simp] theorem nextDraw_p1  : (s.nextDraw).p1 = s.p1 := rfl
@[simp] theorem nextDraw_p2  : (s.nextDraw).p2 = s.p2 := rfl
@[simp] theorem nextDraw_hi  : (s.nextDraw).hi = s.hi := rfl
@[simp] theorem nextDraw_link  : (s.nextDraw).link = s.link := rfl
@[simp] theorem nextDraw_mode  : (s.nextDraw).mode = s.mode := rfl
@[simp] theorem nextDraw_pflags  : (s.nextDraw).pflags = s.pflags := rfl
@[simp] theorem nextDraw_ptb  : (s.nextDraw).ptb = s.ptb := rfl
@[simp] theorem nextDraw_eha  : (s.nextDraw).eha = s.eha := rfl
@[simp] theorem nextDraw_epc  : (s.nextDraw).epc = s.epc := rfl
@[simp] theorem nextDraw_ec0  : (s.nextDraw).ec0 = s.ec0 := rfl
@[simp] theorem nextDraw_ec1  : (s.nextDraw).ec1 = s.ec1 := rfl
@[simp] theorem nextDraw_ec2  : (s.nextDraw).ec2 = s.ec2 := rfl
@[simp] theorem nextDraw_ec3  : (s.nextDraw).ec3 = s.ec3 := rfl
@[simp] theorem nextDraw_ea0  : (s.nextDraw).ea0 = s.ea0 := rfl
@[simp] theorem nextDraw_ea1  : (s.nextDraw).ea1 = s.ea1 := rfl
@[simp] theorem nextDraw_sp0  : (s.nextDraw).sp0 = s.sp0 := rfl
@[simp] theorem nextDraw_sp1  : (s.nextDraw).sp1 = s.sp1 := rfl
@[simp] theorem nextDraw_sp2  : (s.nextDraw).sp2 = s.sp2 := rfl
@[simp] theorem nextDraw_sp3  : (s.nextDraw).sp3 = s.sp3 := rfl
@[simp] theorem nextDraw_mem  : (s.nextDraw).mem = s.mem := rfl
@[simp] theorem nextDraw_itlb  : (s.nextDraw).itlb = s.itlb := rfl
@[simp] theorem nextDraw_dtlb  : (s.nextDraw).dtlb = s.dtlb := rfl
@[simp] theorem nextDraw_l2  : (s.nextDraw).l2 = s.l2 := rfl
@[simp] theorem nextDraw_l1i  : (s.nextDraw).l1i = s.l1i := rfl
@[simp] theorem nextDraw_inputs  : (s.nextDraw).inputs = s.inputs := rfl
@[simp] theorem nextDraw_ehaWritten  : (s.nextDraw).ehaWritten = s.ehaWritten := rfl
@[simp] theorem nextDraw_reg  (q : Reg) : (s.nextDraw).reg q = s.reg q := rfl
@[simp] theorem nextDraw_pred  (q : PredReg) : (s.nextDraw).pred q = s.pred q := rfl
@[simp] theorem nextDraw_memByte  (x : Nat) : (s.nextDraw).memByte x = s.memByte x := rfl

-- fillDtlb
@[simp] theorem fillDtlb_regs (ws : Packet Writes) : (s.fillDtlb ws).regs = s.regs := rfl
@[simp] theorem fillDtlb_pc (ws : Packet Writes) : (s.fillDtlb ws).pc = s.pc := rfl
@[simp] theorem fillDtlb_p0 (ws : Packet Writes) : (s.fillDtlb ws).p0 = s.p0 := rfl
@[simp] theorem fillDtlb_p1 (ws : Packet Writes) : (s.fillDtlb ws).p1 = s.p1 := rfl
@[simp] theorem fillDtlb_p2 (ws : Packet Writes) : (s.fillDtlb ws).p2 = s.p2 := rfl
@[simp] theorem fillDtlb_hi (ws : Packet Writes) : (s.fillDtlb ws).hi = s.hi := rfl
@[simp] theorem fillDtlb_link (ws : Packet Writes) : (s.fillDtlb ws).link = s.link := rfl
@[simp] theorem fillDtlb_mode (ws : Packet Writes) : (s.fillDtlb ws).mode = s.mode := rfl
@[simp] theorem fillDtlb_pflags (ws : Packet Writes) : (s.fillDtlb ws).pflags = s.pflags := rfl
@[simp] theorem fillDtlb_ptb (ws : Packet Writes) : (s.fillDtlb ws).ptb = s.ptb := rfl
@[simp] theorem fillDtlb_eha (ws : Packet Writes) : (s.fillDtlb ws).eha = s.eha := rfl
@[simp] theorem fillDtlb_epc (ws : Packet Writes) : (s.fillDtlb ws).epc = s.epc := rfl
@[simp] theorem fillDtlb_ec0 (ws : Packet Writes) : (s.fillDtlb ws).ec0 = s.ec0 := rfl
@[simp] theorem fillDtlb_ec1 (ws : Packet Writes) : (s.fillDtlb ws).ec1 = s.ec1 := rfl
@[simp] theorem fillDtlb_ec2 (ws : Packet Writes) : (s.fillDtlb ws).ec2 = s.ec2 := rfl
@[simp] theorem fillDtlb_ec3 (ws : Packet Writes) : (s.fillDtlb ws).ec3 = s.ec3 := rfl
@[simp] theorem fillDtlb_ea0 (ws : Packet Writes) : (s.fillDtlb ws).ea0 = s.ea0 := rfl
@[simp] theorem fillDtlb_ea1 (ws : Packet Writes) : (s.fillDtlb ws).ea1 = s.ea1 := rfl
@[simp] theorem fillDtlb_sp0 (ws : Packet Writes) : (s.fillDtlb ws).sp0 = s.sp0 := rfl
@[simp] theorem fillDtlb_sp1 (ws : Packet Writes) : (s.fillDtlb ws).sp1 = s.sp1 := rfl
@[simp] theorem fillDtlb_sp2 (ws : Packet Writes) : (s.fillDtlb ws).sp2 = s.sp2 := rfl
@[simp] theorem fillDtlb_sp3 (ws : Packet Writes) : (s.fillDtlb ws).sp3 = s.sp3 := rfl
@[simp] theorem fillDtlb_mem (ws : Packet Writes) : (s.fillDtlb ws).mem = s.mem := rfl
@[simp] theorem fillDtlb_itlb (ws : Packet Writes) : (s.fillDtlb ws).itlb = s.itlb := rfl
@[simp] theorem fillDtlb_l2 (ws : Packet Writes) : (s.fillDtlb ws).l2 = s.l2 := rfl
@[simp] theorem fillDtlb_l1i (ws : Packet Writes) : (s.fillDtlb ws).l1i = s.l1i := rfl
@[simp] theorem fillDtlb_inputs (ws : Packet Writes) : (s.fillDtlb ws).inputs = s.inputs := rfl
@[simp] theorem fillDtlb_ehaWritten (ws : Packet Writes) : (s.fillDtlb ws).ehaWritten = s.ehaWritten := rfl
@[simp] theorem fillDtlb_draw (ws : Packet Writes) : (s.fillDtlb ws).draw = s.draw := rfl
@[simp] theorem fillDtlb_reg (ws : Packet Writes) (q : Reg) : (s.fillDtlb ws).reg q = s.reg q := rfl
@[simp] theorem fillDtlb_pred (ws : Packet Writes) (q : PredReg) : (s.fillDtlb ws).pred q = s.pred q := rfl
@[simp] theorem fillDtlb_memByte (ws : Packet Writes) (x : Nat) : (s.fillDtlb ws).memByte x = s.memByte x := rfl

-- fillItlb
@[simp] theorem fillItlb_regs (fill : Option TlbEntry) : (s.fillItlb fill).regs = s.regs := rfl
@[simp] theorem fillItlb_pc (fill : Option TlbEntry) : (s.fillItlb fill).pc = s.pc := rfl
@[simp] theorem fillItlb_p0 (fill : Option TlbEntry) : (s.fillItlb fill).p0 = s.p0 := rfl
@[simp] theorem fillItlb_p1 (fill : Option TlbEntry) : (s.fillItlb fill).p1 = s.p1 := rfl
@[simp] theorem fillItlb_p2 (fill : Option TlbEntry) : (s.fillItlb fill).p2 = s.p2 := rfl
@[simp] theorem fillItlb_hi (fill : Option TlbEntry) : (s.fillItlb fill).hi = s.hi := rfl
@[simp] theorem fillItlb_link (fill : Option TlbEntry) : (s.fillItlb fill).link = s.link := rfl
@[simp] theorem fillItlb_mode (fill : Option TlbEntry) : (s.fillItlb fill).mode = s.mode := rfl
@[simp] theorem fillItlb_pflags (fill : Option TlbEntry) : (s.fillItlb fill).pflags = s.pflags := rfl
@[simp] theorem fillItlb_ptb (fill : Option TlbEntry) : (s.fillItlb fill).ptb = s.ptb := rfl
@[simp] theorem fillItlb_eha (fill : Option TlbEntry) : (s.fillItlb fill).eha = s.eha := rfl
@[simp] theorem fillItlb_epc (fill : Option TlbEntry) : (s.fillItlb fill).epc = s.epc := rfl
@[simp] theorem fillItlb_ec0 (fill : Option TlbEntry) : (s.fillItlb fill).ec0 = s.ec0 := rfl
@[simp] theorem fillItlb_ec1 (fill : Option TlbEntry) : (s.fillItlb fill).ec1 = s.ec1 := rfl
@[simp] theorem fillItlb_ec2 (fill : Option TlbEntry) : (s.fillItlb fill).ec2 = s.ec2 := rfl
@[simp] theorem fillItlb_ec3 (fill : Option TlbEntry) : (s.fillItlb fill).ec3 = s.ec3 := rfl
@[simp] theorem fillItlb_ea0 (fill : Option TlbEntry) : (s.fillItlb fill).ea0 = s.ea0 := rfl
@[simp] theorem fillItlb_ea1 (fill : Option TlbEntry) : (s.fillItlb fill).ea1 = s.ea1 := rfl
@[simp] theorem fillItlb_sp0 (fill : Option TlbEntry) : (s.fillItlb fill).sp0 = s.sp0 := rfl
@[simp] theorem fillItlb_sp1 (fill : Option TlbEntry) : (s.fillItlb fill).sp1 = s.sp1 := rfl
@[simp] theorem fillItlb_sp2 (fill : Option TlbEntry) : (s.fillItlb fill).sp2 = s.sp2 := rfl
@[simp] theorem fillItlb_sp3 (fill : Option TlbEntry) : (s.fillItlb fill).sp3 = s.sp3 := rfl
@[simp] theorem fillItlb_mem (fill : Option TlbEntry) : (s.fillItlb fill).mem = s.mem := rfl
@[simp] theorem fillItlb_dtlb (fill : Option TlbEntry) : (s.fillItlb fill).dtlb = s.dtlb := rfl
@[simp] theorem fillItlb_l2 (fill : Option TlbEntry) : (s.fillItlb fill).l2 = s.l2 := rfl
@[simp] theorem fillItlb_l1i (fill : Option TlbEntry) : (s.fillItlb fill).l1i = s.l1i := rfl
@[simp] theorem fillItlb_inputs (fill : Option TlbEntry) : (s.fillItlb fill).inputs = s.inputs := rfl
@[simp] theorem fillItlb_ehaWritten (fill : Option TlbEntry) : (s.fillItlb fill).ehaWritten = s.ehaWritten := rfl
@[simp] theorem fillItlb_draw (fill : Option TlbEntry) : (s.fillItlb fill).draw = s.draw := rfl
@[simp] theorem fillItlb_reg (fill : Option TlbEntry) (q : Reg) : (s.fillItlb fill).reg q = s.reg q := rfl
@[simp] theorem fillItlb_pred (fill : Option TlbEntry) (q : PredReg) : (s.fillItlb fill).pred q = s.pred q := rfl
@[simp] theorem fillItlb_memByte (fill : Option TlbEntry) (x : Nat) : (s.fillItlb fill).memByte x = s.memByte x := rfl

-- advance
@[simp] theorem advance_regs (target : Option Word) (pc : Word) : (s.advance target pc).regs = s.regs := rfl
@[simp] theorem advance_p0 (target : Option Word) (pc : Word) : (s.advance target pc).p0 = s.p0 := rfl
@[simp] theorem advance_p1 (target : Option Word) (pc : Word) : (s.advance target pc).p1 = s.p1 := rfl
@[simp] theorem advance_p2 (target : Option Word) (pc : Word) : (s.advance target pc).p2 = s.p2 := rfl
@[simp] theorem advance_hi (target : Option Word) (pc : Word) : (s.advance target pc).hi = s.hi := rfl
@[simp] theorem advance_link (target : Option Word) (pc : Word) : (s.advance target pc).link = s.link := rfl
@[simp] theorem advance_mode (target : Option Word) (pc : Word) : (s.advance target pc).mode = s.mode := rfl
@[simp] theorem advance_pflags (target : Option Word) (pc : Word) : (s.advance target pc).pflags = s.pflags := rfl
@[simp] theorem advance_ptb (target : Option Word) (pc : Word) : (s.advance target pc).ptb = s.ptb := rfl
@[simp] theorem advance_eha (target : Option Word) (pc : Word) : (s.advance target pc).eha = s.eha := rfl
@[simp] theorem advance_epc (target : Option Word) (pc : Word) : (s.advance target pc).epc = s.epc := rfl
@[simp] theorem advance_ec0 (target : Option Word) (pc : Word) : (s.advance target pc).ec0 = s.ec0 := rfl
@[simp] theorem advance_ec1 (target : Option Word) (pc : Word) : (s.advance target pc).ec1 = s.ec1 := rfl
@[simp] theorem advance_ec2 (target : Option Word) (pc : Word) : (s.advance target pc).ec2 = s.ec2 := rfl
@[simp] theorem advance_ec3 (target : Option Word) (pc : Word) : (s.advance target pc).ec3 = s.ec3 := rfl
@[simp] theorem advance_ea0 (target : Option Word) (pc : Word) : (s.advance target pc).ea0 = s.ea0 := rfl
@[simp] theorem advance_ea1 (target : Option Word) (pc : Word) : (s.advance target pc).ea1 = s.ea1 := rfl
@[simp] theorem advance_sp0 (target : Option Word) (pc : Word) : (s.advance target pc).sp0 = s.sp0 := rfl
@[simp] theorem advance_sp1 (target : Option Word) (pc : Word) : (s.advance target pc).sp1 = s.sp1 := rfl
@[simp] theorem advance_sp2 (target : Option Word) (pc : Word) : (s.advance target pc).sp2 = s.sp2 := rfl
@[simp] theorem advance_sp3 (target : Option Word) (pc : Word) : (s.advance target pc).sp3 = s.sp3 := rfl
@[simp] theorem advance_mem (target : Option Word) (pc : Word) : (s.advance target pc).mem = s.mem := rfl
@[simp] theorem advance_itlb (target : Option Word) (pc : Word) : (s.advance target pc).itlb = s.itlb := rfl
@[simp] theorem advance_dtlb (target : Option Word) (pc : Word) : (s.advance target pc).dtlb = s.dtlb := rfl
@[simp] theorem advance_l2 (target : Option Word) (pc : Word) : (s.advance target pc).l2 = s.l2 := rfl
@[simp] theorem advance_l1i (target : Option Word) (pc : Word) : (s.advance target pc).l1i = s.l1i := rfl
@[simp] theorem advance_inputs (target : Option Word) (pc : Word) : (s.advance target pc).inputs = s.inputs := rfl
@[simp] theorem advance_ehaWritten (target : Option Word) (pc : Word) : (s.advance target pc).ehaWritten = s.ehaWritten := rfl
@[simp] theorem advance_reg (target : Option Word) (pc : Word) (q : Reg) : (s.advance target pc).reg q = s.reg q := rfl
@[simp] theorem advance_pred (target : Option Word) (pc : Word) (q : PredReg) : (s.advance target pc).pred q = s.pred q := rfl
@[simp] theorem advance_memByte (target : Option Word) (pc : Word) (x : Nat) : (s.advance target pc).memByte x = s.memByte x := rfl

-- setPred
@[simp] theorem setPred_regs (n : PredReg) (b : Bool) : (s.setPred n b).regs = s.regs := by unfold State.setPred; split <;> rfl
@[simp] theorem setPred_pc (n : PredReg) (b : Bool) : (s.setPred n b).pc = s.pc := by unfold State.setPred; split <;> rfl
@[simp] theorem setPred_hi (n : PredReg) (b : Bool) : (s.setPred n b).hi = s.hi := by unfold State.setPred; split <;> rfl
@[simp] theorem setPred_link (n : PredReg) (b : Bool) : (s.setPred n b).link = s.link := by unfold State.setPred; split <;> rfl
@[simp] theorem setPred_mode (n : PredReg) (b : Bool) : (s.setPred n b).mode = s.mode := by unfold State.setPred; split <;> rfl
@[simp] theorem setPred_pflags (n : PredReg) (b : Bool) : (s.setPred n b).pflags = s.pflags := by unfold State.setPred; split <;> rfl
@[simp] theorem setPred_ptb (n : PredReg) (b : Bool) : (s.setPred n b).ptb = s.ptb := by unfold State.setPred; split <;> rfl
@[simp] theorem setPred_eha (n : PredReg) (b : Bool) : (s.setPred n b).eha = s.eha := by unfold State.setPred; split <;> rfl
@[simp] theorem setPred_epc (n : PredReg) (b : Bool) : (s.setPred n b).epc = s.epc := by unfold State.setPred; split <;> rfl
@[simp] theorem setPred_ec0 (n : PredReg) (b : Bool) : (s.setPred n b).ec0 = s.ec0 := by unfold State.setPred; split <;> rfl
@[simp] theorem setPred_ec1 (n : PredReg) (b : Bool) : (s.setPred n b).ec1 = s.ec1 := by unfold State.setPred; split <;> rfl
@[simp] theorem setPred_ec2 (n : PredReg) (b : Bool) : (s.setPred n b).ec2 = s.ec2 := by unfold State.setPred; split <;> rfl
@[simp] theorem setPred_ec3 (n : PredReg) (b : Bool) : (s.setPred n b).ec3 = s.ec3 := by unfold State.setPred; split <;> rfl
@[simp] theorem setPred_ea0 (n : PredReg) (b : Bool) : (s.setPred n b).ea0 = s.ea0 := by unfold State.setPred; split <;> rfl
@[simp] theorem setPred_ea1 (n : PredReg) (b : Bool) : (s.setPred n b).ea1 = s.ea1 := by unfold State.setPred; split <;> rfl
@[simp] theorem setPred_sp0 (n : PredReg) (b : Bool) : (s.setPred n b).sp0 = s.sp0 := by unfold State.setPred; split <;> rfl
@[simp] theorem setPred_sp1 (n : PredReg) (b : Bool) : (s.setPred n b).sp1 = s.sp1 := by unfold State.setPred; split <;> rfl
@[simp] theorem setPred_sp2 (n : PredReg) (b : Bool) : (s.setPred n b).sp2 = s.sp2 := by unfold State.setPred; split <;> rfl
@[simp] theorem setPred_sp3 (n : PredReg) (b : Bool) : (s.setPred n b).sp3 = s.sp3 := by unfold State.setPred; split <;> rfl
@[simp] theorem setPred_mem (n : PredReg) (b : Bool) : (s.setPred n b).mem = s.mem := by unfold State.setPred; split <;> rfl
@[simp] theorem setPred_itlb (n : PredReg) (b : Bool) : (s.setPred n b).itlb = s.itlb := by unfold State.setPred; split <;> rfl
@[simp] theorem setPred_dtlb (n : PredReg) (b : Bool) : (s.setPred n b).dtlb = s.dtlb := by unfold State.setPred; split <;> rfl
@[simp] theorem setPred_l2 (n : PredReg) (b : Bool) : (s.setPred n b).l2 = s.l2 := by unfold State.setPred; split <;> rfl
@[simp] theorem setPred_l1i (n : PredReg) (b : Bool) : (s.setPred n b).l1i = s.l1i := by unfold State.setPred; split <;> rfl
@[simp] theorem setPred_inputs (n : PredReg) (b : Bool) : (s.setPred n b).inputs = s.inputs := by unfold State.setPred; split <;> rfl
@[simp] theorem setPred_ehaWritten (n : PredReg) (b : Bool) : (s.setPred n b).ehaWritten = s.ehaWritten := by unfold State.setPred; split <;> rfl
@[simp] theorem setPred_draw (n : PredReg) (b : Bool) : (s.setPred n b).draw = s.draw := by unfold State.setPred; split <;> rfl
@[simp] theorem setPred_reg (n : PredReg) (b : Bool) (q : Reg) : (s.setPred n b).reg q = s.reg q := by unfold State.setPred; split <;> rfl
@[simp] theorem setPred_memByte (n : PredReg) (b : Bool) (x : Nat) : (s.setPred n b).memByte x = s.memByte x := by unfold State.setPred; split <;> rfl

-- storeLE
@[simp] theorem storeLE_regs (pa n : Nat) (v : Word) : (s.storeLE pa n v).regs = s.regs := by
  induction n generalizing s pa v with
  | zero => rfl
  | succ n ih => simp [State.storeLE, ih]
@[simp] theorem storeLE_pc (pa n : Nat) (v : Word) : (s.storeLE pa n v).pc = s.pc := by
  induction n generalizing s pa v with
  | zero => rfl
  | succ n ih => simp [State.storeLE, ih]
@[simp] theorem storeLE_p0 (pa n : Nat) (v : Word) : (s.storeLE pa n v).p0 = s.p0 := by
  induction n generalizing s pa v with
  | zero => rfl
  | succ n ih => simp [State.storeLE, ih]
@[simp] theorem storeLE_p1 (pa n : Nat) (v : Word) : (s.storeLE pa n v).p1 = s.p1 := by
  induction n generalizing s pa v with
  | zero => rfl
  | succ n ih => simp [State.storeLE, ih]
@[simp] theorem storeLE_p2 (pa n : Nat) (v : Word) : (s.storeLE pa n v).p2 = s.p2 := by
  induction n generalizing s pa v with
  | zero => rfl
  | succ n ih => simp [State.storeLE, ih]
@[simp] theorem storeLE_hi (pa n : Nat) (v : Word) : (s.storeLE pa n v).hi = s.hi := by
  induction n generalizing s pa v with
  | zero => rfl
  | succ n ih => simp [State.storeLE, ih]
@[simp] theorem storeLE_link (pa n : Nat) (v : Word) : (s.storeLE pa n v).link = s.link := by
  induction n generalizing s pa v with
  | zero => rfl
  | succ n ih => simp [State.storeLE, ih]
@[simp] theorem storeLE_mode (pa n : Nat) (v : Word) : (s.storeLE pa n v).mode = s.mode := by
  induction n generalizing s pa v with
  | zero => rfl
  | succ n ih => simp [State.storeLE, ih]
@[simp] theorem storeLE_pflags (pa n : Nat) (v : Word) : (s.storeLE pa n v).pflags = s.pflags := by
  induction n generalizing s pa v with
  | zero => rfl
  | succ n ih => simp [State.storeLE, ih]
@[simp] theorem storeLE_ptb (pa n : Nat) (v : Word) : (s.storeLE pa n v).ptb = s.ptb := by
  induction n generalizing s pa v with
  | zero => rfl
  | succ n ih => simp [State.storeLE, ih]
@[simp] theorem storeLE_eha (pa n : Nat) (v : Word) : (s.storeLE pa n v).eha = s.eha := by
  induction n generalizing s pa v with
  | zero => rfl
  | succ n ih => simp [State.storeLE, ih]
@[simp] theorem storeLE_epc (pa n : Nat) (v : Word) : (s.storeLE pa n v).epc = s.epc := by
  induction n generalizing s pa v with
  | zero => rfl
  | succ n ih => simp [State.storeLE, ih]
@[simp] theorem storeLE_ec0 (pa n : Nat) (v : Word) : (s.storeLE pa n v).ec0 = s.ec0 := by
  induction n generalizing s pa v with
  | zero => rfl
  | succ n ih => simp [State.storeLE, ih]
@[simp] theorem storeLE_ec1 (pa n : Nat) (v : Word) : (s.storeLE pa n v).ec1 = s.ec1 := by
  induction n generalizing s pa v with
  | zero => rfl
  | succ n ih => simp [State.storeLE, ih]
@[simp] theorem storeLE_ec2 (pa n : Nat) (v : Word) : (s.storeLE pa n v).ec2 = s.ec2 := by
  induction n generalizing s pa v with
  | zero => rfl
  | succ n ih => simp [State.storeLE, ih]
@[simp] theorem storeLE_ec3 (pa n : Nat) (v : Word) : (s.storeLE pa n v).ec3 = s.ec3 := by
  induction n generalizing s pa v with
  | zero => rfl
  | succ n ih => simp [State.storeLE, ih]
@[simp] theorem storeLE_ea0 (pa n : Nat) (v : Word) : (s.storeLE pa n v).ea0 = s.ea0 := by
  induction n generalizing s pa v with
  | zero => rfl
  | succ n ih => simp [State.storeLE, ih]
@[simp] theorem storeLE_ea1 (pa n : Nat) (v : Word) : (s.storeLE pa n v).ea1 = s.ea1 := by
  induction n generalizing s pa v with
  | zero => rfl
  | succ n ih => simp [State.storeLE, ih]
@[simp] theorem storeLE_sp0 (pa n : Nat) (v : Word) : (s.storeLE pa n v).sp0 = s.sp0 := by
  induction n generalizing s pa v with
  | zero => rfl
  | succ n ih => simp [State.storeLE, ih]
@[simp] theorem storeLE_sp1 (pa n : Nat) (v : Word) : (s.storeLE pa n v).sp1 = s.sp1 := by
  induction n generalizing s pa v with
  | zero => rfl
  | succ n ih => simp [State.storeLE, ih]
@[simp] theorem storeLE_sp2 (pa n : Nat) (v : Word) : (s.storeLE pa n v).sp2 = s.sp2 := by
  induction n generalizing s pa v with
  | zero => rfl
  | succ n ih => simp [State.storeLE, ih]
@[simp] theorem storeLE_sp3 (pa n : Nat) (v : Word) : (s.storeLE pa n v).sp3 = s.sp3 := by
  induction n generalizing s pa v with
  | zero => rfl
  | succ n ih => simp [State.storeLE, ih]
@[simp] theorem storeLE_itlb (pa n : Nat) (v : Word) : (s.storeLE pa n v).itlb = s.itlb := by
  induction n generalizing s pa v with
  | zero => rfl
  | succ n ih => simp [State.storeLE, ih]
@[simp] theorem storeLE_dtlb (pa n : Nat) (v : Word) : (s.storeLE pa n v).dtlb = s.dtlb := by
  induction n generalizing s pa v with
  | zero => rfl
  | succ n ih => simp [State.storeLE, ih]
@[simp] theorem storeLE_l1i (pa n : Nat) (v : Word) : (s.storeLE pa n v).l1i = s.l1i := by
  induction n generalizing s pa v with
  | zero => rfl
  | succ n ih => simp [State.storeLE, ih]
@[simp] theorem storeLE_inputs (pa n : Nat) (v : Word) : (s.storeLE pa n v).inputs = s.inputs := by
  induction n generalizing s pa v with
  | zero => rfl
  | succ n ih => simp [State.storeLE, ih]
@[simp] theorem storeLE_ehaWritten (pa n : Nat) (v : Word) : (s.storeLE pa n v).ehaWritten = s.ehaWritten := by
  induction n generalizing s pa v with
  | zero => rfl
  | succ n ih => simp [State.storeLE, ih]
@[simp] theorem storeLE_draw (pa n : Nat) (v : Word) : (s.storeLE pa n v).draw = s.draw := by
  induction n generalizing s pa v with
  | zero => rfl
  | succ n ih => simp [State.storeLE, ih]
@[simp] theorem storeLE_reg (pa n : Nat) (v : Word) (q : Reg) : (s.storeLE pa n v).reg q = s.reg q := by simp [State.reg]
@[simp] theorem storeLE_pred (pa n : Nat) (v : Word) (q : PredReg) : (s.storeLE pa n v).pred q = s.pred q := by simp [State.pred]

-- flush
@[simp] theorem flush_regs (f : Flush) : (s.flush f).regs = s.regs := by cases f <;> simp [State.flush]
@[simp] theorem flush_pc (f : Flush) : (s.flush f).pc = s.pc := by cases f <;> simp [State.flush]
@[simp] theorem flush_p0 (f : Flush) : (s.flush f).p0 = s.p0 := by cases f <;> simp [State.flush]
@[simp] theorem flush_p1 (f : Flush) : (s.flush f).p1 = s.p1 := by cases f <;> simp [State.flush]
@[simp] theorem flush_p2 (f : Flush) : (s.flush f).p2 = s.p2 := by cases f <;> simp [State.flush]
@[simp] theorem flush_hi (f : Flush) : (s.flush f).hi = s.hi := by cases f <;> simp [State.flush]
@[simp] theorem flush_link (f : Flush) : (s.flush f).link = s.link := by cases f <;> simp [State.flush]
@[simp] theorem flush_mode (f : Flush) : (s.flush f).mode = s.mode := by cases f <;> simp [State.flush]
@[simp] theorem flush_pflags (f : Flush) : (s.flush f).pflags = s.pflags := by cases f <;> simp [State.flush]
@[simp] theorem flush_ptb (f : Flush) : (s.flush f).ptb = s.ptb := by cases f <;> simp [State.flush]
@[simp] theorem flush_eha (f : Flush) : (s.flush f).eha = s.eha := by cases f <;> simp [State.flush]
@[simp] theorem flush_epc (f : Flush) : (s.flush f).epc = s.epc := by cases f <;> simp [State.flush]
@[simp] theorem flush_ec0 (f : Flush) : (s.flush f).ec0 = s.ec0 := by cases f <;> simp [State.flush]
@[simp] theorem flush_ec1 (f : Flush) : (s.flush f).ec1 = s.ec1 := by cases f <;> simp [State.flush]
@[simp] theorem flush_ec2 (f : Flush) : (s.flush f).ec2 = s.ec2 := by cases f <;> simp [State.flush]
@[simp] theorem flush_ec3 (f : Flush) : (s.flush f).ec3 = s.ec3 := by cases f <;> simp [State.flush]
@[simp] theorem flush_ea0 (f : Flush) : (s.flush f).ea0 = s.ea0 := by cases f <;> simp [State.flush]
@[simp] theorem flush_ea1 (f : Flush) : (s.flush f).ea1 = s.ea1 := by cases f <;> simp [State.flush]
@[simp] theorem flush_sp0 (f : Flush) : (s.flush f).sp0 = s.sp0 := by cases f <;> simp [State.flush]
@[simp] theorem flush_sp1 (f : Flush) : (s.flush f).sp1 = s.sp1 := by cases f <;> simp [State.flush]
@[simp] theorem flush_sp2 (f : Flush) : (s.flush f).sp2 = s.sp2 := by cases f <;> simp [State.flush]
@[simp] theorem flush_sp3 (f : Flush) : (s.flush f).sp3 = s.sp3 := by cases f <;> simp [State.flush]
@[simp] theorem flush_inputs (f : Flush) : (s.flush f).inputs = s.inputs := by cases f <;> simp [State.flush]
@[simp] theorem flush_ehaWritten (f : Flush) : (s.flush f).ehaWritten = s.ehaWritten := by cases f <;> simp [State.flush]
@[simp] theorem flush_draw (f : Flush) : (s.flush f).draw = s.draw := by cases f <;> simp [State.flush]

-- dmaByte, dmaBytes, dmaWrite
@[simp] theorem dmaByte_regs (h : Bool) (pa : Nat) (b : Byte) : (s.dmaByte h pa b).regs = s.regs := by
  unfold State.dmaByte
  repeat' split
  all_goals rfl
@[simp] theorem dmaBytes_regs (h : Bool) (pa n : Nat) (v : Word) : (s.dmaBytes h pa n v).regs = s.regs := by
  induction n generalizing s pa v with
  | zero => rfl
  | succ n ih => simp [State.dmaBytes, ih]
@[simp] theorem dmaWrite_regs (w : DmaWrite) : (s.dmaWrite w).regs = s.regs := by
  unfold State.dmaWrite
  dsimp only
  split <;> simp
@[simp] theorem dmaByte_pc (h : Bool) (pa : Nat) (b : Byte) : (s.dmaByte h pa b).pc = s.pc := by
  unfold State.dmaByte
  repeat' split
  all_goals rfl
@[simp] theorem dmaBytes_pc (h : Bool) (pa n : Nat) (v : Word) : (s.dmaBytes h pa n v).pc = s.pc := by
  induction n generalizing s pa v with
  | zero => rfl
  | succ n ih => simp [State.dmaBytes, ih]
@[simp] theorem dmaWrite_pc (w : DmaWrite) : (s.dmaWrite w).pc = s.pc := by
  unfold State.dmaWrite
  dsimp only
  split <;> simp
@[simp] theorem dmaByte_p0 (h : Bool) (pa : Nat) (b : Byte) : (s.dmaByte h pa b).p0 = s.p0 := by
  unfold State.dmaByte
  repeat' split
  all_goals rfl
@[simp] theorem dmaBytes_p0 (h : Bool) (pa n : Nat) (v : Word) : (s.dmaBytes h pa n v).p0 = s.p0 := by
  induction n generalizing s pa v with
  | zero => rfl
  | succ n ih => simp [State.dmaBytes, ih]
@[simp] theorem dmaWrite_p0 (w : DmaWrite) : (s.dmaWrite w).p0 = s.p0 := by
  unfold State.dmaWrite
  dsimp only
  split <;> simp
@[simp] theorem dmaByte_p1 (h : Bool) (pa : Nat) (b : Byte) : (s.dmaByte h pa b).p1 = s.p1 := by
  unfold State.dmaByte
  repeat' split
  all_goals rfl
@[simp] theorem dmaBytes_p1 (h : Bool) (pa n : Nat) (v : Word) : (s.dmaBytes h pa n v).p1 = s.p1 := by
  induction n generalizing s pa v with
  | zero => rfl
  | succ n ih => simp [State.dmaBytes, ih]
@[simp] theorem dmaWrite_p1 (w : DmaWrite) : (s.dmaWrite w).p1 = s.p1 := by
  unfold State.dmaWrite
  dsimp only
  split <;> simp
@[simp] theorem dmaByte_p2 (h : Bool) (pa : Nat) (b : Byte) : (s.dmaByte h pa b).p2 = s.p2 := by
  unfold State.dmaByte
  repeat' split
  all_goals rfl
@[simp] theorem dmaBytes_p2 (h : Bool) (pa n : Nat) (v : Word) : (s.dmaBytes h pa n v).p2 = s.p2 := by
  induction n generalizing s pa v with
  | zero => rfl
  | succ n ih => simp [State.dmaBytes, ih]
@[simp] theorem dmaWrite_p2 (w : DmaWrite) : (s.dmaWrite w).p2 = s.p2 := by
  unfold State.dmaWrite
  dsimp only
  split <;> simp
@[simp] theorem dmaByte_hi (h : Bool) (pa : Nat) (b : Byte) : (s.dmaByte h pa b).hi = s.hi := by
  unfold State.dmaByte
  repeat' split
  all_goals rfl
@[simp] theorem dmaBytes_hi (h : Bool) (pa n : Nat) (v : Word) : (s.dmaBytes h pa n v).hi = s.hi := by
  induction n generalizing s pa v with
  | zero => rfl
  | succ n ih => simp [State.dmaBytes, ih]
@[simp] theorem dmaWrite_hi (w : DmaWrite) : (s.dmaWrite w).hi = s.hi := by
  unfold State.dmaWrite
  dsimp only
  split <;> simp
@[simp] theorem dmaByte_link (h : Bool) (pa : Nat) (b : Byte) : (s.dmaByte h pa b).link = s.link := by
  unfold State.dmaByte
  repeat' split
  all_goals rfl
@[simp] theorem dmaBytes_link (h : Bool) (pa n : Nat) (v : Word) : (s.dmaBytes h pa n v).link = s.link := by
  induction n generalizing s pa v with
  | zero => rfl
  | succ n ih => simp [State.dmaBytes, ih]
@[simp] theorem dmaWrite_link (w : DmaWrite) : (s.dmaWrite w).link = s.link := by
  unfold State.dmaWrite
  dsimp only
  split <;> simp
@[simp] theorem dmaByte_mode (h : Bool) (pa : Nat) (b : Byte) : (s.dmaByte h pa b).mode = s.mode := by
  unfold State.dmaByte
  repeat' split
  all_goals rfl
@[simp] theorem dmaBytes_mode (h : Bool) (pa n : Nat) (v : Word) : (s.dmaBytes h pa n v).mode = s.mode := by
  induction n generalizing s pa v with
  | zero => rfl
  | succ n ih => simp [State.dmaBytes, ih]
@[simp] theorem dmaWrite_mode (w : DmaWrite) : (s.dmaWrite w).mode = s.mode := by
  unfold State.dmaWrite
  dsimp only
  split <;> simp
@[simp] theorem dmaByte_pflags (h : Bool) (pa : Nat) (b : Byte) : (s.dmaByte h pa b).pflags = s.pflags := by
  unfold State.dmaByte
  repeat' split
  all_goals rfl
@[simp] theorem dmaBytes_pflags (h : Bool) (pa n : Nat) (v : Word) : (s.dmaBytes h pa n v).pflags = s.pflags := by
  induction n generalizing s pa v with
  | zero => rfl
  | succ n ih => simp [State.dmaBytes, ih]
@[simp] theorem dmaWrite_pflags (w : DmaWrite) : (s.dmaWrite w).pflags = s.pflags := by
  unfold State.dmaWrite
  dsimp only
  split <;> simp
@[simp] theorem dmaByte_ptb (h : Bool) (pa : Nat) (b : Byte) : (s.dmaByte h pa b).ptb = s.ptb := by
  unfold State.dmaByte
  repeat' split
  all_goals rfl
@[simp] theorem dmaBytes_ptb (h : Bool) (pa n : Nat) (v : Word) : (s.dmaBytes h pa n v).ptb = s.ptb := by
  induction n generalizing s pa v with
  | zero => rfl
  | succ n ih => simp [State.dmaBytes, ih]
@[simp] theorem dmaWrite_ptb (w : DmaWrite) : (s.dmaWrite w).ptb = s.ptb := by
  unfold State.dmaWrite
  dsimp only
  split <;> simp
@[simp] theorem dmaByte_eha (h : Bool) (pa : Nat) (b : Byte) : (s.dmaByte h pa b).eha = s.eha := by
  unfold State.dmaByte
  repeat' split
  all_goals rfl
@[simp] theorem dmaBytes_eha (h : Bool) (pa n : Nat) (v : Word) : (s.dmaBytes h pa n v).eha = s.eha := by
  induction n generalizing s pa v with
  | zero => rfl
  | succ n ih => simp [State.dmaBytes, ih]
@[simp] theorem dmaWrite_eha (w : DmaWrite) : (s.dmaWrite w).eha = s.eha := by
  unfold State.dmaWrite
  dsimp only
  split <;> simp
@[simp] theorem dmaByte_epc (h : Bool) (pa : Nat) (b : Byte) : (s.dmaByte h pa b).epc = s.epc := by
  unfold State.dmaByte
  repeat' split
  all_goals rfl
@[simp] theorem dmaBytes_epc (h : Bool) (pa n : Nat) (v : Word) : (s.dmaBytes h pa n v).epc = s.epc := by
  induction n generalizing s pa v with
  | zero => rfl
  | succ n ih => simp [State.dmaBytes, ih]
@[simp] theorem dmaWrite_epc (w : DmaWrite) : (s.dmaWrite w).epc = s.epc := by
  unfold State.dmaWrite
  dsimp only
  split <;> simp
@[simp] theorem dmaByte_ec0 (h : Bool) (pa : Nat) (b : Byte) : (s.dmaByte h pa b).ec0 = s.ec0 := by
  unfold State.dmaByte
  repeat' split
  all_goals rfl
@[simp] theorem dmaBytes_ec0 (h : Bool) (pa n : Nat) (v : Word) : (s.dmaBytes h pa n v).ec0 = s.ec0 := by
  induction n generalizing s pa v with
  | zero => rfl
  | succ n ih => simp [State.dmaBytes, ih]
@[simp] theorem dmaWrite_ec0 (w : DmaWrite) : (s.dmaWrite w).ec0 = s.ec0 := by
  unfold State.dmaWrite
  dsimp only
  split <;> simp
@[simp] theorem dmaByte_ec1 (h : Bool) (pa : Nat) (b : Byte) : (s.dmaByte h pa b).ec1 = s.ec1 := by
  unfold State.dmaByte
  repeat' split
  all_goals rfl
@[simp] theorem dmaBytes_ec1 (h : Bool) (pa n : Nat) (v : Word) : (s.dmaBytes h pa n v).ec1 = s.ec1 := by
  induction n generalizing s pa v with
  | zero => rfl
  | succ n ih => simp [State.dmaBytes, ih]
@[simp] theorem dmaWrite_ec1 (w : DmaWrite) : (s.dmaWrite w).ec1 = s.ec1 := by
  unfold State.dmaWrite
  dsimp only
  split <;> simp
@[simp] theorem dmaByte_ec2 (h : Bool) (pa : Nat) (b : Byte) : (s.dmaByte h pa b).ec2 = s.ec2 := by
  unfold State.dmaByte
  repeat' split
  all_goals rfl
@[simp] theorem dmaBytes_ec2 (h : Bool) (pa n : Nat) (v : Word) : (s.dmaBytes h pa n v).ec2 = s.ec2 := by
  induction n generalizing s pa v with
  | zero => rfl
  | succ n ih => simp [State.dmaBytes, ih]
@[simp] theorem dmaWrite_ec2 (w : DmaWrite) : (s.dmaWrite w).ec2 = s.ec2 := by
  unfold State.dmaWrite
  dsimp only
  split <;> simp
@[simp] theorem dmaByte_ec3 (h : Bool) (pa : Nat) (b : Byte) : (s.dmaByte h pa b).ec3 = s.ec3 := by
  unfold State.dmaByte
  repeat' split
  all_goals rfl
@[simp] theorem dmaBytes_ec3 (h : Bool) (pa n : Nat) (v : Word) : (s.dmaBytes h pa n v).ec3 = s.ec3 := by
  induction n generalizing s pa v with
  | zero => rfl
  | succ n ih => simp [State.dmaBytes, ih]
@[simp] theorem dmaWrite_ec3 (w : DmaWrite) : (s.dmaWrite w).ec3 = s.ec3 := by
  unfold State.dmaWrite
  dsimp only
  split <;> simp
@[simp] theorem dmaByte_ea0 (h : Bool) (pa : Nat) (b : Byte) : (s.dmaByte h pa b).ea0 = s.ea0 := by
  unfold State.dmaByte
  repeat' split
  all_goals rfl
@[simp] theorem dmaBytes_ea0 (h : Bool) (pa n : Nat) (v : Word) : (s.dmaBytes h pa n v).ea0 = s.ea0 := by
  induction n generalizing s pa v with
  | zero => rfl
  | succ n ih => simp [State.dmaBytes, ih]
@[simp] theorem dmaWrite_ea0 (w : DmaWrite) : (s.dmaWrite w).ea0 = s.ea0 := by
  unfold State.dmaWrite
  dsimp only
  split <;> simp
@[simp] theorem dmaByte_ea1 (h : Bool) (pa : Nat) (b : Byte) : (s.dmaByte h pa b).ea1 = s.ea1 := by
  unfold State.dmaByte
  repeat' split
  all_goals rfl
@[simp] theorem dmaBytes_ea1 (h : Bool) (pa n : Nat) (v : Word) : (s.dmaBytes h pa n v).ea1 = s.ea1 := by
  induction n generalizing s pa v with
  | zero => rfl
  | succ n ih => simp [State.dmaBytes, ih]
@[simp] theorem dmaWrite_ea1 (w : DmaWrite) : (s.dmaWrite w).ea1 = s.ea1 := by
  unfold State.dmaWrite
  dsimp only
  split <;> simp
@[simp] theorem dmaByte_sp0 (h : Bool) (pa : Nat) (b : Byte) : (s.dmaByte h pa b).sp0 = s.sp0 := by
  unfold State.dmaByte
  repeat' split
  all_goals rfl
@[simp] theorem dmaBytes_sp0 (h : Bool) (pa n : Nat) (v : Word) : (s.dmaBytes h pa n v).sp0 = s.sp0 := by
  induction n generalizing s pa v with
  | zero => rfl
  | succ n ih => simp [State.dmaBytes, ih]
@[simp] theorem dmaWrite_sp0 (w : DmaWrite) : (s.dmaWrite w).sp0 = s.sp0 := by
  unfold State.dmaWrite
  dsimp only
  split <;> simp
@[simp] theorem dmaByte_sp1 (h : Bool) (pa : Nat) (b : Byte) : (s.dmaByte h pa b).sp1 = s.sp1 := by
  unfold State.dmaByte
  repeat' split
  all_goals rfl
@[simp] theorem dmaBytes_sp1 (h : Bool) (pa n : Nat) (v : Word) : (s.dmaBytes h pa n v).sp1 = s.sp1 := by
  induction n generalizing s pa v with
  | zero => rfl
  | succ n ih => simp [State.dmaBytes, ih]
@[simp] theorem dmaWrite_sp1 (w : DmaWrite) : (s.dmaWrite w).sp1 = s.sp1 := by
  unfold State.dmaWrite
  dsimp only
  split <;> simp
@[simp] theorem dmaByte_sp2 (h : Bool) (pa : Nat) (b : Byte) : (s.dmaByte h pa b).sp2 = s.sp2 := by
  unfold State.dmaByte
  repeat' split
  all_goals rfl
@[simp] theorem dmaBytes_sp2 (h : Bool) (pa n : Nat) (v : Word) : (s.dmaBytes h pa n v).sp2 = s.sp2 := by
  induction n generalizing s pa v with
  | zero => rfl
  | succ n ih => simp [State.dmaBytes, ih]
@[simp] theorem dmaWrite_sp2 (w : DmaWrite) : (s.dmaWrite w).sp2 = s.sp2 := by
  unfold State.dmaWrite
  dsimp only
  split <;> simp
@[simp] theorem dmaByte_sp3 (h : Bool) (pa : Nat) (b : Byte) : (s.dmaByte h pa b).sp3 = s.sp3 := by
  unfold State.dmaByte
  repeat' split
  all_goals rfl
@[simp] theorem dmaBytes_sp3 (h : Bool) (pa n : Nat) (v : Word) : (s.dmaBytes h pa n v).sp3 = s.sp3 := by
  induction n generalizing s pa v with
  | zero => rfl
  | succ n ih => simp [State.dmaBytes, ih]
@[simp] theorem dmaWrite_sp3 (w : DmaWrite) : (s.dmaWrite w).sp3 = s.sp3 := by
  unfold State.dmaWrite
  dsimp only
  split <;> simp
@[simp] theorem dmaByte_itlb (h : Bool) (pa : Nat) (b : Byte) : (s.dmaByte h pa b).itlb = s.itlb := by
  unfold State.dmaByte
  repeat' split
  all_goals rfl
@[simp] theorem dmaBytes_itlb (h : Bool) (pa n : Nat) (v : Word) : (s.dmaBytes h pa n v).itlb = s.itlb := by
  induction n generalizing s pa v with
  | zero => rfl
  | succ n ih => simp [State.dmaBytes, ih]
@[simp] theorem dmaWrite_itlb (w : DmaWrite) : (s.dmaWrite w).itlb = s.itlb := by
  unfold State.dmaWrite
  dsimp only
  split <;> simp
@[simp] theorem dmaByte_dtlb (h : Bool) (pa : Nat) (b : Byte) : (s.dmaByte h pa b).dtlb = s.dtlb := by
  unfold State.dmaByte
  repeat' split
  all_goals rfl
@[simp] theorem dmaBytes_dtlb (h : Bool) (pa n : Nat) (v : Word) : (s.dmaBytes h pa n v).dtlb = s.dtlb := by
  induction n generalizing s pa v with
  | zero => rfl
  | succ n ih => simp [State.dmaBytes, ih]
@[simp] theorem dmaWrite_dtlb (w : DmaWrite) : (s.dmaWrite w).dtlb = s.dtlb := by
  unfold State.dmaWrite
  dsimp only
  split <;> simp
@[simp] theorem dmaByte_l1i (h : Bool) (pa : Nat) (b : Byte) : (s.dmaByte h pa b).l1i = s.l1i := by
  unfold State.dmaByte
  repeat' split
  all_goals rfl
@[simp] theorem dmaBytes_l1i (h : Bool) (pa n : Nat) (v : Word) : (s.dmaBytes h pa n v).l1i = s.l1i := by
  induction n generalizing s pa v with
  | zero => rfl
  | succ n ih => simp [State.dmaBytes, ih]
@[simp] theorem dmaByte_inputs (h : Bool) (pa : Nat) (b : Byte) : (s.dmaByte h pa b).inputs = s.inputs := by
  unfold State.dmaByte
  repeat' split
  all_goals rfl
@[simp] theorem dmaBytes_inputs (h : Bool) (pa n : Nat) (v : Word) : (s.dmaBytes h pa n v).inputs = s.inputs := by
  induction n generalizing s pa v with
  | zero => rfl
  | succ n ih => simp [State.dmaBytes, ih]
@[simp] theorem dmaWrite_inputs (w : DmaWrite) : (s.dmaWrite w).inputs = s.inputs := by
  unfold State.dmaWrite
  dsimp only
  split <;> simp
@[simp] theorem dmaByte_ehaWritten (h : Bool) (pa : Nat) (b : Byte) : (s.dmaByte h pa b).ehaWritten = s.ehaWritten := by
  unfold State.dmaByte
  repeat' split
  all_goals rfl
@[simp] theorem dmaBytes_ehaWritten (h : Bool) (pa n : Nat) (v : Word) : (s.dmaBytes h pa n v).ehaWritten = s.ehaWritten := by
  induction n generalizing s pa v with
  | zero => rfl
  | succ n ih => simp [State.dmaBytes, ih]
@[simp] theorem dmaWrite_ehaWritten (w : DmaWrite) : (s.dmaWrite w).ehaWritten = s.ehaWritten := by
  unfold State.dmaWrite
  dsimp only
  split <;> simp
@[simp] theorem dmaByte_draw (h : Bool) (pa : Nat) (b : Byte) : (s.dmaByte h pa b).draw = s.draw := by
  unfold State.dmaByte
  repeat' split
  all_goals rfl
@[simp] theorem dmaBytes_draw (h : Bool) (pa n : Nat) (v : Word) : (s.dmaBytes h pa n v).draw = s.draw := by
  induction n generalizing s pa v with
  | zero => rfl
  | succ n ih => simp [State.dmaBytes, ih]
@[simp] theorem dmaWrite_draw (w : DmaWrite) : (s.dmaWrite w).draw = s.draw := by
  unfold State.dmaWrite
  dsimp only
  split <;> simp

-- arrived: the environment changes memory, caches and TLBs only
/-- What no action of the environment changes stays through all of them. -/
theorem acts_keep {α : Type} (f : State → α) (h : ∀ s a, f (State.act s a) = f s) (l : List EnvAction) :
    f (l.foldl State.act s) = f s := by
  induction l generalizing s with
  | nil => rfl
  | cons a l ih => simpa [h] using ih (s.act a)

@[simp] theorem act_regs (a : EnvAction) : (s.act a).regs = s.regs := by cases a <;> simp [State.act]
@[simp] theorem act_pc (a : EnvAction) : (s.act a).pc = s.pc := by cases a <;> simp [State.act]
@[simp] theorem act_p0 (a : EnvAction) : (s.act a).p0 = s.p0 := by cases a <;> simp [State.act]
@[simp] theorem act_p1 (a : EnvAction) : (s.act a).p1 = s.p1 := by cases a <;> simp [State.act]
@[simp] theorem act_p2 (a : EnvAction) : (s.act a).p2 = s.p2 := by cases a <;> simp [State.act]
@[simp] theorem act_hi (a : EnvAction) : (s.act a).hi = s.hi := by cases a <;> simp [State.act]
@[simp] theorem act_link (a : EnvAction) : (s.act a).link = s.link := by cases a <;> simp [State.act]
@[simp] theorem act_mode (a : EnvAction) : (s.act a).mode = s.mode := by cases a <;> simp [State.act]
@[simp] theorem act_pflags (a : EnvAction) : (s.act a).pflags = s.pflags := by cases a <;> simp [State.act]
@[simp] theorem act_ptb (a : EnvAction) : (s.act a).ptb = s.ptb := by cases a <;> simp [State.act]
@[simp] theorem act_eha (a : EnvAction) : (s.act a).eha = s.eha := by cases a <;> simp [State.act]
@[simp] theorem act_epc (a : EnvAction) : (s.act a).epc = s.epc := by cases a <;> simp [State.act]
@[simp] theorem act_ec0 (a : EnvAction) : (s.act a).ec0 = s.ec0 := by cases a <;> simp [State.act]
@[simp] theorem act_ec1 (a : EnvAction) : (s.act a).ec1 = s.ec1 := by cases a <;> simp [State.act]
@[simp] theorem act_ec2 (a : EnvAction) : (s.act a).ec2 = s.ec2 := by cases a <;> simp [State.act]
@[simp] theorem act_ec3 (a : EnvAction) : (s.act a).ec3 = s.ec3 := by cases a <;> simp [State.act]
@[simp] theorem act_ea0 (a : EnvAction) : (s.act a).ea0 = s.ea0 := by cases a <;> simp [State.act]
@[simp] theorem act_ea1 (a : EnvAction) : (s.act a).ea1 = s.ea1 := by cases a <;> simp [State.act]
@[simp] theorem act_sp0 (a : EnvAction) : (s.act a).sp0 = s.sp0 := by cases a <;> simp [State.act]
@[simp] theorem act_sp1 (a : EnvAction) : (s.act a).sp1 = s.sp1 := by cases a <;> simp [State.act]
@[simp] theorem act_sp2 (a : EnvAction) : (s.act a).sp2 = s.sp2 := by cases a <;> simp [State.act]
@[simp] theorem act_sp3 (a : EnvAction) : (s.act a).sp3 = s.sp3 := by cases a <;> simp [State.act]
@[simp] theorem act_inputs (a : EnvAction) : (s.act a).inputs = s.inputs := by cases a <;> simp [State.act]
@[simp] theorem act_ehaWritten (a : EnvAction) : (s.act a).ehaWritten = s.ehaWritten := by cases a <;> simp [State.act]
@[simp] theorem act_draw (a : EnvAction) : (s.act a).draw = s.draw := by cases a <;> simp [State.act]
@[simp] theorem arrived_regs : s.arrived.regs = s.regs := acts_keep s (·.regs) act_regs s.acts
@[simp] theorem arrived_pc : s.arrived.pc = s.pc := acts_keep s (·.pc) act_pc s.acts
@[simp] theorem arrived_p0 : s.arrived.p0 = s.p0 := acts_keep s (·.p0) act_p0 s.acts
@[simp] theorem arrived_p1 : s.arrived.p1 = s.p1 := acts_keep s (·.p1) act_p1 s.acts
@[simp] theorem arrived_p2 : s.arrived.p2 = s.p2 := acts_keep s (·.p2) act_p2 s.acts
@[simp] theorem arrived_hi : s.arrived.hi = s.hi := acts_keep s (·.hi) act_hi s.acts
@[simp] theorem arrived_link : s.arrived.link = s.link := acts_keep s (·.link) act_link s.acts
@[simp] theorem arrived_mode : s.arrived.mode = s.mode := acts_keep s (·.mode) act_mode s.acts
@[simp] theorem arrived_pflags : s.arrived.pflags = s.pflags := acts_keep s (·.pflags) act_pflags s.acts
@[simp] theorem arrived_ptb : s.arrived.ptb = s.ptb := acts_keep s (·.ptb) act_ptb s.acts
@[simp] theorem arrived_eha : s.arrived.eha = s.eha := acts_keep s (·.eha) act_eha s.acts
@[simp] theorem arrived_epc : s.arrived.epc = s.epc := acts_keep s (·.epc) act_epc s.acts
@[simp] theorem arrived_ec0 : s.arrived.ec0 = s.ec0 := acts_keep s (·.ec0) act_ec0 s.acts
@[simp] theorem arrived_ec1 : s.arrived.ec1 = s.ec1 := acts_keep s (·.ec1) act_ec1 s.acts
@[simp] theorem arrived_ec2 : s.arrived.ec2 = s.ec2 := acts_keep s (·.ec2) act_ec2 s.acts
@[simp] theorem arrived_ec3 : s.arrived.ec3 = s.ec3 := acts_keep s (·.ec3) act_ec3 s.acts
@[simp] theorem arrived_ea0 : s.arrived.ea0 = s.ea0 := acts_keep s (·.ea0) act_ea0 s.acts
@[simp] theorem arrived_ea1 : s.arrived.ea1 = s.ea1 := acts_keep s (·.ea1) act_ea1 s.acts
@[simp] theorem arrived_sp0 : s.arrived.sp0 = s.sp0 := acts_keep s (·.sp0) act_sp0 s.acts
@[simp] theorem arrived_sp1 : s.arrived.sp1 = s.sp1 := acts_keep s (·.sp1) act_sp1 s.acts
@[simp] theorem arrived_sp2 : s.arrived.sp2 = s.sp2 := acts_keep s (·.sp2) act_sp2 s.acts
@[simp] theorem arrived_sp3 : s.arrived.sp3 = s.sp3 := acts_keep s (·.sp3) act_sp3 s.acts
@[simp] theorem arrived_ehaWritten : s.arrived.ehaWritten = s.ehaWritten := acts_keep s (·.ehaWritten) act_ehaWritten s.acts
@[simp] theorem arrived_draw : s.arrived.draw = s.draw := acts_keep s (·.draw) act_draw s.acts
@[simp] theorem arrived_inputs : s.arrived.inputs = s.inputs.tail := rfl
@[simp] theorem arrived_reg (q : Reg) : s.arrived.reg q = s.reg q := by simp [State.reg]
@[simp] theorem arrived_pred (q : PredReg) : s.arrived.pred q = s.pred q := by simp [State.pred]

/-- An environment that does nothing changes nothing but the input used up. -/
theorem arrived_idle (h : s.acts = []) : s.arrived = { s with inputs := s.inputs.tail } := by simp [State.arrived, h]

-- writeCp: the fields it never changes
@[simp] theorem writeCp_regs (c : CpReg) (v : Word) : (s.writeCp c v).regs = s.regs := by cases c <;> rfl
@[simp] theorem writeCp_pc (c : CpReg) (v : Word) : (s.writeCp c v).pc = s.pc := by cases c <;> rfl
@[simp] theorem writeCp_p0 (c : CpReg) (v : Word) : (s.writeCp c v).p0 = s.p0 := by cases c <;> rfl
@[simp] theorem writeCp_p1 (c : CpReg) (v : Word) : (s.writeCp c v).p1 = s.p1 := by cases c <;> rfl
@[simp] theorem writeCp_p2 (c : CpReg) (v : Word) : (s.writeCp c v).p2 = s.p2 := by cases c <;> rfl
@[simp] theorem writeCp_hi (c : CpReg) (v : Word) : (s.writeCp c v).hi = s.hi := by cases c <;> rfl
@[simp] theorem writeCp_link (c : CpReg) (v : Word) : (s.writeCp c v).link = s.link := by cases c <;> rfl
@[simp] theorem writeCp_mode (c : CpReg) (v : Word) : (s.writeCp c v).mode = s.mode := by cases c <;> rfl
@[simp] theorem writeCp_mem (c : CpReg) (v : Word) : (s.writeCp c v).mem = s.mem := by cases c <;> rfl
@[simp] theorem writeCp_l2 (c : CpReg) (v : Word) : (s.writeCp c v).l2 = s.l2 := by cases c <;> rfl
@[simp] theorem writeCp_l1i (c : CpReg) (v : Word) : (s.writeCp c v).l1i = s.l1i := by cases c <;> rfl
@[simp] theorem writeCp_inputs (c : CpReg) (v : Word) : (s.writeCp c v).inputs = s.inputs := by cases c <;> rfl
@[simp] theorem writeCp_draw (c : CpReg) (v : Word) : (s.writeCp c v).draw = s.draw := by cases c <;> rfl
@[simp] theorem writeCp_reg (c : CpReg) (v : Word) (q : Reg) : (s.writeCp c v).reg q = s.reg q := by cases c <;> rfl
@[simp] theorem writeCp_pred (c : CpReg) (v : Word) (q : PredReg) : (s.writeCp c v).pred q = s.pred q := by cases c <;> rfl
@[simp] theorem writeCp_memByte (c : CpReg) (v : Word) (x : Nat) : (s.writeCp c v).memByte x = s.memByte x := by cases c <;> rfl

-- What the updates give the fields they change

@[simp] theorem enterTrap_epc : s.enterTrap.epc = s.savedContext := rfl
@[simp] theorem enterTrap_pflags : s.enterTrap.pflags = withBit0 s.pflags false := rfl
@[simp] theorem enterTrap_mode : s.enterTrap.mode = .kernel := rfl
@[simp] theorem enterTrap_link : s.enterTrap.link = false := rfl
@[simp] theorem enterTrap_pc : s.enterTrap.pc = packetAddress s.eha := rfl
@[simp] theorem takeException_epc (r0 r1 r2 r3 : LaneReport) : (s.takeException r0 r1 r2 r3).epc = s.savedContext := rfl
@[simp] theorem takeException_pflags (r0 r1 r2 r3 : LaneReport) :
    (s.takeException r0 r1 r2 r3).pflags = withBit0 s.pflags false := rfl
@[simp] theorem takeException_mode (r0 r1 r2 r3 : LaneReport) : (s.takeException r0 r1 r2 r3).mode = .kernel := rfl
@[simp] theorem takeException_link (r0 r1 r2 r3 : LaneReport) : (s.takeException r0 r1 r2 r3).link = false := rfl
@[simp] theorem takeException_pc (r0 r1 r2 r3 : LaneReport) :
    (s.takeException r0 r1 r2 r3).pc = packetAddress s.eha := rfl
@[simp] theorem takeException_ec0 (r0 r1 r2 r3 : LaneReport) : (s.takeException r0 r1 r2 r3).ec0 = r0.ec := rfl
@[simp] theorem takeException_ec1 (r0 r1 r2 r3 : LaneReport) : (s.takeException r0 r1 r2 r3).ec1 = r1.ec := rfl
@[simp] theorem takeException_ec2 (r0 r1 r2 r3 : LaneReport) : (s.takeException r0 r1 r2 r3).ec2 = r2.ec := rfl
@[simp] theorem takeException_ec3 (r0 r1 r2 r3 : LaneReport) : (s.takeException r0 r1 r2 r3).ec3 = r3.ec := rfl
@[simp] theorem takeException_ea0 (r0 r1 r2 r3 : LaneReport) :
    (s.takeException r0 r1 r2 r3).ea0 = r0.ea.getD s.ea0 := rfl
@[simp] theorem takeException_ea1 (r0 r1 r2 r3 : LaneReport) :
    (s.takeException r0 r1 r2 r3).ea1 = r1.ea.getD s.ea1 := rfl
@[simp] theorem takeInterrupt_epc (src : IrqSource) : (s.takeInterrupt src).epc = s.savedContext := rfl
@[simp] theorem takeInterrupt_pflags (src : IrqSource) : (s.takeInterrupt src).pflags = withBit0 s.pflags false := rfl
@[simp] theorem takeInterrupt_mode (src : IrqSource) : (s.takeInterrupt src).mode = .kernel := rfl
@[simp] theorem takeInterrupt_link (src : IrqSource) : (s.takeInterrupt src).link = false := rfl
@[simp] theorem takeInterrupt_pc (src : IrqSource) : (s.takeInterrupt src).pc = packetAddress s.eha := rfl
@[simp] theorem takeInterrupt_ec0 (src : IrqSource) : (s.takeInterrupt src).ec0 = src.ec := rfl
@[simp] theorem returnFromTrap_mode (e : Word) : (s.returnFromTrap e).mode = modeOfBit (e.getLsbD 0) := rfl
@[simp] theorem returnFromTrap_pflags (e : Word) :
    (s.returnFromTrap e).pflags = withBit0 s.pflags (e.getLsbD 1) := rfl
@[simp] theorem returnFromTrap_link (e : Word) : (s.returnFromTrap e).link = false := rfl
@[simp] theorem nextDraw_draw : s.nextDraw.draw = s.draw + 1 := rfl
@[simp] theorem advance_pc (target : Option Word) (pc : Word) :
    (s.advance target pc).pc = target.getD (pc + 16#32) := rfl
@[simp] theorem advance_draw (target : Option Word) (pc : Word) : (s.advance target pc).draw = s.draw + 1 := rfl
@[simp] theorem fillItlb_itlb (fill : Option TlbEntry) : (s.fillItlb fill).itlb = addEntry s.itlb fill := rfl

/-- Reading a register after writing one (10_state R10). -/
theorem reg_setReg (r q : Reg) (v : Word) : (s.setReg r v).reg q = if q = r then v else s.reg q := by
  simp [State.reg, State.setReg, Vector.get_eq_getElem, Vector.getElem_set, BitVec.toNat_inj, eq_comm]

@[simp] theorem reg_setReg_same (r : Reg) (v : Word) : (s.setReg r v).reg r = v := by simp [reg_setReg]

/-- Reading a predicate after writing one: P3 always reads 1 (10_state R13, R14). -/
theorem pred_setPred (n q : PredReg) (b : Bool) :
    (s.setPred n b).pred q = if q = n ∧ n ≠ 3#2 then b else s.pred q := by
  have hn : n = 0#2 ∨ n = 1#2 ∨ n = 2#2 ∨ n = 3#2 := by revert n; decide
  have hq : q = 0#2 ∨ q = 1#2 ∨ q = 2#2 ∨ q = 3#2 := by revert q; decide
  rcases hn with rfl | rfl | rfl | rfl <;> rcases hq with rfl | rfl | rfl | rfl <;> rfl

@[simp] theorem pred_three : s.pred 3#2 = true := rfl

@[simp] theorem setPred_three (b : Bool) : s.setPred 3#2 b = s := rfl

end Sys2Proof.Machine
end

