-- ==== Sys2Proof/Laws/Memory.lean ====
section
/-! SUPPORT. Memory: reads after writes, the canonical form, and little-endian accesses as bytes
(20_memory R43 to R47, 43_loadstore R210). -/

namespace Sys2Proof.Machine

-- One cell -----------------------------------------------------------------------------------------------------

theorem memory_get?_set (m : Memory) (a : Nat) (b : Byte) (x : Nat) :
    Memory.get? (Memory.set m a b) x = if x = a then some b else Memory.get? m x := by
  induction m with
  | nil => simp [Memory.set, Memory.get?]
  | cons c m ih =>
    obtain ⟨k, v⟩ := c
    simp only [Memory.set]
    split_ifs <;> simp_all [Memory.get?]

/-- A write leaves every other address out of the list as it was. -/
theorem memory_mem_set {m : Memory} {a : Nat} {b : Byte} {c : Host.Cell} (h : c ∈ Memory.set m a b) :
    c = (a, b) ∨ c ∈ m := by
  induction m with
  | nil => simpa [Memory.set] using h
  | cons d m ih =>
    obtain ⟨k, v⟩ := d
    simp only [Memory.set] at h
    split_ifs at h <;> simp only [List.mem_cons] at h ⊢ <;> tauto

theorem memory_rising_set (m : Memory) (a : Nat) (b : Byte) (h : Memory.rising m = true) :
    Memory.rising (Memory.set m a b) = true := by
  induction m with
  | nil => simp [Memory.set, Memory.rising]
  | cons c m ih =>
    obtain ⟨k, v⟩ := c
    simp only [Memory.rising, Bool.and_eq_true, List.all_eq_true, decide_eq_true_eq] at h
    simp only [Memory.set]
    split_ifs with h1 h2
    · simp only [Memory.rising, List.all_cons, Bool.and_eq_true, List.all_eq_true, decide_eq_true_eq]
      exact ⟨⟨h1, fun c hc => h1.trans (h.1 c hc)⟩, h.1, h.2⟩
    · subst h2
      simp only [Memory.rising, Bool.and_eq_true, List.all_eq_true, decide_eq_true_eq]
      exact h
    · simp only [Memory.rising, Bool.and_eq_true, List.all_eq_true, decide_eq_true_eq]
      refine ⟨fun c hc => ?_, ih h.2⟩
      rcases memory_mem_set hc with rfl | hc
      · change k < a
        omega
      · exact h.1 c hc

/-- A write inside the address space keeps the canonical form. -/
theorem memory_wf_set (m : Memory) (a : Nat) (b : Byte) (h : Memory.wf m = true) (ha : a < Config.physBytes) :
    Memory.wf (Memory.set m a b) = true := by
  simp only [Memory.wf, Bool.and_eq_true, List.all_eq_true, decide_eq_true_eq] at h ⊢
  refine ⟨memory_rising_set m a b h.1, fun c hc => ?_⟩
  rcases memory_mem_set hc with rfl | hc
  · exact ha
  · exact h.2 c hc

/-- Equal reads mean equal lists: the form is canonical. -/
theorem memory_ext (m m' : Memory) (h : Memory.rising m = true) (h' : Memory.rising m' = true)
    (e : ∀ a, Memory.get? m a = Memory.get? m' a) : m = m' := by
  have below : ∀ (m : Memory) (k x : Nat), (∀ c ∈ m, k < c.1) → x ≤ k → Memory.get? m x = none := by
    intro m k x hm hx
    induction m with
    | nil => rfl
    | cons c m ih =>
      obtain ⟨j, v⟩ := c
      have : k < j := hm (j, v) (by simp)
      rw [Memory.get?, if_neg (by omega)]
      exact ih fun c hc => hm c (by simp [hc])
  induction m generalizing m' with
  | nil =>
    cases m' with
    | nil => rfl
    | cons c m' => obtain ⟨k, v⟩ := c; simpa [Memory.get?] using e k
  | cons c m ih =>
    obtain ⟨k, v⟩ := c
    cases m' with
    | nil => simpa [Memory.get?] using e k
    | cons c' m' =>
      obtain ⟨k', v'⟩ := c'
      simp only [Memory.rising, Bool.and_eq_true, List.all_eq_true, decide_eq_true_eq] at h h'
      have hk : k = k' := by
        rcases Nat.lt_trichotomy k k' with hlt | heq | hgt
        · have := e k
          rw [Memory.get?, if_pos rfl, Memory.get?, if_neg (by omega), below m' k' k h'.1 (by omega)] at this
          cases this
        · exact heq
        · have := e k'
          rw [Memory.get?, if_neg (by omega), Memory.get?, if_pos rfl, below m k k' h.1 (by omega)] at this
          cases this
      subst hk
      have hv : v = v' := by simpa [Memory.get?] using e k
      subst hv
      congr 1
      refine ih m' h.2 h'.2 fun a => ?_
      by_cases ha : a = k
      · subst ha
        rw [below m a a h.1 (by omega), below m' a a h'.1 (by omega)]
      · simpa [Memory.get?, ha] using e a

-- Bytes and words ------------------------------------------------------------------------------------------------

/-- No address belongs to a device (log 8). -/
@[simp] theorem loadByte_eq (s : State) (pa : Nat) : s.loadByte pa = s.memByte pa := rfl

/-- A byte store is read back, and changes no other byte (43_loadstore R210). -/
theorem memByte_storeByte (s : State) (pa : Nat) (b : Byte) (x : Nat) :
    (s.storeByte pa b).memByte x = if x = pa then b else s.memByte x := by
  simp only [State.memByte, State.storeByte, Config.isDevice, Bool.false_eq_true, if_false, memory_get?_set]
  split_ifs <;> rfl

/-- Stores keep every byte outside them, and byte `i` of the value stands at `pa + i` (20_memory R46). -/
theorem memByte_storeLE (s : State) (pa n : Nat) (v : Word) (x : Nat) :
    (s.storeLE pa n v).memByte x =
      if pa ≤ x ∧ x < pa + n then byteAt v (x - pa) else s.memByte x := by
  induction n generalizing s pa v with
  | zero =>
    simp [State.storeLE]
  | succ n ih =>
    rw [State.storeLE, ih, memByte_storeByte]
    by_cases h0 : x = pa
    · subst h0
      rw [if_neg (by omega), if_pos rfl, if_pos (by omega)]
      ext i hi
      simp [byteAt, BitVec.getLsbD_eq_getElem (show i < 32 by omega)]
    · by_cases h1 : pa + 1 ≤ x ∧ x < pa + 1 + n
      · rw [if_pos h1, if_pos (by omega)]
        ext i hi
        simp only [byteAt, BitVec.getElem_extractLsb', BitVec.getLsbD_ushiftRight]
        congr 1
        omega
      · rw [if_neg h1, if_neg h0, if_neg (by omega)]

/-- Byte `i` of a loaded word is the byte read at `pa + i`; beyond the access it is 0 (20_memory R43, R47). -/
theorem byteAt_assembleLE (byte : Nat → Byte) (pa n i : Nat) (hn : n ≤ 4) :
    byteAt (assembleLE byte pa n) i = if i < n then byte (pa + i) else 0#8 := by
  induction n generalizing pa i with
  | zero => simp [assembleLE, byteAt]
  | succ n ih =>
    by_cases h0 : i = 0
    · subst h0
      rw [if_pos (by omega)]
      ext j hj
      simp only [byteAt, assembleLE, BitVec.getElem_extractLsb', BitVec.getLsbD_or, BitVec.getLsbD_setWidth,
        BitVec.getLsbD_shiftLeft]
      simp [hj, show j < 32 by omega]
    · have step : byteAt (assembleLE byte pa (n + 1)) i = if i < 4 then byteAt (assembleLE byte (pa + 1) n) (i - 1)
          else 0#8 := by
        split_ifs with h4
        · ext j hj
          simp only [byteAt, assembleLE, BitVec.getElem_extractLsb', BitVec.getLsbD_or, BitVec.getLsbD_setWidth,
            BitVec.getLsbD_shiftLeft]
          rw [BitVec.getLsbD_of_ge (byte pa) (8 * i + j) (by omega)]
          simp only [Bool.and_false, Bool.false_or, show 8 * i + j < 32 by omega, decide_true, Bool.true_and,
            show ¬(8 * i + j < 8) by omega, decide_false, Bool.not_false]
          congr 1
          omega
        · ext j hj
          simp only [byteAt, BitVec.getElem_extractLsb', BitVec.getElem_zero]
          exact BitVec.getLsbD_of_ge _ _ (by omega)
      rw [step]
      by_cases h4 : i < 4
      · rw [if_pos h4, ih _ _ (by omega)]
        by_cases hi : i < n + 1
        · rw [if_pos (by omega), if_pos hi]
          congr 1
          omega
        · rw [if_neg (by omega), if_neg hi]
      · rw [if_neg h4, if_neg (by omega)]

/-- Two words with the same four bytes are equal. -/
theorem word_ext (a b : Word) (h : ∀ i < 4, byteAt a i = byteAt b i) : a = b := by
  ext i hi
  have := congrArg (fun v => v.getLsbD (i % 8)) (h (i / 8) (by omega))
  simpa [byteAt, BitVec.getLsbD_extractLsb', show i % 8 < 8 by omega, Nat.div_add_mod,
    BitVec.getLsbD_eq_getElem hi] using this

/-- An access of `n` bytes depends on those bytes only. -/
theorem loadLE_congr (s t : State) (pa n : Nat) (hn : n ≤ 4)
    (h : ∀ x, pa ≤ x → x < pa + n → s.memByte x = t.memByte x) : s.loadLE pa n = t.loadLE pa n := by
  refine word_ext _ _ fun i _ => ?_
  simp only [State.loadLE, byteAt_assembleLE _ _ _ _ hn, loadByte_eq]
  split_ifs with hi
  · exact h _ (by omega) (by omega)
  · rfl

/-- A load of the bytes just stored gives their value, zero-extended (20_memory R46, R47). -/
theorem loadLE_storeLE (s : State) (pa n : Nat) (v : Word) (hn : n ≤ 4) :
    (s.storeLE pa n v).loadLE pa n = (v.setWidth (8 * n)).setWidth 32 := by
  refine word_ext _ _ fun i hi => ?_
  simp only [State.loadLE, byteAt_assembleLE _ _ _ _ hn, loadByte_eq, memByte_storeLE]
  ext j hj
  by_cases h : i < n
  · rw [if_pos h, if_pos (by omega)]
    simp [byteAt, show 8 * i + j < 32 by omega, show 8 * i + j < 8 * n by omega]
  · rw [if_neg h]
    simp [byteAt, show ¬(8 * i + j < 8 * n) by omega]

/-- Stores inside the address space keep the canonical form. -/
theorem memory_wf_storeLE (s : State) (pa n : Nat) (v : Word) (h : Memory.wf s.mem = true)
    (hv : pa + n ≤ Config.physBytes) : Memory.wf (s.storeLE pa n v).mem = true := by
  induction n generalizing s pa v with
  | zero => exact h
  | succ n ih => exact ih _ _ _ (memory_wf_set _ _ _ h (by omega)) (by omega)

theorem reset_memory_wf : Memory.wf State.reset.mem = true := rfl

end Sys2Proof.Machine
end

