-- ==== Sys2Proof/Laws/Ops.lean ====
section
/-! SUPPORT. What each shared operation can do, said once: translation (20_memory R51 to R59), the TLBs, traps
and their return (60_exceptions R270 to R276), coprocessor registers. -/

namespace Sys2Proof.Machine

-- Translation ----------------------------------------------------------------------------------------------------

/-- With paging off the physical address is the virtual one and nothing is cached (R51). -/
theorem translatePage_off (s : State) (kind : AccessKind) (port : Nat) (va : Word) (h : s.paging = false) :
    s.translatePage kind port va = { fill := none, result := .ok va.toNat } := by
  simp [State.translatePage, h]

/-- A translation answers from the walk, and then it may add the walk's entry, or from the entry in the TLB, and then
it adds none (R58). -/
theorem hitOrWalk_cases (tlb : List TlbEntry) (vpn : BitVec 20) (w : WalkResult) (hit keep : Bool) :
    ((hitOrWalk tlb vpn w hit keep).result = w ∧
      ((hitOrWalk tlb vpn w hit keep).fill = none ∨ (hitOrWalk tlb vpn w hit keep).fill = w.entry?)) ∨
    ∃ e ∈ tlb, e.vpn = vpn ∧ hitOrWalk tlb vpn w hit keep = { result := .entry e, fill := none } := by
  unfold hitOrWalk
  cases h : tlb.find? fun e => e.vpn == vpn with
  | none => exact .inl ⟨rfl, .inr rfl⟩
  | some e =>
    have he : e.vpn = vpn := by simpa using List.find?_some h
    dsimp only
    split_ifs with h1 h2 h3
    · exact .inl ⟨rfl, .inl rfl⟩
    · exact .inr ⟨e, List.mem_of_find?_eq_some h, he, rfl⟩
    · exact .inl ⟨rfl, .inr rfl⟩
    · exact .inl ⟨rfl, .inl rfl⟩

/-- A TLB without an entry for the page walks, and takes the walk's entry (R58). -/
theorem hitOrWalk_absent {tlb : List TlbEntry} {vpn : BitVec 20} (h : ∀ e ∈ tlb, e.vpn ≠ vpn) (w : WalkResult)
    (hit keep : Bool) : hitOrWalk tlb vpn w hit keep = { result := w, fill := w.entry? } := by
  have : (tlb.find? fun e => e.vpn == vpn) = none := by simpa [List.find?_eq_none] using h
  simp [hitOrWalk, this]

/-- The entry of a walk is one of the page walked. -/
theorem walk_vpn {s : State} {va : Word} {e : TlbEntry} (h : s.walk va = .entry e) : e.vpn = vpnOf va := by
  unfold State.walk at h
  dsimp only at h
  split_ifs at h
  cases h
  rfl

/-- With paging on, a translation is a page fault, an invalid address in the walk, or the address that one entry
gives if that entry permits the access (R55 to R59). -/
theorem translatePage_cases (s : State) (kind : AccessKind) (port : Nat) (va : Word) (h : s.paging = true) :
    s.translatePage kind port va = { fill := none, result := .pageFault } ∨
    s.translatePage kind port va = { fill := none, result := .invalidPhys } ∨
    ∃ e : TlbEntry, (s.walk va = .entry e ∨ e ∈ s.tlbFor kind ∧ e.vpn = vpnOf va) ∧
      ∃ fill, (fill = none ∨ fill = some e ∧ s.walk va = .entry e) ∧ s.translatePage kind port va =
        { fill := fill
          result := if e.permits kind s.mode then .ok (e.physAddress va) else .pageFault } := by
  simp only [State.translatePage, h, Bool.not_true, Bool.false_eq_true, if_false]
  generalize hl : hitOrWalk (s.tlbFor kind) (vpnOf va) (s.walk va) (Config.tlbHit s.draw port)
    (Config.tlbKeep s.draw port) = l
  rcases hitOrWalk_cases (s.tlbFor kind) (vpnOf va) (s.walk va) (Config.tlbHit s.draw port)
    (Config.tlbKeep s.draw port) with ⟨h1, h2⟩ | ⟨e, he, hv, h1⟩
  · rw [hl] at h1 h2
    obtain ⟨r, fill⟩ := l
    dsimp only at h1 h2 ⊢
    subst h1
    cases hr : s.walk va with
    | pageFault => exact .inl (by simpa [hr, WalkResult.entry?] using h2)
    | invalidPhys => exact .inr (.inl (by simpa [hr, WalkResult.entry?] using h2))
    | entry e =>
      refine .inr (.inr ⟨e, .inl rfl, fill, ?_, rfl⟩)
      simpa [hr, WalkResult.entry?] using h2
  · rw [hl] at h1
    subst h1
    exact .inr (.inr ⟨e, .inr ⟨he, hv⟩, none, .inl rfl, rfl⟩)

/-- A TLB takes from a translation no entry but one of the page translated. -/
theorem translatePage_fill_vpn {s : State} {kind : AccessKind} {port : Nat} {va : Word} {e : TlbEntry}
    (h : (s.translatePage kind port va).fill = some e) : e.vpn = vpnOf va := by
  cases hp : s.paging with
  | false => simp [translatePage_off s kind port va hp] at h
  | true =>
    rcases translatePage_cases s kind port va hp with h1 | h1 | ⟨f, _, fill, h2, h1⟩
    · simp [h1] at h
    · simp [h1] at h
    · rcases h2 with rfl | ⟨rfl, h3⟩
      · simp [h1] at h
      · rw [h1] at h
        cases h
        exact walk_vpn h3

/-- The valid physical addresses (20_memory R41, log 7). -/
theorem physValid_iff (pa n : Nat) : Config.physValid pa n = true ↔ pa + n ≤ 2 ^ 29 := by
  simp only [Config.physValid, decide_eq_true_eq]
  rfl

/-- A translated access lies in the address space (R59). -/
theorem translate_ok (s : State) (kind : AccessKind) (port : Nat) (va : Word) (n pa : Nat)
    (h : (s.translate kind port va n).result = .ok pa) :
    (s.translatePage kind port va).result = .ok pa ∧ pa + n ≤ Config.physBytes := by
  unfold State.translate at h
  cases ht : (s.translatePage kind port va).result with
  | ok pa' =>
    simp only [ht] at h
    split_ifs at h with hv
    · rw [ht] at h
      cases h
      exact ⟨rfl, by simpa [Config.physValid] using hv⟩
  | pageFault => simp [ht] at h
  | invalidPhys => simp [ht] at h

/-- The last test of a translation does not touch what the TLB may keep. -/
@[simp] theorem translate_fill (s : State) (kind : AccessKind) (port : Nat) (va : Word) (n : Nat) :
    (s.translate kind port va n).fill = (s.translatePage kind port va).fill := by
  unfold State.translate
  generalize s.translatePage kind port va = t
  obtain ⟨fill, r⟩ := t
  cases r with
  | ok pa => cases h : Config.physValid pa n <;> simp [h]
  | pageFault => rfl
  | invalidPhys => rfl

-- TLBs -----------------------------------------------------------------------------------------------------------

/-- The entries of a TLB after one is added: it, and those of other pages (R58). -/
theorem mem_addEntry (tlb : List TlbEntry) (f e : TlbEntry) :
    e ∈ addEntry tlb (some f) ↔ e = f ∨ e ∈ tlb ∧ e.vpn ≠ f.vpn := by
  simp [addEntry]

/-- A TLB keeps at most one entry for a page (R58). -/
theorem nodup_addEntry (tlb : List TlbEntry) (fill : Option TlbEntry) (h : (tlb.map (·.vpn)).Nodup) :
    ((addEntry tlb fill).map (·.vpn)).Nodup := by
  cases fill with
  | none => exact h
  | some f =>
    simp only [addEntry, List.map_cons, List.nodup_cons]
    exact ⟨by simp, h.sublist (List.filter_sublist.map _)⟩

@[simp] theorem addEntry_none (tlb : List TlbEntry) : addEntry tlb none = tlb := rfl

-- Words ------------------------------------------------------------------------------------------------------------

/-- A packet address has its low four bits clear (44_branch R224). -/
@[simp] theorem packetAddress_low (v : Word) : packetAddress v &&& 0xF#32 = 0#32 := by
  simp [packetAddress, BitVec.and_assoc]

@[simp] theorem packetAddress_idem (v : Word) : packetAddress (packetAddress v) = packetAddress v := by
  simp [packetAddress, BitVec.and_assoc]

theorem packetAddress_eq_iff (v : Word) : packetAddress v = v ↔ v &&& 0xF#32 = 0#32 := by
  constructor
  · intro h
    rw [← h]
    simp
  · intro h
    have : v = (v &&& 0xFFFFFFF0#32) ||| (v &&& 0xF#32) := by
      rw [← BitVec.and_or_distrib_left]
      exact (BitVec.and_allOnes (x := v)).symm
    rw [h] at this
    simpa [packetAddress] using this.symm

/-- The successor of a packet address is one (10_state R35). -/
theorem packetAddress_next (v : Word) (h : v &&& 0xF#32 = 0#32) : (v + 16#32) &&& 0xF#32 = 0#32 := by
  have hv : v.toNat % 16 = 0 := by
    have := congrArg BitVec.toNat h
    simpa [BitVec.toNat_and, Nat.and_two_pow_sub_one_eq_mod (n := 4)] using this
  apply BitVec.eq_of_toNat_eq
  have : ((v + 16#32) &&& 0xF#32).toNat = (v + 16#32).toNat % 16 := by
    simp [BitVec.toNat_and, Nat.and_two_pow_sub_one_eq_mod (n := 4)]
  rw [this, BitVec.toNat_add]
  simp
  omega

/-- Bit 0 becomes `b`, every other bit stays. -/
theorem getLsbD_withBit0 (v : Word) (b : Bool) (i : Nat) :
    (withBit0 v b).getLsbD i = if i = 0 then b else v.getLsbD i := by
  rcases Nat.eq_zero_or_pos i with rfl | h
  · cases b <;> simp [withBit0, put]
  · have hi : ¬ i = 0 := by omega
    simp only [withBit0, put, BitVec.getLsbD_or, BitVec.getLsbD_and, BitVec.getLsbD_not, BitVec.getLsbD_one,
      BitVec.getLsbD_shiftLeft, BitVec.getLsbD_setWidth, BitVec.getLsbD_ofBool, if_neg hi]
    by_cases h32 : i < 32
    · simp [hi, h32]
    · simp [hi, h32, BitVec.getLsbD_of_ge v i (by omega)]

end Sys2Proof.Machine
end

