-- ==== Sys2Proof/Laws/Cache.lean ====
section
/-! SUPPORT. The caches and the environment: what the core, a fetch and a DMA peripheral see after a store, a FLUSH and
a DMA write, and what every action of the environment keeps (20_memory R48, R60, R66 to R68, 40_packet_execution
R132). -/

namespace Sys2Proof.Machine

-- The L2 cache's own bytes -------------------------------------------------------------------------------------------

theorem find?_filter_ne (l : List L2Byte) (pa x : Nat) :
    (l.filter fun e => !(e.addr == pa)).find? (fun e => e.addr == x) =
      if x = pa then none else l.find? fun e => e.addr == x := by
  induction l with
  | nil => simp
  | cons e l ih =>
    by_cases h : e.addr = pa <;> by_cases hx : e.addr = x <;> simp_all

/-- What the L2 cache has of its own after one byte of it is recorded. -/
theorem l2Copy_setL2 (s t : State) (pa : Nat) (c : L2Copy) (h : t.l2 = setL2 s.l2 pa c) (x : Nat) :
    t.l2Copy x = if x = pa then some c else s.l2Copy x := by
  unfold State.l2Copy
  rw [h, setL2, List.find?_cons]
  by_cases hx : x = pa
  · subst hx
    simp
  · rw [if_neg hx, show (pa == x) = false by simpa using fun h => hx h.symm, find?_filter_ne, if_neg hx]

/-- What a DMA peripheral reads after one byte of the L2 cache is recorded. -/
theorem l2Get_setL2 (s t : State) (pa : Nat) (c : L2Copy) (h : t.l2 = setL2 s.l2 pa c)
    (hm : ∀ x, x ≠ pa → Memory.get? t.mem x = Memory.get? s.mem x) (x : Nat) :
    t.l2Get x = if x = pa then c.value else s.l2Get x := by
  unfold State.l2Get
  rw [l2Copy_setL2 s t pa c h]
  by_cases hx : x = pa
  · rw [if_pos hx, if_pos hx]
  · rw [if_neg hx, if_neg hx, hm x hx]

/-- A record of the L2 cache replaces the one of the same byte. -/
theorem nodup_setL2 (l : List L2Byte) (pa : Nat) (c : L2Copy) (h : (l.map (·.addr)).Nodup) :
    ((setL2 l pa c).map (·.addr)).Nodup := by
  simp only [setL2, List.map_cons, List.nodup_cons]
  exact ⟨by simp, h.sublist (List.filter_sublist.map _)⟩

theorem mem_setL2 {l : List L2Byte} {pa : Nat} {c : L2Copy} {e : L2Byte} (h : e ∈ setL2 l pa c) :
    e.addr = pa ∨ e ∈ l := by
  simp only [setL2, List.mem_cons, List.mem_filter] at h
  rcases h with rfl | h
  · exact .inl rfl
  · exact .inr h.1

/-- A word that the L1 data cache does not hold has no byte of its own in the L2 cache. -/
theorem l2Copy_of_not_held {s : State} {w : Nat} (h : s.l1Holds w = false) {x : Nat} (hx : x / 4 = w) :
    s.l2Copy x = none := by
  simp only [State.l1Holds, List.any_eq_false, beq_iff_eq] at h
  simp only [State.l2Copy, Option.map_eq_none_iff, List.find?_eq_none, beq_iff_eq]
  intro e he hex
  exact h e he (by rw [hex, hx])

-- Stores --------------------------------------------------------------------------------------------------------------

/-- A store leaves every byte of the L2 cache as it was (R68). -/
theorem l2Get_storeByte (s : State) (pa : Nat) (b : Byte) (x : Nat) : (s.storeByte pa b).l2Get x = s.l2Get x := by
  rw [l2Get_setL2 s (s.storeByte pa b) pa (.behind (s.l2Get pa)) rfl]
  · split
    · next h => rw [h]; rfl
    · rfl
  · intro x hx
    change Memory.get? (Memory.set s.mem pa b) x = _
    rw [memory_get?_set, if_neg hx]

theorem l2Get_storeLE (s : State) (pa n : Nat) (v : Word) (x : Nat) : (s.storeLE pa n v).l2Get x = s.l2Get x := by
  induction n generalizing s pa v with
  | zero => rfl
  | succ n ih => rw [State.storeLE, ih, l2Get_storeByte]

@[simp] theorem l2Byte_storeLE (s : State) (pa n : Nat) (v : Word) (x : Nat) :
    (s.storeLE pa n v).l2Byte x = s.l2Byte x := by
  rw [State.l2Byte, l2Get_storeLE, State.l2Byte]

-- FLUSH DATA ------------------------------------------------------------------------------------------------------------

theorem get?_takeNewer (s : State) (m : Memory) (pa x : Nat) :
    Memory.get? (s.takeNewer m pa) x =
      match s.l2Copy pa with
      | some (.ahead b) => if x = pa then some b else Memory.get? m x
      | _ => Memory.get? m x := by
  unfold State.takeNewer
  rcases s.l2Copy pa with _ | _ | b
  · rfl
  · rfl
  · exact memory_get?_set _ _ _ _

/-- What FLUSH DATA leaves the core to read: the DMA peripheral's byte where the L1 data cache did not show it, and the
same byte as before everywhere else (R67, R68). -/
theorem get?_flushDataLine (s : State) (pa x : Nat) :
    Memory.get? (s.flushDataLine pa).mem x =
      if x / 4 = pa / 4 then
        match s.l2Copy x with
        | some (.ahead b) => some b
        | _ => Memory.get? s.mem x
      else Memory.get? s.mem x := by
  unfold State.flushDataLine
  dsimp only
  split
  · simp only [List.foldl_cons, List.foldl_nil, get?_takeNewer]
    by_cases hx : x / 4 = pa / 4
    · rw [if_pos hx]
      have : x = 4 * (pa / 4) ∨ x = 4 * (pa / 4) + 1 ∨ x = 4 * (pa / 4) + 2 ∨ x = 4 * (pa / 4) + 3 := by omega
      rcases this with h | h | h | h <;> rw [← h]
      all_goals
        repeat' split
        all_goals first | rfl | omega
    · rw [if_neg hx]
      repeat' split
      all_goals first | rfl | omega
  · next h =>
    split
    · next hx => rw [l2Copy_of_not_held (by simpa using h) hx]
    · rfl

theorem l2Copy_flushDataLine (s : State) (pa x : Nat) :
    (s.flushDataLine pa).l2Copy x = if x / 4 = pa / 4 then none else s.l2Copy x := by
  unfold State.flushDataLine
  dsimp only
  split
  · simp only [State.l2Copy]
    induction s.l2 with
    | nil => simp
    | cons e l ih =>
      by_cases h : e.addr = x
      · by_cases hx : x / 4 = pa / 4 <;> simp_all
      · by_cases hx : e.addr / 4 = pa / 4 <;> simp_all
  · next h =>
    split
    · next hx => exact l2Copy_of_not_held (by simpa using h) hx
    · rfl

/-- After FLUSH DATA the L2 cache and the core's data accesses agree on the word (R67, R68). -/
theorem l2Get_flushDataLine (s : State) (pa x : Nat) :
    (s.flushDataLine pa).l2Get x =
      if x / 4 = pa / 4 then Memory.get? (s.flushDataLine pa).mem x else s.l2Get x := by
  unfold State.l2Get
  rw [l2Copy_flushDataLine]
  by_cases hx : x / 4 = pa / 4
  · rw [if_pos hx, if_pos hx]
  · rw [if_neg hx, if_neg hx, get?_flushDataLine, if_neg hx]

/-- FLUSH DATA changes nothing that the core reads where no DMA peripheral has written past the L1 data cache. -/
theorem memByte_flushDataLine (s : State) (pa x : Nat) (h : ∀ b, s.l2Copy x ≠ some (.ahead b)) :
    (s.flushDataLine pa).memByte x = s.memByte x := by
  unfold State.memByte
  rw [get?_flushDataLine]
  split
  · rcases hc : s.l2Copy x with _ | _ | b
    · rfl
    · rfl
    · exact absurd hc (h b)
  · rfl

theorem l1Holds_flushDataLine (s : State) (pa : Nat) : (s.flushDataLine pa).l1Holds (pa / 4) = false := by
  unfold State.flushDataLine
  dsimp only
  split
  · simp [State.l1Holds]
  · next h => simpa using h

/-- After FLUSH DATA then FLUSH INST on an address a fetch of its word has no older value to return (R66). -/
theorem fetchOlds_flushed (s : State) (pa : Nat) : ((s.flushDataLine pa).flushInstLine pa).fetchOlds (pa / 4) = [] := by
  have h : ((s.flushDataLine pa).flushInstLine pa).l1Holds (pa / 4) = false := l1Holds_flushDataLine s pa
  unfold State.fetchOlds
  rw [h]
  simp [State.flushInstLine, List.filter_filter]

/-- A fetch of a word without older values gives what the core's data accesses read. -/
theorem fetchWord_of_olds_nil {s : State} {w : Nat} (h : s.fetchOlds w = []) : s.fetchWord w = s.loadLE (4 * w) 4 := by
  simp [State.fetchWord, h]

/-- A fetched word is, as a whole, the newest value or one of the older ones (R66, 93 U27). -/
theorem fetchWord_cases (s : State) (w : Nat) :
    s.fetchWord w = s.loadLE (4 * w) 4 ∨ s.fetchWord w ∈ s.fetchOlds w := by
  unfold State.fetchWord
  split
  · exact .inl rfl
  · rw [List.getD_eq_getElem?_getD]
    cases h : (s.fetchOlds w)[Config.fetchPick s.draw w]? with
    | none => exact .inl rfl
    | some v => exact .inr (List.mem_of_getElem? h)

-- The invariant of memory and caches ------------------------------------------------------------------------------------

/-- The part of the invariant that concerns memory, TLBs and caches. -/
def Cached (s : State) : Prop :=
  Memory.wf s.mem = true ∧ (s.itlb.map (·.vpn)).Nodup ∧ (s.dtlb.map (·.vpn)).Nodup ∧
  (s.l2.map (·.addr)).Nodup ∧ ∀ e ∈ s.l2, e.addr < 2 ^ 29

theorem inv_iff (s : State) :
    s.Inv ↔ s.pc &&& 0xF#32 = 0#32 ∧ s.pflags &&& 0xFFFFFFFC#32 = 0#32 ∧ Cached s := Iff.rfl

theorem cached_of_eq {s t : State} (h : Cached s) (hm : t.mem = s.mem) (hi : t.itlb = s.itlb) (hd : t.dtlb = s.dtlb)
    (hl : t.l2 = s.l2) : Cached t := by
  unfold Cached
  rwa [hm, hi, hd, hl]

theorem cached_setL2 {s : State} (h : Cached s) {pa : Nat} (c : L2Copy) (hp : pa < 2 ^ 29) :
    Cached { s with l2 := setL2 s.l2 pa c } := by
  refine ⟨h.1, h.2.1, h.2.2.1, nodup_setL2 _ _ _ h.2.2.2.1, fun e he => ?_⟩
  rcases mem_setL2 he with h' | h'
  · omega
  · exact h.2.2.2.2 e h'

theorem cached_set {s : State} (h : Cached s) {pa : Nat} (b : Byte) (hp : pa < 2 ^ 29) :
    Cached { s with mem := Memory.set s.mem pa b } :=
  ⟨memory_wf_set _ _ _ h.1 hp, h.2⟩

/-- Stores inside the address space keep it. -/
theorem cached_storeLE {s : State} (h : Cached s) {pa n : Nat} {v : Word} (hp : pa + n ≤ 2 ^ 29) :
    Cached (s.storeLE pa n v) := by
  induction n generalizing s pa v with
  | zero => exact h
  | succ n ih => exact ih (cached_set (cached_setL2 h _ (by omega)) _ (by omega)) (by omega)

theorem cached_dmaBytes {s : State} (h : Cached s) {held : Bool} {pa n : Nat} {v : Word} (hp : pa + n ≤ 2 ^ 29) :
    Cached (s.dmaBytes held pa n v) := by
  induction n generalizing s pa v with
  | zero => exact h
  | succ n ih =>
    refine ih ?_ (by omega)
    unfold State.dmaByte
    repeat' split
    · exact cached_setL2 h _ (by omega)
    · exact cached_setL2 h _ (by omega)
    · exact cached_setL2 h _ (by omega)
    · exact cached_set h _ (by omega)

theorem l2_addr_of_copy {s : State} {x : Nat} {c : L2Copy} (h : s.l2Copy x = some c) : ∃ e ∈ s.l2, e.addr = x := by
  simp only [State.l2Copy, Option.map_eq_some_iff] at h
  obtain ⟨e, he, _⟩ := h
  exact ⟨e, List.mem_of_find?_eq_some he, by simpa using List.find?_some he⟩

theorem cached_flushDataLine {s : State} (h : Cached s) (pa : Nat) : Cached (s.flushDataLine pa) := by
  have take : ∀ (m : Memory) (x : Nat), Memory.wf m = true → Memory.wf (s.takeNewer m x) = true := by
    intro m x hm
    unfold State.takeNewer
    split
    · next b hb =>
      obtain ⟨e, he, rfl⟩ := l2_addr_of_copy hb
      exact memory_wf_set _ _ _ hm (h.2.2.2.2 e he)
    all_goals exact hm
  unfold State.flushDataLine
  dsimp only
  split
  · refine ⟨?_, h.2.1, h.2.2.1, h.2.2.2.1.sublist (List.filter_sublist.map _), fun e he => ?_⟩
    · exact take _ _ (take _ _ (take _ _ (take _ _ h.1)))
    · exact h.2.2.2.2 e (List.mem_of_mem_filter he)
  · exact h

/-- So does every FLUSH and every silent drop. -/
theorem cached_flush {s : State} (h : Cached s) (f : Flush) : Cached (s.flush f) := by
  cases f with
  | data pa => exact cached_flushDataLine h pa
  | inst pa => exact h
  | dtlb vpn => exact ⟨h.1, h.2.1, h.2.2.1.sublist (List.filter_sublist.map _), h.2.2.2⟩
  | itlb vpn => exact ⟨h.1, h.2.1.sublist (List.filter_sublist.map _), h.2.2⟩

/-- So does everything the environment does (R132). -/
theorem cached_arrived {s : State} (h : Cached s) : Cached s.arrived := by
  have act : ∀ (s : State) (a : EnvAction), Cached s → Cached (s.act a) := by
    intro s a h
    cases a with
    | drop f => exact cached_flush h f
    | write w =>
      unfold State.act State.dmaWrite
      dsimp only
      split
      · next hv =>
        simp only [Bool.and_eq_true, physValid_iff] at hv
        exact cached_dmaBytes (s := s.noteOld (w.unit * w.size.bytes / 4)) h hv.1
      · exact h
  have acts : ∀ (l : List EnvAction) (s : State), Cached s → Cached (l.foldl State.act s) := by
    intro l
    induction l with
    | nil => exact fun _ h => h
    | cons a l ih => exact fun s h => ih _ (act s a h)
  exact cached_of_eq (acts s.acts s h) rfl rfl rfl rfl

-- DMA writes ----------------------------------------------------------------------------------------------------------

/-- One byte written by a DMA peripheral, as the L2 cache has it. -/
theorem l2Get_dmaByte (s : State) (held : Bool) (pa : Nat) (b : Byte) (x : Nat) :
    (s.dmaByte held pa b).l2Get x = if x = pa then some b else s.l2Get x := by
  have set (c : L2Copy) : State.l2Get { s with l2 := setL2 s.l2 pa c } x = if x = pa then c.value else s.l2Get x :=
    l2Get_setL2 s { s with l2 := setL2 s.l2 pa c } pa c rfl (fun _ _ => rfl) x
  unfold State.dmaByte
  split
  · exact set _
  · exact set _
  · next h =>
    split
    · exact set _
    · unfold State.l2Get
      by_cases hx : x = pa
      · subst hx
        have : State.l2Copy { s with mem := Memory.set s.mem x b } x = none := h
        rw [this, if_pos rfl]
        exact (memory_get?_set _ _ _ _).trans (if_pos rfl)
      · rw [if_neg hx]
        have h1 : State.l2Copy { s with mem := Memory.set s.mem pa b } x = s.l2Copy x := rfl
        have h2 : Memory.get? (Memory.set s.mem pa b) x = Memory.get? s.mem x := by rw [memory_get?_set, if_neg hx]
        rw [h1]
        dsimp only
        rw [h2]

/-- What the L2 cache has after a DMA write: byte `i` of the value at `pa + i`, every other byte as before (R68). -/
theorem l2Byte_dmaBytes (s : State) (held : Bool) (pa n : Nat) (v : Word) (x : Nat) :
    (s.dmaBytes held pa n v).l2Byte x = if pa ≤ x ∧ x < pa + n then byteAt v (x - pa) else s.l2Byte x := by
  induction n generalizing s pa v with
  | zero => simp [State.dmaBytes]
  | succ n ih =>
    rw [State.dmaBytes, ih]
    simp only [State.l2Byte, l2Get_dmaByte]
    by_cases h0 : x = pa
    · subst h0
      rw [if_neg (by omega), if_pos rfl, if_pos (by omega)]
      ext i hi
      simp [byteAt, BitVec.getLsbD_eq_getElem (show i < 32 by omega)]
    · by_cases h1 : pa + 1 ≤ x ∧ x < pa + 1 + n
      · rw [if_pos h1, if_pos (by omega)]
        ext i hi
        simp only [byteAt, BitVec.getElem_extractLsb', BitVec.getLsbD_ushiftRight]
        congr 1
        omega
      · rw [if_neg h1, if_neg h0, if_neg (by omega)]

/-- A DMA write changes for the core only bytes it writes, and those only where the L1 data cache does not hold them. -/
theorem get?_dmaBytes (s : State) (held : Bool) (pa n : Nat) (v : Word) (x : Nat) :
    (¬(pa ≤ x ∧ x < pa + n) ∨ held = true → Memory.get? (s.dmaBytes held pa n v).mem x = Memory.get? s.mem x) := by
  induction n generalizing s pa v with
  | zero => exact fun _ => rfl
  | succ n ih =>
    intro h
    rw [State.dmaBytes, ih _ _ _ (h.imp_left fun h => by omega)]
    unfold State.dmaByte
    repeat' split
    all_goals try rfl
    rw [memory_get?_set, if_neg]
    rcases h with h | h
    · omega
    · simp_all

end Sys2Proof.Machine
end

