-- ==== Sys2Proof/Laws/Commit.lean ====
section
/-! SUPPORT. The commit of one lane's writes: for each kind of write, the fields it leaves alone, and what all writes
of a lane together leave in each field (40_packet_execution R125). -/

namespace Sys2Proof.Machine

variable (s : State)

-- applyLoad
@[simp] theorem applyLoad_pc (w : Option Load) : (s.applyLoad w).pc = s.pc := by cases w <;> rfl
@[simp] theorem applyLoad_p0 (w : Option Load) : (s.applyLoad w).p0 = s.p0 := by cases w <;> rfl
@[simp] theorem applyLoad_p1 (w : Option Load) : (s.applyLoad w).p1 = s.p1 := by cases w <;> rfl
@[simp] theorem applyLoad_p2 (w : Option Load) : (s.applyLoad w).p2 = s.p2 := by cases w <;> rfl
@[simp] theorem applyLoad_hi (w : Option Load) : (s.applyLoad w).hi = s.hi := by cases w <;> rfl
@[simp] theorem applyLoad_link (w : Option Load) : (s.applyLoad w).link = s.link := by cases w <;> rfl
@[simp] theorem applyLoad_mode (w : Option Load) : (s.applyLoad w).mode = s.mode := by cases w <;> rfl
@[simp] theorem applyLoad_pflags (w : Option Load) : (s.applyLoad w).pflags = s.pflags := by cases w <;> rfl
@[simp] theorem applyLoad_ptb (w : Option Load) : (s.applyLoad w).ptb = s.ptb := by cases w <;> rfl
@[simp] theorem applyLoad_eha (w : Option Load) : (s.applyLoad w).eha = s.eha := by cases w <;> rfl
@[simp] theorem applyLoad_epc (w : Option Load) : (s.applyLoad w).epc = s.epc := by cases w <;> rfl
@[simp] theorem applyLoad_ec0 (w : Option Load) : (s.applyLoad w).ec0 = s.ec0 := by cases w <;> rfl
@[simp] theorem applyLoad_ec1 (w : Option Load) : (s.applyLoad w).ec1 = s.ec1 := by cases w <;> rfl
@[simp] theorem applyLoad_ec2 (w : Option Load) : (s.applyLoad w).ec2 = s.ec2 := by cases w <;> rfl
@[simp] theorem applyLoad_ec3 (w : Option Load) : (s.applyLoad w).ec3 = s.ec3 := by cases w <;> rfl
@[simp] theorem applyLoad_ea0 (w : Option Load) : (s.applyLoad w).ea0 = s.ea0 := by cases w <;> rfl
@[simp] theorem applyLoad_ea1 (w : Option Load) : (s.applyLoad w).ea1 = s.ea1 := by cases w <;> rfl
@[simp] theorem applyLoad_sp0 (w : Option Load) : (s.applyLoad w).sp0 = s.sp0 := by cases w <;> rfl
@[simp] theorem applyLoad_sp1 (w : Option Load) : (s.applyLoad w).sp1 = s.sp1 := by cases w <;> rfl
@[simp] theorem applyLoad_sp2 (w : Option Load) : (s.applyLoad w).sp2 = s.sp2 := by cases w <;> rfl
@[simp] theorem applyLoad_sp3 (w : Option Load) : (s.applyLoad w).sp3 = s.sp3 := by cases w <;> rfl
@[simp] theorem applyLoad_mem (w : Option Load) : (s.applyLoad w).mem = s.mem := by cases w <;> rfl
@[simp] theorem applyLoad_itlb (w : Option Load) : (s.applyLoad w).itlb = s.itlb := by cases w <;> rfl
@[simp] theorem applyLoad_dtlb (w : Option Load) : (s.applyLoad w).dtlb = s.dtlb := by cases w <;> rfl
@[simp] theorem applyLoad_l2 (w : Option Load) : (s.applyLoad w).l2 = s.l2 := by cases w <;> rfl
@[simp] theorem applyLoad_l1i (w : Option Load) : (s.applyLoad w).l1i = s.l1i := by cases w <;> rfl
@[simp] theorem applyLoad_inputs (w : Option Load) : (s.applyLoad w).inputs = s.inputs := by cases w <;> rfl
@[simp] theorem applyLoad_ehaWritten (w : Option Load) : (s.applyLoad w).ehaWritten = s.ehaWritten := by cases w <;> rfl
@[simp] theorem applyLoad_draw (w : Option Load) : (s.applyLoad w).draw = s.draw := by cases w <;> rfl

-- applyReg
@[simp] theorem applyReg_pc (w : Option (Reg × Word)) : (s.applyReg w).pc = s.pc := by rcases w with _ | ⟨r, v⟩ <;> rfl
@[simp] theorem applyReg_p0 (w : Option (Reg × Word)) : (s.applyReg w).p0 = s.p0 := by rcases w with _ | ⟨r, v⟩ <;> rfl
@[simp] theorem applyReg_p1 (w : Option (Reg × Word)) : (s.applyReg w).p1 = s.p1 := by rcases w with _ | ⟨r, v⟩ <;> rfl
@[simp] theorem applyReg_p2 (w : Option (Reg × Word)) : (s.applyReg w).p2 = s.p2 := by rcases w with _ | ⟨r, v⟩ <;> rfl
@[simp] theorem applyReg_hi (w : Option (Reg × Word)) : (s.applyReg w).hi = s.hi := by rcases w with _ | ⟨r, v⟩ <;> rfl
@[simp] theorem applyReg_link (w : Option (Reg × Word)) : (s.applyReg w).link = s.link := by rcases w with _ | ⟨r, v⟩ <;> rfl
@[simp] theorem applyReg_mode (w : Option (Reg × Word)) : (s.applyReg w).mode = s.mode := by rcases w with _ | ⟨r, v⟩ <;> rfl
@[simp] theorem applyReg_pflags (w : Option (Reg × Word)) : (s.applyReg w).pflags = s.pflags := by rcases w with _ | ⟨r, v⟩ <;> rfl
@[simp] theorem applyReg_ptb (w : Option (Reg × Word)) : (s.applyReg w).ptb = s.ptb := by rcases w with _ | ⟨r, v⟩ <;> rfl
@[simp] theorem applyReg_eha (w : Option (Reg × Word)) : (s.applyReg w).eha = s.eha := by rcases w with _ | ⟨r, v⟩ <;> rfl
@[simp] theorem applyReg_epc (w : Option (Reg × Word)) : (s.applyReg w).epc = s.epc := by rcases w with _ | ⟨r, v⟩ <;> rfl
@[simp] theorem applyReg_ec0 (w : Option (Reg × Word)) : (s.applyReg w).ec0 = s.ec0 := by rcases w with _ | ⟨r, v⟩ <;> rfl
@[simp] theorem applyReg_ec1 (w : Option (Reg × Word)) : (s.applyReg w).ec1 = s.ec1 := by rcases w with _ | ⟨r, v⟩ <;> rfl
@[simp] theorem applyReg_ec2 (w : Option (Reg × Word)) : (s.applyReg w).ec2 = s.ec2 := by rcases w with _ | ⟨r, v⟩ <;> rfl
@[simp] theorem applyReg_ec3 (w : Option (Reg × Word)) : (s.applyReg w).ec3 = s.ec3 := by rcases w with _ | ⟨r, v⟩ <;> rfl
@[simp] theorem applyReg_ea0 (w : Option (Reg × Word)) : (s.applyReg w).ea0 = s.ea0 := by rcases w with _ | ⟨r, v⟩ <;> rfl
@[simp] theorem applyReg_ea1 (w : Option (Reg × Word)) : (s.applyReg w).ea1 = s.ea1 := by rcases w with _ | ⟨r, v⟩ <;> rfl
@[simp] theorem applyReg_sp0 (w : Option (Reg × Word)) : (s.applyReg w).sp0 = s.sp0 := by rcases w with _ | ⟨r, v⟩ <;> rfl
@[simp] theorem applyReg_sp1 (w : Option (Reg × Word)) : (s.applyReg w).sp1 = s.sp1 := by rcases w with _ | ⟨r, v⟩ <;> rfl
@[simp] theorem applyReg_sp2 (w : Option (Reg × Word)) : (s.applyReg w).sp2 = s.sp2 := by rcases w with _ | ⟨r, v⟩ <;> rfl
@[simp] theorem applyReg_sp3 (w : Option (Reg × Word)) : (s.applyReg w).sp3 = s.sp3 := by rcases w with _ | ⟨r, v⟩ <;> rfl
@[simp] theorem applyReg_mem (w : Option (Reg × Word)) : (s.applyReg w).mem = s.mem := by rcases w with _ | ⟨r, v⟩ <;> rfl
@[simp] theorem applyReg_itlb (w : Option (Reg × Word)) : (s.applyReg w).itlb = s.itlb := by rcases w with _ | ⟨r, v⟩ <;> rfl
@[simp] theorem applyReg_dtlb (w : Option (Reg × Word)) : (s.applyReg w).dtlb = s.dtlb := by rcases w with _ | ⟨r, v⟩ <;> rfl
@[simp] theorem applyReg_l2 (w : Option (Reg × Word)) : (s.applyReg w).l2 = s.l2 := by rcases w with _ | ⟨r, v⟩ <;> rfl
@[simp] theorem applyReg_l1i (w : Option (Reg × Word)) : (s.applyReg w).l1i = s.l1i := by rcases w with _ | ⟨r, v⟩ <;> rfl
@[simp] theorem applyReg_inputs (w : Option (Reg × Word)) : (s.applyReg w).inputs = s.inputs := by rcases w with _ | ⟨r, v⟩ <;> rfl
@[simp] theorem applyReg_ehaWritten (w : Option (Reg × Word)) : (s.applyReg w).ehaWritten = s.ehaWritten := by rcases w with _ | ⟨r, v⟩ <;> rfl
@[simp] theorem applyReg_draw (w : Option (Reg × Word)) : (s.applyReg w).draw = s.draw := by rcases w with _ | ⟨r, v⟩ <;> rfl

-- applyPred
@[simp] theorem applyPred_regs (w : Option (PredReg × Bool)) : (s.applyPred w).regs = s.regs := by rcases w with _ | ⟨n, b⟩ <;> simp [State.applyPred]
@[simp] theorem applyPred_pc (w : Option (PredReg × Bool)) : (s.applyPred w).pc = s.pc := by rcases w with _ | ⟨n, b⟩ <;> simp [State.applyPred]
@[simp] theorem applyPred_hi (w : Option (PredReg × Bool)) : (s.applyPred w).hi = s.hi := by rcases w with _ | ⟨n, b⟩ <;> simp [State.applyPred]
@[simp] theorem applyPred_link (w : Option (PredReg × Bool)) : (s.applyPred w).link = s.link := by rcases w with _ | ⟨n, b⟩ <;> simp [State.applyPred]
@[simp] theorem applyPred_mode (w : Option (PredReg × Bool)) : (s.applyPred w).mode = s.mode := by rcases w with _ | ⟨n, b⟩ <;> simp [State.applyPred]
@[simp] theorem applyPred_pflags (w : Option (PredReg × Bool)) : (s.applyPred w).pflags = s.pflags := by rcases w with _ | ⟨n, b⟩ <;> simp [State.applyPred]
@[simp] theorem applyPred_ptb (w : Option (PredReg × Bool)) : (s.applyPred w).ptb = s.ptb := by rcases w with _ | ⟨n, b⟩ <;> simp [State.applyPred]
@[simp] theorem applyPred_eha (w : Option (PredReg × Bool)) : (s.applyPred w).eha = s.eha := by rcases w with _ | ⟨n, b⟩ <;> simp [State.applyPred]
@[simp] theorem applyPred_epc (w : Option (PredReg × Bool)) : (s.applyPred w).epc = s.epc := by rcases w with _ | ⟨n, b⟩ <;> simp [State.applyPred]
@[simp] theorem applyPred_ec0 (w : Option (PredReg × Bool)) : (s.applyPred w).ec0 = s.ec0 := by rcases w with _ | ⟨n, b⟩ <;> simp [State.applyPred]
@[simp] theorem applyPred_ec1 (w : Option (PredReg × Bool)) : (s.applyPred w).ec1 = s.ec1 := by rcases w with _ | ⟨n, b⟩ <;> simp [State.applyPred]
@[simp] theorem applyPred_ec2 (w : Option (PredReg × Bool)) : (s.applyPred w).ec2 = s.ec2 := by rcases w with _ | ⟨n, b⟩ <;> simp [State.applyPred]
@[simp] theorem applyPred_ec3 (w : Option (PredReg × Bool)) : (s.applyPred w).ec3 = s.ec3 := by rcases w with _ | ⟨n, b⟩ <;> simp [State.applyPred]
@[simp] theorem applyPred_ea0 (w : Option (PredReg × Bool)) : (s.applyPred w).ea0 = s.ea0 := by rcases w with _ | ⟨n, b⟩ <;> simp [State.applyPred]
@[simp] theorem applyPred_ea1 (w : Option (PredReg × Bool)) : (s.applyPred w).ea1 = s.ea1 := by rcases w with _ | ⟨n, b⟩ <;> simp [State.applyPred]
@[simp] theorem applyPred_sp0 (w : Option (PredReg × Bool)) : (s.applyPred w).sp0 = s.sp0 := by rcases w with _ | ⟨n, b⟩ <;> simp [State.applyPred]
@[simp] theorem applyPred_sp1 (w : Option (PredReg × Bool)) : (s.applyPred w).sp1 = s.sp1 := by rcases w with _ | ⟨n, b⟩ <;> simp [State.applyPred]
@[simp] theorem applyPred_sp2 (w : Option (PredReg × Bool)) : (s.applyPred w).sp2 = s.sp2 := by rcases w with _ | ⟨n, b⟩ <;> simp [State.applyPred]
@[simp] theorem applyPred_sp3 (w : Option (PredReg × Bool)) : (s.applyPred w).sp3 = s.sp3 := by rcases w with _ | ⟨n, b⟩ <;> simp [State.applyPred]
@[simp] theorem applyPred_mem (w : Option (PredReg × Bool)) : (s.applyPred w).mem = s.mem := by rcases w with _ | ⟨n, b⟩ <;> simp [State.applyPred]
@[simp] theorem applyPred_itlb (w : Option (PredReg × Bool)) : (s.applyPred w).itlb = s.itlb := by rcases w with _ | ⟨n, b⟩ <;> simp [State.applyPred]
@[simp] theorem applyPred_dtlb (w : Option (PredReg × Bool)) : (s.applyPred w).dtlb = s.dtlb := by rcases w with _ | ⟨n, b⟩ <;> simp [State.applyPred]
@[simp] theorem applyPred_l2 (w : Option (PredReg × Bool)) : (s.applyPred w).l2 = s.l2 := by rcases w with _ | ⟨n, b⟩ <;> simp [State.applyPred]
@[simp] theorem applyPred_l1i (w : Option (PredReg × Bool)) : (s.applyPred w).l1i = s.l1i := by rcases w with _ | ⟨n, b⟩ <;> simp [State.applyPred]
@[simp] theorem applyPred_inputs (w : Option (PredReg × Bool)) : (s.applyPred w).inputs = s.inputs := by rcases w with _ | ⟨n, b⟩ <;> simp [State.applyPred]
@[simp] theorem applyPred_ehaWritten (w : Option (PredReg × Bool)) : (s.applyPred w).ehaWritten = s.ehaWritten := by rcases w with _ | ⟨n, b⟩ <;> simp [State.applyPred]
@[simp] theorem applyPred_draw (w : Option (PredReg × Bool)) : (s.applyPred w).draw = s.draw := by rcases w with _ | ⟨n, b⟩ <;> simp [State.applyPred]

-- applyHi
@[simp] theorem applyHi_regs (w : Option Word) : (s.applyHi w).regs = s.regs := by cases w <;> rfl
@[simp] theorem applyHi_pc (w : Option Word) : (s.applyHi w).pc = s.pc := by cases w <;> rfl
@[simp] theorem applyHi_p0 (w : Option Word) : (s.applyHi w).p0 = s.p0 := by cases w <;> rfl
@[simp] theorem applyHi_p1 (w : Option Word) : (s.applyHi w).p1 = s.p1 := by cases w <;> rfl
@[simp] theorem applyHi_p2 (w : Option Word) : (s.applyHi w).p2 = s.p2 := by cases w <;> rfl
@[simp] theorem applyHi_link (w : Option Word) : (s.applyHi w).link = s.link := by cases w <;> rfl
@[simp] theorem applyHi_mode (w : Option Word) : (s.applyHi w).mode = s.mode := by cases w <;> rfl
@[simp] theorem applyHi_pflags (w : Option Word) : (s.applyHi w).pflags = s.pflags := by cases w <;> rfl
@[simp] theorem applyHi_ptb (w : Option Word) : (s.applyHi w).ptb = s.ptb := by cases w <;> rfl
@[simp] theorem applyHi_eha (w : Option Word) : (s.applyHi w).eha = s.eha := by cases w <;> rfl
@[simp] theorem applyHi_epc (w : Option Word) : (s.applyHi w).epc = s.epc := by cases w <;> rfl
@[simp] theorem applyHi_ec0 (w : Option Word) : (s.applyHi w).ec0 = s.ec0 := by cases w <;> rfl
@[simp] theorem applyHi_ec1 (w : Option Word) : (s.applyHi w).ec1 = s.ec1 := by cases w <;> rfl
@[simp] theorem applyHi_ec2 (w : Option Word) : (s.applyHi w).ec2 = s.ec2 := by cases w <;> rfl
@[simp] theorem applyHi_ec3 (w : Option Word) : (s.applyHi w).ec3 = s.ec3 := by cases w <;> rfl
@[simp] theorem applyHi_ea0 (w : Option Word) : (s.applyHi w).ea0 = s.ea0 := by cases w <;> rfl
@[simp] theorem applyHi_ea1 (w : Option Word) : (s.applyHi w).ea1 = s.ea1 := by cases w <;> rfl
@[simp] theorem applyHi_sp0 (w : Option Word) : (s.applyHi w).sp0 = s.sp0 := by cases w <;> rfl
@[simp] theorem applyHi_sp1 (w : Option Word) : (s.applyHi w).sp1 = s.sp1 := by cases w <;> rfl
@[simp] theorem applyHi_sp2 (w : Option Word) : (s.applyHi w).sp2 = s.sp2 := by cases w <;> rfl
@[simp] theorem applyHi_sp3 (w : Option Word) : (s.applyHi w).sp3 = s.sp3 := by cases w <;> rfl
@[simp] theorem applyHi_mem (w : Option Word) : (s.applyHi w).mem = s.mem := by cases w <;> rfl
@[simp] theorem applyHi_itlb (w : Option Word) : (s.applyHi w).itlb = s.itlb := by cases w <;> rfl
@[simp] theorem applyHi_dtlb (w : Option Word) : (s.applyHi w).dtlb = s.dtlb := by cases w <;> rfl
@[simp] theorem applyHi_l2 (w : Option Word) : (s.applyHi w).l2 = s.l2 := by cases w <;> rfl
@[simp] theorem applyHi_l1i (w : Option Word) : (s.applyHi w).l1i = s.l1i := by cases w <;> rfl
@[simp] theorem applyHi_inputs (w : Option Word) : (s.applyHi w).inputs = s.inputs := by cases w <;> rfl
@[simp] theorem applyHi_ehaWritten (w : Option Word) : (s.applyHi w).ehaWritten = s.ehaWritten := by cases w <;> rfl
@[simp] theorem applyHi_draw (w : Option Word) : (s.applyHi w).draw = s.draw := by cases w <;> rfl

-- applyLink
@[simp] theorem applyLink_regs (w : Option Bool) : (s.applyLink w).regs = s.regs := by cases w <;> rfl
@[simp] theorem applyLink_pc (w : Option Bool) : (s.applyLink w).pc = s.pc := by cases w <;> rfl
@[simp] theorem applyLink_p0 (w : Option Bool) : (s.applyLink w).p0 = s.p0 := by cases w <;> rfl
@[simp] theorem applyLink_p1 (w : Option Bool) : (s.applyLink w).p1 = s.p1 := by cases w <;> rfl
@[simp] theorem applyLink_p2 (w : Option Bool) : (s.applyLink w).p2 = s.p2 := by cases w <;> rfl
@[simp] theorem applyLink_hi (w : Option Bool) : (s.applyLink w).hi = s.hi := by cases w <;> rfl
@[simp] theorem applyLink_mode (w : Option Bool) : (s.applyLink w).mode = s.mode := by cases w <;> rfl
@[simp] theorem applyLink_pflags (w : Option Bool) : (s.applyLink w).pflags = s.pflags := by cases w <;> rfl
@[simp] theorem applyLink_ptb (w : Option Bool) : (s.applyLink w).ptb = s.ptb := by cases w <;> rfl
@[simp] theorem applyLink_eha (w : Option Bool) : (s.applyLink w).eha = s.eha := by cases w <;> rfl
@[simp] theorem applyLink_epc (w : Option Bool) : (s.applyLink w).epc = s.epc := by cases w <;> rfl
@[simp] theorem applyLink_ec0 (w : Option Bool) : (s.applyLink w).ec0 = s.ec0 := by cases w <;> rfl
@[simp] theorem applyLink_ec1 (w : Option Bool) : (s.applyLink w).ec1 = s.ec1 := by cases w <;> rfl
@[simp] theorem applyLink_ec2 (w : Option Bool) : (s.applyLink w).ec2 = s.ec2 := by cases w <;> rfl
@[simp] theorem applyLink_ec3 (w : Option Bool) : (s.applyLink w).ec3 = s.ec3 := by cases w <;> rfl
@[simp] theorem applyLink_ea0 (w : Option Bool) : (s.applyLink w).ea0 = s.ea0 := by cases w <;> rfl
@[simp] theorem applyLink_ea1 (w : Option Bool) : (s.applyLink w).ea1 = s.ea1 := by cases w <;> rfl
@[simp] theorem applyLink_sp0 (w : Option Bool) : (s.applyLink w).sp0 = s.sp0 := by cases w <;> rfl
@[simp] theorem applyLink_sp1 (w : Option Bool) : (s.applyLink w).sp1 = s.sp1 := by cases w <;> rfl
@[simp] theorem applyLink_sp2 (w : Option Bool) : (s.applyLink w).sp2 = s.sp2 := by cases w <;> rfl
@[simp] theorem applyLink_sp3 (w : Option Bool) : (s.applyLink w).sp3 = s.sp3 := by cases w <;> rfl
@[simp] theorem applyLink_mem (w : Option Bool) : (s.applyLink w).mem = s.mem := by cases w <;> rfl
@[simp] theorem applyLink_itlb (w : Option Bool) : (s.applyLink w).itlb = s.itlb := by cases w <;> rfl
@[simp] theorem applyLink_dtlb (w : Option Bool) : (s.applyLink w).dtlb = s.dtlb := by cases w <;> rfl
@[simp] theorem applyLink_l2 (w : Option Bool) : (s.applyLink w).l2 = s.l2 := by cases w <;> rfl
@[simp] theorem applyLink_l1i (w : Option Bool) : (s.applyLink w).l1i = s.l1i := by cases w <;> rfl
@[simp] theorem applyLink_inputs (w : Option Bool) : (s.applyLink w).inputs = s.inputs := by cases w <;> rfl
@[simp] theorem applyLink_ehaWritten (w : Option Bool) : (s.applyLink w).ehaWritten = s.ehaWritten := by cases w <;> rfl
@[simp] theorem applyLink_draw (w : Option Bool) : (s.applyLink w).draw = s.draw := by cases w <;> rfl

-- applyCp
@[simp] theorem applyCp_regs (w : Option (CpReg × Word)) : (s.applyCp w).regs = s.regs := by
  rcases w with _ | ⟨c, v⟩
  · rfl
  · cases c <;> rfl
@[simp] theorem applyCp_pc (w : Option (CpReg × Word)) : (s.applyCp w).pc = s.pc := by
  rcases w with _ | ⟨c, v⟩
  · rfl
  · cases c <;> rfl
@[simp] theorem applyCp_p0 (w : Option (CpReg × Word)) : (s.applyCp w).p0 = s.p0 := by
  rcases w with _ | ⟨c, v⟩
  · rfl
  · cases c <;> rfl
@[simp] theorem applyCp_p1 (w : Option (CpReg × Word)) : (s.applyCp w).p1 = s.p1 := by
  rcases w with _ | ⟨c, v⟩
  · rfl
  · cases c <;> rfl
@[simp] theorem applyCp_p2 (w : Option (CpReg × Word)) : (s.applyCp w).p2 = s.p2 := by
  rcases w with _ | ⟨c, v⟩
  · rfl
  · cases c <;> rfl
@[simp] theorem applyCp_hi (w : Option (CpReg × Word)) : (s.applyCp w).hi = s.hi := by
  rcases w with _ | ⟨c, v⟩
  · rfl
  · cases c <;> rfl
@[simp] theorem applyCp_link (w : Option (CpReg × Word)) : (s.applyCp w).link = s.link := by
  rcases w with _ | ⟨c, v⟩
  · rfl
  · cases c <;> rfl
@[simp] theorem applyCp_mode (w : Option (CpReg × Word)) : (s.applyCp w).mode = s.mode := by
  rcases w with _ | ⟨c, v⟩
  · rfl
  · cases c <;> rfl
@[simp] theorem applyCp_mem (w : Option (CpReg × Word)) : (s.applyCp w).mem = s.mem := by
  rcases w with _ | ⟨c, v⟩
  · rfl
  · cases c <;> rfl
@[simp] theorem applyCp_l2 (w : Option (CpReg × Word)) : (s.applyCp w).l2 = s.l2 := by
  rcases w with _ | ⟨c, v⟩
  · rfl
  · cases c <;> rfl
@[simp] theorem applyCp_l1i (w : Option (CpReg × Word)) : (s.applyCp w).l1i = s.l1i := by
  rcases w with _ | ⟨c, v⟩
  · rfl
  · cases c <;> rfl
@[simp] theorem applyCp_inputs (w : Option (CpReg × Word)) : (s.applyCp w).inputs = s.inputs := by
  rcases w with _ | ⟨c, v⟩
  · rfl
  · cases c <;> rfl
@[simp] theorem applyCp_draw (w : Option (CpReg × Word)) : (s.applyCp w).draw = s.draw := by
  rcases w with _ | ⟨c, v⟩
  · rfl
  · cases c <;> rfl

-- applyStore
@[simp] theorem applyStore_regs (w : Option Store) : (s.applyStore w).regs = s.regs := by cases w <;> simp [State.applyStore]
@[simp] theorem applyStore_pc (w : Option Store) : (s.applyStore w).pc = s.pc := by cases w <;> simp [State.applyStore]
@[simp] theorem applyStore_p0 (w : Option Store) : (s.applyStore w).p0 = s.p0 := by cases w <;> simp [State.applyStore]
@[simp] theorem applyStore_p1 (w : Option Store) : (s.applyStore w).p1 = s.p1 := by cases w <;> simp [State.applyStore]
@[simp] theorem applyStore_p2 (w : Option Store) : (s.applyStore w).p2 = s.p2 := by cases w <;> simp [State.applyStore]
@[simp] theorem applyStore_hi (w : Option Store) : (s.applyStore w).hi = s.hi := by cases w <;> simp [State.applyStore]
@[simp] theorem applyStore_link (w : Option Store) : (s.applyStore w).link = s.link := by cases w <;> simp [State.applyStore]
@[simp] theorem applyStore_mode (w : Option Store) : (s.applyStore w).mode = s.mode := by cases w <;> simp [State.applyStore]
@[simp] theorem applyStore_pflags (w : Option Store) : (s.applyStore w).pflags = s.pflags := by cases w <;> simp [State.applyStore]
@[simp] theorem applyStore_ptb (w : Option Store) : (s.applyStore w).ptb = s.ptb := by cases w <;> simp [State.applyStore]
@[simp] theorem applyStore_eha (w : Option Store) : (s.applyStore w).eha = s.eha := by cases w <;> simp [State.applyStore]
@[simp] theorem applyStore_epc (w : Option Store) : (s.applyStore w).epc = s.epc := by cases w <;> simp [State.applyStore]
@[simp] theorem applyStore_ec0 (w : Option Store) : (s.applyStore w).ec0 = s.ec0 := by cases w <;> simp [State.applyStore]
@[simp] theorem applyStore_ec1 (w : Option Store) : (s.applyStore w).ec1 = s.ec1 := by cases w <;> simp [State.applyStore]
@[simp] theorem applyStore_ec2 (w : Option Store) : (s.applyStore w).ec2 = s.ec2 := by cases w <;> simp [State.applyStore]
@[simp] theorem applyStore_ec3 (w : Option Store) : (s.applyStore w).ec3 = s.ec3 := by cases w <;> simp [State.applyStore]
@[simp] theorem applyStore_ea0 (w : Option Store) : (s.applyStore w).ea0 = s.ea0 := by cases w <;> simp [State.applyStore]
@[simp] theorem applyStore_ea1 (w : Option Store) : (s.applyStore w).ea1 = s.ea1 := by cases w <;> simp [State.applyStore]
@[simp] theorem applyStore_sp0 (w : Option Store) : (s.applyStore w).sp0 = s.sp0 := by cases w <;> simp [State.applyStore]
@[simp] theorem applyStore_sp1 (w : Option Store) : (s.applyStore w).sp1 = s.sp1 := by cases w <;> simp [State.applyStore]
@[simp] theorem applyStore_sp2 (w : Option Store) : (s.applyStore w).sp2 = s.sp2 := by cases w <;> simp [State.applyStore]
@[simp] theorem applyStore_sp3 (w : Option Store) : (s.applyStore w).sp3 = s.sp3 := by cases w <;> simp [State.applyStore]
@[simp] theorem applyStore_itlb (w : Option Store) : (s.applyStore w).itlb = s.itlb := by cases w <;> simp [State.applyStore]
@[simp] theorem applyStore_dtlb (w : Option Store) : (s.applyStore w).dtlb = s.dtlb := by cases w <;> simp [State.applyStore]
@[simp] theorem applyStore_l1i (w : Option Store) : (s.applyStore w).l1i = s.l1i := by cases w <;> simp [State.applyStore]
@[simp] theorem applyStore_inputs (w : Option Store) : (s.applyStore w).inputs = s.inputs := by cases w <;> simp [State.applyStore]
@[simp] theorem applyStore_ehaWritten (w : Option Store) : (s.applyStore w).ehaWritten = s.ehaWritten := by cases w <;> simp [State.applyStore]
@[simp] theorem applyStore_draw (w : Option Store) : (s.applyStore w).draw = s.draw := by cases w <;> simp [State.applyStore]

-- applyFlush
@[simp] theorem applyFlush_regs (w : Option Flush) : (s.applyFlush w).regs = s.regs := by cases w <;> simp [State.applyFlush]
@[simp] theorem applyFlush_pc (w : Option Flush) : (s.applyFlush w).pc = s.pc := by cases w <;> simp [State.applyFlush]
@[simp] theorem applyFlush_p0 (w : Option Flush) : (s.applyFlush w).p0 = s.p0 := by cases w <;> simp [State.applyFlush]
@[simp] theorem applyFlush_p1 (w : Option Flush) : (s.applyFlush w).p1 = s.p1 := by cases w <;> simp [State.applyFlush]
@[simp] theorem applyFlush_p2 (w : Option Flush) : (s.applyFlush w).p2 = s.p2 := by cases w <;> simp [State.applyFlush]
@[simp] theorem applyFlush_hi (w : Option Flush) : (s.applyFlush w).hi = s.hi := by cases w <;> simp [State.applyFlush]
@[simp] theorem applyFlush_link (w : Option Flush) : (s.applyFlush w).link = s.link := by cases w <;> simp [State.applyFlush]
@[simp] theorem applyFlush_mode (w : Option Flush) : (s.applyFlush w).mode = s.mode := by cases w <;> simp [State.applyFlush]
@[simp] theorem applyFlush_pflags (w : Option Flush) : (s.applyFlush w).pflags = s.pflags := by cases w <;> simp [State.applyFlush]
@[simp] theorem applyFlush_ptb (w : Option Flush) : (s.applyFlush w).ptb = s.ptb := by cases w <;> simp [State.applyFlush]
@[simp] theorem applyFlush_eha (w : Option Flush) : (s.applyFlush w).eha = s.eha := by cases w <;> simp [State.applyFlush]
@[simp] theorem applyFlush_epc (w : Option Flush) : (s.applyFlush w).epc = s.epc := by cases w <;> simp [State.applyFlush]
@[simp] theorem applyFlush_ec0 (w : Option Flush) : (s.applyFlush w).ec0 = s.ec0 := by cases w <;> simp [State.applyFlush]
@[simp] theorem applyFlush_ec1 (w : Option Flush) : (s.applyFlush w).ec1 = s.ec1 := by cases w <;> simp [State.applyFlush]
@[simp] theorem applyFlush_ec2 (w : Option Flush) : (s.applyFlush w).ec2 = s.ec2 := by cases w <;> simp [State.applyFlush]
@[simp] theorem applyFlush_ec3 (w : Option Flush) : (s.applyFlush w).ec3 = s.ec3 := by cases w <;> simp [State.applyFlush]
@[simp] theorem applyFlush_ea0 (w : Option Flush) : (s.applyFlush w).ea0 = s.ea0 := by cases w <;> simp [State.applyFlush]
@[simp] theorem applyFlush_ea1 (w : Option Flush) : (s.applyFlush w).ea1 = s.ea1 := by cases w <;> simp [State.applyFlush]
@[simp] theorem applyFlush_sp0 (w : Option Flush) : (s.applyFlush w).sp0 = s.sp0 := by cases w <;> simp [State.applyFlush]
@[simp] theorem applyFlush_sp1 (w : Option Flush) : (s.applyFlush w).sp1 = s.sp1 := by cases w <;> simp [State.applyFlush]
@[simp] theorem applyFlush_sp2 (w : Option Flush) : (s.applyFlush w).sp2 = s.sp2 := by cases w <;> simp [State.applyFlush]
@[simp] theorem applyFlush_sp3 (w : Option Flush) : (s.applyFlush w).sp3 = s.sp3 := by cases w <;> simp [State.applyFlush]
@[simp] theorem applyFlush_inputs (w : Option Flush) : (s.applyFlush w).inputs = s.inputs := by cases w <;> simp [State.applyFlush]
@[simp] theorem applyFlush_ehaWritten (w : Option Flush) : (s.applyFlush w).ehaWritten = s.ehaWritten := by cases w <;> simp [State.applyFlush]
@[simp] theorem applyFlush_draw (w : Option Flush) : (s.applyFlush w).draw = s.draw := by cases w <;> simp [State.applyFlush]

-- applyRet
@[simp] theorem applyRet_regs (w : Option Word) : (s.applyRet w).regs = s.regs := by cases w <;> rfl
@[simp] theorem applyRet_pc (w : Option Word) : (s.applyRet w).pc = s.pc := by cases w <;> rfl
@[simp] theorem applyRet_p0 (w : Option Word) : (s.applyRet w).p0 = s.p0 := by cases w <;> rfl
@[simp] theorem applyRet_p1 (w : Option Word) : (s.applyRet w).p1 = s.p1 := by cases w <;> rfl
@[simp] theorem applyRet_p2 (w : Option Word) : (s.applyRet w).p2 = s.p2 := by cases w <;> rfl
@[simp] theorem applyRet_hi (w : Option Word) : (s.applyRet w).hi = s.hi := by cases w <;> rfl
@[simp] theorem applyRet_ptb (w : Option Word) : (s.applyRet w).ptb = s.ptb := by cases w <;> rfl
@[simp] theorem applyRet_eha (w : Option Word) : (s.applyRet w).eha = s.eha := by cases w <;> rfl
@[simp] theorem applyRet_epc (w : Option Word) : (s.applyRet w).epc = s.epc := by cases w <;> rfl
@[simp] theorem applyRet_ec0 (w : Option Word) : (s.applyRet w).ec0 = s.ec0 := by cases w <;> rfl
@[simp] theorem applyRet_ec1 (w : Option Word) : (s.applyRet w).ec1 = s.ec1 := by cases w <;> rfl
@[simp] theorem applyRet_ec2 (w : Option Word) : (s.applyRet w).ec2 = s.ec2 := by cases w <;> rfl
@[simp] theorem applyRet_ec3 (w : Option Word) : (s.applyRet w).ec3 = s.ec3 := by cases w <;> rfl
@[simp] theorem applyRet_ea0 (w : Option Word) : (s.applyRet w).ea0 = s.ea0 := by cases w <;> rfl
@[simp] theorem applyRet_ea1 (w : Option Word) : (s.applyRet w).ea1 = s.ea1 := by cases w <;> rfl
@[simp] theorem applyRet_sp0 (w : Option Word) : (s.applyRet w).sp0 = s.sp0 := by cases w <;> rfl
@[simp] theorem applyRet_sp1 (w : Option Word) : (s.applyRet w).sp1 = s.sp1 := by cases w <;> rfl
@[simp] theorem applyRet_sp2 (w : Option Word) : (s.applyRet w).sp2 = s.sp2 := by cases w <;> rfl
@[simp] theorem applyRet_sp3 (w : Option Word) : (s.applyRet w).sp3 = s.sp3 := by cases w <;> rfl
@[simp] theorem applyRet_mem (w : Option Word) : (s.applyRet w).mem = s.mem := by cases w <;> rfl
@[simp] theorem applyRet_itlb (w : Option Word) : (s.applyRet w).itlb = s.itlb := by cases w <;> rfl
@[simp] theorem applyRet_dtlb (w : Option Word) : (s.applyRet w).dtlb = s.dtlb := by cases w <;> rfl
@[simp] theorem applyRet_l2 (w : Option Word) : (s.applyRet w).l2 = s.l2 := by cases w <;> rfl
@[simp] theorem applyRet_l1i (w : Option Word) : (s.applyRet w).l1i = s.l1i := by cases w <;> rfl
@[simp] theorem applyRet_inputs (w : Option Word) : (s.applyRet w).inputs = s.inputs := by cases w <;> rfl
@[simp] theorem applyRet_ehaWritten (w : Option Word) : (s.applyRet w).ehaWritten = s.ehaWritten := by cases w <;> rfl
@[simp] theorem applyRet_draw (w : Option Word) : (s.applyRet w).draw = s.draw := by cases w <;> rfl

-- All writes of a lane
variable (w : Writes)

@[simp] theorem apply_pc : (s.apply w).pc = s.pc := by simp [State.apply]
@[simp] theorem apply_inputs : (s.apply w).inputs = s.inputs := by simp [State.apply]
@[simp] theorem apply_draw : (s.apply w).draw = s.draw := by simp [State.apply]

@[simp] theorem apply_hi : (s.apply w).hi = w.hi.getD s.hi := by
  cases h : w.hi <;> simp [State.apply, State.applyHi, h]

/-- The link bit after a lane's writes: ERET clears it (43_loadstore R211). -/
theorem apply_link : (s.apply w).link = if w.ret.isSome then false else w.link.getD s.link := by
  cases h : w.ret <;> cases h' : w.link <;>
    simp [State.apply, State.applyRet, State.returnFromTrap, State.applyLink, h, h']

/-- The mode changes by a return from a trap only (10_state R17). -/
theorem apply_mode : (s.apply w).mode = match w.ret with
    | none => s.mode
    | some epc => modeOfBit (epc.getLsbD 0) := by
  cases h : w.ret <;> simp [State.apply, State.applyRet, State.returnFromTrap, h]

/-- Without an MTC and an ERET no coprocessor register changes. -/
theorem apply_readCp (hc : w.cp = none) (hr : w.ret = none) (c : CpReg) : (s.apply w).readCp c = s.readCp c := by
  cases c <;> simp [State.apply, State.applyRet, State.applyCp, State.readCp, hc, hr]

theorem apply_pflags (hc : w.cp = none) (hr : w.ret = none) : (s.apply w).pflags = s.pflags := by
  simp [State.apply, State.applyCp, State.applyRet, hr, hc]
theorem apply_ptb (hc : w.cp = none) : (s.apply w).ptb = s.ptb := by
  simp [State.apply, State.applyCp, hc]
theorem apply_eha (hc : w.cp = none) : (s.apply w).eha = s.eha := by
  simp [State.apply, State.applyCp, hc]
theorem apply_epc (hc : w.cp = none) : (s.apply w).epc = s.epc := by
  simp [State.apply, State.applyCp, hc]
theorem apply_ec0 (hc : w.cp = none) : (s.apply w).ec0 = s.ec0 := by
  simp [State.apply, State.applyCp, hc]
theorem apply_ec1 (hc : w.cp = none) : (s.apply w).ec1 = s.ec1 := by
  simp [State.apply, State.applyCp, hc]
theorem apply_ec2 (hc : w.cp = none) : (s.apply w).ec2 = s.ec2 := by
  simp [State.apply, State.applyCp, hc]
theorem apply_ec3 (hc : w.cp = none) : (s.apply w).ec3 = s.ec3 := by
  simp [State.apply, State.applyCp, hc]
theorem apply_ea0 (hc : w.cp = none) : (s.apply w).ea0 = s.ea0 := by
  simp [State.apply, State.applyCp, hc]
theorem apply_ea1 (hc : w.cp = none) : (s.apply w).ea1 = s.ea1 := by
  simp [State.apply, State.applyCp, hc]
theorem apply_sp0 (hc : w.cp = none) : (s.apply w).sp0 = s.sp0 := by
  simp [State.apply, State.applyCp, hc]
theorem apply_sp1 (hc : w.cp = none) : (s.apply w).sp1 = s.sp1 := by
  simp [State.apply, State.applyCp, hc]
theorem apply_sp2 (hc : w.cp = none) : (s.apply w).sp2 = s.sp2 := by
  simp [State.apply, State.applyCp, hc]
theorem apply_sp3 (hc : w.cp = none) : (s.apply w).sp3 = s.sp3 := by
  simp [State.apply, State.applyCp, hc]

theorem apply_ehaWritten (hc : w.cp = none) : (s.apply w).ehaWritten = s.ehaWritten := by
  simp [State.apply, State.applyCp, hc]

/-- Without a store and a FLUSH memory does not change. -/
theorem apply_mem (h : w.store = none) (hf : w.flush = none) : (s.apply w).mem = s.mem := by
  simp [State.apply, State.applyStore, State.applyFlush, h, hf]

end Sys2Proof.Machine
end

