-- ==== Sys2Proof/Laws/Packet.lean ====
section
/-! SUPPORT. What a packet can do, said once: each lane's outcome, the end of the packet, and the packet that holds
one instruction alone (40_packet_execution R120 to R131). -/

namespace Sys2Proof.Machine

-- Traps ---------------------------------------------------------------------------------------------------------------

/-- A trap goes on if an MTC has written EHA. -/
theorem trapTo_next {s : State} (t : State) (h : s.ehaWritten = true) : s.trapTo t = .next t := if_pos h

/-- A trap while no MTC has written EHA is the end of defined behaviour (70_reset R301). -/
theorem trapTo_stuck {s : State} (t : State) (h : s.ehaWritten = false) : s.trapTo t = .fault .ehaNeverWritten := by
  simp [State.trapTo, h]

/-- Everything the end of a trap can be. -/
theorem trapTo_cases (s t : State) :
    (s.ehaWritten = true ∧ s.trapTo t = .next t) ∨ (s.ehaWritten = false ∧ s.trapTo t = .fault .ehaNeverWritten) := by
  cases h : s.ehaWritten
  · exact .inr ⟨rfl, trapTo_stuck t h⟩
  · exact .inl ⟨rfl, trapTo_next t h⟩

/-- A trap that goes on goes to the state of the trap entry, and an MTC has written EHA. -/
theorem trapTo_eq_next {s t u : State} (h : s.trapTo t = .next u) : s.ehaWritten = true ∧ t = u := by
  rcases trapTo_cases s t with ⟨h1, h2⟩ | ⟨_, h2⟩
  · rw [h2] at h
    cases h
    exact ⟨h1, rfl⟩
  · rw [h2] at h
    cases h

-- The end of a packet ----------------------------------------------------------------------------------------------

/-- A packet in which no lane refuses and some lane raises traps (R120 part 6, R128). -/
theorem finish_trap (e : Packet Effect) (s : State) (hr : e.toList.findSome? Effect.refusal? = none)
    (hx : e.toList.any Effect.raised = true) :
    finish e s = s.trapTo (s.takeException e.s0.report e.s1.report e.s2.report e.s3.report).nextDraw := by
  simp [finish, hr, hx]

/-- A packet in which no lane refuses or raises and the link bit is not both set and cleared commits (R125). -/
theorem finish_commit (e : Packet Effect) (s : State) (hr : e.toList.findSome? Effect.refusal? = none)
    (hx : e.toList.any Effect.raised = false) (hl : linkConflict (e.mapLanes fun _ x => x.pending) = false) :
    finish e s = .next (commit (e.mapLanes fun _ x => x.pending) s) := by
  simp [finish, hr, hx, hl]

/-- Everything a packet can do: a refusal, a trap, or a commit. -/
theorem finish_cases (e : Packet Effect) (s : State) :
    (∃ r, finish e s = .refused r) ∨
    (e.toList.any Effect.raised = true ∧
      finish e s = s.trapTo (s.takeException e.s0.report e.s1.report e.s2.report e.s3.report).nextDraw) ∨
    (e.toList.any Effect.raised = false ∧ finish e s = .next (commit (e.mapLanes fun _ x => x.pending) s)) := by
  cases hr : e.toList.findSome? Effect.refusal? with
  | some r => exact .inl ⟨r, by simp [finish, hr]⟩
  | none =>
    cases hx : e.toList.any Effect.raised with
    | true => exact .inr (.inl ⟨rfl, finish_trap e s hr hx⟩)
    | false =>
      cases hl : linkConflict (e.mapLanes fun _ x => x.pending) with
      | true => exact .inl ⟨.linkConflict, by simp [finish, hr, hx, hl]⟩
      | false => exact .inr (.inr ⟨rfl, finish_commit e s hr hx hl⟩)

-- Lanes that pend nothing ---------------------------------------------------------------------------------------------

/-- Applying no writes changes nothing. -/
@[simp] theorem apply_nothing (s : State) : s.apply {} = s := rfl

@[simp] theorem report_nothing : (Effect.writes {}).report = .none := rfl

@[simp] theorem claimedTwice_none (others : List (Option Dest)) : claimedTwice none others = false := rfl

/-- An operand slot or a slot whose predicate is false claims no destination and pends nothing (R123, R131). -/
@[simp] theorem claim_idle (d : Option Dest) : (Issued.idle d).claim = none := rfl

/-- No slot claims `c`. -/
theorem claimedTwice_of_none (c : Option Dest) (others : List (Option Dest)) (h : ∀ o ∈ others, o = none) :
    claimedTwice c others = false := by
  cases c with
  | none => rfl
  | some d =>
    simp only [claimedTwice, Option.isSome_some, Bool.true_and, List.contains_eq_mem, decide_eq_false_iff_not]
    intro hd
    simpa using h _ hd

-- A load beside a FLUSH ---------------------------------------------------------------------------------------------

/-- Beside a FLUSH in slot 0, the writes of a load in slot 1 are applied to the state before the packet (R124). -/
theorem commitOrder_loadBesideFlush (ws : Packet Writes) (draw : Nat) (h0 : ws.s0.flush.isSome)
    (h1 : ws.s1.load.isSome) : commitOrder ws draw = [ws.s1, ws.s0, ws.s2, ws.s3] := by
  simp [commitOrder, slot1Precedes, h0, h1]

/-- With no FLUSH in slot 0 and no access in slot 1 that overlaps slot 0's, slot 0 goes first. -/
theorem commitOrder_inOrder (ws : Packet Writes) (draw : Nat) (h0 : ws.s0.flush = none)
    (h1 : accessesConflict ws.s0.access ws.s1.access = false) :
    commitOrder ws draw = [ws.s0, ws.s1, ws.s2, ws.s3] := by
  simp [commitOrder, slot1Precedes, h0, h1]

-- One instruction alone -------------------------------------------------------------------------------------------------

/-- The data TLB may keep the one translation of a lone instruction. -/
theorem fillDtlb_alone (s : State) (w : Writes) :
    s.fillDtlb { s0 := w, s1 := {}, s2 := {}, s3 := {} } = { s with dtlb := addEntry s.dtlb w.fill } := rfl

/-- The commit of a lone instruction. -/
theorem commit_alone (s : State) (w : Writes) :
    commit { s0 := w, s1 := {}, s2 := {}, s3 := {} } s =
      (State.apply { s with dtlb := addEntry s.dtlb w.fill } w).advance w.target s.pc := by
  have : accessesConflict w.access (Writes.access {}) = false := by
    cases h : w.access <;> simp [accessesConflict, Writes.access]
  simp [commit, commitOrder, slot1Precedes, this, fillDtlb_alone]

/-- The outcomes of the lanes of a lone instruction: its own, and nothing from the others. -/
theorem laneEffects_alone (o : LaneOp) (s : State) :
    laneEffects { s0 := .op o, s1 := .operand, s2 := .operand, s3 := .operand } s =
      { s0 :=
          if s.predTrue o.pred then
            if mayIssueIn o.kind 0 then
              if o.privileged && decide (s.mode = .user) then .raises .illegalInstruction none else o.effect 0 s
            else .raises .illegalInstruction none
          else .writes {}
        s1 := .writes {}, s2 := .writes {}, s3 := .writes {} } := by
  have dup (c : Option Dest) : claimedTwice c [none, none, none] = false :=
    claimedTwice_of_none c _ (by simp)
  cases hp : s.predTrue o.pred
  · simp [laneEffects, Packet.mapLanes, issue, evaluate, Packet.duplicate, hp]
  · cases hk : mayIssueIn o.kind 0
    · simp [laneEffects, Packet.mapLanes, issue, evaluate, Packet.duplicate, hp, hk]
    · cases hm : o.privileged && decide (s.mode = .user) <;>
        simp [laneEffects, Packet.mapLanes, issue, evaluate, Packet.duplicate, hp, hk, hm, dup]

/-- Every type may stand in slot 0 (30_encoding R113). -/
@[simp] theorem mayIssueIn_zero (k : Kind) : mayIssueIn k 0 = true := by cases k <;> rfl

/-- Everything a lone instruction can do (R120, R121, R128, 45_control R237). -/
theorem alone_eq (o : LaneOp) (s : State) :
    alone o s =
      if s.predTrue o.pred then
        if o.privileged && decide (s.mode = .user) then
          s.trapTo (s.takeException { exc := some .illegalInstruction, ea := none } .none .none .none).nextDraw
        else
          match o.effect 0 s with
          | .refuses r => .refused r
          | .raises x ea => s.trapTo (s.takeException { exc := some x, ea := ea } .none .none .none).nextDraw
          | .writes w =>
            if decide (w.link = some true) && w.ret.isSome then .refused .linkConflict
            else .next ((State.apply { s with dtlb := addEntry s.dtlb w.fill } w).advance w.target s.pc)
      else .next (s.advance none s.pc) := by
  simp only [alone, runPacket, laneEffects_alone, mayIssueIn_zero, if_true]
  cases hp : s.predTrue o.pred with
  | false =>
    rfl
  | true =>
    simp only [if_true]
    cases hm : o.privileged && decide (s.mode = .user) with
    | true => rfl
    | false =>
      simp only [Bool.false_eq_true, if_false]
      cases he : o.effect 0 s with
      | refuses r => rfl
      | raises x ea => rfl
      | writes w =>
        simp only [finish, Packet.toList, Packet.mapLanes, Effect.refusal?, Effect.raised, Effect.pending,
          linkConflict, commit_alone, List.findSome?_cons, List.findSome?_nil, List.any_cons, List.any_nil]
        rcases h : w.link with _ | _ | _ <;> cases hr : w.ret <;> simp

/-- An ALU instruction alone (41_alu R156). -/
theorem alone_aluOp (p : Pred) (rd : Reg) (f : State → Word) (s : State) (h : s.predTrue p = true) :
    alone (aluOp p rd f) s = .next ((s.setReg rd (f s)).advance none s.pc) := by
  rw [alone_eq]
  simp only [aluOp, h, if_true]
  rfl

/-- A compare alone (42_compare R180). -/
theorem alone_compareOp (p : Pred) (pd : PredReg) (f : State → Bool) (s : State) (h : s.predTrue p = true) :
    alone (compareOp p pd f) s = .next ((s.setPred pd (f s)).advance none s.pc) := by
  rw [alone_eq]
  simp only [compareOp, h, if_true]
  rfl

/-- A Control instruction that is not privileged, alone. -/
theorem alone_controlOp (p : Pred) (d : Option Dest) (f : State → Effect) (s : State) (w : Writes)
    (h : s.predTrue p = true) (hw : f s = .writes w) (hl : w.link = none) :
    alone (controlOp p d f) s =
      .next ((State.apply { s with dtlb := addEntry s.dtlb w.fill } w).advance w.target s.pc) := by
  rw [alone_eq]
  simp [controlOp, h, hw, hl]

/-- A privileged instruction alone, in kernel mode. -/
theorem alone_privilegedOp (p : Pred) (d : Option Dest) (f : State → Effect) (s : State) (w : Writes)
    (h : s.predTrue p = true) (hm : s.mode = .kernel) (hw : f s = .writes w) (hl : w.link = none) :
    alone (privilegedOp p d f) s =
      .next ((State.apply { s with dtlb := addEntry s.dtlb w.fill } w).advance w.target s.pc) := by
  rw [alone_eq]
  simp [privilegedOp, h, hm, hw, hl]

/-- What a data access can do: pend what its instruction makes of the physical address, or raise code 4 or 5 with
the computed address (43_loadstore R202). -/
theorem dataAccess_cases (s : State) (n : Lane) (kind : AccessKind) (size : Size) (addr : Word)
    (k : Nat → Option TlbEntry → Writes) :
    (∃ pa, (s.translate kind (1 + n.val) (size.align addr) size.bytes).result = .ok pa ∧
      dataAccess s n kind size addr k =
        .writes (k pa (s.translatePage kind (1 + n.val) (size.align addr)).fill)) ∨
    dataAccess s n kind size addr k = .raises .dataPageFault (some addr) ∨
    dataAccess s n kind size addr k = .raises .invalidPhysicalAddress (some addr) := by
  unfold dataAccess
  simp only [translate_fill]
  cases h : (s.translate kind (1 + n.val) (size.align addr) size.bytes).result with
  | ok pa => exact .inl ⟨pa, rfl, rfl⟩
  | pageFault => exact .inr (.inl rfl)
  | invalidPhys => exact .inr (.inr rfl)

end Sys2Proof.Machine
end

