-- ==== Sys2Proof/Laws/Exec.lean ====
section
/-! SUPPORT. The bridge between instructions and lane operations, and between the machine's operations and the terms
of Safety.lean. -/

namespace Sys2Proof.Machine

/-- Every exec arm runs its lane operation alone (log 23). -/
theorem exec_eq_alone (i : Instr) (s : State) : exec i s = alone (opOf i) s := by cases i <;> rfl

@[simp] theorem opOf_pred (i : Instr) : (opOf i).pred = i.pred := by cases i <;> rfl

@[simp] theorem opOf_kind (i : Instr) : (opOf i).kind = i.kind := by cases i <;> rfl

@[simp] theorem opOf_privileged (i : Instr) : (opOf i).privileged = i.privileged := by cases i <;> rfl

/-- The destination that the packet compares is the one of 40_packet_execution R127's table. -/
theorem opOf_dest (i : Instr) : (opOf i).dest = i.destination := by cases i <;> rfl

/-- The issue check of a slot is the type's list of slots (30_encoding R113, 40_packet_execution R126). -/
theorem mayIssueIn_eq_fits (k : Kind) (n : Lane) : mayIssueIn k n = k.fits n := by
  revert n
  cases k <;> decide

/-- `runs` is the predicate test of the packet (40_packet_execution R121). -/
theorem runs_iff (s : State) (p : Pred) : s.runs p ↔ s.predTrue p = true := by
  obtain ⟨n, inv⟩ := p
  have hn : n = 0#2 ∨ n = 1#2 ∨ n = 2#2 ∨ n = 3#2 := by
    revert n
    decide
  rcases hn with rfl | rfl | rfl | rfl <;> simp [State.runs, State.predTrue, State.pred]

/-- EPC of Safety.lean is the one trap entry writes. -/
theorem savedContext_eq (s : State) : s.savedContext = s.contextWord := by
  have hpc : put 4 (field 4 28 s.pc) = s.pc &&& 0xFFFFFFF0#32 := by
    ext i hi
    interval_cases i <;> simp [put, field]
  simp only [State.savedContext, State.contextWord, State.interruptsEnabled, hpc]
  cases s.pflags.getLsbD 0 <;> cases s.mode <;> rfl

/-- PFLAGS after trap entry. -/
theorem withBit0_false (v : Word) : withBit0 v false = v &&& 0xFFFFFFFE#32 := by
  simp [withBit0, put]

/-- Trap entry for an exception, as the state of Safety.lean (60_exceptions R270 to R272). -/
theorem takeException_trapped (s : State) (r0 r1 r2 r3 : LaneReport) :
    (s.takeException r0 r1 r2 r3).nextDraw =
      s.trapped { s0 := r0.ec, s1 := r1.ec, s2 := r2.ec, s3 := r3.ec } (r0.ea.getD s.ea0) (r1.ea.getD s.ea1) := by
  simp [State.takeException, State.enterTrap, State.nextDraw, State.trapped, savedContext_eq, withBit0_false,
    packetAddress]

/-- The code in an EC register (60_exceptions R271). -/
theorem laneReport_ec (x : Exc) (ea : Option Word) :
    (LaneReport.ec { exc := some x, ea := ea }) = x.code.setWidth 32 := by
  simp [LaneReport.ec, put]

@[simp] theorem laneReport_none_ec : LaneReport.none.ec = 0#32 := rfl

/-- Everything an instruction alone can do, in the terms of Safety.lean. -/
theorem exec_cases (i : Instr) (s : State) :
    (¬s.runs i.pred ∧ exec i s = .next s.onward) ∨
    (s.runs i.pred ∧ i.privileged = true ∧ s.mode = .user ∧
      exec i s = s.trapTo (s.trapped { s0 := 2#32, s1 := 0#32, s2 := 0#32, s3 := 0#32 } s.ea0 s.ea1)) ∨
    (s.runs i.pred ∧ (i.privileged = true → s.mode = .kernel) ∧
      ((∃ r, (opOf i).effect 0 s = .refuses r ∧ exec i s = .refused r) ∨
       (∃ x ea, (opOf i).effect 0 s = .raises x ea ∧
          exec i s = s.trapTo (s.trapped { s0 := x.code.setWidth 32, s1 := 0#32, s2 := 0#32, s3 := 0#32 }
            (ea.getD s.ea0) s.ea1)) ∨
       (∃ w, (opOf i).effect 0 s = .writes w ∧ w.link = some true ∧ w.ret.isSome = true ∧
          exec i s = .refused .linkConflict) ∨
       (∃ w, (opOf i).effect 0 s = .writes w ∧ ¬(w.link = some true ∧ w.ret.isSome = true) ∧
          exec i s = .next ((State.apply { s with dtlb := addEntry s.dtlb w.fill } w).advance w.target s.pc)))) := by
  rw [exec_eq_alone, alone_eq]
  simp only [opOf_pred, opOf_privileged, runs_iff, takeException_trapped, laneReport_ec, laneReport_none_ec]
  cases hp : s.predTrue i.pred with
  | false => exact .inl ⟨by simp, rfl⟩
  | true =>
    cases hm : i.privileged && decide (s.mode = .user) with
    | true =>
      simp only [Bool.and_eq_true, decide_eq_true_eq] at hm
      exact .inr (.inl ⟨rfl, hm.1, hm.2, rfl⟩)
    | false =>
      have hk : i.privileged = true → s.mode = .kernel := by
        intro hi
        cases hmode : s.mode with
        | kernel => rfl
        | user => simp [hi, hmode] at hm
      refine .inr (.inr ⟨rfl, hk, ?_⟩)
      simp only [if_true, Bool.false_eq_true, if_false]
      cases he : (opOf i).effect 0 s with
      | refuses r => exact .inl ⟨r, rfl, rfl⟩
      | raises x ea => exact .inr (.inl ⟨x, ea, rfl, rfl⟩)
      | writes w =>
        by_cases hw : w.link = some true ∧ w.ret.isSome = true
        · exact .inr (.inr (.inl ⟨w, rfl, hw.1, hw.2, by simp [hw.1, hw.2]⟩))
        · refine .inr (.inr (.inr ⟨w, rfl, hw, ?_⟩))
          have : (decide (w.link = some true) && w.ret.isSome) = false := by
            simpa [Bool.and_eq_true] using hw
          simp [this]

/-- An instruction that may run and pends `w` (no return from a trap beside an LL) completes so. -/
theorem exec_writes (i : Instr) (s : State) (w : Writes) (h : s.runs i.pred)
    (hp : i.privileged = true → s.mode = .kernel) (he : (opOf i).effect 0 s = .writes w)
    (hl : w.link ≠ some true ∨ w.ret = none) :
    exec i s = .next ((State.apply { s with dtlb := addEntry s.dtlb w.fill } w).advance w.target s.pc) := by
  rcases exec_cases i s with ⟨h1, _⟩ | ⟨_, h2, h3, _⟩ | ⟨_, _, h⟩
  · exact absurd h h1
  · rw [hp h2] at h3
    cases h3
  · rcases h with ⟨_, h1, _⟩ | ⟨_, _, h1, _⟩ | ⟨_, h1, h2, h3, _⟩ | ⟨_, h1, _, h2⟩
    all_goals rw [he] at h1; cases h1
    · rcases hl with hl | hl
      · exact absurd h2 hl
      · simp [hl] at h3
    · exact h2

/-- An instruction that may run and raises `x` traps on lane 0. -/
theorem exec_raises (i : Instr) (s : State) (x : Exc) (ea : Option Word) (hw : s.ehaWritten = true) (h : s.runs i.pred)
    (hp : i.privileged = true → s.mode = .kernel) (he : (opOf i).effect 0 s = .raises x ea) :
    exec i s = .next (s.trapped { s0 := x.code.setWidth 32, s1 := 0#32, s2 := 0#32, s3 := 0#32 }
      (ea.getD s.ea0) s.ea1) := by
  rcases exec_cases i s with ⟨h1, _⟩ | ⟨_, h2, h3, _⟩ | ⟨_, _, h⟩
  · exact absurd h h1
  · rw [hp h2] at h3
    cases h3
  · rcases h with ⟨_, h1, _⟩ | ⟨_, _, h1, h2⟩ | ⟨_, h1, _, _, _⟩ | ⟨_, h1, _, _⟩
    all_goals rw [he] at h1; cases h1
    rw [h2, trapTo_next _ hw]

end Sys2Proof.Machine
end

