-- ==== Sys2Proof/Laws/Forms.lean ====
section
/-! SUPPORT. The word formats of Safety.lean as the format tree of the decoder reads them (30_encoding R82 to R94). -/

namespace Sys2Proof.Machine

theorem field_def (lo k : Nat) (w : Word) : w.extractLsb' lo k = field lo k w := rfl

/-- The two spellings of the predicate field. -/
@[simp] theorem decodePred_eq (w : Word) : decodePred w = predField w := by
  have : (field 29 1 w == 1#1) = w.getLsbD 29 := by
    rw [Bool.eq_iff_iff, beq_iff_eq]
    constructor
    · intro h
      simpa [field] using congrArg (fun v => v.getLsbD 0) h
    · intro h
      ext i hi
      obtain rfl : i = 0 := by omega
      simpa [field] using h
  rw [decodePred, predField, this]
  rfl

/-- A format field of `k` bits as a number, for splitting it into the steps of the format tree. -/
theorem field_eq_iff (lo k : Nat) (w : Word) (v : BitVec k) : field lo k w = v ↔ w.toNat / 2 ^ lo % 2 ^ k = v.toNat := by
  simp [field, BitVec.toNat_eq, Nat.shiftRight_eq_div_pow]

theorem shortWord_fields (w : Word) (op : BitVec 4) (h : ShortWord w op) :
    field 28 1 w = 0#1 ∧ field 10 4 w = op := h

theorem registerWord_fields (w : Word) (op : BitVec 4) (h : RegisterWord w op) :
    field 28 1 w = 1#1 ∧ field 26 2 w = 0b01#2 ∧ field 10 4 w = op := by
  have h1 : field 26 3 w = 0b101#3 := h.1
  refine ⟨?_, ?_, h.2⟩
  all_goals simp only [field_eq_iff, BitVec.toNat_ofNat] at h1 ⊢; omega

theorem regshWord_fields (w : Word) (op : BitVec 4) (h : RegshWord w op) :
    field 28 1 w = 1#1 ∧ field 26 2 w = 0#2 ∧ field 25 1 w = 0#1 ∧ field 24 1 w = 0#1 ∧ field 21 3 w = 0b001#3 ∧
      field 10 4 w = op := by
  have h1 : field 21 8 w = 0b10000001#8 := h.1
  refine ⟨?_, ?_, ?_, ?_, ?_, h.2⟩
  all_goals simp only [field_eq_iff, BitVec.toNat_ofNat] at h1 ⊢; omega

theorem longWord_fields (w : Word) (op : BitVec 4) (h : LongWord w op) :
    field 28 1 w = 1#1 ∧ field 26 2 w = 0#2 ∧ field 25 1 w = 0#1 ∧ field 24 1 w = 0#1 ∧ field 21 3 w = 0#3 ∧
      field 14 7 w = 0#7 ∧ field 10 4 w = op := by
  have h1 : field 14 15 w = 0b100000000000000#15 := h.1
  refine ⟨?_, ?_, ?_, ?_, ?_, ?_, h.2⟩
  all_goals simp only [field_eq_iff, BitVec.toNat_ofNat] at h1 ⊢; omega

theorem controlWord_fields (w : Word) (op : BitVec 4) (h : ControlWord w op) :
    field 28 1 w = 1#1 ∧ field 26 2 w = 0#2 ∧ field 25 1 w = 0#1 ∧ field 24 1 w = 1#1 ∧ field 20 4 w = op := by
  have h1 : field 24 5 w = 0b10001#5 := h.1
  refine ⟨?_, ?_, ?_, ?_, h.2⟩
  all_goals simp only [field_eq_iff, BitVec.toNat_ofNat] at h1 ⊢; omega

end Sys2Proof.Machine
end

