-- ==== Sys2Proof/Laws/Decoded.lean ====
section
/-! SUPPORT. What a decoded word says of its instruction: the predicate, and whether it takes a second slot
(30_encoding R81, R94). -/

namespace Sys2Proof.Machine

/-- The instruction has the predicate of its word and takes a second slot exactly if `long`. -/
def Reads (w : Word) (long : Bool) (x : Except DecodeError Instr) : Prop :=
  ∀ i, x = .ok i → i.pred = decodePred w ∧ i.isLong = long

theorem reads_ok {w : Word} {long : Bool} {i : Instr} (hp : i.pred = decodePred w) (hl : i.isLong = long) :
    Reads w long (.ok i) := by
  intro j hj
  cases hj
  exact ⟨hp, hl⟩

theorem reads_error {w : Word} {long : Bool} {e : DecodeError} : Reads w long (.error e) := by
  intro j hj
  cases hj

theorem reads_compareShort (w : Word) : Reads w false (decodeCompareShort w) := by
  unfold decodeCompareShort
  dsimp only
  split
  all_goals first | exact reads_error | exact reads_ok rfl rfl

theorem reads_compareReg (w : Word) : Reads w false (decodeCompareReg w) := by
  unfold decodeCompareReg
  dsimp only
  split
  all_goals first | exact reads_error | exact reads_ok rfl rfl

theorem reads_compareLong (w imm : Word) : Reads w true (decodeCompareLong w imm) := by
  unfold decodeCompareLong
  dsimp only
  split
  all_goals first | exact reads_error | exact reads_ok rfl rfl

theorem reads_aluShort (w : Word) : Reads w false (decodeAluShort w) := by
  unfold decodeAluShort
  dsimp only
  split
  all_goals first | exact reads_error | exact reads_compareShort w | exact reads_ok rfl rfl

theorem reads_aluReg (w : Word) : Reads w false (decodeAluReg w) := by
  unfold decodeAluReg
  dsimp only
  split
  all_goals first | exact reads_error | exact reads_compareReg w | exact reads_ok rfl rfl

theorem reads_aluLong (w imm : Word) : Reads w true (decodeAluLong w imm) := by
  unfold decodeAluLong
  dsimp only
  split
  all_goals first | exact reads_error | exact reads_compareLong w imm | exact reads_ok rfl rfl

theorem reads_regsh (w : Word) : Reads w false (decodeRegsh w) := by
  unfold decodeRegsh
  dsimp only
  split
  all_goals first | exact reads_error | exact reads_ok rfl rfl

theorem reads_lsu (w : Word) : Reads w false (.ok (decodeLsu w)) := by
  unfold decodeLsu
  dsimp only
  split
  all_goals exact reads_ok rfl rfl

theorem reads_branchImm (w : Word) : Reads w false (.ok (decodeBranchImm w)) := by
  unfold decodeBranchImm
  dsimp only
  split
  all_goals exact reads_ok rfl rfl

theorem reads_branchReg (w : Word) : Reads w false (.ok (decodeBranchReg w)) := by
  unfold decodeBranchReg
  dsimp only
  split
  all_goals exact reads_ok rfl rfl

theorem reads_control (w : Word) : Reads w false (decodeControl w) := by
  unfold decodeControl
  dsimp only
  repeat' split
  all_goals first | exact reads_error | exact reads_ok rfl rfl

/-- A word that decodes gives an instruction with the word's predicate, and it takes a second slot exactly if the
word is a Long form (R81, R94). -/
theorem reads_decodeWord (w : Word) (next : Option Word) : Reads w (isLongWord w) (decodeWord w next) := by
  have one : ∀ x : BitVec 1, (x = 0#1) ↔ ¬x = 1#1 := by decide
  have two : ∀ x : BitVec 2, ¬x = 1#2 → ¬x = 2#2 → ¬x = 3#2 → x = 0#2 := by decide
  rw [isLongWord_eq]
  unfold decodeWord
  split
  · next h => simpa [h] using reads_aluShort w
  next h28 =>
  split
  · next h => simpa [h] using reads_aluReg w
  next h1 =>
  split
  · next h => simpa [h] using reads_branchImm w
  next h2 =>
  split
  · next h => simpa [h] using reads_branchReg w
  next h3 =>
  split
  · next h => simpa [h] using reads_lsu w
  next h25 =>
  split
  · next h => simpa [h] using reads_control w
  next h24 =>
  split
  · next h => simpa [h] using reads_regsh w
  split
  · next h21 =>
    split
    · next h14 =>
      rw [one, not_not] at h28
      rw [← one] at h25 h24
      cases next with
      | none => exact reads_error
      | some imm => simpa [h28, two _ h1 h2 h3, h25, h24, h21, h14] using reads_aluLong w imm
    · exact reads_error
  · exact reads_error

/-- The next word matters only to Long forms (R94). -/
theorem decodeWord_next (w : Word) (next next' : Option Word) (h : isLongWord w = false) :
    decodeWord w next = decodeWord w next' := by
  have one : ∀ x : BitVec 1, (x = 0#1) ↔ ¬x = 1#1 := by decide
  have two : ∀ x : BitVec 2, ¬x = 1#2 → ¬x = 2#2 → ¬x = 3#2 → x = 0#2 := by decide
  rw [isLongWord_eq] at h
  unfold decodeWord
  split_ifs with h28 h1 h2 h3 h25 h24 hs h21 h14
  all_goals try rfl
  rw [one, not_not] at h28
  rw [← one] at h25 h24
  simp [h28, two _ h1 h2 h3, h25, h24, h21, h14] at h

end Sys2Proof.Machine
end

