-- ==== Sys2Proof/Laws/Effects.lean ====
section
/-! SUPPORT. What the effect of an instruction can hold: which instructions pend each kind of write, and which refuse.
Proofs about packets cite these instead of splitting over the instructions again. -/

namespace Sys2Proof.Machine

variable {i : Instr} {n : Lane} {s : State} {w : Writes}

/-- A load or store pends what `k` makes of a physical address inside the address space. -/
theorem dataAccess_writes {kind : AccessKind} {size : Size} {addr : Word} {k : Nat → Option TlbEntry → Writes}
    (h : dataAccess s n kind size addr k = .writes w) :
    ∃ pa fill, w = k pa fill ∧ pa + size.bytes ≤ Config.physBytes := by
  unfold dataAccess at h
  simp only at h
  split at h
  · next pa hpa =>
    cases h
    exact ⟨pa, _, rfl, (translate_ok _ _ _ _ _ _ hpa).2⟩
  · cases h
  · cases h

theorem dataAccess_refuses {kind : AccessKind} {size : Size} {addr : Word} {k : Nat → Option TlbEntry → Writes}
    {r : Refusal} : dataAccess s n kind size addr k ≠ .refuses r := by
  unfold dataAccess
  simp only
  split <;> simp

/-- The writes of an instruction, by kind: everything a proof over all instructions needs to know of them. -/
structure WritesOf (i : Instr) (s : State) (w : Writes) : Prop where
  /-- Only ERET returns from a trap, by EPC. -/
  ret : ∀ epc, w.ret = some epc → (∃ p, i = .eret p) ∧ epc = s.epc ∧ w.target = some (packetAddress epc)
  /-- Only MTC writes a coprocessor register, a listed one. -/
  cp : ∀ c v, w.cp = some (c, v) → ∃ p k rs, i = .mtc p k rs ∧ CpReg.ofNumber k = some c ∧ v = s.reg rs
  /-- Only LL sets the link bit. -/
  linkSet : w.link = some true → ∃ p off rd rs, i = .ll p off rd rs
  /-- Only SC clears it, besides ERET and traps. -/
  linkCleared : w.link = some false → ∃ p off rt rs, i = .sc p off rt rs
  /-- Only Control instructions set the next packet's address or write `hi`, and never beside a link write. -/
  control : (w.target ≠ none ∨ w.hi ≠ none ∨ w.flush ≠ none ∨ w.ret ≠ none ∨ w.cp ≠ none) →
    i.kind = .control ∧ w.link = none
  /-- The next packet's address is a packet address when `pc` is. -/
  target : ∀ a, w.target = some a → s.pc &&& 0xF#32 = 0#32 → a &&& 0xF#32 = 0#32
  /-- Stores stay inside the physical address space. -/
  store : ∀ t, w.store = some t → t.pa + t.size.bytes ≤ Config.physBytes
  /-- Loads and stores are Memory instructions. -/
  memory : (w.load ≠ none ∨ w.store ≠ none) → i.kind = .memory

/-- A branch to a label goes to a packet address. -/
theorem targetImm_aligned (s : State) (off : BitVec 25) (h : s.pc &&& 0xF#32 = 0#32) :
    s.targetImm off &&& 0xF#32 = 0#32 := by
  have h1 : s.pc.toNat % 16 = 0 := by
    have := congrArg BitVec.toNat h
    simpa [BitVec.toNat_and, Nat.and_two_pow_sub_one_eq_mod (n := 4)] using this
  apply BitVec.eq_of_toNat_eq
  have : ∀ v : Word, (v &&& 0xF#32).toNat = v.toNat % 16 := fun v => by
    simp [BitVec.toNat_and, Nat.and_two_pow_sub_one_eq_mod (n := 4)]
  rw [this, State.targetImm, BitVec.toNat_add, BitVec.toNat_shiftLeft, Nat.shiftLeft_eq]
  simp
  omega

theorem loadEffect_writes {size : Size} {link : Option Bool} {off : BitVec 12} {rd rs : Reg}
    (h : loadEffect size link off rd rs n s = .writes w) :
    ∃ pa fill, w = { load := some { rd := rd, pa := pa, size := size }, link := link, fill := fill } := by
  obtain ⟨pa, fill, hw, _⟩ := dataAccess_writes h
  exact ⟨pa, fill, hw⟩

theorem storeEffect_writes {size : Size} {flag : Option (PredReg × Bool)} {link : Option Bool} {off : BitVec 12}
    {rt rs : Reg} (h : storeEffect size flag link off rt rs n s = .writes w) :
    ∃ (pa : Nat) (fill : Option TlbEntry),
      w = { store := some { pa := pa, size := size, value := s.reg rt }
            pred := flag
            link := link
            fill := fill } ∧
      pa + size.bytes ≤ Config.physBytes :=
  dataAccess_writes h

theorem flushEffect_writes {t : FlushType} {rs : Reg} (h : flushEffect t rs s = .writes w) :
    ∃ f fill, w = { flush := f, fill := fill } := by
  cases t <;> simp only [flushEffect, flushCacheEffect] at h
  case data | inst =>
    split at h <;> cases h
    · exact ⟨_, _, rfl⟩
    · exact ⟨none, none, rfl⟩
  case dtlb | itlb =>
    cases h
    exact ⟨_, none, rfl⟩

theorem writesOf_reg (r : Option (Reg × Word)) (q : Option (PredReg × Bool)) :
    WritesOf i s { reg := r, pred := q } where
  ret := by simp
  cp := by simp
  linkSet := by simp
  linkCleared := by simp
  control := by simp
  target := by simp
  store := by simp
  memory := by simp

theorem writesOf_hi (hk : i.kind = .control) (r : Option (Reg × Word)) (v : Option Word) :
    WritesOf i s { reg := r, hi := v } where
  ret := by simp
  cp := by simp
  linkSet := by simp
  linkCleared := by simp
  control := by simp [hk]
  target := by simp
  store := by simp
  memory := by simp

theorem writesOf_branch (hk : i.kind = .control) (r : Option (Reg × Word)) (a : Word)
    (ha : s.pc &&& 0xF#32 = 0#32 → a &&& 0xF#32 = 0#32) : WritesOf i s { reg := r, target := some a } where
  ret := by simp
  cp := by simp
  linkSet := by simp
  linkCleared := by simp
  control := by simp [hk]
  target := by
    intro b hb
    cases hb
    exact ha
  store := by simp
  memory := by simp

theorem writesOf_load {l : Load} {link : Option Bool} {fill : Option TlbEntry} (hk : i.kind = .memory)
    (ht : link = some true → ∃ p off rd rs, i = .ll p off rd rs) (hf : link ≠ some false) :
    WritesOf i s { load := some l, link := link, fill := fill } where
  ret := by simp
  cp := by simp
  linkSet := ht
  linkCleared := fun h => absurd h hf
  control := by simp
  target := by simp
  store := by simp
  memory := fun _ => hk

theorem writesOf_store {t : Store} {q : Option (PredReg × Bool)} {link : Option Bool} {fill : Option TlbEntry}
    (hk : i.kind = .memory) (ht : link ≠ some true) (hf : link = some false → ∃ p off rt rs, i = .sc p off rt rs)
    (hp : t.pa + t.size.bytes ≤ Config.physBytes) :
    WritesOf i s { store := some t, pred := q, link := link, fill := fill } where
  ret := by simp
  cp := by simp
  linkSet := fun h => absurd h ht
  linkCleared := hf
  control := by simp
  target := by simp
  store := by
    intro t' h
    cases h
    exact hp
  memory := fun _ => hk

/-- What the writes of each instruction are. -/
theorem effect_writes (h : (opOf i).effect n s = .writes w) : WritesOf i s w := by
  cases i
  case bImm p off =>
    cases h
    exact writesOf_branch rfl _ _ (targetImm_aligned s off)
  case blImm p off =>
    cases h
    exact writesOf_branch rfl _ _ (targetImm_aligned s off)
  case bReg p off rs =>
    cases h
    exact writesOf_branch rfl _ _ fun _ => packetAddress_low _
  case blReg p off rs =>
    cases h
    exact writesOf_branch rfl _ _ fun _ => packetAddress_low _
  case lb =>
    obtain ⟨pa, fill, rfl⟩ := loadEffect_writes h
    exact writesOf_load rfl (by simp) (by simp)
  case lh =>
    obtain ⟨pa, fill, rfl⟩ := loadEffect_writes h
    exact writesOf_load rfl (by simp) (by simp)
  case lw =>
    obtain ⟨pa, fill, rfl⟩ := loadEffect_writes h
    exact writesOf_load rfl (by simp) (by simp)
  case ll p off rd rs =>
    obtain ⟨pa, fill, rfl⟩ := loadEffect_writes h
    exact writesOf_load rfl (fun _ => ⟨p, off, rd, rs, rfl⟩) (by simp)
  case sb =>
    obtain ⟨pa, fill, rfl, hp⟩ := storeEffect_writes h
    exact writesOf_store rfl (by simp) (by simp) hp
  case sh =>
    obtain ⟨pa, fill, rfl, hp⟩ := storeEffect_writes h
    exact writesOf_store rfl (by simp) (by simp) hp
  case sw =>
    obtain ⟨pa, fill, rfl, hp⟩ := storeEffect_writes h
    exact writesOf_store rfl (by simp) (by simp) hp
  case sc p off rt rs =>
    change (if s.link then _ else _) = _ at h
    split at h
    · obtain ⟨pa, fill, rfl, hp⟩ := storeEffect_writes h
      exact writesOf_store rfl (by simp) (fun _ => ⟨p, off, rt, rs, rfl⟩) hp
    · cases h
      exact
        { ret := by simp
          cp := by simp
          linkSet := by simp
          linkCleared := fun _ => ⟨p, off, rt, rs, rfl⟩
          control := by simp
          target := by simp
          store := by simp
          memory := by simp }
  case breakpoint => cases h
  case syscall => cases h
  case eret p =>
    cases h
    exact
      { ret := by
          intro epc he
          cases he
          exact ⟨⟨p, rfl⟩, rfl, rfl⟩
        cp := by simp
        linkSet := by simp
        linkCleared := by simp
        control := fun _ => ⟨rfl, rfl⟩
        target := by
          intro a ha _
          cases ha
          exact packetAddress_low _
        store := by simp
        memory := by simp }
  case flush p t rs =>
    obtain ⟨f, fill, rfl⟩ := flushEffect_writes h
    exact
      { ret := by simp
        cp := by simp
        linkSet := by simp
        linkCleared := by simp
        control := fun _ => ⟨rfl, rfl⟩
        target := by simp
        store := by simp
        memory := by simp }
  case mfc p rd k =>
    change (match CpReg.ofNumber k with | some c => _ | none => _) = _ at h
    split at h <;> cases h
    exact writesOf_reg _ _
  case mtc p k rs =>
    change (match CpReg.ofNumber k with | some c => _ | none => _) = _ at h
    split at h
    · next c hc =>
      cases h
      exact
        { ret := by simp
          cp := by
            intro c' v hv
            cases hv
            exact ⟨p, k, rs, rfl, hc, rfl⟩
          linkSet := by simp
          linkCleared := by simp
          control := fun _ => ⟨rfl, rfl⟩
          target := by simp
          store := by simp
          memory := by simp }
    · cases h
  case div p rt rd rs =>
    change (if s.reg rt = 0#32 then _ else _) = _ at h
    split at h <;> cases h
    exact writesOf_hi rfl _ _
  case mthi =>
    cases h
    exact writesOf_hi rfl none _
  case mult =>
    cases h
    exact writesOf_hi rfl _ _
  case mults =>
    cases h
    exact writesOf_hi rfl _ _
  all_goals
    cases h
    first
      | exact writesOf_reg _ none
      | exact writesOf_reg none _

/-- Only MFC and MTC of an unlisted coprocessor register refuse. -/
theorem effect_refuses {r : Refusal} (h : (opOf i).effect n s = .refuses r) :
    i.privileged = true ∧ i.kind = .control ∧ i.wellFormed = false ∧
      ∃ k, r = .unlistedCoprocessorRegister k ∧ CpReg.ofNumber k = none := by
  cases i
  case lb | lh | lw | ll | sb | sh | sw => exact absurd h dataAccess_refuses
  case sc =>
    change (if s.link then _ else _) = _ at h
    split at h
    · exact absurd h dataAccess_refuses
    · cases h
  case flush p t rs =>
    change flushEffect t rs s = _ at h
    cases t <;> simp only [flushEffect, flushCacheEffect] at h
    case data | inst => split at h <;> cases h
    all_goals cases h
  case mfc p rd k =>
    change (match CpReg.ofNumber k with | some c => _ | none => _) = _ at h
    split at h
    · cases h
    · next hc =>
      cases h
      exact ⟨rfl, rfl, by simp [Instr.wellFormed, hc], k, rfl, hc⟩
  case mtc p k rs =>
    change (match CpReg.ofNumber k with | some c => _ | none => _) = _ at h
    split at h
    · cases h
    · next hc =>
      cases h
      exact ⟨rfl, rfl, by simp [Instr.wellFormed, hc], k, rfl, hc⟩
  case div p rt rd rs =>
    change (if s.reg rt = 0#32 then _ else _) = _ at h
    split at h <;> cases h
  all_goals cases h

end Sys2Proof.Machine
end

