-- ==== Sys2Proof/Laws/Steps.lean ====
section
/-! SUPPORT. Everything a packet and a step can do, for any words: what each lane can come to, the four ends of a
packet, and the four kinds of step (40_packet_execution R120). -/

namespace Sys2Proof.Machine

-- Lanes ----------------------------------------------------------------------------------------------------------------

/-- What one lane of a packet can come to: nothing, an exception of the issue checks, or the outcome of the
instruction that is live in it (R120 parts 2 to 5). -/
theorem lane_cases (p : Packet Slot) (s : State) (n : Lane) :
    (laneEffects p s).get n = .writes {} ∨
    (∃ x, (laneEffects p s).get n = .raises x none) ∨
    ∃ o, p.get n = .op o ∧ s.predTrue o.pred = true ∧ mayIssueIn o.kind n = true ∧
      (o.privileged = true → s.mode = .kernel) ∧ (laneEffects p s).get n = o.effect n s := by
  have h : (laneEffects p s).get n = evaluate (p.mapLanes (issue s)) s n (issue s n (p.get n)) := by
    fin_cases n <;> rfl
  rw [h]
  cases hx : p.get n with
  | operand =>
    simp only [issue, evaluate]
    split <;> simp
  | undecodable q =>
    simp only [issue]
    cases s.predTrue q <;> simp only [evaluate, if_true, Bool.false_eq_true, if_false]
    · split <;> simp
    · simp
  | op o =>
    simp only [issue]
    cases h1 : s.predTrue o.pred
    · simp only [Bool.not_false, if_true, evaluate]
      split <;> simp
    cases h2 : mayIssueIn o.kind n
    · simp [evaluate]
    cases h3 : (o.privileged && decide (s.mode = .user))
    · simp only [Bool.not_true, Bool.false_eq_true, if_false, evaluate]
      split
      · simp
      · refine .inr (.inr ⟨o, rfl, h1, h2, ?_, rfl⟩)
        intro hp
        cases hm : s.mode with
        | kernel => rfl
        | user => simp [hp, hm] at h3
    · simp [evaluate]

/-- Every operation of the packet is that of an instruction. -/
def FromInstrs (p : Packet Slot) : Prop := ∀ n o, p.get n = .op o → ∃ i, o = opOf i

theorem slotOf_fromInstr {w : Word} {next : Option Word} {o : LaneOp} (h : slotOf w next = .op o) :
    ∃ i, decodeWord w next = .ok i ∧ o = opOf i := by
  unfold slotOf at h
  split at h
  · next i hi =>
    cases h
    exact ⟨i, hi, rfl⟩
  · cases h

/-- A decoded packet holds operations of instructions only. -/
theorem fromInstrs_decodePacket (w : Packet Word) : FromInstrs (decodePacket w) := by
  have key : ∀ {v next o}, slotOf v next = .op o → ∃ i, o = opOf i := fun h =>
    let ⟨i, _, hi⟩ := slotOf_fromInstr h
    ⟨i, hi⟩
  intro n o h
  fin_cases n <;> simp only [Packet.get, decodePacket] at h
  · exact key h
  all_goals
    split at h
    · cases h
    · exact key h

/-- So does a packet written as instructions. -/
theorem fromInstrs_slotFor (is : Packet (Option Instr)) : FromInstrs (is.mapLanes fun _ x => slotFor x) := by
  intro n o h
  fin_cases n <;> simp only [Packet.get, Packet.mapLanes, slotFor] at h <;> split at h <;> cases h <;> exact ⟨_, rfl⟩

/-- The writes of a lane are none, or those of the instruction that is live in it. -/
theorem pending_cases {p : Packet Slot} (hk : FromInstrs p) {s : State} {n : Lane} {w : Writes}
    (h : (laneEffects p s).get n = .writes w) :
    w = {} ∨ ∃ i, p.get n = .op (opOf i) ∧ s.runs i.pred ∧ mayIssueIn i.kind n = true ∧
      (i.privileged = true → s.mode = .kernel) ∧ (opOf i).effect n s = .writes w ∧ WritesOf i s w := by
  rcases lane_cases p s n with h1 | ⟨x, h1⟩ | ⟨o, ho, h2, h3, h4, h5⟩
  · rw [h] at h1
    cases h1
    exact .inl rfl
  · rw [h] at h1
    cases h1
  · obtain ⟨i, rfl⟩ := hk n o ho
    rw [h] at h5
    exact .inr ⟨i, ho, (runs_iff _ _).2 (by simpa using h2), by simpa using h3, by simpa using h4, h5.symm,
      effect_writes h5.symm⟩

/-- The writes that `finish` collects, by lane. -/
theorem pending_get (e : Packet Effect) (n : Lane) :
    (e.mapLanes fun _ x => x.pending).get n = (e.get n).pending := by
  fin_cases n <;> rfl

-- Packets --------------------------------------------------------------------------------------------------------------

/-- What an EC register takes from a lane (60_exceptions R271). -/
theorem report_ec (e : Effect) : e.report.ec = match e with
    | .raises x _ => x.code.setWidth 32
    | .writes _ => 0#32
    | .refuses _ => 0#32 := by
  cases e <;> simp [Effect.report, laneReport_ec]

/-- The four ends of a packet: the refusal of a lane, the trap of its exceptions, the refusal of two conflicting writes
of the link bit, or the commit of every lane's writes. -/
theorem runPacket_cases (p : Packet Slot) (s : State) :
    (∃ r n, runPacket p s = .refused r ∧ (laneEffects p s).get n = .refuses r) ∨
    ((∃ n x ea, (laneEffects p s).get n = .raises x ea) ∧ (∀ n r, (laneEffects p s).get n ≠ .refuses r) ∧
      ∃ ea0 ea1, runPacket p s =
        s.trapTo (s.trapped ((laneEffects p s).mapLanes fun _ e => e.report.ec) ea0 ea1)) ∨
    ((∀ n, ∃ w, (laneEffects p s).get n = .writes w) ∧
      linkConflict ((laneEffects p s).mapLanes fun _ x => x.pending) = true ∧
      runPacket p s = .refused .linkConflict) ∨
    ((∀ n, ∃ w, (laneEffects p s).get n = .writes w) ∧
      linkConflict ((laneEffects p s).mapLanes fun _ x => x.pending) = false ∧
      runPacket p s = .next (commit ((laneEffects p s).mapLanes fun _ x => x.pending) s)) := by
  unfold runPacket
  generalize laneEffects p s = e
  have mem : ∀ n, e.get n ∈ e.toList := by
    intro n
    fin_cases n <;> simp [Packet.get, Packet.toList]
  have ofMem : ∀ x ∈ e.toList, ∃ n, e.get n = x := by
    intro x hx
    simp only [Packet.toList, List.mem_cons, List.not_mem_nil, or_false] at hx
    rcases hx with h | h | h | h
    exacts [⟨0, h.symm⟩, ⟨1, h.symm⟩, ⟨2, h.symm⟩, ⟨3, h.symm⟩]
  cases hr : e.toList.findSome? Effect.refusal? with
  | some r =>
    obtain ⟨a, ha, hb⟩ := List.exists_of_findSome?_eq_some hr
    obtain ⟨n, rfl⟩ := ofMem a ha
    refine .inl ⟨r, n, by simp [finish, hr], ?_⟩
    revert hb
    cases e.get n <;> simp [Effect.refusal?]
  | none =>
    have hr' := List.findSome?_eq_none_iff.mp hr
    have nr : ∀ n r, e.get n ≠ .refuses r := by
      intro n r h
      have := hr' _ (mem n)
      rw [h] at this
      cases this
    cases hx : e.toList.any Effect.raised with
    | true =>
      refine .inr (.inl ⟨?_, nr, e.s0.report.ea.getD s.ea0, e.s1.report.ea.getD s.ea1, ?_⟩)
      · obtain ⟨a, ha, hb⟩ := List.any_eq_true.mp hx
        obtain ⟨n, rfl⟩ := ofMem a ha
        refine ⟨n, ?_⟩
        revert hb
        cases e.get n <;> simp [Effect.raised]
      · rw [finish_trap e s hr hx, takeException_trapped]
        rfl
    | false =>
      have all : ∀ n, ∃ w, e.get n = .writes w := by
        intro n
        have h1 : Effect.raised (e.get n) = false := by
          simpa using List.any_eq_false.mp hx _ (mem n)
        cases h : e.get n with
        | writes w => exact ⟨w, rfl⟩
        | raises x ea =>
          rw [h] at h1
          cases h1
        | refuses r => exact absurd h (nr n r)
      cases hl : linkConflict (e.mapLanes fun _ x => x.pending) with
      | true => exact .inr (.inr (.inl ⟨all, rfl, by simp [finish, hr, hx, hl]⟩))
      | false => exact .inr (.inr (.inr ⟨all, rfl, finish_commit e s hr hx hl⟩))

/-- The commit applies the writes of the four lanes. -/
theorem mem_commitOrder (ws : Packet Writes) (draw : Nat) (w : Writes) :
    w ∈ commitOrder ws draw ↔ ∃ n, w = ws.get n := by
  have h : w ∈ commitOrder ws draw ↔ w = ws.s0 ∨ w = ws.s1 ∨ w = ws.s2 ∨ w = ws.s3 := by
    unfold commitOrder
    split
    · simp only [List.mem_cons, List.not_mem_nil, or_false]
      tauto
    · simp only [List.mem_cons, List.not_mem_nil, or_false]
  rw [h]
  constructor
  · rintro (h | h | h | h)
    exacts [⟨0, h⟩, ⟨1, h⟩, ⟨2, h⟩, ⟨3, h⟩]
  · rintro ⟨n, rfl⟩
    fin_cases n <;> simp [Packet.get]

-- Steps ----------------------------------------------------------------------------------------------------------------

/-- Whether a trap is stuck does not depend on what the environment does or the fetch. -/
@[simp] theorem trapTo_arrived (s t : State) : s.arrived.trapTo t = s.trapTo t := by simp [State.trapTo]

@[simp] theorem fetched_ehaWritten (s : State) (fill : Option TlbEntry) : (s.fetched fill).ehaWritten = s.ehaWritten :=
  arrived_ehaWritten s

/-- The fetch and what the environment does leave alone everything a lane's checks read. -/
@[simp] theorem fetched_mode (s : State) (fill : Option TlbEntry) : (s.fetched fill).mode = s.mode := arrived_mode s

@[simp] theorem fetched_epc (s : State) (fill : Option TlbEntry) : (s.fetched fill).epc = s.epc := arrived_epc s

@[simp] theorem fetched_predTrue (s : State) (fill : Option TlbEntry) (p : Pred) :
    (s.fetched fill).predTrue p = s.predTrue p :=
  congrArg (· ^^ p.inv) (arrived_pred s p.reg)

theorem fetched_runs (s : State) (fill : Option TlbEntry) (p : Pred) : (s.fetched fill).runs p ↔ s.runs p := by
  simp [runs_iff]

@[simp] theorem trapTo_fetched (s t : State) (fill : Option TlbEntry) : (s.fetched fill).trapTo t = s.trapTo t := by
  simp [State.trapTo]

/-- The four kinds of step: an interrupt, a misaligned `pc`, a fetch fault, or a packet. -/
theorem step_cases (s : State) :
    (∃ src, s.interrupt = some src ∧ step s = s.trapTo (s.arrived.takeInterrupt src)) ∨
    (s.interrupt = none ∧ s.pc &&& 0xF#32 ≠ 0#32 ∧ step s = .fault .misalignedPc) ∨
    (s.interrupt = none ∧ s.pc &&& 0xF#32 = 0#32 ∧
      ∃ fill r code, s.arrived.translate .fetch 0 s.pc 16 = { fill := fill, result := r } ∧
        (r = .pageFault ∧ code = 1#32 ∨ r = .invalidPhys ∧ code = 5#32) ∧
        step s = s.trapTo ((s.fetched fill).trapped ⟨code, 0#32, 0#32, 0#32⟩ s.ea0 s.ea1)) ∨
    (∃ w fill, s.Fetches w fill ∧ step s = runPacket (decodePacket w) (s.fetched fill)) := by
  unfold step runStep
  rcases hi : s.interrupt with _ | src
  · simp only [fetchAndRun, arrived_pc, ne_eq, packetAddress_eq_iff]
    by_cases hp : s.pc &&& 0xF#32 = 0#32
    · rw [if_neg (not_not.mpr hp)]
      have fault (fill : Option TlbEntry) (e : Exc) : (s.arrived.fillItlb fill).takeFetchFault e =
          s.trapTo ((s.fetched fill).trapped ⟨e.code.setWidth 32, 0#32, 0#32, 0#32⟩ s.ea0 s.ea1) := by
        have : s.arrived.fillItlb fill = s.fetched fill := rfl
        have h0 : (s.fetched fill).ea0 = s.ea0 := arrived_ea0 s
        have h1 : (s.fetched fill).ea1 = s.ea1 := arrived_ea1 s
        rw [this, State.takeFetchFault, takeException_trapped, trapTo_fetched, laneReport_ec, laneReport_none_ec, h0, h1]
        rfl
      rcases ht : s.arrived.translate .fetch 0 s.pc 16 with ⟨fill, pa | _ | _⟩
      · exact .inr (.inr (.inr ⟨_, fill, ⟨hi, hp, pa, ht, rfl⟩, rfl⟩))
      · exact .inr (.inr (.inl ⟨trivial, hp, fill, _, 1#32, rfl, .inl ⟨rfl, rfl⟩, fault fill _⟩))
      · exact .inr (.inr (.inl ⟨trivial, hp, fill, _, 5#32, rfl, .inr ⟨rfl, rfl⟩, fault fill _⟩))
    · rw [if_pos hp]
      exact .inr (.inl ⟨trivial, hp, rfl⟩)
  · exact .inl ⟨src, rfl, by simp⟩

/-- A step that fetches the words `w` runs them (40_packet_execution R122, R123). -/
theorem step_of_fetches {s : State} {w : Packet Word} {fill : Option TlbEntry} (h : s.Fetches w fill) :
    step s = runPacket (decodePacket w) (s.fetched fill) := by
  obtain ⟨hi, hp, pa, ht, hw⟩ := h
  rcases step_cases s with ⟨src, h1, _⟩ | ⟨_, h1, _⟩ | ⟨_, _, fill', r, c, h1, h2, _⟩ | ⟨w', fill', ⟨_, _, pa', h1, h2⟩, h3⟩
  · simp [hi] at h1
  · exact absurd hp h1
  · rw [ht] at h1
    cases h1
    rcases h2 with ⟨h2, _⟩ | ⟨h2, _⟩ <;> cases h2
  · rw [ht] at h1
    cases h1
    rw [hw] at h2
    rw [h3, h2]

end Sys2Proof.Machine
end

