-- ==== Sys2Proof/Tests/Slice0.lean ====
section
/-! SUPPORT. Small tests: well-formedness, decoding of words composed by hand from the opcode table, one packet of
each kind against the worked examples of spec/95_test_vectors, and for every statement with hypotheses a state and
operands that meet them. -/

namespace Sys2Proof.Tests

open Sys2Proof.Machine

-- States -------------------------------------------------------------------------------------------------------------

/-- The predicate "always" (30_encoding R81). -/
def always : Pred := ⟨3, false⟩

/-- The four bytes of a word as memory cells. -/
def cells (a : Nat) (v : Word) : Memory :=
  [(a, field 0 8 v), (a + 1, field 8 8 v), (a + 2, field 16 8 v), (a + 3, field 24 8 v)]

/-- The state after reset with R1 = `a`, R2 = `b`, R3 = `c`. -/
def regs3 (a b c : Word) : State := ((State.reset.setReg 1 a).setReg 2 b).setReg 3 c

/-- The state after reset with these four words in the packet that the next step fetches. -/
def holding (a b c d : Word) : State := State.reset.loadPacket ⟨a, b, c, d⟩

/-- Paging on, with a page directory at 0x1000 whose entry 0 leads to a page table at 0x2000: page 0 is at 0x5000 and
writable, page 1 is not present, page 2 is read-only at 0x6000, page 3 is kernel-only at 0x7000; directory entry 1 is
not present. -/
def paged : State :=
  { State.reset with
    pflags := 2#32
    ptb := 0x1000#32
    mem := cells 0x1000 0x2003#32 ++ cells 0x1004 0#32 ++ cells 0x2000 0x5003#32 ++ cells 0x2004 0#32 ++
      cells 0x2008 0x6001#32 ++ cells 0x200C 0x7007#32 ++ cells 0x5000 0x11223344#32 }

/-- `s` with the trap handler at 0x3000. -/
def armed (s : State) : State := { s with eha := 0x3000#32, ehaWritten := true }

/-- The next state, if there is one. -/
def next? (r : Result) : Option State :=
  match r with
  | .next t => some t
  | .fault _ => none
  | .refused _ => none

theorem next_of_isSome {r : Result} (h : (next? r).isSome = true) : ∃ t, r = .next t := by
  cases r with
  | next t => exact ⟨t, rfl⟩
  | fault f => cases h
  | refused r => cases h

/-- Register `n` of the next state. -/
def regAfter (n : Reg) (r : Result) : Option Word := (next? r).map fun t => t.reg n

-- Well-formedness ------------------------------------------------------------------------------------------------------

theorem test_illFormed_mfcUnlisted : (Instr.mfc always 1 15).wellFormed = false := by decide
theorem test_illFormed_mtcUnlisted : (Instr.mtc always 20 1).wellFormed = false := by decide
theorem test_illFormed_controlInSlotOne :
    wellFormedPacket [.addShort always 1 0 1 1, .bImm always 3] = false := by decide
theorem test_illFormed_memoryInSlotTwo :
    wellFormedPacket [.fence always, .lw always 0 1 2, .lw always 4 3 2] = false := by decide
theorem test_illFormed_longInSlotThree :
    wellFormedPacket [.fence always, .addShort always 1 0 1 1, .addShort always 1 0 2 2, .movLong always 7 3] =
      false := by decide
theorem test_illFormed_fiveSlots :
    wellFormedPacket [.movLong always 7 3, .movLong always 7 4, .addShort always 1 0 1 1] = false := by decide
theorem test_wellFormed_fullPacket :
    wellFormedPacket [.blImm always 3, .lw always 0 1 2, .movLong always 7 3] = true := by decide

-- Decoding -----------------------------------------------------------------------------------------------------------

/-- ALU 2-Op Short words (30_encoding R83). -/
theorem test_decode_twoOperandShort :
    decodeWord 0xC530C1B5#32 none = .ok (.addShort ⟨3, false⟩ 332 3 13 21) ∧
    decodeWord 0xA0F3C627#32 none = .ok (.andShort ⟨2, true⟩ 60 15 17 7) ∧
    decodeWord 0x28D5C85B#32 none = .ok (.norShort ⟨0, true⟩ 565 7 2 27) ∧
    decodeWord 0x6F2C4E73#32 none = .ok (.orShort ⟨1, true⟩ 971 1 19 19) ∧
    decodeWord 0x44A5D0B2#32 none = .ok (.subShort ⟨1, false⟩ 297 7 5 18) ∧
    decodeWord 0xC1AA9675#32 none = .ok (.rsbShort ⟨3, false⟩ 106 10 19 21) ∧
    decodeWord 0xA0FA98F0#32 none = .ok (.xorShort ⟨2, true⟩ 62 10 7 16) := by
  decide

/-- ALU Register words (30_encoding R86). -/
theorem test_decode_aluRegister :
    decodeWord 0x344EC244#32 none = .ok (.addReg ⟨0, true⟩ 2 .lsr 27 18 4) ∧
    decodeWord 0x744B85C3#32 none = .ok (.andReg ⟨1, true⟩ 2 .lsr 14 14 3) ∧
    decodeWord 0x566FC915#32 none = .ok (.norReg ⟨1, false⟩ 19 .lsr 31 8 21) ∧
    decodeWord 0xD5AA0C52#32 none = .ok (.orReg ⟨3, false⟩ 13 .lsr 8 2 18) ∧
    decodeWord 0xB49A925B#32 none = .ok (.subReg ⟨2, true⟩ 4 .ror 10 18 27) ∧
    decodeWord 0x34F11657#32 none = .ok (.rsbReg ⟨0, true⟩ 7 .asr 4 18 23) ∧
    decodeWord 0x76DB9B2B#32 none = .ok (.xorReg ⟨1, true⟩ 22 .ror 14 25 11) ∧
    decodeWord 0x550DE320#32 none = .ok (.movReg ⟨1, false⟩ 8 .lsr 23 25) ∧
    decodeWord 0x35F52460#32 none = .ok (.mvnReg ⟨0, true⟩ 15 .asr 20 3) ∧
    decodeWord 0xD5CFEAC0#32 none = .ok (.sxbReg ⟨3, false⟩ 14 .lsr 31 22) ∧
    decodeWord 0x76F52E00#32 none = .ok (.sxhReg ⟨1, true⟩ 23 .asr 20 16) := by
  decide

/-- ALU 2-Op Long words (30_encoding R94). -/
theorem test_decode_twoOperandLong :
    decodeWord 0x50000193#32 (some 0x89ABCDEF#32) = .ok (.addLong ⟨1, false⟩ 0x89ABCDEF 12 19) ∧
    decodeWord 0xD0000503#32 (some 0x89ABCDEF#32) = .ok (.andLong ⟨3, false⟩ 0x89ABCDEF 8 3) ∧
    decodeWord 0xB0000AB3#32 (some 0x89ABCDEF#32) = .ok (.norLong ⟨2, true⟩ 0x89ABCDEF 21 19) ∧
    decodeWord 0x30000F85#32 (some 0x89ABCDEF#32) = .ok (.orLong ⟨0, true⟩ 0x89ABCDEF 28 5) ∧
    decodeWord 0x700012C6#32 (some 0x89ABCDEF#32) = .ok (.subLong ⟨1, true⟩ 0x89ABCDEF 22 6) ∧
    decodeWord 0x50001473#32 (some 0x89ABCDEF#32) = .ok (.rsbLong ⟨1, false⟩ 0x89ABCDEF 3 19) ∧
    decodeWord 0xD00019F3#32 (some 0x89ABCDEF#32) = .ok (.xorLong ⟨3, false⟩ 0x89ABCDEF 15 19) := by
  decide

/-- ALU 1-Op Short words (30_encoding R84). -/
theorem test_decode_oneOperandShort :
    decodeWord 0x2ECA218A#32 none = .ok (.movShort ⟨0, true⟩ 11186 8 12) ∧
    decodeWord 0xC7EFE578#32 none = .ok (.mvnShort ⟨3, false⟩ 25083 15 11) ∧
    decodeWord 0x657CEBD0#32 none = .ok (.sxbShort ⟨1, true⟩ 16735 3 30) ∧
    decodeWord 0xAE07AD6B#32 none = .ok (.sxhShort ⟨2, true⟩ 12161 14 11) := by
  decide

/-- ALU 1-Op Regsh words (30_encoding R93). -/
theorem test_decode_aluRegsh :
    decodeWord 0xB028E26A#32 none = .ok (.movRegsh ⟨2, true⟩ .lsr 3 19 10) ∧
    decodeWord 0x502C65C6#32 none = .ok (.mvnRegsh ⟨1, false⟩ .lsr 17 14 6) ∧
    decodeWord 0x302E6A53#32 none = .ok (.sxbRegsh ⟨0, true⟩ .lsr 25 18 19) ∧
    decodeWord 0xD03EADE3#32 none = .ok (.sxhRegsh ⟨3, false⟩ .ror 26 15 3) := by
  decide

/-- ALU 1-Op Long words (30_encoding R94). -/
theorem test_decode_oneOperandLong :
    decodeWord 0x70002220#32 (some 0x89ABCDEF#32) = .ok (.movLong ⟨1, true⟩ 0x89ABCDEF 17) ∧
    decodeWord 0xB0002720#32 (some 0x89ABCDEF#32) = .ok (.mvnLong ⟨2, true⟩ 0x89ABCDEF 25) ∧
    decodeWord 0x50002B40#32 (some 0x89ABCDEF#32) = .ok (.sxbLong ⟨1, false⟩ 0x89ABCDEF 26) ∧
    decodeWord 0x30002F60#32 (some 0x89ABCDEF#32) = .ok (.sxhLong ⟨0, true⟩ 0x89ABCDEF 27) := by
  decide

/-- Compare Short words (30_encoding R85). -/
theorem test_decode_compareShort :
    decodeWord 0x41815C57#32 none = .ok (.cmpltuShort ⟨1, false⟩ 96 5 2 23) ∧
    decodeWord 0xC942DCCA#32 none = .ok (.cmpleuShort ⟨3, false⟩ 592 11 2 10) ∧
    decodeWord 0xA7659D34#32 none = .ok (.cmpeqShort ⟨2, true⟩ 473 6 1 20) ∧
    decodeWord 0x2BD51E4D#32 none = .ok (.cmpltsShort ⟨0, true⟩ 757 4 2 13) ∧
    decodeWord 0x6477DEBB#32 none = .ok (.cmplesShort ⟨1, true⟩ 285 15 1 27) ∧
    decodeWord 0x4E29DF25#32 none = .ok (.cmpbsShort ⟨1, false⟩ 906 7 1 5) ∧
    decodeWord 0xC7C79FE6#32 none = .ok (.cmpbcShort ⟨3, false⟩ 497 14 3 6) := by
  decide

/-- Compare Register words (30_encoding R87). -/
theorem test_decode_compareRegister :
    decodeWord 0xB6C89C77#32 none = .ok (.cmpltuReg ⟨2, true⟩ 22 .lsr 2 3 23) ∧
    decodeWord 0x36F75CEC#32 none = .ok (.cmpleuReg ⟨0, true⟩ 23 .asr 29 3 12) ∧
    decodeWord 0x74909D39#32 none = .ok (.cmpeqReg ⟨1, true⟩ 4 .asr 2 1 25) ∧
    decodeWord 0x57D0DE2F#32 none = .ok (.cmpltsReg ⟨1, false⟩ 30 .asr 3 1 15) ∧
    decodeWord 0xD5DA5EEE#32 none = .ok (.cmplesReg ⟨3, false⟩ 14 .ror 9 3 14) ∧
    decodeWord 0xB4695F36#32 none = .ok (.cmpbsReg ⟨2, true⟩ 3 .lsr 5 1 22) ∧
    decodeWord 0x35305FAE#32 none = .ok (.cmpbcReg ⟨0, true⟩ 9 .asr 1 1 14) := by
  decide

/-- Compare Long words (30_encoding R94). -/
theorem test_decode_compareLong :
    decodeWord 0x70001C55#32 (some 0x89ABCDEF#32) = .ok (.cmpltuLong ⟨1, true⟩ 0x89ABCDEF 2 21) ∧
    decodeWord 0x50001CBF#32 (some 0x89ABCDEF#32) = .ok (.cmpleuLong ⟨1, false⟩ 0x89ABCDEF 1 31) ∧
    decodeWord 0xD0001D45#32 (some 0x89ABCDEF#32) = .ok (.cmpeqLong ⟨3, false⟩ 0x89ABCDEF 2 5) ∧
    decodeWord 0xB0001E52#32 (some 0x89ABCDEF#32) = .ok (.cmpltsLong ⟨2, true⟩ 0x89ABCDEF 2 18) ∧
    decodeWord 0x30001ED6#32 (some 0x89ABCDEF#32) = .ok (.cmplesLong ⟨0, true⟩ 0x89ABCDEF 2 22) ∧
    decodeWord 0x70001F21#32 (some 0x89ABCDEF#32) = .ok (.cmpbsLong ⟨1, true⟩ 0x89ABCDEF 1 1) ∧
    decodeWord 0x50001FEC#32 (some 0x89ABCDEF#32) = .ok (.cmpbcLong ⟨1, false⟩ 0x89ABCDEF 3 12) := by
  decide

/-- Branch Immediate words (30_encoding R90). -/
theorem test_decode_branchImmediate :
    decodeWord 0xB9383956#32 none = .ok (.bImm ⟨2, true⟩ 20461910) ∧
    decodeWord 0xDBE7FC74#32 none = .ok (.blImm ⟨3, false⟩ 31980660) := by
  decide

/-- Branch Register words (30_encoding R91). -/
theorem test_decode_branchRegister :
    decodeWord 0x7D21F78B#32 none = .ok (.bReg ⟨1, true⟩ 593852 11) ∧
    decodeWord 0x3E404097#32 none = .ok (.blReg ⟨0, true⟩ 131588 23) := by
  decide

/-- Load words (30_encoding R88). -/
theorem test_decode_load :
    decodeWord 0x53B8023F#32 none = .ok (.lb ⟨1, false⟩ 3520 17 31) ∧
    decodeWord 0xB33C46B6#32 none = .ok (.lh ⟨2, true⟩ 2530 21 22) ∧
    decodeWord 0x737AE84F#32 none = .ok (.lw ⟨1, true⟩ 3031 2 15) ∧
    decodeWord 0xD3CCAF99#32 none = .ok (.ll ⟨3, false⟩ 3685 28 25) := by
  decide

/-- Store words (30_encoding R89). -/
theorem test_decode_store :
    decodeWord 0x33EF31AD#32 none = .ok (.sb ⟨0, true⟩ 3949 28 13) ∧
    decodeWord 0x52D136AD#32 none = .ok (.sh ⟨1, false⟩ 1717 4 13) ∧
    decodeWord 0xB221D8EF#32 none = .ok (.sw ⟨2, true⟩ 263 7 15) ∧
    decodeWord 0x72593E82#32 none = .ok (.sc ⟨1, true⟩ 756 4 2) := by
  decide

/-- Control words (30_encoding R92). -/
theorem test_decode_control :
    decodeWord 0xD1100000#32 none = .ok (.breakpoint ⟨3, false⟩ ) ∧
    decodeWord 0x31200000#32 none = .ok (.syscall ⟨0, true⟩ ) ∧
    decodeWord 0x51300000#32 none = .ok (.fence ⟨1, false⟩ ) ∧
    decodeWord 0xB1400000#32 none = .ok (.eret ⟨2, true⟩ ) ∧
    decodeWord 0x71500413#32 none = .ok (.flush ⟨1, true⟩ .inst 19) ∧
    decodeWord 0xD16000B2#32 none = .ok (.mfc ⟨3, false⟩ 5 18) ∧
    decodeWord 0x3170009F#32 none = .ok (.mtc ⟨0, true⟩ 4 31) ∧
    decodeWord 0x51A00180#32 none = .ok (.mfhi ⟨1, false⟩ 12) ∧
    decodeWord 0xB1B00014#32 none = .ok (.mthi ⟨2, true⟩ 20) ∧
    decodeWord 0x7180407C#32 none = .ok (.mult ⟨1, true⟩ 1 3 28) ∧
    decodeWord 0xD189C28D#32 none = .ok (.mults ⟨3, false⟩ 7 20 13) ∧
    decodeWord 0x319142A9#32 none = .ok (.div ⟨0, true⟩ 5 21 9) := by
  decide

/-- The predicate field: P1 inverted (30_encoding R81). -/
theorem test_decode_predicate : decodePred 0x60140022#32 = ⟨1, true⟩ := by decide

/-- Every encoding of FLUSH with the C bit set or an X bit set is that of the bit clear (30_encoding R107). -/
theorem test_decode_ignoredBits :
    decodeWord 0xD1580C02#32 none = decodeWord 0xD1500C02#32 none ∧
    decodeWord 0xD13FFFFF#32 none = .ok (.fence always) := by decide

/-- The byte order of an instruction in memory (20_memory R43). -/
theorem test_decode_bytes :
    decodeBytes [0x22, 0x00, 0x14, 0xC0, 0x55] = .ok (.addShort always 5 0 1 2, [0x55]) := by decide

/-- A Long form takes its operand from the following bytes, and is refused without them. -/
theorem test_decode_longBytes :
    decodeBytes [0x64, 0x00, 0x00, 0xD0, 0xEF, 0xBE, 0xAD, 0xDE] = .ok (.addLong always 0xDEADBEEF 3 4, []) ∧
    decodeBytes [0x64, 0x00, 0x00, 0xD0, 0xEF] = .error .truncated := by decide

theorem test_decodeTableWord :
    decodeTableWord 32 0xC0140022 = some (.addShort always 5 0 1 2) ∧
    decodeTableWord 64 0xDEADBEEFD0000064 = some (.addLong always 0xDEADBEEF 3 4) := by decide

-- Instructions (expected values from the examples of 41_alu to 45_control and spec/95_test_vectors) ----------------------

theorem test_add_wraps : regAfter 1 (exec (.addShort always 5 0 1 2) (regs3 0 0xFFFFFFFE#32 0)) = some 3#32 := by
  decide
theorem test_add_rotatedConstant :
    regAfter 1 (exec (.addShort always 0xFF 4 1 0) (State.reset.setReg 0 1#32)) = some 0xFF000001#32 := by decide
theorem test_and : regAfter 1 (exec (.andShort always 0xFF 0 1 2) (regs3 0 0x12345678#32 0)) = some 0x78#32 := by
  decide
theorem test_nor :
    regAfter 1 (exec (.norReg always 0 .lsl 3 1 2) (regs3 0 0x0F0F0F0F#32 0xF0000000#32)) = some 0x00F0F0F0#32 := by
  decide
theorem test_or : regAfter 1 (exec (.orShort always 0xFF 15 1 2) (regs3 0 0x80000001#32 0)) = some 0x800003FD#32 := by
  decide
theorem test_sub_wraps : regAfter 1 (exec (.subShort always 1 0 1 2) (regs3 0 0 0)) = some 0xFFFFFFFF#32 := by decide
theorem test_rsb : regAfter 1 (exec (.rsbShort always 0 0 1 2) (regs3 0 5#32 0)) = some 0xFFFFFFFB#32 := by decide
theorem test_xor_self : regAfter 1 (exec (.xorReg always 0 .lsl 1 1 1) (regs3 0xCAFEBABE#32 0 0)) = some 0#32 := by
  decide
theorem test_mov_constant15 : regAfter 1 (exec (.movShort always 0x7FFF 1 1) State.reset) = some 0xC0001FFF#32 := by
  decide
theorem test_mov_shiftByRegister :
    regAfter 1 (exec (.movRegsh always .asr 2 1 3) (regs3 0 0x80000000#32 40#32)) = some 0xFFFFFFFF#32 ∧
    regAfter 1 (exec (.movRegsh always .ror 2 1 3) (regs3 0 0x12345678#32 36#32)) = some 0x81234567#32 ∧
    regAfter 1 (exec (.movRegsh always .lsl 2 1 3) (regs3 0x55#32 0xFFFFFFFF#32 32#32)) = some 0#32 := by decide
theorem test_mvn : regAfter 1 (exec (.mvnShort always 0 0 1) State.reset) = some 0xFFFFFFFF#32 := by decide
theorem test_sxb :
    regAfter 1 (exec (.sxbReg always 0 .lsl 2 1) (regs3 0 0x12345680#32 0)) = some 0xFFFFFF80#32 ∧
    regAfter 1 (exec (.sxbReg always 0 .lsl 2 1) (regs3 0 0xFFFFFF7F#32 0)) = some 0x7F#32 := by decide
theorem test_sxh_shiftFirst :
    regAfter 1 (exec (.sxhReg always 16 .lsr 2 1) (regs3 0 0x8000FFFF#32 0)) = some 0xFFFF8000#32 := by decide

/-- P0 of the next state. -/
def p0After (r : Result) : Option Bool := (next? r).map fun t => t.p0

theorem test_cmpltu : p0After (exec (.cmpltuShort always 10 0 0 1) (regs3 9#32 0 0)) = some true ∧
    p0After (exec (.cmpltuShort always 10 0 0 1) (regs3 10#32 0 0)) = some false := by decide
theorem test_cmpleu_equal : p0After (exec (.cmpleuShort always 10 0 0 1) (regs3 10#32 0 0)) = some true := by decide
theorem test_cmpeq : p0After (exec (.cmpeqReg always 0 .lsl 2 0 1) (regs3 7#32 7#32 0)) = some true := by decide
theorem test_cmplts_signed :
    p0After (exec (.cmpltsShort always 0 0 0 1) (regs3 0xFFFFFFFF#32 0 0)) = some true ∧
    p0After (exec (.cmpltuShort always 0 0 0 1) (regs3 0xFFFFFFFF#32 0 0)) = some false := by decide
theorem test_cmples_signed : p0After (exec (.cmplesShort always 0 0 0 1) (regs3 0x80000000#32 0 0)) = some true := by
  decide
theorem test_cmpbs : p0After (exec (.cmpbsShort always 6 0 0 1) (regs3 4#32 0 0)) = some true ∧
    p0After (exec (.cmpbsShort always 6 0 0 1) (regs3 9#32 0 0)) = some false := by decide
theorem test_cmpbc : p0After (exec (.cmpbcShort always 6 0 0 1) (regs3 4#32 0 0)) = some true ∧
    p0After (exec (.cmpbcShort always 6 0 0 1) (regs3 7#32 0 0)) = some false ∧
    p0After (exec (.cmpbcShort always 0 0 0 1) (regs3 0 0 0)) = some false := by decide

/-- `pc` of the next state. -/
def pcAfter (r : Result) : Option Word := (next? r).map fun t => t.pc

theorem test_b_backwards : pcAfter (exec (.bImm always 0x1FFFFFF) State.reset) = some 0xFF0#32 := by decide
theorem test_b_roundsDown : pcAfter (exec (.bReg always 1 1) (regs3 0x2007#32 0 0)) = some 0x2010#32 := by decide
theorem test_bl_links : regAfter 31 (exec (.blImm always 3) State.reset) = some 0x1000#32 ∧
    pcAfter (exec (.blReg always 1 31) (State.reset.setReg 31 0x3000#32)) = some 0x3010#32 := by decide

/-- Two words of memory, at 0x2000 and below 2^29. -/
def data : State := { regs3 0 0x2002#32 0 with mem := cells 0x2000 0x8899AABB#32 ++ cells 0x1FFFFFFC 0x01020304#32 }

theorem test_lb : regAfter 1 (exec (.lb always 1 1 2) data) = some 0x88#32 := by decide
theorem test_lh_lowBitIgnored : regAfter 1 (exec (.lh always 1 1 2) data) = some 0x8899#32 := by decide
theorem test_lw_lowBitsIgnored : regAfter 1 (exec (.lw always 1 1 2) data) = some 0x8899AABB#32 := by decide
theorem test_ll_setsLink : (next? (exec (.ll always 0xFFE 1 2) data)).map (fun t => (t.reg 1, t.link)) =
    some (0x8899AABB#32, true) := by decide
theorem test_lw_translates : regAfter 1 (exec (.lw always 0 1 2) paged) = some 0x11223344#32 := by decide

/-- The word at 0x2000 of the next state. -/
def wordAfter (r : Result) : Option Word := (next? r).map fun t => t.loadLE 0x2000 4

theorem test_sb : wordAfter (exec (.sb always 1 3 2) (data.setReg 3 0x55667744#32)) = some 0x4499AABB#32 := by decide
theorem test_sh : wordAfter (exec (.sh always 0 3 2) (data.setReg 3 0x55667744#32)) = some 0x7744AABB#32 := by decide
theorem test_sw : wordAfter (exec (.sw always 0 3 2) (data.setReg 3 0x55667744#32)) = some 0x55667744#32 := by decide
theorem test_sc_clearLink : (next? (exec (.sc always 0 3 2) { data with p0 := true })).map
    (fun t => (t.loadLE 0x2000 4, t.p0, t.link)) = some (0x8899AABB#32, false, false) := by decide
theorem test_sc_setLink : (next? (exec (.sc always 0 3 2) { data with link := true })).map
    (fun t => (t.loadLE 0x2000 4, t.p0, t.link)) = some (0#32, true, false) := by decide

/-- EPC, EC0 and `pc` of the next state. -/
def trapAfter (r : Result) : Option (Word × Word × Word) := (next? r).map fun t => (t.epc, t.ec0, t.pc)

/-- A user program with interrupts enabled and the handler at 0x3000. -/
def user : State := { armed State.reset with pc := 0x2040#32, mode := .user, pflags := 1#32 }

theorem test_syscall : trapAfter (exec (.syscall always) user) = some (0x2042#32, 8#32, 0x3000#32) := by decide
theorem test_break : trapAfter (exec (.breakpoint always) user) = some (0x2042#32, 9#32, 0x3000#32) := by decide
theorem test_syscall_beforeEha : exec (.syscall always) State.reset = .fault .ehaNeverWritten := by rfl
theorem test_fence : exec (.fence always) data = .next data.onward := by rfl
theorem test_eret : (next? (exec (.eret always) { State.reset with epc := 0x2052#32, link := true })).map
    (fun t => (t.pc, t.mode, t.pflags, t.link)) = some (0x2050#32, .user, 1#32, false) := by decide
theorem test_eret_userMode : trapAfter (exec (.eret always) user) = some (0x2042#32, 2#32, 0x3000#32) := by decide
theorem test_flush_pageFault : (next? (exec (.flush always .data 2) (armed (paged.setReg 2 0x1234#32)))).map
    (fun t => (t.ec0, t.ea0)) = some (4#32, 0x1234#32) := by decide
theorem test_flush_itlb : (next? (exec (.flush always .itlb 2)
    { State.reset with itlb := [⟨0, 5, true, false, true⟩, ⟨1, 6, false, false, true⟩] })).map (fun t => t.itlb) =
      some [⟨1, 6, false, false, true⟩] := by decide
theorem test_mtc_eha : (next? (exec (.mtc always 2 1) (regs3 0x3007#32 0 0))).map (fun t => (t.eha, t.ehaWritten)) =
    some (0x3007#32, true) := by decide
theorem test_mfc_pflags : regAfter 1 (exec (.mfc always 1 0) { State.reset with pflags := 3#32 }) = some 3#32 := by
  decide
theorem test_mtc_ptb : (next? (exec (.mtc always 1 2)
    { regs3 0 0x9000#32 0 with dtlb := [⟨0, 5, false, false, true⟩, ⟨1, 6, true, false, true⟩] })).map
      (fun t => (t.ptb, t.dtlb)) = some (0x9000#32, [⟨1, 6, true, false, true⟩]) := by decide
theorem test_mfhi : regAfter 1 (exec (.mfhi always 1) { State.reset with hi := 7#32 }) = some 7#32 := by decide
theorem test_mthi : (next? (exec (.mthi always 2) (regs3 0 9#32 0))).map (fun t => t.hi) = some 9#32 := by decide

/-- R1 and `hi` of the next state. -/
def pairAfter (r : Result) : Option (Word × Word) := (next? r).map fun t => (t.reg 1, t.hi)

theorem test_mult : pairAfter (exec (.mult always 3 1 2) (regs3 0 0x12345678#32 0x9ABCDEF0#32)) =
    some (0x242D2080#32, 0x0B00EA4E#32) := by decide
theorem test_mults : pairAfter (exec (.mults always 3 1 2) (regs3 0 0x12345678#32 0x9ABCDEF0#32)) =
    some (0x242D2080#32, 0xF8CC93D6#32) := by decide
theorem test_div : pairAfter (exec (.div always 3 1 2) (regs3 0 0xFFFFFFF9#32 2#32)) =
    some (0x7FFFFFFC#32, 1#32) := by decide
theorem test_div_byZero : (next? (exec (.div always 3 1 2) (armed (regs3 5#32 7#32 0)))).map (fun t => (t.reg 1, t.ec0)) =
    some (5#32, 6#32) := by decide

-- Packets -------------------------------------------------------------------------------------------------------------------

/-- Both moves of a swap read the old registers (40_packet_execution R124). -/
theorem test_packet_swap :
    (next? (runInstrs ⟨some (.movReg always 0 .lsl 2 1), some (.movReg always 0 .lsl 1 2), none, none⟩
      (regs3 0xAAAA#32 0xBBBB#32 0))).map (fun t => (t.reg 1, t.reg 2)) = some (0xBBBB#32, 0xAAAA#32) := by decide

/-- Four live writers of R0 (30_encoding R109, 40_packet_execution R127). -/
theorem test_packet_allZero :
    (next? (step { armed (holding 0 0 0 0) with p0 := true })).map (fun t => (t.pc, t.epc, t.ecs)) =
      some (0x3000#32, 0x1001#32, ⟨3#32, 3#32, 3#32, 3#32⟩) := by decide

/-- A step runs the word that `withFetchWord` places. -/
theorem test_step_withFetchWord :
    regAfter 1 (step (State.withFetchWord (regs3 0 0xFFFFFFFE#32 0) 32 0xC0140022)) = some 3#32 ∧
    regAfter 3 (step (State.withFetchWord State.reset 64 0xDEADBEEFD0000064)) = some 0xDEADBEEF#32 := by decide

-- Caches, TLBs and the environment (20_memory R48, R58, R66 to R68) ---------------------------------------------------

/-- Stores are whole to a DMA peripheral: before FLUSH DATA it may see the old word or the new one, afterwards only the
new one. -/
theorem test_store_seenWhole :
    (next? (exec (.sw always 0 3 2) (data.setReg 3 0x55667744#32))).map (fun t =>
      [0x8899AABB#32, 0x55667744#32, 0x8899AA44#32].map fun v =>
        (t.dmaMaySee 0x800 .word v, (t.flushDataLine 0x2001).dmaMaySee 0x800 .word v)) =
      some [(true, false), (true, true), (false, false)] := by decide

/-- The environment's DMA writes before a step: of a word that the L1 data cache holds, and of one that it does not. -/
def dma (held : Bool) : State :=
  { data with inputs := [⟨0#4, none, [.write ⟨0x1000, .half, 0x1234#32, held⟩]⟩] }

theorem test_dma_held : (dma true).arrived.loadLE 0x2000 4 = 0x8899AABB#32 ∧
    (dma true).arrived.l2LE 0x2000 4 = 0x88991234#32 ∧
    ((dma true).arrived.flushDataLine 0x2003).loadLE 0x2000 4 = 0x88991234#32 := by decide
theorem test_dma_notHeld : (dma false).arrived.loadLE 0x2000 4 = 0x88991234#32 := by decide

/-- A store and a DMA write of the same word: FLUSH DATA writes back the byte stored and takes the others. -/
theorem test_dma_afterStore :
    let s := ({ data with inputs := [⟨0#4, none, [.write ⟨0x800, .word, 0x11111111#32, false⟩]⟩] } : State)
    let t := (s.storeByte 0x2001 0x77#8).arrived
    t.loadLE 0x2000 4 = 0x889977BB#32 ∧ t.l2LE 0x2000 4 = 0x11111111#32 ∧
      (t.flushDataLine 0x2000).loadLE 0x2000 4 = 0x11117711#32 ∧
      (t.flushDataLine 0x2000).l2LE 0x2000 4 = 0x11117711#32 := by decide

/-- A load in slot 1 beside FLUSH DATA of its word in slot 0 reads the word as it was before the packet; the next load
reads the DMA peripheral's bytes (40_packet_execution R124, 20_memory R68). -/
theorem test_packet_loadBesideFlush :
    (next? (runInstrs ⟨some (.flush always .data 2), some (.lw always 0 1 2), none, none⟩ (dma true).arrived)).map
      (fun s => (s.reg 1, s.loadLE 0x2000 4)) = some (0x8899AABB#32, 0x88991234#32) := by decide

/-- An entry replaces the one of the same page. -/
theorem test_addEntry_replaces :
    addEntry [⟨1, 6, false, false, true⟩, ⟨0, 5, true, false, true⟩] (some ⟨0, 9, false, false, false⟩) =
      [⟨0, 9, false, false, false⟩, ⟨1, 6, false, false, true⟩] := by decide

/-- The environment drops a TLB entry and an instruction cache line, and an interrupt is taken after it has acted. -/
theorem test_environment_drops :
    (next? (step { user with
      dtlb := [⟨1, 6, false, false, true⟩], l1i := [⟨0x810, 7#32⟩]
      inputs := [⟨2#4, some .usb, [.drop (.dtlb 1), .drop (.inst 0x2041)]⟩] })).map
        (fun t => (t.ec0, t.pc, t.dtlb, t.l1i)) = some (0x27#32, 0x3000#32, [], []) := by decide

-- Hypotheses that can be met ----------------------------------------------------------------------------------------------
-- Each theorem below names the statement of Obligations.lean whose hypotheses it meets.

/-- `runs`, for every statement with that hypothesis: always, and P0 inverted when P0 is 0. -/
theorem test_witness_runs : State.reset.runs always ∧ State.reset.runs ⟨0, true⟩ := by
  unfold State.runs
  decide

/-- FalsePredicateDoesNothing, PredicateThreeConstant. -/
theorem test_witness_FalsePredicateDoesNothing :
    ¬State.reset.runs (Instr.pred (.bImm ⟨0, false⟩ 3)) ∧ (Instr.bImm ⟨3, true⟩ 3).pred = ⟨3#2, true⟩ := by
  unfold State.runs
  decide

theorem test_witness_EncodeDecodeRoundTrip :
    decodeWord 0xC0140022#32 none = .ok (.addShort always 5 0 1 2) ∧
    decodeWord 0xD0002020#32 (some 7#32) = .ok (.movLong always 7 1) ∧
    (Instr.movLong always 7 1).isLong = true := by decide

/-- LogicResults, MoveResults, SignExtendResults, MultiplyResults, FenceDoesNothing: words of every format with every
opcode. -/
theorem test_witness_formats : ∀ op : BitVec 4,
    ShortWord (put 10 op) op ∧ RegisterWord (put 26 5#3 ||| put 10 op) op ∧
    RegshWord (put 21 129#8 ||| put 10 op) op ∧ LongWord (put 28 1#1 ||| put 10 op) op ∧
    ControlWord (put 24 17#5 ||| put 20 op) op := by
  unfold ShortWord RegisterWord RegshWord LongWord ControlWord
  decide

/-- CompareResults, BitsClearCompareResult: compare words of every type. -/
theorem test_witness_compareForms : ∀ c : BitVec 3,
    (put 10 7#4 ||| put 7 c).extractLsb' 7 3 = c ∧ ShortWord (put 10 7#4 ||| put 7 c) 0b0111#4 ∧
    (put 26 5#3 ||| put 10 7#4 ||| put 7 c).extractLsb' 7 3 = c ∧
    RegisterWord (put 26 5#3 ||| put 10 7#4 ||| put 7 c) 0b0111#4 ∧
    (put 28 1#1 ||| put 10 7#4 ||| put 7 c).extractLsb' 7 3 = c ∧
    LongWord (put 28 1#1 ||| put 10 7#4 ||| put 7 c) 0b0111#4 := by
  unfold ShortWord RegisterWord LongWord
  decide

/-- CompareResults, BitsClearCompareResult: both values of each comparison, where they meet. -/
theorem test_witness_CompareResults :
    (true = true ↔ (regs3 9 0 0).reg 1 < op2Short 10 0) ∧ (false = true ↔ (regs3 10 0 0).reg 1 < op2Short 10 0) ∧
    (true = true ↔ ((regs3 0xFFFFFFFF#32 0 0).reg 1).toInt < (op2Short 0 0).toInt) ∧
    (false = true ↔ ((regs3 0 0 0).reg 1).toInt < (op2Short 0 0).toInt) := by decide

/-- UnassignedWordsRejected: a word for each clause, at the ends of its range. -/
theorem test_witness_UnassignedWordsRejected :
    (∀ op : BitVec 4, 12 ≤ op.toNat → ShortWord (put 10 op) op) ∧
    ((put 10 7#4 ||| put 7 3#3).extractLsb' 7 3 = 0b011#3 ∧ ShortWord (put 10 7#4 ||| put 7 3#3) 0b0111#4) ∧
    (RegshWord (put 21 129#8 ||| put 10 7#4) 7#4 ∧ RegshWord (put 21 129#8 ||| put 10 12#4) 12#4) ∧
    ((put 21 128#8 ||| put 14 1#7).extractLsb' 21 8 = 0b10000000#8 ∧
      (put 21 128#8 ||| put 14 1#7).extractLsb' 14 7 ≠ 0#7) ∧
    ((put 24 16#5 ||| put 21 2#3).extractLsb' 24 5 = 0b10000#5 ∧
      2 ≤ ((put 24 16#5 ||| put 21 2#3).extractLsb' 21 3).toNat) ∧
    (∀ op ∈ [0#4, 12#4, 15#4], op ≠ Config.ctrlopMfhi ∧ op ≠ Config.ctrlopMtc ∧ op ≠ Config.ctrlopMthi ∧
      ControlWord (put 24 17#5 ||| put 20 op) op) := by
  unfold ShortWord RegshWord ControlWord
  decide

/-- StepKeepsInvariant. -/
theorem test_witness_StepKeepsInvariant :
    (holding 0xC0140022#32 0 0 0).Inv ∧ ∃ t, step (holding 0xC0140022#32 0 0 0) = .next t := by
  refine ⟨?_, next_of_isSome (by decide)⟩
  unfold State.Inv
  decide

/-- StepFaultsOnly: both faults. -/
theorem test_witness_StepFaultsOnly :
    step { State.reset with pc := 0x1008#32 } = .fault .misalignedPc ∧
    step (holding 0xD1200000#32 0xE0000000#32 0xE0000000#32 0xE0000000#32) = .fault .ehaNeverWritten ∧
    (next? (step { holding 0xD1200000#32 0xE0000000#32 0xE0000000#32 0xE0000000#32 with
      ehaWritten := true, eha := 0xFFFFFFFF#32 })).map (fun t => t.pc) = some 0xFFFFFFF0#32 := by
  refine ⟨rfl, rfl, by decide⟩

/-- StepRefusesOnly: packets that read coprocessor register 31 and write 10, and packets with LL beside SC, SC beside
LL, and ERET beside LL. -/
theorem test_witness_StepRefusesOnly :
    step (holding 0xD160003F#32 0xE0000000#32 0xE0000000#32 0xE0000000#32) =
      .refused (.unlistedCoprocessorRegister 31#5) ∧
    step (holding 0xD1700141#32 0xE0000000#32 0xE0000000#32 0xE0000000#32) =
      .refused (.unlistedCoprocessorRegister 10#5) ∧
    step (holding 0xD2000C22#32 0xD201DC02#32 0xE0000000#32 0xE0000000#32) = .refused .linkConflict ∧
    step (holding 0xD201DC02#32 0xD2000C22#32 0xE0000000#32 0xE0000000#32) = .refused .linkConflict ∧
    step (holding 0xD1400000#32 0xD2000C22#32 0xE0000000#32 0xE0000000#32) = .refused .linkConflict := by
  refine ⟨rfl, rfl, rfl, rfl, rfl⟩

/-- OperandForms: amounts at the ends of each case. -/
theorem test_witness_OperandForms :
    (shift 0x80000001#32 .asr 31).toInt = -1 ∧ (shift 0x80000001#32 .asr 32).toInt = -1 ∧
    (shift 0x80000001#32 .lsl 31) = 0x80000000#32 ∧ (shift 0x80000001#32 .lsl 32) = 0#32 ∧
    (shift 0x80000001#32 .ror 32) = 0x80000001#32 := by decide

/-- CallThenReturn, TrapThenEret: an aligned `pc`. -/
theorem test_witness_alignedPc : State.reset.pc &&& 0xF#32 = 0#32 := by decide

/-- LoadResults, StoreResults, StoreConditionalResults: the last byte, half-word and word of the physical address space,
and a page found by a walk. -/
theorem test_witness_dataAccess : ∀ k ∈ [AccessKind.read, .write],
    State.translate (regs3 0x1FFFFFFF#32 0 0) k 1 ((regs3 0x1FFFFFFF#32 0 0).reg 1 + (0#12).signExtend 32) 1 =
      { fill := none, result := .ok 0x1FFFFFFF } ∧
    State.translate (regs3 0x1FFFFFFF#32 0 0) k 1
      (((regs3 0x1FFFFFFF#32 0 0).reg 1 + (0#12).signExtend 32) &&& 0xFFFFFFFE#32) 2 =
        { fill := none, result := .ok 0x1FFFFFFE } ∧
    State.translate (regs3 0x1FFFFFFF#32 0 0) k 1
      (((regs3 0x1FFFFFFF#32 0 0).reg 1 + (0#12).signExtend 32) &&& 0xFFFFFFFC#32) 4 =
        { fill := none, result := .ok 0x1FFFFFFC } ∧
    State.translate paged k 1 0xFFF#32 1 = { fill := some ⟨0, 5, false, false, true⟩, result := .ok 0x5FFF } := by
  decide

/-- StoreConditionalResults: both values of the link bit. -/
theorem test_witness_StoreConditionalResults :
    ({ regs3 0x1FFFFFFF#32 0 0 with link := true } : State).link = true ∧
    State.translate { regs3 0x1FFFFFFF#32 0 0 with link := true } .write 1 (0x1FFFFFFF#32 &&& 0xFFFFFFFC#32) 4 =
      { fill := none, result := .ok 0x1FFFFFFC } ∧
    State.reset.link = false := by decide

/-- DataAccessFaults: page 1 is not present, page 2 not writable, and 2^29 is no physical address. -/
theorem test_witness_DataAccessFaults :
    (paged.translate .read 1 0x1000#32 4).result = .pageFault ∧
    (paged.translate .write 1 0x2000#32 4).result = .pageFault ∧
    (paged.translate .read 1 0x2000#32 4).result = .ok 0x6000 ∧
    ∀ k ∈ [AccessKind.read, .write], ∀ n ∈ [1, 2, 4],
      (State.reset.translate k 1 0x20000000#32 n).result = .invalidPhys := by decide

/-- StoreThenLoad: the first and the last byte of the last word. -/
theorem test_witness_StoreThenLoad :
    State.reset.pflags.getLsbD 1 = false ∧
    ((regs3 0x1FFFFFFC#32 0x1FFFFFFF#32 0).reg 1 + (0#12).signExtend 32 &&& 0xFFFFFFFC#32).toNat + 4 ≤ 2 ^ 29 ∧
    (regs3 0x1FFFFFFC#32 0x1FFFFFFF#32 0).reg 2 + (0#12).signExtend 32 =
      ((regs3 0x1FFFFFFC#32 0x1FFFFFFF#32 0).reg 1 + (0#12).signExtend 32 &&& 0xFFFFFFFC#32) + BitVec.ofNat 32 3 ∧
    (regs3 0x1FFFFFFC#32 0x1FFFFFFF#32 0).reg 1 + (0#12).signExtend 32 =
      ((regs3 0x1FFFFFFC#32 0x1FFFFFFF#32 0).reg 1 + (0#12).signExtend 32 &&& 0xFFFFFFFC#32) + BitVec.ofNat 32 0 := by
  decide

/-- LinkBitWriters: the bit set by LL, and cleared by SC, ERET and a trap. -/
theorem test_witness_LinkBitWriters :
    (next? (exec (.ll always 0xFFE 1 2) data)).map (fun t => t.link) = some true ∧
    (∀ i ∈ [Instr.sc always 0 3 2, .eret always, .syscall always],
      (next? (exec i { armed data with link := true })).map (fun t => t.link) = some false) := by decide

/-- PageWalk has no hypotheses: each of its cases is met. -/
theorem test_witness_PageWalk :
    paged.walk 0#32 = .entry ⟨0, 5, false, false, true⟩ ∧ paged.walk 0x1000#32 = .pageFault ∧
    paged.walk 0x400000#32 = .pageFault ∧ State.walk { paged with ptb := 0x20000000#32 } 0#32 = .invalidPhys := by
  decide

/-- WalkedTranslation: each result of the walk, K in user mode, a write with W clear, and an access at the end of its
page. -/
theorem test_witness_WalkedTranslation :
    paged.pflags.getLsbD 1 = true ∧ paged.itlb = [] ∧ paged.dtlb = [] ∧ (0xFFC#32).toNat % 4096 + 4 ≤ 4096 ∧
    paged.walk 0x1000#32 = .pageFault ∧ State.walk { paged with ptb := 0x20000000#32 } 0#32 = .invalidPhys ∧
    paged.walk 0x3FFC#32 = .entry ⟨3, 7, false, true, true⟩ ∧
    paged.walk 0x2FFC#32 = .entry ⟨2, 6, false, false, false⟩ := by decide

/-- KernelPagesClosedToUser: page 3, walked and cached. -/
theorem test_witness_KernelPagesClosedToUser :
    State.walk { paged with mode := .user, dtlb := [⟨3, 7, false, true, true⟩] } 0x3000#32 =
      .entry ⟨3, 7, false, true, true⟩ ∧
    (⟨3, 7, false, true, true⟩ : TlbEntry).vpn = (0x3000#32).extractLsb' 12 20 := by decide

/-- EretResult, MfcResults, MtcResults, UnlistedRegisterRefused: kernel mode; PrivilegedInUserMode: user mode. -/
theorem test_witness_modes :
    State.reset.mode = .kernel ∧ user.mode = .user ∧ user.runs always ∧
    ∀ n ∈ [10#5, 15#5, 20#5, 31#5], 10 ≤ n.toNat ∧ n.toNat ≤ 15 ∨ 20 ≤ n.toNat := by
  unfold State.runs
  decide

/-- DivideResults: the least and the greatest divisor, and 0. -/
theorem test_witness_DivideResults :
    ((regs3 0 0xFFFFFFFE#32 1#32).reg 3 ≠ 0#32 ∧
      (0xFFFFFFFE#32).toNat = (0xFFFFFFFE#32).toNat * ((regs3 0 0xFFFFFFFE#32 1#32).reg 3).toNat + (0#32).toNat ∧
      (0#32).toNat < ((regs3 0 0xFFFFFFFE#32 1#32).reg 3).toNat) ∧
    ((regs3 0 0xFFFFFFFE#32 0xFFFFFFFF#32).reg 3 ≠ 0#32 ∧
      (0xFFFFFFFE#32).toNat =
        (0#32).toNat * ((regs3 0 0xFFFFFFFE#32 0xFFFFFFFF#32).reg 3).toNat + (0xFFFFFFFE#32).toNat ∧
      (0xFFFFFFFE#32).toNat < ((regs3 0 0xFFFFFFFE#32 0xFFFFFFFF#32).reg 3).toNat) ∧
    (regs3 0 7 0).reg 3 = 0#32 := by decide

/-- FlushResults: an address that translates, one that page-faults, and one whose walk leaves the address space. -/
theorem test_witness_FlushResults :
    State.translatePage (regs3 0x1FFFFFFF#32 0 0) .read 1 ((regs3 0x1FFFFFFF#32 0 0).reg 1) =
      { fill := none, result := .ok 0x1FFFFFFF } ∧
    (paged.setReg 1 0x1000#32).translatePage .read 1 ((paged.setReg 1 0x1000#32).reg 1) =
      { fill := none, result := .pageFault } ∧
    State.translatePage { paged with ptb := 0x20000000#32 } .read 1 0#32 = { fill := none, result := .invalidPhys } := by
  decide

/-- FlushForcesWalk. -/
theorem test_witness_FlushForcesWalk :
    paged.pflags.getLsbD 1 = true ∧ (0xFFF#32).extractLsb' 12 20 = (paged.reg 1).extractLsb' 12 20 ∧
    paged.walk 0xFFF#32 = .entry ⟨0, 5, false, false, true⟩ := by decide

/-- FetchCoherence: the last byte of the address space, with empty caches. -/
theorem test_witness_FetchCoherence :
    State.reset.pflags.getLsbD 1 = false ∧
    ((regs3 0x1FFFFFFF#32 0 0).reg 1 + (0#12).signExtend 32).toNat < 2 ^ 29 ∧
    (regs3 0x1FFFFFFF#32 0 0).l1i = [] ∧ (regs3 0x1FFFFFFF#32 0 0).l2 = [] ∧
    0x1FFFFFFE / 2 * Size.half.bytes / 4 = ((regs3 0x1FFFFFFF#32 0 0).reg 1).toNat / 4 := by
  decide

/-- DmaCoherence: the last word of the address space, held and not held, and a FLUSH DATA of it. -/
theorem test_witness_DmaCoherence : ∀ held ∈ [true, false],
    ({ regs3 0x1FFFFFFC#32 0 0 with inputs := [⟨0#4, none, [.write ⟨0x7FFFFFF, .word, 5#32, held⟩]⟩] } : State).inputs =
      ⟨0#4, none, [.write ⟨0x7FFFFFF, .word, 5#32, held⟩]⟩ :: [] ∧
    0x7FFFFFF * Size.word.bytes + Size.word.bytes ≤ 2 ^ 29 ∧ State.reset.l2 = [] ∧
    ((regs3 0x1FFFFFFC#32 0 0).reg 1).toNat = 0x7FFFFFF * Size.word.bytes ∧
    (regs3 0x1FFFFFFC#32 0 0).unwritten 0x1FFFFFFC = false ∧ State.reset.pflags.getLsbD 1 = false := by
  decide

/-- StepRunsInstruction: a fetched Short word, and a Long word with its operand. -/
theorem test_witness_StepRunsInstruction :
    (holding 0xC0140022#32 0xE0000000#32 0xE0000000#32 0xE0000000#32).Fetches
      ⟨0xC0140022#32, 0xE0000000#32, 0xE0000000#32, 0xE0000000#32⟩ none ∧
    decodeBytes (packetBytes ⟨0xC0140022#32, 0xE0000000#32, 0xE0000000#32, 0xE0000000#32⟩) =
      .ok (.addShort always 5 0 1 2, packetBytes ⟨0xC0140022#32, 0xE0000000#32, 0xE0000000#32, 0xE0000000#32⟩ |>.drop 4) ∧
    neverExecuted 0xE0000000#32 ∧
    (holding 0xD0000064#32 0xDEADBEEF#32 0xE0000000#32 0xE0000000#32).Fetches
      ⟨0xD0000064#32, 0xDEADBEEF#32, 0xE0000000#32, 0xE0000000#32⟩ none ∧
    (Instr.addLong always 0xDEADBEEF 3 4).isLong = true := by
  refine ⟨⟨rfl, by decide, 0x1000, by decide, by decide⟩, by decide, ?_,
    ⟨rfl, by decide, 0x1000, by decide, by decide⟩, by decide⟩
  unfold neverExecuted
  decide

/-- StepRunsEncodedPacket: the empty packet and a full one. -/
theorem test_witness_StepRunsEncodedPacket :
    wellFormedPacket [] = true ∧
    (holding 0xE0000000#32 0xE0000000#32 0xE0000000#32 0xE0000000#32).Fetches (wordsOfList []) none ∧
    wellFormedPacket [.addLong always 0xDEADBEEF 3 4, .movLong always 7 1] = true ∧
    (holding 0xD0000064#32 0xDEADBEEF#32 0xD0002020#32 7#32).Fetches
      (wordsOfList [.addLong always 0xDEADBEEF 3 4, .movLong always 7 1]) none := by
  refine ⟨by decide, ⟨rfl, by decide, 0x1000, by decide, by decide⟩, by decide,
    ⟨rfl, by decide, 0x1000, by decide, by decide⟩⟩

/-- FetchFaults: a packet in a page that is not present, and one past the address space. -/
theorem test_witness_FetchFaults :
    (∀ s ∈ [{ armed paged with pc := 0x1000#32 }, { armed State.reset with pc := 0x20000000#32 }],
      s.interrupt = none ∧ s.pc &&& 0xF#32 = 0#32 ∧ s.ehaWritten = true) ∧
    (State.arrived { armed paged with pc := 0x1000#32 }).translate .fetch 0 0x1000#32 16 =
      { fill := none, result := .pageFault } ∧
    (State.arrived { armed State.reset with pc := 0x20000000#32 }).translate .fetch 0 0x20000000#32 16 =
      { fill := none, result := .invalidPhys } := by decide

/-- UnassignedWordTraps: ALU opcode 1111 in slots 0 to 2, after a Long form with its operand in slot 1, and a Long form
in slot 3. -/
theorem test_witness_UnassignedWordTraps :
    (armed (holding 0xD0000064#32 0xDEADBEEF#32 0xC0003C00#32 0xD0000064#32)).Fetches
      ⟨0xD0000064#32, 0xDEADBEEF#32, 0xC0003C00#32, 0xD0000064#32⟩ none ∧
    decodeWord 0xD0000064#32 (some 0xDEADBEEF#32) = .ok (.addLong always 0xDEADBEEF 3 4) ∧
    slotWord ⟨0xD0000064#32, 0xDEADBEEF#32, 0xC0003C00#32, 0xD0000064#32⟩ 1 = none ∧
    slotWord ⟨0xD0000064#32, 0xDEADBEEF#32, 0xC0003C00#32, 0xD0000064#32⟩ 2 = some (0xC0003C00#32, some 0xD0000064#32) ∧
    slotWord ⟨0xD0000064#32, 0xDEADBEEF#32, 0xC0003C00#32, 0xD0000064#32⟩ 3 = some (0xD0000064#32, none) ∧
    (∀ next, decodeWord 0xC0003C00#32 next = .error .unassignedAluOpcode) ∧
    State.reset.runs (predField 0xC0003C00#32) ∧
    slotWord ⟨0xC0003C00#32, 0xC0003C00#32, 0xC0003C00#32, 0xE0000000#32⟩ 0 = some (0xC0003C00#32, some 0xC0003C00#32) ∧
    slotWord ⟨0xC0003C00#32, 0xC0003C00#32, 0xC0003C00#32, 0xE0000000#32⟩ 1 =
      some (0xC0003C00#32, some 0xC0003C00#32) := by
  refine ⟨⟨rfl, by decide, 0x1000, by decide, by decide⟩, by decide, by decide, by decide, by decide,
    fun next => by cases next <;> rfl, ?_, by decide, by decide⟩
  unfold State.runs
  decide

/-- UnassignedWordTraps: a step that reports both lanes. -/
theorem test_step_unassignedLanes :
    (next? (step (armed (holding 0xD0000064#32 0xDEADBEEF#32 0xC0003C00#32 0xD0000064#32)))).map
      (fun t => (t.ecs, t.reg 3)) = some (⟨0#32, 0#32, 2#32, 2#32⟩, 0#32) := by decide

/-- MixedPacket, LaneOneFault, LinkConflictRefused: accesses of slots 0 and 1, with paging off and on. -/
theorem test_witness_packetAccesses :
    State.reset.translate .read 2 ((State.reset.reg 2 + (0#12).signExtend 32) &&& 0xFFFFFFFC#32) 4 =
      { fill := none, result := .ok 0 } ∧
    paged.translate .read 2 ((paged.reg 2 + (0#12).signExtend 32) &&& 0xFFFFFFFC#32) 4 =
      { fill := some ⟨0, 5, false, false, true⟩, result := .ok 0x5000 } ∧
    ((paged.setReg 2 0x1003#32).translate .read 2
      (((paged.setReg 2 0x1003#32).reg 2 + (0#12).signExtend 32) &&& 0xFFFFFFFC#32) 4).result = .pageFault ∧
    (∀ port ∈ [1, 2], ∀ k ∈ [AccessKind.read, .write],
      (State.reset.translate k port ((State.reset.reg 2 + (0#12).signExtend 32) &&& 0xFFFFFFFC#32) 4).result = .ok 0) ∧
    State.reset.link = false ∧ State.reset.mode = .kernel := by decide

/-- LinkConflictRefused: each of the three packets, the link bit set and clear. -/
theorem test_packet_linkConflict : ∀ link ∈ [true, false],
    ∀ is ∈ [(⟨some (.ll always 0 1 2), some (.sc always 0 3 2), none, none⟩ : Packet (Option Instr)),
        ⟨some (.sc always 0 3 2), some (.ll always 0 1 2), none, none⟩,
        ⟨some (.eret always), some (.ll always 0 1 2), none, none⟩],
      runInstrs is { State.reset with link := link } = .refused .linkConflict := by
  intro link _ is his
  simp only [List.mem_cons, List.not_mem_nil, or_false] at his
  cases link <;> rcases his with rfl | rfl | rfl <;> rfl

/-- MixedPacket with paging on: the data TLB takes the entry. -/
theorem test_packet_mixed :
    (next? (runInstrs ⟨some (.blImm always 1), some (.lw always 0 1 2), some (.addReg always 0 .lsl 5 3 4),
      some (.cmpeqReg always 0 .lsl 7 0 6)⟩ paged)).map (fun t => (t.pc, t.reg 1, t.reg 31, t.p0, t.dtlb)) =
        some (0x1010#32, 0x11223344#32, 0x1000#32, true, [⟨0, 5, false, false, true⟩]) := by decide

/-- Two live writers of R1, in slots 0 and 3. -/
def twice : Packet (Option Instr) := ⟨some (.mfhi always 1), none, none, some (.movShort always 1 0 1)⟩

theorem wellFormedSlots_of (is : Packet (Option Instr))
    (h : ∀ x ∈ is.toList, x.all Instr.wellFormed = true) : WellFormedSlots is := by
  have key : ∀ n, is.get n ∈ is.toList := by
    intro n
    fin_cases n <;> simp [Packet.get, Packet.toList]
  intro n i hi
  simpa [hi] using h _ (key n)

theorem test_witness_DuplicateDestinationTraps :
    WellFormedSlots twice ∧ twice.get 0 = some (.mfhi always 1) ∧ twice.get 3 = some (.movShort always 1 0 1) ∧
    LiveIn State.reset 0 (.mfhi always 1) ∧ LiveIn State.reset 3 (.movShort always 1 0 1) ∧
    (armed State.reset).ehaWritten = true ∧
    (Instr.mfhi always 1).destination = some (.reg 1) ∧ (Instr.movShort always 1 0 1).destination = some (.reg 1) := by
  refine ⟨wellFormedSlots_of _ (by decide), rfl, rfl, ?_, ?_, rfl, rfl, rfl⟩ <;>
    · unfold LiveIn State.runs
      decide

/-- DuplicateDestinationTraps: R127's examples, BL beside a writer of R31, SC beside a compare into P0, and two compares
into P3, which do not collide. -/
theorem test_packet_destinations :
    (next? (runInstrs ⟨some (.blImm always 1), some (.movShort always 0 0 31), none, none⟩ (armed State.reset))).map
      (fun t => t.ecs) = some ⟨3#32, 3#32, 0#32, 0#32⟩ ∧
    (next? (runInstrs ⟨some (.sc always 0 1 2), none, some (.cmpeqReg always 0 .lsl 3 0 4), none⟩
      (armed State.reset))).map (fun t => t.ecs) = some ⟨3#32, 0#32, 3#32, 0#32⟩ ∧
    (next? (runInstrs ⟨none, none, some (.cmpeqReg always 0 .lsl 3 3 4), some (.cmpeqReg always 0 .lsl 3 3 4)⟩
      (armed State.reset))).map (fun t => t.pc) = some 0x1010#32 := by decide

/-- ExceptionCancelsPacket: for each clause a packet, with other slots that write, and the state in which it traps: a
misplaced load, ERET in user mode, SYSCALL, BREAK, DIV by 0 beside a writer of another register, FLUSH of a page that is
not present, and loads in both lanes that page-fault and that leave the address space. -/
theorem test_witness_ExceptionCancelsPacket :
    let mov : Option Instr := some (.movShort always 1 0 4)
    let fault : State := armed ((paged.setReg 2 0x1003#32).setReg 3 0)
    let beyond : State := armed (regs3 0 0x20000000#32 0)
    (∀ c ∈ [((⟨none, none, some (.lw always 0 1 2), mov⟩ : Packet (Option Instr)), fault, (⟨0, 0, 2#32, 0⟩ : Packet Word)),
        (⟨some (.eret always), none, none, mov⟩, user, ⟨2#32, 0, 0, 0⟩),
        (⟨some (.syscall always), none, none, mov⟩, fault, ⟨8#32, 0, 0, 0⟩),
        (⟨some (.breakpoint always), none, none, mov⟩, fault, ⟨9#32, 0, 0, 0⟩),
        (⟨some (.div always 3 1 2), none, none, mov⟩, fault, ⟨6#32, 0, 0, 0⟩),
        (⟨some (.flush always .inst 2), none, none, mov⟩, fault, ⟨4#32, 0, 0, 0⟩),
        (⟨some (.lw always 0 1 2), some (.sb always 0 1 2), none, mov⟩, fault, ⟨4#32, 4#32, 0, 0⟩),
        (⟨some (.lh always 0 1 2), some (.sw always 0 1 2), none, mov⟩, beyond, ⟨5#32, 5#32, 0, 0⟩)],
      c.1.toList.all (fun x => x.all Instr.wellFormed) = true ∧
        (next? (runInstrs c.1 c.2.1)).map (fun t => (t.ecs, t.reg 4)) = some (c.2.2, 0#32)) ∧
    (Instr.movShort always 1 0 4).destination = some (.reg 4) ∧ (Instr.lw always 0 1 2).destination = some (.reg 1) ∧
    (next? (runInstrs ⟨some (.lw always 0 1 2), some (.sb always 1 1 2), none, mov⟩ fault)).map
      (fun t => (t.ea0, t.ea1)) = some (0x1003#32, 0x1004#32) := by decide

/-- ExceptionCancelsPacket: the premises of its last clause on lanes 0 and 1, for code 4 and for code 5. -/
theorem test_witness_dataAccessClause :
    let is : Packet (Option Instr) :=
      ⟨some (.lw always 0 1 2), some (.sb always 1 1 2), none, some (.movShort always 1 0 4)⟩
    ∀ c ∈ [(armed (paged.setReg 2 0x1003#32), 0x1003#32, Translated.pageFault),
        (armed (regs3 0 0x20000003#32 0), 0x20000003#32, .invalidPhys)],
      LiveIn c.1 0 (.lw always 0 1 2) ∧ LiveIn c.1 1 (.sb always 1 1 2) ∧
      dataAccessOf (.lw always 0 1 2) c.1 = some ⟨.read, c.2.1, c.2.1 - 3#32, 4⟩ ∧
      dataAccessOf (.sb always 1 1 2) c.1 = some ⟨.write, c.2.1 + 1#32, c.2.1 + 1#32, 1⟩ ∧
      NoOtherWriter c.1 is 0 ∧ NoOtherWriter c.1 is 1 ∧
      (c.1.translate .read 1 (c.2.1 - 3#32) 4).result = c.2.2 ∧
      (c.1.translate .write 2 (c.2.1 + 1#32) 1).result = c.2.2 := by
  intro is c hc
  have alone0 : NoOtherWriter c.1 is 0 := by
    intro i j m hi hm hj _ _
    fin_cases m <;> cases hi <;> cases hj
    · exact absurd rfl hm
    all_goals decide
  have alone1 : NoOtherWriter c.1 is 1 := by
    intro i j m hi _ _ _ hd
    cases hi
    exact absurd rfl hd
  simp only [List.mem_cons, List.not_mem_nil, or_false] at hc
  rcases hc with rfl | rfl
  all_goals
    refine ⟨?_, ?_, rfl, rfl, alone0, alone1, by decide, by decide⟩ <;>
      · unfold LiveIn State.runs
        decide

/-- PacketTrapsOrCommits: a packet that traps and one that commits. -/
theorem test_witness_PacketTrapsOrCommits :
    (∃ t, runInstrs twice (armed State.reset) = .next t) ∧
    ∃ t, runInstrs ⟨some (.mtc always 2 1), none, none, some (.movShort always 1 0 1)⟩ State.reset = .next t :=
  ⟨next_of_isSome (by decide), next_of_isSome (by decide)⟩

/-- OverlappingStores: the last word of the address space. -/
theorem test_witness_OverlappingStores :
    State.reset.pflags.getLsbD 1 = false ∧
    (((regs3 0x1FFFFFFF#32 0 0).reg 1 + (0#12).signExtend 32) &&& 0xFFFFFFFC#32).toNat + 4 ≤ 2 ^ 29 := by decide

/-- InterruptTaken: each source. -/
theorem test_witness_InterruptTaken :
    ∀ c ∈ [(1#4, IrqSource.timer), (2#4, .usb), (4#4, .framebuffer), (8#4, .sdCard)],
      State.interrupt { user with inputs := [⟨c.1, some c.2, []⟩] } = some c.2 := by decide

/-- InterruptsMasked: disabled. -/
theorem test_witness_InterruptsMasked : State.reset.pflags.getLsbD 0 = false := by decide

/-- KernelModeLeftOnlyByEret: ERET after reset goes to user mode at address 0. -/
theorem test_witness_KernelModeLeftOnlyByEret :
    ∃ t, step (holding 0xD1400000#32 0xE0000000#32 0xE0000000#32 0xE0000000#32) = .next t ∧ t.mode = .user := by
  obtain ⟨t, ht⟩ := next_of_isSome
    (r := step (holding 0xD1400000#32 0xE0000000#32 0xE0000000#32 0xE0000000#32)) (by decide)
  refine ⟨t, ht, ?_⟩
  have : (next? (step (holding 0xD1400000#32 0xE0000000#32 0xE0000000#32 0xE0000000#32))).map (fun t => t.mode) =
      some .user := by decide
  rw [ht] at this
  exact Option.some.inj this

/-- UserModeConfined: an ADD that stays in user mode and a SYSCALL that traps. -/
theorem test_witness_UserModeConfined :
    (next? (step ({ user with pflags := 0#32 }.loadPacket ⟨0xC0140022#32, 0xE0000000#32, 0xE0000000#32,
      0xE0000000#32⟩))).map (fun t => t.mode) = some .user ∧
    (next? (step (user.loadPacket ⟨0xD1200000#32, 0xE0000000#32, 0xE0000000#32, 0xE0000000#32⟩))).map
      (fun t => t.mode) = some .kernel := by decide

end Sys2Proof.Tests
end

/-! PROOF. The statements about the state, the invariant and the stops (10_state). First what every packet and every
step leaves, then the statements, each a short use of that. -/

namespace Sys2Proof.Machine

-- Lanes with their instructions -------------------------------------------------------------------------------------

/-- Every operation of the packet is that of an instruction which `src` names for its slot. -/
def Holds (p : Packet Slot) (src : Lane → Instr → Prop) : Prop :=
  ∀ n o, p.get n = .op o → ∃ i, src n i ∧ o = opOf i

/-- Slot `n` of the words `w` is no operand and decodes to `i`. -/
def DecodesIn (w : Packet Word) (n : Lane) (i : Instr) : Prop :=
  ∃ v next, slotWord w n = some (v, next) ∧ decodeWord v next = .ok i

/-- The pending writes of every lane of a packet. -/
def laneWrites (p : Packet Slot) (s : State) : Packet Writes := (laneEffects p s).mapLanes fun _ e => e.pending

theorem decodesIn_zero {w : Packet Word} {i : Instr} (h : DecodesIn w 0 i) : decodeWord w.s0 (some w.s1) = .ok i := by
  obtain ⟨v, next, hv, hd⟩ := h
  cases hv
  exact hd

theorem decodesIn_one {w : Packet Word} {i : Instr} (h : DecodesIn w 1 i) : decodeWord w.s1 (some w.s2) = .ok i := by
  obtain ⟨v, next, hv, hd⟩ := h
  simp only [slotWord] at hv
  split at hv
  · cases hv
  · cases hv
    exact hd

/-- The slots of a decoded packet are the words that are no operands (40_packet_execution R123). -/
theorem decodePacket_get (w : Packet Word) (n : Lane) :
    (decodePacket w).get n = match slotWord w n with
      | some (v, next) => slotOf v next
      | none => .operand := by
  have long : ∀ v : Word, decide (v.extractLsb' 14 15 = 0b100000000000000#15) = isLongWord v := fun _ => rfl
  fin_cases n <;> simp only [Packet.get, decodePacket, slotWord, long]
  · cases isLongWord w.s0 <;> rfl
  · cases isLongWord w.s0 <;> cases isLongWord w.s1 <;> rfl
  · cases isLongWord w.s0 <;> cases isLongWord w.s1 <;> cases isLongWord w.s2 <;> rfl

theorem holds_decodePacket (w : Packet Word) : Holds (decodePacket w) (DecodesIn w) := by
  intro n o h
  rw [decodePacket_get] at h
  split at h
  · next v next hv =>
    obtain ⟨i, hi, ho⟩ := slotOf_fromInstr h
    exact ⟨i, ⟨v, next, hv, hi⟩, ho⟩
  · cases h

theorem holds_slotFor (is : Packet (Option Instr)) :
    Holds (is.mapLanes fun _ x => slotFor x) fun n i => is.get n = some i := by
  intro n o h
  have hs : slotFor (is.get n) = .op o := by
    rw [← h]
    fin_cases n <;> rfl
  cases hi : is.get n with
  | none => rw [hi] at hs; cases hs
  | some i => rw [hi] at hs; cases hs; exact ⟨i, hi, rfl⟩

/-- Control instructions are live in slot 0 only (40_packet_execution R126). -/
theorem liveIn_control {s : State} {n : Lane} {i : Instr} (h : LiveIn s n i) (hk : i.kind = .control) : n = 0 := by
  obtain ⟨_, hf, _⟩ := h
  rw [hk] at hf
  exact Fin.ext (by simpa [Kind.fits] using hf)

/-- Memory instructions are live in slots 0 and 1 only (40_packet_execution R126). -/
theorem liveIn_memory {s : State} {n : Lane} {i : Instr} (h : LiveIn s n i) (hk : i.kind = .memory) :
    n = 0 ∨ n = 1 := by
  obtain ⟨_, hf, _⟩ := h
  rw [hk] at hf
  have hn : n.val ≤ 1 := by simpa [Kind.fits] using hf
  exact (Nat.le_one_iff_eq_zero_or_eq_one.mp hn).imp (Fin.ext ·) (Fin.ext ·)

section
variable {p : Packet Slot} {src : Lane → Instr → Prop} {s : State} (hp : Holds p src) (n : Lane)
include hp

/-- What one lane comes to: nothing, an exception of the issue checks, or the outcome of its live instruction. -/
theorem lane_live_cases :
    (laneEffects p s).get n = .writes {} ∨
    (∃ x, (laneEffects p s).get n = .raises x none) ∨
    ∃ i, src n i ∧ LiveIn s n i ∧ (laneEffects p s).get n = (opOf i).effect n s := by
  rcases lane_cases p s n with h | h | ⟨o, ho, h1, h2, h3, h4⟩
  · exact .inl h
  · exact .inr (.inl h)
  · obtain ⟨i, hi, rfl⟩ := hp n o ho
    refine .inr (.inr ⟨i, hi, ⟨(runs_iff _ _).2 (by simpa using h1), ?_, by simpa using h3⟩, h4⟩)
    rw [← mayIssueIn_eq_fits]
    simpa using h2

/-- What one lane pends: nothing, or the writes of its live instruction. -/
theorem laneWrites_cases :
    (laneWrites p s).get n = {} ∨
    ∃ i, src n i ∧ LiveIn s n i ∧ WritesOf i s ((laneWrites p s).get n) := by
  rw [laneWrites, pending_get]
  rcases lane_live_cases hp n with h | ⟨x, h⟩ | ⟨i, hi, hl, h⟩
  · exact .inl (by rw [h]; rfl)
  · exact .inl (by rw [h]; rfl)
  · rw [h]
    cases he : (opOf i).effect n s with
    | writes w => exact .inr ⟨i, hi, hl, effect_writes he⟩
    | raises x ea => exact .inl rfl
    | refuses r => exact .inl rfl

/-- Only slot 0 changes control state (40_packet_execution R126). -/
theorem laneWrites_control (h : n ≠ 0) :
    ((laneWrites p s).get n).ret = none ∧ ((laneWrites p s).get n).cp = none := by
  rcases laneWrites_cases hp n with h0 | ⟨i, _, hl, hw⟩
  · rw [h0]
    exact ⟨rfl, rfl⟩
  · have hk : i.kind ≠ .control := fun hk => h (liveIn_control hl hk)
    constructor
    · by_contra hr
      exact hk (hw.control (.inr (.inr (.inr (.inl hr))))).1
    · by_contra hc
      exact hk (hw.control (.inr (.inr (.inr (.inr hc))))).1

/-- In user mode no lane changes control state (45_control R237). -/
theorem laneWrites_user (hm : s.mode = .user) :
    ((laneWrites p s).get n).ret = none ∧ ((laneWrites p s).get n).cp = none := by
  rcases laneWrites_cases hp n with h0 | ⟨i, _, ⟨_, _, hk⟩, hw⟩
  · rw [h0]
    exact ⟨rfl, rfl⟩
  · have unprivileged : i.privileged ≠ true := by
      intro hi
      rw [hk hi] at hm
      cases hm
    constructor
    · refine Option.eq_none_iff_forall_ne_some.mpr fun e he => unprivileged ?_
      obtain ⟨⟨q, rfl⟩, _⟩ := hw.ret e he
      rfl
    · refine Option.eq_none_iff_forall_ne_some.mpr fun ⟨c, v⟩ he => unprivileged ?_
      obtain ⟨q, k, rs, rfl, _⟩ := hw.cp c v he
      rfl

end

-- Commit ------------------------------------------------------------------------------------------------------------

/-- What the writes of each lane keep, the writes of all lanes keep, in whatever order. -/
theorem commitOrder_keeps {P : State → Prop} {ws : Packet Writes} (h : ∀ n t, P t → P (t.apply (ws.get n))) (draw : Nat)
    {t : State} (ht : P t) : P ((commitOrder ws draw).foldl State.apply t) :=
  List.foldlRecOn _ _ ht fun b hb w hw => by
    obtain ⟨n, rfl⟩ := (mem_commitOrder ws draw w).1 hw
    exact h n b hb

/-- The mode after a packet: that of the return from a trap in slot 0, if there is one. -/
theorem commit_mode {ws : Packet Writes} (h : ∀ n, n ≠ 0 → (ws.get n).ret = none) (s : State) :
    (commit ws s).mode = match ws.s0.ret with
      | none => s.mode
      | some epc => modeOfBit (epc.getLsbD 0) := by
  have h1 : ws.s1.ret = none := h 1 (by decide)
  have h2 : ws.s2.ret = none := h 2 (by decide)
  have h3 : ws.s3.ret = none := h 3 (by decide)
  unfold commit commitOrder
  cases h0 : ws.s0.ret <;> split <;> simp [apply_mode, h0, h1, h2, h3]

@[simp] theorem commit_pc (ws : Packet Writes) (s : State) : (commit ws s).pc = ws.s0.target.getD (s.pc + 16#32) := rfl

/-- Without an MTC and an ERET no coprocessor register changes. -/
theorem commit_readCp {ws : Packet Writes} (h : ∀ n, (ws.get n).ret = none ∧ (ws.get n).cp = none) (s : State)
    (c : CpReg) : (commit ws s).readCp c = s.readCp c :=
  commitOrder_keeps (P := fun t => t.readCp c = s.readCp c)
    (fun n t ht => (apply_readCp t _ (h n).2 (h n).1 c).trans ht) s.draw (by cases c <;> rfl)

-- Steps that go on --------------------------------------------------------------------------------------------------

/-- `t` is `s` after a trap entry, of an interrupt or an exception: all of `t` but EC0 to EC3, EA0, EA1, the inputs and
the counter (60_exceptions R270). -/
structure TrapEntered (s t : State) : Prop where
  mode : t.mode = .kernel
  pc : t.pc = packetAddress s.eha
  epc : t.epc = s.contextWord
  pflags : t.pflags = s.pflags &&& 0xFFFFFFFE#32
  link : t.link = false
  ptb : t.ptb = s.ptb
  eha : t.eha = s.eha
  ehaWritten : t.ehaWritten = s.ehaWritten
  pointers : t.sp0 = s.sp0 ∧ t.sp1 = s.sp1 ∧ t.sp2 = s.sp2 ∧ t.sp3 = s.sp3
  regs : t.regs = s.regs
  preds : t.p0 = s.p0 ∧ t.p1 = s.p1 ∧ t.p2 = s.p2
  hi : t.hi = s.hi
  mem : t.mem = s.arrived.mem
  itlb : ∃ fill, t.itlb = addEntry s.arrived.itlb fill
  dtlb : t.dtlb = s.arrived.dtlb
  l2 : t.l2 = s.arrived.l2
  l1i : t.l1i = s.arrived.l1i

@[simp] theorem arrived_contextWord (s : State) : s.arrived.contextWord = s.contextWord := by simp [State.contextWord]

theorem trapEntered_takeInterrupt (s : State) (src : IrqSource) : TrapEntered s (s.arrived.takeInterrupt src) where
  mode := rfl
  pc := by simp
  epc := by simp [savedContext_eq]
  pflags := by simp [withBit0_false]
  link := rfl
  ptb := by simp
  eha := by simp
  ehaWritten := by simp
  pointers := by simp
  regs := by simp
  preds := by simp
  hi := by simp
  mem := rfl
  itlb := ⟨none, rfl⟩
  dtlb := rfl
  l2 := rfl
  l1i := rfl

theorem trapEntered_trapped (s : State) (fill : Option TlbEntry) (ec : Packet Word) (ea0 ea1 : Word) :
    TrapEntered s ((s.fetched fill).trapped ec ea0 ea1) where
  mode := rfl
  pc := congrArg packetAddress (arrived_eha s)
  epc := arrived_contextWord s
  pflags := congrArg (· &&& 0xFFFFFFFE#32) (arrived_pflags s)
  link := rfl
  ptb := arrived_ptb s
  eha := arrived_eha s
  ehaWritten := arrived_ehaWritten s
  pointers := ⟨arrived_sp0 s, arrived_sp1 s, arrived_sp2 s, arrived_sp3 s⟩
  regs := arrived_regs s
  preds := ⟨arrived_p0 s, arrived_p1 s, arrived_p2 s⟩
  hi := arrived_hi s
  mem := rfl
  itlb := ⟨fill, rfl⟩
  dtlb := rfl
  l2 := rfl
  l1i := rfl

theorem trapTo_ne_refused (s t : State) (r : Refusal) : s.trapTo t ≠ .refused r := by
  rcases trapTo_cases s t with ⟨_, h⟩ | ⟨_, h⟩ <;> rw [h] <;> nofun

theorem trapTo_ne_misaligned (s t : State) : s.trapTo t ≠ .fault .misalignedPc := by
  rcases trapTo_cases s t with ⟨_, h⟩ | ⟨_, h⟩ <;> rw [h] <;> nofun

/-- A packet that goes on has trapped, after an MTC of EHA, or committed the writes of all lanes. -/
theorem runPacket_next {p : Packet Slot} {s t : State} (h : runPacket p s = .next t) :
    (s.ehaWritten = true ∧ (∃ n x ea, (laneEffects p s).get n = .raises x ea) ∧
      ∃ ea0 ea1, t = s.trapped ((laneEffects p s).mapLanes fun _ e => e.report.ec) ea0 ea1) ∨
    t = commit (laneWrites p s) s := by
  rcases runPacket_cases p s with ⟨r, n, h1, _⟩ | ⟨hx, _, ea0, ea1, h1⟩ | ⟨_, _, h1⟩ | ⟨_, _, h1⟩
  all_goals rw [h1] at h
  · cases h
  · obtain ⟨hw, rfl⟩ := trapTo_eq_next h
    exact .inl ⟨hw, hx, ea0, ea1, rfl⟩
  · cases h
  · cases h
    exact .inr rfl

/-- A step that goes on is a trap, after an MTC of EHA, or the commit of the packet it fetches. -/
theorem step_next {s t : State} (h : step s = .next t) :
    (s.ehaWritten = true ∧ TrapEntered s t) ∨
    ∃ w fill, s.Fetches w fill ∧ t = commit (laneWrites (decodePacket w) (s.fetched fill)) (s.fetched fill) := by
  rcases step_cases s with ⟨src, _, h1⟩ | ⟨_, _, h1⟩ | ⟨_, _, fill, r, code, _, _, h1⟩ | ⟨w, fill, hf, h1⟩
  all_goals rw [h1] at h
  · obtain ⟨hw, rfl⟩ := trapTo_eq_next h
    exact .inl ⟨hw, trapEntered_takeInterrupt s src⟩
  · cases h
  · obtain ⟨hw, rfl⟩ := trapTo_eq_next h
    exact .inl ⟨hw, trapEntered_trapped s fill _ _ _⟩
  · rcases runPacket_next h with ⟨hw, _, ea0, ea1, rfl⟩ | rfl
    · exact .inl ⟨by simpa using hw, trapEntered_trapped s fill _ _ _⟩
    · exact .inr ⟨w, fill, hf, rfl⟩

-- The invariant -----------------------------------------------------------------------------------------------------

/-- Replacing bit 0 of PFLAGS leaves the bits that do not exist alone. -/
theorem withBit0_high (v : Word) (b : Bool) : withBit0 v b &&& 0xFFFFFFFC#32 = v &&& 0xFFFFFFFC#32 := by
  cases b <;> simp [withBit0, put, BitVec.and_or_distrib_right, BitVec.and_assoc]

theorem applyCp_pflags_high {s : State} (h : s.pflags &&& 0xFFFFFFFC#32 = 0#32) (w : Option (CpReg × Word)) :
    (s.applyCp w).pflags &&& 0xFFFFFFFC#32 = 0#32 := by
  rcases w with _ | ⟨c, v⟩
  · exact h
  · cases c
    case pflags => simp [State.applyCp, State.writeCp, pflagsMask, BitVec.and_assoc]
    all_goals exact h

theorem applyRet_pflags_high {s : State} (h : s.pflags &&& 0xFFFFFFFC#32 = 0#32) (w : Option Word) :
    (s.applyRet w).pflags &&& 0xFFFFFFFC#32 = 0#32 := by
  cases w with
  | none => exact h
  | some epc => exact (withBit0_high _ _).trans h

/-- No writes of a lane set a bit of PFLAGS that does not exist (10_state R20). -/
theorem apply_pflags_high {s : State} (h : s.pflags &&& 0xFFFFFFFC#32 = 0#32) (w : Writes) :
    (s.apply w).pflags &&& 0xFFFFFFFC#32 = 0#32 := by
  refine applyRet_pflags_high ?_ _
  simp only [applyFlush_pflags, applyStore_pflags]
  refine applyCp_pflags_high ?_ _
  simpa using h

theorem cached_applyCp {s : State} (h : Cached s) (w : Option (CpReg × Word)) : Cached (s.applyCp w) := by
  rcases w with _ | ⟨c, v⟩
  · exact h
  · cases c
    case ptb =>
      obtain ⟨hm, hi, hd, hl⟩ := h
      exact ⟨hm, hi.sublist (List.filter_sublist.map _), hd.sublist (List.filter_sublist.map _), hl⟩
    all_goals exact h

/-- The writes of a lane keep memory, TLBs and caches well formed, if its store is inside the address space. -/
theorem cached_apply {s : State} (h : Cached s) {w : Writes}
    (hs : ∀ t, w.store = some t → t.pa + t.size.bytes ≤ Config.physBytes) : Cached (s.apply w) := by
  have before : Cached (((((s.applyLoad w.load).applyReg w.reg).applyPred w.pred).applyHi w.hi).applyLink w.link) :=
    cached_of_eq h (by simp) (by simp) (by simp) (by simp)
  have store : ∀ {u : State}, Cached u → Cached (u.applyStore w.store) := by
    intro u hu
    cases ht : w.store with
    | none => exact hu
    | some t => exact cached_storeLE hu (hs t ht)
  have flush : ∀ {u : State}, Cached u → Cached (u.applyFlush w.flush) := by
    intro u hu
    cases w.flush with
    | none => exact hu
    | some f => exact cached_flush hu f
  exact cached_of_eq (flush (store (cached_applyCp before w.cp))) (by simp [State.apply]) (by simp [State.apply])
    (by simp [State.apply]) (by simp [State.apply])

theorem cached_fillDtlb {s : State} (h : Cached s) (ws : Packet Writes) : Cached (s.fillDtlb ws) := by
  obtain ⟨hm, hi, hd, hl⟩ := h
  exact ⟨hm, hi, nodup_addEntry _ _ (nodup_addEntry _ _ (nodup_addEntry _ _ (nodup_addEntry _ _ hd))), hl⟩

theorem cached_fetched {s : State} (h : Cached s) (fill : Option TlbEntry) : Cached (s.fetched fill) := by
  obtain ⟨hm, hi, hd, hl⟩ := cached_arrived h
  exact ⟨hm, nodup_addEntry _ _ hi, hd, hl⟩

theorem inv_fetched {s : State} (h : s.Inv) (fill : Option TlbEntry) : (s.fetched fill).Inv := by
  obtain ⟨hpc, hpf, hc⟩ := (inv_iff s).1 h
  refine (inv_iff _).2 ⟨?_, ?_, cached_fetched hc fill⟩
  · exact (congrArg (· &&& 0xF#32) (arrived_pc s)).trans hpc
  · exact (congrArg (· &&& 0xFFFFFFFC#32) (arrived_pflags s)).trans hpf

/-- A commit keeps the invariant, if the stores are inside the address space and the target is a packet address. -/
theorem inv_commit {s : State} (h : s.Inv) {ws : Packet Writes}
    (hs : ∀ n t, (ws.get n).store = some t → t.pa + t.size.bytes ≤ Config.physBytes)
    (ht : ∀ a, ws.s0.target = some a → a &&& 0xF#32 = 0#32) : (commit ws s).Inv := by
  obtain ⟨hpc, hpf, hc⟩ := (inv_iff s).1 h
  have hw := commitOrder_keeps (P := fun t => t.pflags &&& 0xFFFFFFFC#32 = 0#32 ∧ Cached t)
    (fun n t ⟨hf, hc⟩ => ⟨apply_pflags_high hf _, cached_apply hc (hs n)⟩) s.draw
    (show _ ∧ Cached (s.fillDtlb ws) from ⟨hpf, cached_fillDtlb hc ws⟩)
  refine (inv_iff _).2 ⟨?_, hw.1, hw.2⟩
  rw [commit_pc]
  cases ha : ws.s0.target with
  | none => exact packetAddress_next _ hpc
  | some a => exact ht a ha

/-- A packet of instructions that commits keeps the invariant. -/
theorem inv_commit_laneWrites {p : Packet Slot} {src : Lane → Instr → Prop} (hp : Holds p src) {s : State}
    (h : s.Inv) : (commit (laneWrites p s) s).Inv := by
  refine inv_commit h (fun n t ht => ?_) (fun a ha => ?_)
  · rcases laneWrites_cases (s := s) hp n with h0 | ⟨_, _, _, hw⟩
    · rw [h0] at ht
      cases ht
    · exact hw.store t ht
  · rcases laneWrites_cases (s := s) hp 0 with h0 | ⟨_, _, _, hw⟩
    · exact absurd ((congrArg Writes.target h0).symm.trans ha) nofun
    · exact hw.target a ha ((inv_iff s).1 h).1

/-- A trap keeps the invariant. -/
theorem TrapEntered.inv {s t : State} (ht : TrapEntered s t) (h : s.Inv) : t.Inv := by
  obtain ⟨_, hpf, hc⟩ := (inv_iff s).1 h
  obtain ⟨fill, hi⟩ := ht.itlb
  refine (inv_iff t).2 ⟨?_, ?_, ?_⟩
  · rw [ht.pc]
    exact packetAddress_low _
  · rw [ht.pflags, BitVec.and_assoc]
    simpa [BitVec.and_assoc] using hpf
  · exact cached_of_eq (cached_fetched hc fill) ht.mem hi ht.dtlb ht.l2

/-- Settles O7: a step that goes on is a trap or a commit, and each keeps the invariant. -/
theorem stepKeepsInvariant : Obligations.StepKeepsInvariant := by
  intro s t hs h
  rcases step_next h with ⟨_, ht⟩ | ⟨w, fill, _, rfl⟩
  · exact ht.inv hs
  · exact inv_commit_laneWrites (holds_decodePacket w) (inv_fetched hs fill)

/-- Settles O6: at reset `pc` is RESET_PC, PFLAGS is 0, and memory, TLBs and caches are empty. -/
theorem resetKeepsInvariant : Obligations.ResetKeepsInvariant :=
  (inv_iff State.reset).2 ⟨rfl, rfl, reset_memory_wf, List.nodup_nil, List.nodup_nil, List.nodup_nil, nofun⟩

-- Modes -------------------------------------------------------------------------------------------------------------

/-- Settles O58: only slot 0 can hold the return from a trap that changes the mode. -/
theorem kernelModeLeftOnlyByEret : Obligations.KernelModeLeftOnlyByEret := by
  intro s t hs h ht
  rcases step_next h with ⟨_, htrap⟩ | ⟨w, fill, hf, rfl⟩
  · exact absurd (htrap.mode.symm.trans ht) nofun
  have hp := holds_decodePacket w
  rw [commit_mode fun n hn => (laneWrites_control hp n hn).1] at ht
  cases he : (laneWrites (decodePacket w) (s.fetched fill)).s0.ret with
  | none =>
    rw [he, fetched_mode, hs] at ht
    cases ht
  | some epc =>
    rcases laneWrites_cases (s := s.fetched fill) hp 0 with h0 | ⟨i, hi, ⟨hr, _⟩, hw⟩
    · exact absurd ((congrArg Writes.ret h0).symm.trans he) nofun
    obtain ⟨⟨p, rfl⟩, hepc, htarget⟩ := hw.ret epc he
    rw [fetched_epc] at hepc
    subst hepc
    refine ⟨w, fill, p, hf, decodesIn_zero hi, (fetched_runs s fill p).1 hr, ?_, ?_⟩
    · rw [he] at ht
      cases hb : s.epc.getLsbD 0 with
      | false => rfl
      | true => simp [hb, modeOfBit] at ht
    · rw [commit_pc]
      exact congrArg (fun a : Option Word => a.getD _) htarget

/-- `t` has the mode and the coprocessor registers of `s`. -/
structure SameControl (s t : State) : Prop where
  mode : t.mode = s.mode
  pflags : t.pflags = s.pflags
  ptb : t.ptb = s.ptb
  eha : t.eha = s.eha
  ehaWritten : t.ehaWritten = s.ehaWritten
  epc : t.epc = s.epc
  ecs : t.ecs = s.ecs
  ea0 : t.ea0 = s.ea0
  ea1 : t.ea1 = s.ea1
  sp0 : t.sp0 = s.sp0
  sp1 : t.sp1 = s.sp1
  sp2 : t.sp2 = s.sp2
  sp3 : t.sp3 = s.sp3

theorem SameControl.apply {s t : State} (h : SameControl s t) {w : Writes} (hr : w.ret = none) (hc : w.cp = none) :
    SameControl s (t.apply w) where
  mode := by rw [apply_mode, hr]; exact h.mode
  pflags := (apply_pflags t w hc hr).trans h.pflags
  ptb := (apply_ptb t w hc).trans h.ptb
  eha := (apply_eha t w hc).trans h.eha
  ehaWritten := (apply_ehaWritten t w hc).trans h.ehaWritten
  epc := (apply_epc t w hc).trans h.epc
  ecs := by
    rw [← h.ecs]
    simp [State.ecs, apply_ec0 t w hc, apply_ec1 t w hc, apply_ec2 t w hc, apply_ec3 t w hc]
  ea0 := (apply_ea0 t w hc).trans h.ea0
  ea1 := (apply_ea1 t w hc).trans h.ea1
  sp0 := (apply_sp0 t w hc).trans h.sp0
  sp1 := (apply_sp1 t w hc).trans h.sp1
  sp2 := (apply_sp2 t w hc).trans h.sp2
  sp3 := (apply_sp3 t w hc).trans h.sp3

/-- The fetch and what the environment does change no control state. -/
theorem sameControl_fetched (s : State) (fill : Option TlbEntry) : SameControl s (s.fetched fill) where
  mode := arrived_mode s
  pflags := arrived_pflags s
  ptb := arrived_ptb s
  eha := arrived_eha s
  ehaWritten := arrived_ehaWritten s
  epc := arrived_epc s
  ecs := by simp [State.ecs, State.fetched]
  ea0 := arrived_ea0 s
  ea1 := arrived_ea1 s
  sp0 := arrived_sp0 s
  sp1 := arrived_sp1 s
  sp2 := arrived_sp2 s
  sp3 := arrived_sp3 s

/-- A commit without an MTC and an ERET changes no control state. -/
theorem SameControl.commit {s t : State} (h : SameControl s t) {ws : Packet Writes}
    (hw : ∀ n, (ws.get n).ret = none ∧ (ws.get n).cp = none) : SameControl s (commit ws t) := by
  have filled : SameControl s (t.fillDtlb ws) := { h with }
  have applied := commitOrder_keeps (P := SameControl s) (fun n u hu => hu.apply (hw n).1 (hw n).2) t.draw filled
  exact { applied with }

/-- Settles O59: a step that goes on is a trap or a commit, and no lane of user mode pends an MTC or ERET. -/
theorem userModeConfined : Obligations.UserModeConfined := by
  intro s t hs h
  rcases step_next h with ⟨hw, ht⟩ | ⟨w, fill, _, rfl⟩
  · obtain ⟨h0, h1, h2, h3⟩ := ht.pointers
    obtain ⟨q0, q1, q2⟩ := ht.preds
    exact .inr ⟨ht.mode, ht.pc, ht.epc, ht.pflags, ht.link, ht.ptb, ht.eha, hw, ht.ehaWritten.trans hw, h0, h1, h2, h3,
      ht.regs, q0, q1, q2, ht.hi, ht.mem, ht.dtlb, ht.l2, ht.l1i⟩
  · have hu : (s.fetched fill).mode = .user := (fetched_mode s fill).trans hs
    have hc := (sameControl_fetched s fill).commit fun n => laneWrites_user (holds_decodePacket w) n hu
    exact .inl ⟨hc.mode.trans hs, hc.pflags, hc.ptb, hc.eha, hc.ehaWritten, hc.epc, hc.ecs, hc.ea0, hc.ea1, hc.sp0,
      hc.sp1, hc.sp2, hc.sp3⟩

-- Coprocessor registers (10_state R18 to R29) -----------------------------------------------------------------------

/-- MFC of a listed number reads its register (45_control R238). -/
theorem exec_mfc {s : State} {p : Pred} {n : BitVec 5} {c : CpReg} (hn : CpReg.ofNumber n = some c) (rd : Reg)
    (h : s.runs p) (hm : s.mode = .kernel) : exec (.mfc p rd n) s = .next (s.onwardReg rd (s.readCp c)) :=
  exec_writes (.mfc p rd n) s { reg := some (rd, s.readCp c) } h (fun _ => hm)
    (by simp [opOf, opMfc, privilegedOp, hn]) (.inr rfl)

/-- MTC of a listed number writes its register, with the side effects of R245 (45_control R239). -/
theorem exec_mtc {s : State} {p : Pred} {n : BitVec 5} {c : CpReg} (hn : CpReg.ofNumber n = some c) (rs : Reg)
    (h : s.runs p) (hm : s.mode = .kernel) :
    exec (.mtc p n rs) s = .next ((s.writeCp c (s.reg rs)).advance none s.pc) :=
  exec_writes (.mtc p n rs) s { cp := some (c, s.reg rs) } h (fun _ => hm)
    (by simp [opOf, opMtc, privilegedOp, hn]) (.inr rfl)

/-- A live instruction that refuses is refused alone, too. -/
theorem exec_refuses {i : Instr} {s : State} {r : Refusal} (h : s.runs i.pred)
    (hp : i.privileged = true → s.mode = .kernel) (he : (opOf i).effect 0 s = .refuses r) :
    exec i s = .refused r := by
  rcases exec_cases i s with ⟨h1, _⟩ | ⟨_, h2, h3, _⟩ | ⟨_, _, hx⟩
  · exact absurd h h1
  · rw [hp h2] at h3
    cases h3
  · rcases hx with ⟨_, h1, h2⟩ | ⟨_, _, h1, _⟩ | ⟨_, h1, _⟩ | ⟨_, h1, _⟩
    all_goals rw [he] at h1; cases h1
    exact h2

/-- The numbers that name no register (10_state R18). -/
theorem ofNumber_eq_none_iff (n : BitVec 5) :
    CpReg.ofNumber n = none ↔ 10 ≤ n.toNat ∧ n.toNat ≤ 15 ∨ 20 ≤ n.toNat := by
  revert n
  decide

/-- Settles O36: each of the fourteen numbers is a listed one, which MFC reads. -/
theorem mfcResults : Obligations.MfcResults := by
  intro s p rd h hm c hc
  have listed : ∃ r, CpReg.ofNumber c.1 = some r ∧ s.readCp r = c.2 := by
    simp only [List.mem_cons, List.not_mem_nil, or_false] at hc
    rcases hc with rfl | rfl | rfl | rfl | rfl | rfl | rfl | rfl | rfl | rfl | rfl | rfl | rfl | rfl
    all_goals exact ⟨_, rfl, rfl⟩
  obtain ⟨r, hr, hv⟩ := listed
  rw [exec_mfc hr rd h hm, hv]

/-- Settles O37: each of the fourteen numbers is a listed one, which MTC writes. -/
theorem mtcResults : Obligations.MtcResults := by
  intro s p rs h hm v o c hc
  have listed : ∃ r, CpReg.ofNumber c.1 = some r ∧ (s.writeCp r v).advance none s.pc = c.2 := by
    simp only [List.mem_cons, List.not_mem_nil, or_false] at hc
    rcases hc with rfl | rfl | rfl | rfl | rfl | rfl | rfl | rfl | rfl | rfl | rfl | rfl | rfl | rfl
    all_goals exact ⟨_, rfl, rfl⟩
  obtain ⟨r, hr, hv⟩ := listed
  rw [exec_mtc hr rs h hm, hv]

/-- Settles O38: the number names no register, and so both instructions refuse. -/
theorem unlistedRegisterRefused : Obligations.UnlistedRegisterRefused := by
  intro s p r n h hm hn
  have unlisted : CpReg.ofNumber n = none := (ofNumber_eq_none_iff n).2 hn
  exact ⟨exec_refuses (i := .mfc p r n) h (fun _ => hm) (by simp [opOf, opMfc, privilegedOp, unlisted]),
    exec_refuses (i := .mtc p n r) h (fun _ => hm) (by simp [opOf, opMtc, privilegedOp, unlisted])⟩

-- P3 (10_state R14) -------------------------------------------------------------------------------------------------

theorem exec_of_not_runs {i : Instr} {s : State} (h : ¬s.runs i.pred) : exec i s = .next s.onward := by
  rcases exec_cases i s with ⟨_, h1⟩ | ⟨h1, _⟩ | ⟨h1, _⟩
  · exact h1
  · exact absurd h1 h
  · exact absurd h1 h

/-- A compare into P3 only moves on. -/
theorem exec_compare_three {i : Instr} {s : State} {p : Pred} (h : s.runs p)
    (hi : ∃ f, opOf i = compareOp p 3#2 f) : exec i s = .next s.onward := by
  obtain ⟨f, hf⟩ := hi
  rw [exec_eq_alone, hf, alone_compareOp p 3#2 f s ((runs_iff s p).1 h), setPred_three]
  rfl

/-- Settles O16: reading P3 gives true, and a write to it changes nothing. -/
theorem predicateThreeConstant : Obligations.PredicateThreeConstant := by
  have never (s : State) : ¬s.runs ⟨3#2, true⟩ := by simp [runs_iff, State.predTrue]
  refine ⟨fun s => ⟨by simp [runs_iff, State.predTrue], never s⟩, fun i s hi => ?_, ?_⟩
  · exact exec_of_not_runs (by rw [hi]; exact never s)
  · intro s p imm rot amt st rt rs v h i hi
    refine exec_compare_three h ?_
    simp only [List.mem_cons, List.not_mem_nil, or_false] at hi
    rcases hi with rfl | rfl | rfl | rfl | rfl | rfl | rfl | rfl | rfl | rfl | rfl | rfl | rfl | rfl | rfl | rfl |
      rfl | rfl | rfl | rfl | rfl
    all_goals exact ⟨_, rfl⟩

-- Packets that trap or commit ---------------------------------------------------------------------------------------

/-- What slot 0 pends for the control state names its instruction. -/
theorem laneWrites_zero {p : Packet Slot} {src : Lane → Instr → Prop} (hp : Holds p src) (s : State) :
    (∀ e, (laneWrites p s).s0.ret = some e → ∃ q, src 0 (.eret q)) ∧
    (∀ x, (laneWrites p s).s0.cp = some x → ∃ q n rs, src 0 (.mtc q n rs)) ∧
    (∀ a, (laneWrites p s).s0.target = some a → ∃ i, src 0 i ∧ i.kind = .control) := by
  rcases laneWrites_cases (s := s) hp 0 with h0 | ⟨i, hi, _, hw⟩
  · have h0 : (laneWrites p s).s0 = {} := h0
    simp [h0]
  · refine ⟨fun e he => ?_, fun ⟨c, v⟩ hx => ?_, fun a ha => ?_⟩
    · obtain ⟨⟨q, rfl⟩, _⟩ := hw.ret e he
      exact ⟨q, hi⟩
    · obtain ⟨q, n, rs, rfl, _⟩ := hw.cp c v hx
      exact ⟨q, n, rs, hi⟩
    · exact ⟨i, hi, (hw.control (.inl (Option.ne_none_iff_exists'.mpr ⟨a, ha⟩))).1⟩

/-- Every exception has a code other than No Error (10_state R25). -/
theorem code_ne_zero (x : Exc) : x.code.setWidth 32 ≠ 0#32 := by cases x <;> decide

/-- The EC registers of a trap are not all 0. -/
theorem raised_ec_ne_zero {e : Packet Effect} {n : Lane} {x : Exc} {ea : Option Word} (h : e.get n = .raises x ea) :
    (e.mapLanes fun _ y => y.report.ec).get n ≠ 0#32 := by
  have hec : (e.mapLanes fun _ y => y.report.ec).get n = (e.get n).report.ec := by fin_cases n <;> rfl
  rw [hec, h, report_ec]
  exact code_ne_zero x

/-- Settles O52: the trap of a raising lane, or the commit, in which lanes 1 to 3 change no control state. -/
theorem packetTrapsOrCommits : Obligations.PacketTrapsOrCommits := by
  intro s t is h
  have hp := holds_slotFor is
  unfold runInstrs at h
  generalize is.mapLanes (fun _ x => slotFor x) = p at h hp
  rcases runPacket_next h with ⟨_, ⟨n, x, ea, hx⟩, ea0, ea1, rfl⟩ | rfl
  · exact .inl ⟨rfl, n, raised_ec_ne_zero hx⟩
  have others := fun n hn => laneWrites_control (s := s) hp n hn
  obtain ⟨eret, mtc, control⟩ := laneWrites_zero hp s
  refine .inr ⟨?_, ?_, ?_⟩
  · cases hr : (laneWrites p s).s0.ret with
    | some e => exact .inr (.inr (eret e hr))
    | none =>
      cases hc : (laneWrites p s).s0.cp with
      | some y => exact .inr (.inl (mtc y hc))
      | none =>
        refine .inl (commit_readCp (fun n => ?_) s)
        by_cases hn : n = 0
        · subst hn
          exact ⟨hr, hc⟩
        · exact others n hn
  · rw [commit_mode fun n hn => (others n hn).1]
    cases hr : (laneWrites p s).s0.ret with
    | some e => exact .inr (eret e hr)
    | none => exact .inl rfl
  · rw [commit_pc]
    cases ha : (laneWrites p s).s0.target with
    | some a => exact .inr (control a ha)
    | none => exact .inl rfl

-- Refusals (10_state R19, 43_loadstore R211) ------------------------------------------------------------------------

theorem privileged_cases {i : Instr} (h : i.privileged = true) :
    (∃ p, i = .eret p) ∨ (∃ p rd n, i = .mfc p rd n) ∨ ∃ p n rs, i = .mtc p n rs := by
  cases i
  case eret p => exact .inl ⟨p, rfl⟩
  case mfc p rd n => exact .inr (.inl ⟨p, rd, n, rfl⟩)
  case mtc p n rs => exact .inr (.inr ⟨p, n, rs, rfl⟩)
  all_goals cases h

/-- An instruction that refuses is an MFC or MTC of the number that the refusal names. -/
theorem effect_refuses_number {i : Instr} {n : Lane} {s : State} {r : Refusal}
    (h : (opOf i).effect n s = .refuses r) :
    ∃ p rg k, r = .unlistedCoprocessorRegister k ∧ CpReg.ofNumber k = none ∧ (i = .mfc p rg k ∨ i = .mtc p k rg) := by
  obtain ⟨hp, _, hwf, _⟩ := effect_refuses h
  rcases privileged_cases hp with ⟨p, rfl⟩ | ⟨p, rg, k, rfl⟩ | ⟨p, k, rg, rfl⟩
  · cases hwf
  · have hk : CpReg.ofNumber k = none := by simpa [Instr.wellFormed] using hwf
    simp only [opOf, opMfc, privilegedOp, hk] at h
    cases h
    exact ⟨p, rg, k, rfl, hk, .inl rfl⟩
  · have hk : CpReg.ofNumber k = none := by simpa [Instr.wellFormed] using hwf
    simp only [opOf, opMtc, privilegedOp, hk] at h
    cases h
    exact ⟨p, rg, k, rfl, hk, .inr rfl⟩

/-- Conflicting writes of the link bit: one lane sets it, and one clears it. -/
theorem linkConflict_lanes {ws : Packet Writes} (h : linkConflict ws = true) :
    (∃ n, (ws.get n).link = some true) ∧ ∃ m, (ws.get m).link = some false ∨ (ws.get m).ret.isSome = true := by
  simp only [linkConflict, Packet.toList, List.any_cons, List.any_nil, Bool.or_false, Bool.and_eq_true, Bool.or_eq_true,
    decide_eq_true_eq] at h
  obtain ⟨h1, h2⟩ := h
  constructor
  · rcases h1 with h | h | h | h
    exacts [⟨0, h⟩, ⟨1, h⟩, ⟨2, h⟩, ⟨3, h⟩]
  · rcases h2 with h | h | h | h
    exacts [⟨0, h⟩, ⟨1, h⟩, ⟨2, h⟩, ⟨3, h⟩]

/-- Conflicting writes of the link bit come from an LL beside an SC, or from an ERET in slot 0 and an LL in slot 1. -/
theorem linkConflict_instrs {p : Packet Slot} {src : Lane → Instr → Prop} (hp : Holds p src) {s : State}
    (h : linkConflict (laneWrites p s) = true) :
    ∃ i j, src 0 i ∧ s.runs i.pred ∧ src 1 j ∧ s.runs j.pred ∧
      ((i.isLl = true ∧ j.isSc = true) ∨ (i.isSc = true ∧ j.isLl = true) ∨
        (i.isEret = true ∧ j.isLl = true ∧ s.mode = .kernel)) := by
  obtain ⟨⟨n, hset⟩, m, hclear⟩ := linkConflict_lanes h
  rcases laneWrites_cases (s := s) hp n with h0 | ⟨a, ha, hla, hwa⟩
  · rw [h0] at hset
    cases hset
  rcases laneWrites_cases (s := s) hp m with h0 | ⟨b, hb, hlb, hwb⟩
  · rw [h0] at hclear
    rcases hclear with h | h <;> cases h
  have hnm : n ≠ m := by
    rintro rfl
    rcases hclear with h | h
    · rw [hset] at h
      cases h
    · have := (hwa.control (.inr (.inr (.inr (.inl (Option.isSome_iff_ne_none.mp h)))))).2
      rw [hset] at this
      cases this
  obtain ⟨q, off, rd, rs, rfl⟩ := hwa.linkSet hset
  have hn := liveIn_memory hla rfl
  rcases hclear with h | h
  · obtain ⟨q', off', rt, rs', rfl⟩ := hwb.linkCleared h
    rcases hn with rfl | rfl <;> rcases liveIn_memory hlb rfl with rfl | rfl
    · exact absurd rfl hnm
    · exact ⟨_, _, ha, hla.1, hb, hlb.1, .inl ⟨rfl, rfl⟩⟩
    · exact ⟨_, _, hb, hlb.1, ha, hla.1, .inr (.inl ⟨rfl, rfl⟩)⟩
    · exact absurd rfl hnm
  · obtain ⟨e, he⟩ := Option.isSome_iff_exists.mp h
    obtain ⟨⟨q', rfl⟩, _⟩ := hwb.ret e he
    obtain rfl := liveIn_control hlb rfl
    obtain rfl := hn.resolve_left hnm
    exact ⟨_, _, hb, hlb.1, ha, hla.1, .inr (.inr ⟨rfl, rfl, hlb.2.2 rfl⟩)⟩

/-- Settles O9: a refusal is that of a lane, which stands in slot 0, or of the link bit. -/
theorem stepRefusesOnly : Obligations.StepRefusesOnly := by
  intro s r h
  rcases step_cases s with ⟨_, _, h1⟩ | ⟨_, _, h1⟩ | ⟨_, _, _, _, _, _, _, h1⟩ | ⟨w, fill, hf, h1⟩
  all_goals rw [h1] at h
  · exact absurd h (trapTo_ne_refused _ _ r)
  · cases h
  · exact absurd h (trapTo_ne_refused _ _ r)
  have hp := holds_decodePacket w
  rcases runPacket_cases (decodePacket w) (s.fetched fill) with
    ⟨r', n, h2, hr⟩ | ⟨_, _, ea0, ea1, h2⟩ | ⟨_, hl, h2⟩ | ⟨_, _, h2⟩
  all_goals rw [h2] at h
  · cases h
    rcases lane_live_cases (s := s.fetched fill) hp n with h0 | ⟨x, h0⟩ | ⟨i, hi, hlive, he⟩
    · rw [h0] at hr
      cases hr
    · rw [h0] at hr
      cases hr
    · rw [he] at hr
      obtain ⟨p, rg, k, rfl, hk, hik⟩ := effect_refuses_number hr
      obtain ⟨hpriv, hctl, _⟩ := effect_refuses hr
      obtain rfl := liveIn_control hlive hctl
      exact ⟨w, fill, i, hf, decodesIn_zero hi, (fetched_runs _ _ _).1 hlive.1, .inr ⟨p, rg, k, rfl,
        (fetched_mode s fill).symm.trans (hlive.2.2 hpriv), (ofNumber_eq_none_iff k).1 hk, hik⟩⟩
  · exact absurd h (trapTo_ne_refused _ _ r)
  · cases h
    obtain ⟨i, j, hi, hri, hj, hrj, hij⟩ := linkConflict_instrs hp hl
    simp only [fetched_runs, fetched_mode] at hri hrj hij
    exact ⟨w, fill, i, hf, decodesIn_zero hi, hri, .inl ⟨rfl, j, decodesIn_one hj, hrj, hij⟩⟩
  · cases h

-- What the environment reads ----------------------------------------------------------------------------------------

/-- `m` with the memory, TLBs and caches of `s`. -/
def State.withMemoryOf (m s : State) : State :=
  { m with mem := s.mem, itlb := s.itlb, dtlb := s.dtlb, l2 := s.l2, l1i := s.l1i }

theorem dmaByte_withMemoryOf (m s : State) (held : Bool) (pa : Nat) (b : Byte) :
    (m.withMemoryOf s).dmaByte held pa b = m.withMemoryOf (s.dmaByte held pa b) := by
  have hc : (m.withMemoryOf s).l2Copy pa = s.l2Copy pa := rfl
  unfold State.dmaByte
  rw [hc]
  rcases s.l2Copy pa with _ | _ | _
  · cases held <;> rfl
  · rfl
  · rfl

theorem dmaBytes_withMemoryOf (m s : State) (held : Bool) (pa n : Nat) (v : Word) :
    (m.withMemoryOf s).dmaBytes held pa n v = m.withMemoryOf (s.dmaBytes held pa n v) := by
  induction n generalizing s pa v with
  | zero => rfl
  | succ n ih => rw [State.dmaBytes, State.dmaBytes, dmaByte_withMemoryOf, ih]

theorem dmaWrite_withMemoryOf (m s : State) (w : DmaWrite) :
    (m.withMemoryOf s).dmaWrite w = m.withMemoryOf (s.dmaWrite w) := by
  unfold State.dmaWrite
  dsimp only
  split
  · exact dmaBytes_withMemoryOf m (s.noteOld _) _ _ _ _
  · rfl

theorem flushDataLine_withMemoryOf (m s : State) (pa : Nat) :
    (m.withMemoryOf s).flushDataLine pa = m.withMemoryOf (s.flushDataLine pa) := by
  have hh : (m.withMemoryOf s).l1Holds (pa / 4) = s.l1Holds (pa / 4) := rfl
  unfold State.flushDataLine
  dsimp only
  rw [hh]
  split <;> rfl

/-- The environment reads and writes memory, TLBs and caches only (40_packet_execution R132). -/
theorem act_withMemoryOf (m s : State) (a : EnvAction) : (m.withMemoryOf s).act a = m.withMemoryOf (s.act a) := by
  cases a with
  | write w => exact dmaWrite_withMemoryOf m s w
  | drop f =>
    cases f with
    | data pa => exact flushDataLine_withMemoryOf m s pa
    | inst pa => rfl
    | dtlb vpn => rfl
    | itlb vpn => rfl

theorem acts_withMemoryOf (m s : State) (l : List EnvAction) :
    l.foldl State.act (m.withMemoryOf s) = m.withMemoryOf (l.foldl State.act s) := by
  induction l generalizing s with
  | nil => rfl
  | cons a l ih => rw [List.foldl_cons, List.foldl_cons, act_withMemoryOf, ih]

/-- The state in which a step begins, with what the environment leaves alone written out. -/
theorem arrived_eq {s m : State} (h : m.withMemoryOf s = m) :
    m.arrived = { m.withMemoryOf (m.acts.foldl State.act s) with inputs := m.inputs.tail } := by
  have : m.acts.foldl State.act m = m.withMemoryOf (m.acts.foldl State.act s) := by
    rw [← acts_withMemoryOf, h]
  rw [State.arrived, this]

-- Interrupts --------------------------------------------------------------------------------------------------------

theorem interrupt_disabled {s : State} (h : s.interruptsEnabled = false) : s.interrupt = none := by
  unfold State.interrupt
  split
  · rfl
  · simp [h]

/-- The interrupt taken is the one delivered, if enabled and requested (60_exceptions R275). -/
theorem interrupt_eq_some_iff (s : State) (i : Input) (rest : List Input) (hs : s.inputs = i :: rest)
    (src : IrqSource) : s.interrupt = some src ↔
      s.interruptsEnabled = true ∧ i.serve = some src ∧ i.irq.getLsbD src.code.toNat = true := by
  unfold State.interrupt
  rw [hs]
  cases s.interruptsEnabled <;> simp [Option.filter_eq_some_iff]

/-- Settles O57: the environment's actions do not read the inputs, and a masked offer is no interrupt. -/
theorem interruptsMasked : Obligations.InterruptsMasked := by
  intro s i j rest
  constructor
  · intro h hacts
    have same : State.arrived { s with inputs := i :: rest } = State.arrived { s with inputs := j :: rest } := by
      rw [arrived_eq (s := s) rfl, arrived_eq (s := s) (m := { s with inputs := j :: rest }) rfl]
      simp [State.acts, hacts, State.withMemoryOf]
    have off (k : Input) : State.interrupt { s with inputs := k :: rest } = none := interrupt_disabled h
    simp only [step, runStep, off, same]
  · intro src
    have taken := interrupt_eq_some_iff { s with inputs := i :: rest } i rest rfl src
    cases src <;> exact taken

-- Faults (10_state R12, 70_reset R301) ------------------------------------------------------------------------------

/-- `s` as if an MTC had written `v` to EHA. -/
def State.armed (s : State) (v : Word) : State := { s with ehaWritten := true, eha := v }

/-- The result at a state in which `written` says that EHA has been written, and the result of the same step with `v` in
EHA: a trap goes to `v`, and all else goes the same way. -/
inductive Armed (written : Bool) (v : Word) : Result → Result → Prop
  | trap {s t u : State} (hs : s.ehaWritten = written) (hu : u.pc = packetAddress v) :
      Armed written v (s.trapTo t) (.next u)
  | commit {t u : State} (hu : u.pc = t.pc) : Armed written v (.next t) (.next u)
  | misaligned : Armed written v (.fault .misalignedPc) (.fault .misalignedPc)
  | refused (r r' : Refusal) : Armed written v (.refused r) (.refused r')

/-- Two outcomes of a lane that a packet's end does not tell apart: they differ at most in the registers written. -/
structure Alike (e e' : Effect) : Prop where
  refusal : e'.refusal? = e.refusal?
  raised : e'.raised = e.raised
  link : e'.pending.link = e.pending.link
  ret : e'.pending.ret = e.pending.ret
  target : e'.pending.target = e.pending.target

theorem alike_of_eq {e e' : Effect} (h : e' = e) : Alike e e' := by
  subst h
  exact ⟨rfl, rfl, rfl, rfl, rfl⟩

/-- Of all instructions only MFC reads EHA. -/
theorem effect_armed (i : Instr) (n : Lane) (s : State) (v : Word) :
    Alike ((opOf i).effect n s) ((opOf i).effect n (s.armed v)) := by
  cases i
  case mfc p rd k =>
    simp only [opOf, opMfc, privilegedOp]
    cases CpReg.ofNumber k <;> exact ⟨rfl, rfl, rfl, rfl, rfl⟩
  all_goals exact alike_of_eq rfl

theorem issue_armed (s : State) (v : Word) : issue (s.armed v) = issue s := by
  funext n x
  cases x <;> rfl

theorem laneEffects_armed {p : Packet Slot} {src : Lane → Instr → Prop} (hp : Holds p src) (s : State) (v : Word)
    (n : Lane) : Alike ((laneEffects p s).get n) ((laneEffects p (s.armed v)).get n) := by
  have at_lane (t : State) :
      (laneEffects p t).get n = evaluate (p.mapLanes (issue t)) t n (issue t n (p.get n)) := by fin_cases n <;> rfl
  rw [at_lane, at_lane, issue_armed]
  cases hx : p.get n with
  | operand => exact alike_of_eq rfl
  | undecodable q =>
    simp only [issue]
    split <;> exact alike_of_eq rfl
  | op o =>
    obtain ⟨i, _, rfl⟩ := hp n o hx
    simp only [issue]
    split
    · exact alike_of_eq rfl
    split
    · exact alike_of_eq rfl
    split
    · exact alike_of_eq rfl
    simp only [evaluate]
    split
    · exact alike_of_eq rfl
    · exact effect_armed i n s v

/-- The end of a packet, by what `Alike` keeps of its lanes. -/
theorem finish_armed {e e' : Packet Effect} (h : ∀ n, Alike (e.get n) (e'.get n)) (s : State) (v : Word) :
    Armed s.ehaWritten v (finish e s) (finish e' (s.armed v)) := by
  have h0 : Alike e.s0 e'.s0 := h 0
  have h1 : Alike e.s1 e'.s1 := h 1
  have h2 : Alike e.s2 e'.s2 := h 2
  have h3 : Alike e.s3 e'.s3 := h 3
  have hr : e'.toList.findSome? Effect.refusal? = e.toList.findSome? Effect.refusal? := by
    simp [Packet.toList, List.findSome?_cons, h0.refusal, h1.refusal, h2.refusal, h3.refusal]
  have hx : e'.toList.any Effect.raised = e.toList.any Effect.raised := by
    simp [Packet.toList, h0.raised, h1.raised, h2.raised, h3.raised]
  have hl : linkConflict (e'.mapLanes fun _ x => x.pending) = linkConflict (e.mapLanes fun _ x => x.pending) := by
    simp [linkConflict, Packet.toList, Packet.mapLanes, h0.link, h1.link, h2.link, h3.link, h0.ret, h1.ret, h2.ret,
      h3.ret]
  unfold finish
  dsimp only
  rw [hr, hx, hl]
  split
  · exact .refused _ _
  split
  · rw [trapTo_next (s := s.armed v) _ rfl]
    exact .trap rfl rfl
  split
  · exact .refused _ _
  · refine .commit ?_
    rw [commit_pc, commit_pc]
    exact congrArg (fun a : Option Word => a.getD (s.pc + 16#32)) h0.target

theorem fetchAndRun_armed (s : State) (v : Word) :
    Armed s.ehaWritten v (fetchAndRun s) (fetchAndRun (s.armed v)) := by
  have ht : (s.armed v).translate .fetch 0 (s.armed v).pc 16 = s.translate .fetch 0 s.pc 16 := rfl
  have hw (pa : Nat) : (s.armed v).fetchWords pa = s.fetchWords pa := rfl
  have fault (fill : Option TlbEntry) (x : Exc) : Armed s.ehaWritten v ((s.fillItlb fill).takeFetchFault x)
      (((s.armed v).fillItlb fill).takeFetchFault x) := by
    rw [State.takeFetchFault, State.takeFetchFault, trapTo_next (s := (s.armed v).fillItlb fill) _ rfl]
    exact .trap rfl rfl
  unfold fetchAndRun
  by_cases hp : packetAddress s.pc ≠ s.pc
  · rw [if_pos hp, if_pos (show packetAddress (s.armed v).pc ≠ (s.armed v).pc from hp)]
    exact .misaligned
  · rw [if_neg hp, if_neg (show ¬packetAddress (s.armed v).pc ≠ (s.armed v).pc from hp), ht]
    rcases s.translate .fetch 0 s.pc 16 with ⟨fill, pa | _ | _⟩
    · dsimp only
      rw [hw]
      exact finish_armed (laneEffects_armed (holds_decodePacket (s.fetchWords pa)) (s.fillItlb fill) v)
        (s.fillItlb fill) v
    · exact fault fill _
    · exact fault fill _

theorem arrived_armed (s : State) (v : Word) : (s.armed v).arrived = s.arrived.armed v := by
  rw [arrived_eq (s := s) (m := s.armed v) rfl, arrived_eq (s := s) (m := s) rfl]
  rfl

/-- A step, and the same step with `v` in EHA. -/
theorem step_armed (s : State) (v : Word) : Armed s.ehaWritten v (step s) (step (s.armed v)) := by
  have hi : (s.armed v).interrupt = s.interrupt := rfl
  unfold step runStep
  rw [hi, arrived_armed]
  split
  · rw [trapTo_next (s := s.arrived.armed v) _ rfl]
    exact .trap (arrived_ehaWritten s) rfl
  · rw [← arrived_ehaWritten s]
    exact fetchAndRun_armed s.arrived v

theorem runPacket_ne_misaligned (p : Packet Slot) (s : State) : runPacket p s ≠ .fault .misalignedPc := by
  rcases runPacket_cases p s with ⟨_, _, h, _⟩ | ⟨_, _, _, _, h⟩ | ⟨_, _, h⟩ | ⟨_, _, h⟩
  all_goals rw [h]
  · nofun
  · exact trapTo_ne_misaligned _ _
  · nofun
  · nofun

/-- The fault of a misaligned `pc` (log 24). -/
theorem step_misaligned_iff (s : State) :
    step s = .fault .misalignedPc ↔ s.interrupt = none ∧ s.pc &&& 0xF#32 ≠ 0#32 := by
  rcases step_cases s with ⟨src, hi, h⟩ | ⟨hi, hp, h⟩ | ⟨_, hp, _, _, _, _, _, h⟩ | ⟨w, fill, ⟨_, hp, _⟩, h⟩
  all_goals rw [h]
  · simp [hi, trapTo_ne_misaligned]
  · simp [hi, hp]
  · simp [hp, trapTo_ne_misaligned]
  · simp [hp, runPacket_ne_misaligned]

/-- A step that is stuck would go to the address in EHA, had EHA been written. -/
theorem armed_of_stuck {s : State} (h : step s = .fault .ehaNeverWritten) (v : Word) :
    s.ehaWritten = false ∧ ∃ t, step (s.armed v) = .next t ∧ t.pc = packetAddress v := by
  have ha := step_armed s v
  generalize hr : step s = r, hr' : step (s.armed v) = r' at ha
  rw [hr] at h
  cases ha with
  | @trap u t t' hs ht =>
    rcases trapTo_cases u t with ⟨_, h2⟩ | ⟨h1, _⟩
    · rw [h2] at h
      cases h
    · exact ⟨hs.symm.trans h1, t', rfl, ht⟩
  | commit _ => cases h
  | misaligned => cases h
  | refused _ _ => cases h

/-- A step that would go to the address in EHA is stuck, or goes to that address without a trap. -/
theorem stuck_of_armed {s t : State} {v : Word} (hw : s.ehaWritten = false) (h : step (s.armed v) = .next t)
    (ht : t.pc = packetAddress v) :
    step s = .fault .ehaNeverWritten ∨ ∃ u, step s = .next u ∧ u.pc = packetAddress v := by
  have ha := step_armed s v
  generalize step s = r, hr' : step (s.armed v) = r' at ha
  rw [hr'] at h
  cases ha with
  | trap hs _ => exact .inl (trapTo_stuck _ (hs.trans hw))
  | commit hu =>
    cases h
    exact .inr ⟨_, rfl, hu.symm.trans ht⟩
  | misaligned => cases h
  | refused _ _ => cases h

/-- Settles O8: a step that goes on without a trap goes to one address, whatever EHA holds. -/
theorem stepFaultsOnly : Obligations.StepFaultsOnly := by
  intro s
  refine ⟨step_misaligned_iff s, fun h => ⟨(armed_of_stuck h 0#32).1, fun v => (armed_of_stuck h v).2⟩, ?_⟩
  rintro ⟨hw, hv⟩
  have either (v : Word) : step s = .fault .ehaNeverWritten ∨ ∃ u, step s = .next u ∧ u.pc = packetAddress v := by
    obtain ⟨t, h, ht⟩ := hv v
    exact stuck_of_armed hw h ht
  rcases either 0#32 with h | ⟨u, h, hu⟩
  · exact h
  rcases either 16#32 with h' | ⟨u', h', hu'⟩
  · exact h'
  · rw [h] at h'
    cases h'
    exact absurd (hu.symm.trans hu') (by decide)

end Sys2Proof.Machine

/-! PROOF. The statements about the encoding (30_encoding). First each path of the format tree, and what it takes to
read a field of a field; then the statements about words and about the instructions that a format names. -/

namespace Sys2Proof.Machine

-- The format tree (30_encoding R82) ---------------------------------------------------------------------------------

/-- A part of a field whose value is known. -/
theorem field_part {w : Word} {lo k : Nat} {v : BitVec k} (h : field lo k w = v) (a b : Nat) (hab : a + b ≤ k) :
    field (lo + a) b w = v.extractLsb' a b := by
  subst h
  ext i hi
  simp [field, Nat.add_assoc, show a + i < k by omega]

section
variable {w : Word} (next : Option Word)

theorem decodeWord_short (h : field 28 1 w = 0#1) : decodeWord w next = decodeAluShort w := by
  simp [decodeWord, h]

theorem decodeWord_register (h : field 26 3 w = 0b101#3) : decodeWord w next = decodeAluReg w := by
  obtain ⟨h28, h26, _⟩ := registerWord_fields w _ ⟨h, rfl⟩
  simp [decodeWord, h28, h26]

theorem decodeWord_branchImm (h : field 26 3 w = 0b110#3) : decodeWord w next = .ok (decodeBranchImm w) := by
  have h28 : field 28 1 w = 1#1 := field_part h 2 1 (by decide)
  have h26 : field 26 2 w = 0b10#2 := field_part h 0 2 (by decide)
  simp [decodeWord, h28, h26]

theorem decodeWord_branchReg (h : field 26 3 w = 0b111#3) : decodeWord w next = .ok (decodeBranchReg w) := by
  have h28 : field 28 1 w = 1#1 := field_part h 2 1 (by decide)
  have h26 : field 26 2 w = 0b11#2 := field_part h 0 2 (by decide)
  simp [decodeWord, h28, h26]

theorem decodeWord_lsu (h : field 25 4 w = 0b1001#4) : decodeWord w next = .ok (decodeLsu w) := by
  have h28 : field 28 1 w = 1#1 := field_part h 3 1 (by decide)
  have h26 : field 26 2 w = 0#2 := field_part h 1 2 (by decide)
  have h25 : field 25 1 w = 1#1 := field_part h 0 1 (by decide)
  simp [decodeWord, h28, h26, h25]

theorem decodeWord_control (h : field 24 5 w = 0b10001#5) : decodeWord w next = decodeControl w := by
  obtain ⟨h28, h26, h25, h24, _⟩ := controlWord_fields w _ ⟨h, rfl⟩
  simp [decodeWord, h28, h26, h25, h24]

theorem decodeWord_regsh (h : field 21 8 w = 0b10000001#8) : decodeWord w next = decodeRegsh w := by
  obtain ⟨h28, h26, h25, h24, h21, _⟩ := regshWord_fields w _ ⟨h, rfl⟩
  simp [decodeWord, h28, h26, h25, h24, h21]

theorem decodeWord_long (imm : Word) (h : isLongWord w = true) : decodeWord w (some imm) = decodeAluLong w imm := by
  obtain ⟨h28, h26, h25, h24, h21, h14, _⟩ := longWord_fields w _ ⟨beq_iff_eq.mp h, rfl⟩
  simp [decodeWord, h28, h26, h25, h24, h21, h14]

/-- A Long form with no word after it is rejected (R110). -/
theorem decodeWord_long_none (h : isLongWord w = true) : decodeWord w none = .error .longFormInLastSlot := by
  obtain ⟨h28, h26, h25, h24, h21, h14, _⟩ := longWord_fields w _ ⟨beq_iff_eq.mp h, rfl⟩
  simp [decodeWord, h28, h26, h25, h24, h21, h14]

/-- A word of the Long format whose bits 20:14 are not all zero is rejected (R108). -/
theorem decodeWord_nonzeroLong (h : field 21 8 w = 0b10000000#8) (h14 : field 14 7 w ≠ 0#7) :
    decodeWord w next = .error .nonzeroLongBits := by
  have h28 : field 28 1 w = 1#1 := field_part h 7 1 (by decide)
  have h26 : field 26 2 w = 0#2 := field_part h 5 2 (by decide)
  have h25 : field 25 1 w = 0#1 := field_part h 4 1 (by decide)
  have h24 : field 24 1 w = 0#1 := field_part h 3 1 (by decide)
  have h21 : field 21 3 w = 0#3 := field_part h 0 3 (by decide)
  simp [decodeWord, h28, h26, h25, h24, h21, h14]

/-- The formats that R82 leaves unassigned (R108). -/
theorem decodeWord_unassignedFormat (h : field 24 5 w = 0b10000#5) (h21 : 2 ≤ (field 21 3 w).toNat) :
    decodeWord w next = .error .unassignedFormat := by
  have h28 : field 28 1 w = 1#1 := field_part h 4 1 (by decide)
  have h26 : field 26 2 w = 0#2 := field_part h 2 2 (by decide)
  have h25 : field 25 1 w = 0#1 := field_part h 1 1 (by decide)
  have h24 : field 24 1 w = 0#1 := field_part h 0 1 (by decide)
  have regsh : field 21 3 w ≠ 0b001#3 := fun e => by simp [e] at h21
  have long : field 21 3 w ≠ 0b000#3 := fun e => by simp [e] at h21
  simp [decodeWord, h28, h26, h25, h24, regsh, long]

end

-- Unassigned opcodes (30_encoding R108) -----------------------------------------------------------------------------

/-- The decoder rejects. -/
def Rejected (x : Except DecodeError Instr) : Prop := ∃ e, x = .error e

section
variable {w : Word}

theorem decodeCompareShort_rejected (h : field 7 3 w = 0b011#3) : Rejected (decodeCompareShort w) := by
  simp [Rejected, decodeCompareShort, h]

theorem decodeCompareReg_rejected (h : field 7 3 w = 0b011#3) : Rejected (decodeCompareReg w) := by
  simp [Rejected, decodeCompareReg, h]

theorem decodeCompareLong_rejected (imm : Word) (h : field 7 3 w = 0b011#3) : Rejected (decodeCompareLong w imm) := by
  simp [Rejected, decodeCompareLong, h]

/-- An opcode above the last one is none of those before it. -/
theorem decodeAluShort_rejected (h : 12 ≤ (field 10 4 w).toNat) : Rejected (decodeAluShort w) := by
  unfold decodeAluShort
  dsimp only
  split
  case h_13 => exact ⟨_, rfl⟩
  all_goals omega

theorem decodeAluReg_rejected (h : 12 ≤ (field 10 4 w).toNat) : Rejected (decodeAluReg w) := by
  unfold decodeAluReg
  dsimp only
  split
  case h_13 => exact ⟨_, rfl⟩
  all_goals omega

theorem decodeAluLong_rejected (imm : Word) (h : 12 ≤ (field 10 4 w).toNat) : Rejected (decodeAluLong w imm) := by
  unfold decodeAluLong
  dsimp only
  split
  case h_13 => exact ⟨_, rfl⟩
  all_goals omega

theorem decodeRegsh_rejected (h : (field 10 4 w).toNat ≤ 7 ∨ 12 ≤ (field 10 4 w).toNat) : Rejected (decodeRegsh w) := by
  unfold decodeRegsh
  dsimp only
  split
  case h_5 => exact ⟨_, rfl⟩
  all_goals omega

/-- A Long word is rejected, if its opcode is or if there is no word after it. -/
theorem decodeWord_long_rejected (next : Option Word) (hw : isLongWord w = true)
    (h : ∀ imm, Rejected (decodeAluLong w imm)) : Rejected (decodeWord w next) := by
  cases next with
  | none => exact ⟨_, decodeWord_long_none hw⟩
  | some imm => exact decodeWord_long imm hw ▸ h imm

theorem decodeControl_rejected (h : field 20 4 w = 0#4 ∨ field 20 4 w = 7#4 ∨ 10 ≤ (field 20 4 w).toNat)
    (hmfhi : field 20 4 w ≠ Config.ctrlopMfhi) (hmtc : field 20 4 w ≠ Config.ctrlopMtc)
    (hmthi : field 20 4 w ≠ Config.ctrlopMthi) : Rejected (decodeControl w) := by
  have unassigned : ∀ op : BitVec 4, op = 0#4 ∨ op = 7#4 ∨ 10 ≤ op.toNat →
      op ≠ 1#4 ∧ op ≠ 2#4 ∧ op ≠ 3#4 ∧ op ≠ 4#4 ∧ op ≠ 5#4 ∧ op ≠ 6#4 ∧ op ≠ 8#4 ∧ op ≠ 9#4 := by decide
  obtain ⟨h1, h2, h3, h4, h5, h6, h8, h9⟩ := unassigned _ h
  simp [Rejected, decodeControl, h1, h2, h3, h4, h5, h6, h8, h9, hmfhi, hmtc, hmthi]

end

/-- Settles O4: each clause is a path of the format tree that ends in an opcode which names no instruction. -/
theorem unassignedWordsRejected : Obligations.UnassignedWordsRejected := by
  intro w next
  refine ⟨?_, ?_, ?_, fun h h14 => ⟨_, decodeWord_nonzeroLong next h h14⟩,
    fun h h21 => ⟨_, decodeWord_unassignedFormat next h h21⟩, ?_⟩
  · rintro op hop (⟨hw, rfl⟩ | ⟨hw, rfl⟩ | ⟨hw, rfl⟩)
    · exact decodeWord_short next hw ▸ decodeAluShort_rejected hop
    · exact decodeWord_register next hw ▸ decodeAluReg_rejected hop
    · exact decodeWord_long_rejected next (beq_iff_eq.mpr hw) fun imm => decodeAluLong_rejected imm hop
  · rintro h7 (⟨hw, hop⟩ | ⟨hw, hop⟩ | ⟨hw, hop⟩)
    all_goals rw [field_def] at h7 hop
    · rw [decodeWord_short next hw, decodeAluShort, hop]
      exact decodeCompareShort_rejected h7
    · rw [decodeWord_register next hw, decodeAluReg, hop]
      exact decodeCompareReg_rejected h7
    · refine decodeWord_long_rejected next (beq_iff_eq.mpr hw) fun imm => ?_
      rw [decodeAluLong, hop]
      exact decodeCompareLong_rejected imm h7
  · rintro op hop ⟨hw, rfl⟩
    exact decodeWord_regsh next hw ▸ decodeRegsh_rejected hop
  · rintro op hop hmfhi hmtc hmthi ⟨hw, rfl⟩
    exact decodeWord_control next hw ▸ decodeControl_rejected hop hmfhi hmtc hmthi

/-- Settles O3. -/
theorem decodeWrittenWords : Obligations.DecodeWrittenWords := by
  unfold Obligations.DecodeWrittenWords
  decide

-- FENCE and the products (45_control R233, R242, R243) ----------------------------------------------------------------

/-- Settles O32: FENCE pends nothing, and so it does what an instruction with a false predicate does. -/
theorem fenceDoesNothing : Obligations.FenceDoesNothing := by
  refine ⟨fun w next ⟨hw, hop⟩ => ?_, fun s p => ⟨?_, rfl⟩⟩
  · rw [field_def] at hop
    simp [decodeWord_control next hw, decodeControl, hop]
  · by_cases h : s.runs p
    · exact exec_writes (.fence p) s {} h nofun rfl (.inr rfl)
    · exact exec_of_not_runs h

/-- An instruction that pends the two words of a product leaves them in Rd and `hi` and changes nothing else. -/
theorem exec_product {i : Instr} {s : State} {rd : Reg} {v : BitVec 64} (h : s.runs i.pred)
    (hp : i.privileged = false) (he : (opOf i).effect 0 s = .writes (productWrites rd v)) :
    exec i s = .next (s.onwardRegHi rd (lowWord v) (highWord v)) :=
  exec_writes i s (productWrites rd v) h (by simp [hp]) he (.inr rfl)

theorem lowWord_ofNat (n : Nat) : lowWord (BitVec.ofNat 64 n) = BitVec.ofNat 32 (n % 2 ^ 32) := by
  apply BitVec.eq_of_toNat_eq
  simp [lowWord]

theorem highWord_ofNat {n : Nat} (h : n < 2 ^ 64) : highWord (BitVec.ofNat 64 n) = BitVec.ofNat 32 (n / 2 ^ 32) := by
  apply BitVec.eq_of_toNat_eq
  simp only [highWord, BitVec.extractLsb'_toNat, BitVec.toNat_ofNat, Nat.mod_eq_of_lt h, Nat.shiftRight_eq_div_pow]

/-- A two's complement value modulo 2^64 as the number that is no less than 0. -/
theorem ofInt_eq_ofNat (v : Int) : BitVec.ofInt 64 v = BitVec.ofNat 64 (v % 2 ^ 64).toNat := by
  apply BitVec.eq_of_toNat_eq
  simp only [BitVec.toNat_ofInt, BitVec.toNat_ofNat]
  omega

theorem lowWord_ofInt (v : Int) : lowWord (BitVec.ofInt 64 v) = BitVec.ofInt 32 (v % 2 ^ 64 % 2 ^ 32) := by
  rw [ofInt_eq_ofNat, lowWord_ofNat]
  apply BitVec.eq_of_toNat_eq
  simp only [BitVec.toNat_ofInt, BitVec.toNat_ofNat]
  omega

theorem highWord_ofInt (v : Int) : highWord (BitVec.ofInt 64 v) = BitVec.ofInt 32 (v % 2 ^ 64 / 2 ^ 32) := by
  rw [ofInt_eq_ofNat, highWord_ofNat (by omega)]
  apply BitVec.eq_of_toNat_eq
  simp only [BitVec.toNat_ofInt, BitVec.toNat_ofNat]
  omega

/-- A field of one bit is that bit. -/
theorem field_bit (w : Word) (n : Nat) : field n 1 w = BitVec.ofBool (w.getLsbD n) := by
  ext i hi
  obtain rfl : i = 0 := by omega
  simp [field]

/-- Settles O40: bit 19 tells the two products apart, and each is a number below 2^64. -/
theorem multiplyResults : Obligations.MultiplyResults := by
  refine ⟨fun w next ⟨hw, hop⟩ => ?_, fun s p rt rd rs h => ⟨?_, ?_⟩⟩
  · rw [field_def] at hop
    rw [decodeWord_control next hw]
    have h19 := field_bit w 19
    cases hb : w.getLsbD 19 <;> rw [hb] at h19 <;> simp [decodeControl, hop, h19, field_def]
  · have bound : (s.reg rs).toNat * (s.reg rt).toNat < 2 ^ 64 := by
      calc (s.reg rs).toNat * (s.reg rt).toNat < 2 ^ 32 * 2 ^ 32 := Nat.mul_lt_mul'' (s.reg rs).isLt (s.reg rt).isLt
        _ = 2 ^ 64 := by decide
    rw [exec_product (i := .mult p rt rd rs) h rfl rfl, productU, lowWord_ofNat, highWord_ofNat bound]
  · rw [exec_product (i := .mults p rt rd rs) h rfl rfl, productS, lowWord_ofInt, highWord_ofInt]

end Sys2Proof.Machine

/-! PROOF. The encoder and back (30_encoding R82 to R106). First the fields of a word of each format; then the decoder
on it, once for each format and kind of operand, given the row of the opcode table; then every instruction. -/

namespace Sys2Proof.Machine

-- The fields of an encoded word ---------------------------------------------------------------------------------------

/-- The predicate field is all there is above bit 28. -/
theorem field_encodePred (p : Pred) (lo k : Nat) (h : lo + k ≤ 29) : field lo k (encodePred p) = 0#k := by
  simp (disch := omega) [encodePred]

/-- Bits below the predicate field do not change it. -/
theorem decodePred_or {a b : Word} (h : field 29 3 b = 0#3) : decodePred (a ||| b) = decodePred a := by
  have h30 : field 30 2 b = 0#2 := field_part h 1 2 (by decide)
  have h29 : field 29 1 b = 0#1 := field_part h 0 1 (by decide)
  simp only [decodePred, field_or, h30, h29, BitVec.or_zero]

/-- What `put` puts below the predicate field does not change it. -/
theorem decodePred_or_put (a : Word) {lo k : Nat} (f : BitVec k) (h : lo + k ≤ 29) :
    decodePred (a ||| put lo f) = decodePred a :=
  decodePred_or (field_put_beside _ _ _ _ (.inl h))

/-- A field above all bits of a word. -/
theorem field_above {v : Word} {n m : Nat} (h : field n m v = 0#m) (lo k : Nat) (h1 : n ≤ lo) (h2 : lo + k ≤ n + m) :
    field lo k v = 0#k := by
  have := field_part h (lo - n) k (by omega)
  rw [Nat.add_sub_cancel' h1] at this
  simpa using this

theorem encodeShort_fields (p : Pred) (imm : BitVec 10) (rot op : BitVec 4) {low : Word} (h : field 10 22 low = 0#22) :
    field 28 1 (encodeShort p imm rot op low) = 0#1 ∧ decodePred (encodeShort p imm rot op low) = p ∧
    field 18 10 (encodeShort p imm rot op low) = imm ∧ field 14 4 (encodeShort p imm rot op low) = rot ∧
    field 10 4 (encodeShort p imm rot op low) = op ∧
    ∀ lo k, lo + k ≤ 10 → field lo k (encodeShort p imm rot op low) = field lo k low := by
  refine ⟨?_, ?_, ?_, ?_, ?_, fun lo k hk => ?_⟩
  case refine_2 =>
    simp (disch := decide) only [encodeShort, decodePred_or_put, decodePred_or (field_above h 29 3 _ _),
      decodePred_encodePred]
  all_goals simp (disch := omega) [encodeShort, field_encodePred, field_above h]

theorem encodeReg_fields (p : Pred) (amt : BitVec 5) (st : ShiftType) (rt : Reg) (op : BitVec 4) {low : Word}
    (h : field 10 22 low = 0#22) :
    field 26 3 (encodeReg p amt st rt op low) = 0b101#3 ∧ decodePred (encodeReg p amt st rt op low) = p ∧
    field 21 5 (encodeReg p amt st rt op low) = amt ∧
    ShiftType.ofBits (field 19 2 (encodeReg p amt st rt op low)) = st ∧
    field 14 5 (encodeReg p amt st rt op low) = rt ∧ field 10 4 (encodeReg p amt st rt op low) = op ∧
    ∀ lo k, lo + k ≤ 10 → field lo k (encodeReg p amt st rt op low) = field lo k low := by
  refine ⟨?_, ?_, ?_, ?_, ?_, ?_, fun lo k hk => ?_⟩
  case refine_2 =>
    simp (disch := decide) only [encodeReg, decodePred_or_put, decodePred_or (field_above h 29 3 _ _),
      decodePred_encodePred]
  all_goals simp (disch := omega) [encodeReg, field_encodePred, field_above h]

theorem encodeRegsh_fields (p : Pred) (st : ShiftType) (rt : Reg) (op : BitVec 4) (rd rs : Reg) :
    field 21 8 (encodeRegsh p st rt op rd rs) = 0b10000001#8 ∧ decodePred (encodeRegsh p st rt op rd rs) = p ∧
    ShiftType.ofBits (field 19 2 (encodeRegsh p st rt op rd rs)) = st ∧
    field 14 5 (encodeRegsh p st rt op rd rs) = rt ∧ field 10 4 (encodeRegsh p st rt op rd rs) = op ∧
    field 5 5 (encodeRegsh p st rt op rd rs) = rd ∧ field 0 5 (encodeRegsh p st rt op rd rs) = rs := by
  refine ⟨?_, ?_, ?_, ?_, ?_, ?_, ?_⟩
  case refine_2 => simp (disch := decide) only [encodeRegsh, decodePred_or_put, decodePred_encodePred]
  all_goals simp (disch := omega) [encodeRegsh, field_encodePred]

/-- The first word of a Long form. -/
def longWord (p : Pred) (op : BitVec 4) (low : Word) : Word := encodePred p ||| put 28 1#1 ||| put 10 op ||| low

theorem encodeLong_eq (p : Pred) (op : BitVec 4) (low imm : Word) : encodeLong p op low imm = [longWord p op low, imm] :=
  rfl

theorem encodeLong_fields (p : Pred) (op : BitVec 4) {low : Word} (h : field 10 22 low = 0#22) :
    isLongWord (longWord p op low) = true ∧ decodePred (longWord p op low) = p ∧
    field 10 4 (longWord p op low) = op ∧
    ∀ lo k, lo + k ≤ 10 → field lo k (longWord p op low) = field lo k low := by
  refine ⟨?_, ?_, ?_, fun lo k hk => ?_⟩
  case refine_1 =>
    have format : field 14 15 (put 28 1#1) = 0b100000000000000#15 := by decide
    simp (disch := omega) [isLongWord, longWord, field_encodePred, field_above h, format]
  case refine_2 =>
    simp (disch := decide) only [longWord, decodePred_or_put, decodePred_or (field_above h 29 3 _ _),
      decodePred_encodePred]
  all_goals simp (disch := omega) [longWord, field_encodePred, field_above h]

theorem encodeLoad_fields (p : Pred) (off : BitVec 12) (op : BitVec 3) (rd rs : Reg) :
    field 25 4 (encodeLoad p off op rd rs) = 0b1001#4 ∧ decodePred (encodeLoad p off op rd rs) = p ∧
    loadOffset (encodeLoad p off op rd rs) = off ∧ field 10 3 (encodeLoad p off op rd rs) = op ∧
    field 5 5 (encodeLoad p off op rd rs) = rd ∧ field 0 5 (encodeLoad p off op rd rs) = rs := by
  refine ⟨?_, ?_, ?_, ?_, ?_, ?_⟩
  case refine_2 => simp (disch := decide) only [encodeLoad, decodePred_or_put, decodePred_encodePred]
  all_goals simp (disch := omega) [loadOffset, encodeLoad, field_encodePred]

theorem encodeStore_fields (p : Pred) (off : BitVec 12) (op : BitVec 3) (rt rs : Reg) :
    field 25 4 (encodeStore p off op rt rs) = 0b1001#4 ∧ decodePred (encodeStore p off op rt rs) = p ∧
    storeOffset (encodeStore p off op rt rs) = off ∧ field 10 3 (encodeStore p off op rt rs) = op ∧
    field 14 5 (encodeStore p off op rt rs) = rt ∧ field 0 5 (encodeStore p off op rt rs) = rs := by
  refine ⟨?_, ?_, ?_, ?_, ?_, ?_⟩
  case refine_2 => simp (disch := decide) only [encodeStore, decodePred_or_put, decodePred_encodePred]
  all_goals simp (disch := omega) [storeOffset, encodeStore, field_encodePred]

theorem encodeControl_fields (p : Pred) (op : BitVec 4) {low : Word} (h : field 20 12 low = 0#12) :
    field 24 5 (encodeControl p op low) = 0b10001#5 ∧ decodePred (encodeControl p op low) = p ∧
    field 20 4 (encodeControl p op low) = op ∧
    ∀ lo k, lo + k ≤ 20 → field lo k (encodeControl p op low) = field lo k low := by
  refine ⟨?_, ?_, ?_, fun lo k hk => ?_⟩
  case refine_2 =>
    simp (disch := decide) only [encodeControl, decodePred_or_put, decodePred_or (field_above h 29 3 _ _),
      decodePred_encodePred]
  all_goals simp (disch := omega) [encodeControl, field_encodePred, field_above h]

/-- The three kinds of operands in bits 9:0 leave the other bits 0. -/
theorem lowRegs_above (rd rs : Reg) : field 10 22 (lowRegs rd rs) = 0#22 := by simp [lowRegs]

theorem lowCompare_above (ctype : BitVec 3) (pd : PredReg) (rs : Reg) :
    field 10 22 (lowCompare ctype pd rs) = 0#22 := by simp [lowCompare]

theorem lowConst_above (rd : Reg) (imm : BitVec 15) : field 10 22 (lowConst rd imm) = 0#22 := by simp [lowConst]

-- The decoder on an encoded word --------------------------------------------------------------------------------------

-- Everywhere below `row` is a row of the opcode table: how the decoder reads every word of the format that has the given
-- opcode or compare type.

section
variable {op : BitVec 4} (next : Option Word) (p : Pred)

theorem decode_twoOperandShort {f : Pred → BitVec 10 → BitVec 4 → Reg → Reg → Instr} (imm : BitVec 10) (rot : BitVec 4)
    (rd rs : Reg)
    (row : ∀ w, field 10 4 w = op →
      decodeAluShort w = .ok (f (decodePred w) (field 18 10 w) (field 14 4 w) (field 5 5 w) (field 0 5 w))) :
    decodeWord (encodeShort p imm rot op (lowRegs rd rs)) next = .ok (f p imm rot rd rs) := by
  obtain ⟨h28, hp, himm, hrot, hop, hlow⟩ := encodeShort_fields p imm rot op (lowRegs_above rd rs)
  rw [decodeWord_short next h28, row _ hop, hp, himm, hrot, hlow 5 5 (by decide), hlow 0 5 (by decide)]
  simp [lowRegs]

theorem decode_oneOperandShort {f : Pred → BitVec 15 → BitVec 4 → Reg → Instr} (imm : BitVec 15) (rot : BitVec 4)
    (rd : Reg)
    (row : ∀ w, field 10 4 w = op →
      decodeAluShort w = .ok (f (decodePred w) (field 0 5 w ++ field 18 10 w) (field 14 4 w) (field 5 5 w))) :
    decodeWord (encodeShort p (imm.extractLsb' 0 10) rot op (lowConst rd imm)) next = .ok (f p imm rot rd) := by
  obtain ⟨h28, hp, himm, hrot, hop, hlow⟩ :=
    encodeShort_fields p (imm.extractLsb' 0 10) rot op (lowConst_above rd imm)
  rw [decodeWord_short next h28, row _ hop, hp, himm, hrot, hlow 5 5 (by decide), hlow 0 5 (by decide)]
  simp [lowConst]

theorem decode_compareShort {f : Pred → BitVec 10 → BitVec 4 → PredReg → Reg → Instr} {ctype : BitVec 3}
    (imm : BitVec 10) (rot : BitVec 4) (pd : PredReg) (rs : Reg)
    (row : ∀ w, field 7 3 w = ctype →
      decodeCompareShort w = .ok (f (decodePred w) (field 18 10 w) (field 14 4 w) (field 5 2 w) (field 0 5 w))) :
    decodeWord (encodeShort p imm rot 0b0111#4 (lowCompare ctype pd rs)) next = .ok (f p imm rot pd rs) := by
  obtain ⟨h28, hp, himm, hrot, hop, hlow⟩ := encodeShort_fields p imm rot 0b0111#4 (lowCompare_above ctype pd rs)
  have h7 := hlow 7 3 (by decide)
  rw [decodeWord_short next h28, decodeAluShort, hop]
  refine (row _ (h7.trans (by simp [lowCompare]))).trans ?_
  rw [hp, himm, hrot, hlow 5 2 (by decide), hlow 0 5 (by decide)]
  simp [lowCompare]

theorem decode_twoOperandReg {f : Pred → BitVec 5 → ShiftType → Reg → Reg → Reg → Instr} (amt : BitVec 5)
    (st : ShiftType) (rt rd rs : Reg)
    (row : ∀ w, field 10 4 w = op →
      decodeAluReg w = .ok (f (decodePred w) (field 21 5 w) (ShiftType.ofBits (field 19 2 w)) (field 14 5 w)
        (field 5 5 w) (field 0 5 w))) :
    decodeWord (encodeReg p amt st rt op (lowRegs rd rs)) next = .ok (f p amt st rt rd rs) := by
  obtain ⟨h26, hp, hamt, hst, hrt, hop, hlow⟩ := encodeReg_fields p amt st rt op (lowRegs_above rd rs)
  rw [decodeWord_register next h26, row _ hop, hp, hamt, hst, hrt, hlow 5 5 (by decide), hlow 0 5 (by decide)]
  simp [lowRegs]

/-- The encoder writes 0 in bits 4:0, which the decoder ignores (R107). -/
theorem decode_oneOperandReg {f : Pred → BitVec 5 → ShiftType → Reg → Reg → Instr} (amt : BitVec 5) (st : ShiftType)
    (rt rd : Reg)
    (row : ∀ w, field 10 4 w = op →
      decodeAluReg w = .ok (f (decodePred w) (field 21 5 w) (ShiftType.ofBits (field 19 2 w)) (field 14 5 w)
        (field 5 5 w))) :
    decodeWord (encodeReg p amt st rt op (lowRegs rd 0#5)) next = .ok (f p amt st rt rd) :=
  decode_twoOperandReg (f := fun p amt st rt rd _ => f p amt st rt rd) next p amt st rt rd 0#5 row

theorem decode_compareReg {f : Pred → BitVec 5 → ShiftType → Reg → PredReg → Reg → Instr} {ctype : BitVec 3}
    (amt : BitVec 5) (st : ShiftType) (rt : Reg) (pd : PredReg) (rs : Reg)
    (row : ∀ w, field 7 3 w = ctype →
      decodeCompareReg w = .ok (f (decodePred w) (field 21 5 w) (ShiftType.ofBits (field 19 2 w)) (field 14 5 w)
        (field 5 2 w) (field 0 5 w))) :
    decodeWord (encodeReg p amt st rt 0b0111#4 (lowCompare ctype pd rs)) next = .ok (f p amt st rt pd rs) := by
  obtain ⟨h26, hp, hamt, hst, hrt, hop, hlow⟩ := encodeReg_fields p amt st rt 0b0111#4 (lowCompare_above ctype pd rs)
  have h7 := hlow 7 3 (by decide)
  rw [decodeWord_register next h26, decodeAluReg, hop]
  refine (row _ (h7.trans (by simp [lowCompare]))).trans ?_
  rw [hp, hamt, hst, hrt, hlow 5 2 (by decide), hlow 0 5 (by decide)]
  simp [lowCompare]

theorem decode_regsh {f : Pred → ShiftType → Reg → Reg → Reg → Instr} (st : ShiftType) (rt rd rs : Reg)
    (row : ∀ w, field 10 4 w = op →
      decodeRegsh w = .ok (f (decodePred w) (ShiftType.ofBits (field 19 2 w)) (field 14 5 w) (field 5 5 w)
        (field 0 5 w))) :
    decodeWord (encodeRegsh p st rt op rd rs) next = .ok (f p st rt rd rs) := by
  obtain ⟨h21, hp, hst, hrt, hop, hrd, hrs⟩ := encodeRegsh_fields p st rt op rd rs
  rw [decodeWord_regsh next h21, row _ hop, hp, hst, hrt, hrd, hrs]

theorem decode_twoOperandLong {f : Pred → Word → Reg → Reg → Instr} (imm : Word) (rd rs : Reg)
    (row : ∀ w, field 10 4 w = op → decodeAluLong w imm = .ok (f (decodePred w) imm (field 5 5 w) (field 0 5 w))) :
    decodeWord (longWord p op (lowRegs rd rs)) (some imm) = .ok (f p imm rd rs) := by
  obtain ⟨hl, hp, hop, hlow⟩ := encodeLong_fields p op (lowRegs_above rd rs)
  rw [decodeWord_long imm hl, row _ hop, hp, hlow 5 5 (by decide), hlow 0 5 (by decide)]
  simp [lowRegs]

/-- The encoder writes 0 in bits 4:0, which the decoder ignores (R107). -/
theorem decode_oneOperandLong {f : Pred → Word → Reg → Instr} (imm : Word) (rd : Reg)
    (row : ∀ w, field 10 4 w = op → decodeAluLong w imm = .ok (f (decodePred w) imm (field 5 5 w))) :
    decodeWord (longWord p op (lowRegs rd 0#5)) (some imm) = .ok (f p imm rd) :=
  decode_twoOperandLong (f := fun p imm rd _ => f p imm rd) p imm rd 0#5 row

theorem decode_compareLong {f : Pred → Word → PredReg → Reg → Instr} {ctype : BitVec 3} (imm : Word) (pd : PredReg)
    (rs : Reg)
    (row : ∀ w, field 7 3 w = ctype →
      decodeCompareLong w imm = .ok (f (decodePred w) imm (field 5 2 w) (field 0 5 w))) :
    decodeWord (longWord p 0b0111#4 (lowCompare ctype pd rs)) (some imm) = .ok (f p imm pd rs) := by
  obtain ⟨hl, hp, hop, hlow⟩ := encodeLong_fields p 0b0111#4 (lowCompare_above ctype pd rs)
  have h7 := hlow 7 3 (by decide)
  rw [decodeWord_long imm hl, decodeAluLong, hop]
  refine (row _ (h7.trans (by simp [lowCompare]))).trans ?_
  rw [hp, hlow 5 2 (by decide), hlow 0 5 (by decide)]
  simp [lowCompare]

theorem decode_load {op : BitVec 3} {f : Pred → BitVec 12 → Reg → Reg → Instr} (off : BitVec 12) (rd rs : Reg)
    (row : ∀ w, field 10 3 w = op → decodeLsu w = f (decodePred w) (loadOffset w) (field 5 5 w) (field 0 5 w)) :
    decodeWord (encodeLoad p off op rd rs) next = .ok (f p off rd rs) := by
  obtain ⟨h25, hp, hoff, hop, hrd, hrs⟩ := encodeLoad_fields p off op rd rs
  rw [decodeWord_lsu next h25, row _ hop, hp, hoff, hrd, hrs]

theorem decode_store {op : BitVec 3} {f : Pred → BitVec 12 → Reg → Reg → Instr} (off : BitVec 12) (rt rs : Reg)
    (row : ∀ w, field 10 3 w = op → decodeLsu w = f (decodePred w) (storeOffset w) (field 14 5 w) (field 0 5 w)) :
    decodeWord (encodeStore p off op rt rs) next = .ok (f p off rt rs) := by
  obtain ⟨h25, hp, hoff, hop, hrt, hrs⟩ := encodeStore_fields p off op rt rs
  rw [decodeWord_lsu next h25, row _ hop, hp, hoff, hrt, hrs]

theorem decode_control {i : Instr} {low : Word} (h : field 20 12 low = 0#12)
    (row : ∀ w, decodePred w = p → field 20 4 w = op → (∀ lo k, lo + k ≤ 20 → field lo k w = field lo k low) →
      decodeControl w = .ok i) :
    decodeWord (encodeControl p op low) next = .ok i := by
  obtain ⟨h24, hp, hop, hlow⟩ := encodeControl_fields p op h
  rw [decodeWord_control next h24, row _ hp hop hlow]

/-- Bit 25 tells B and BL apart (R90). -/
theorem decode_branchImm (link : BitVec 1) (off : BitVec 25) :
    decodeWord (encodePred p ||| put 26 0b110#3 ||| put 25 link ||| put 0 off) next =
      .ok (if link = 0#1 then .bImm p off else .blImm p off) := by
  rw [decodeWord_branchImm next (by simp (disch := omega) [field_encodePred]), decodeBranchImm]
  simp (disch := omega) only [field_or, field_encodePred, field_put_same, field_put_beside, decodePred_or_put,
    decodePred_encodePred, BitVec.or_zero, BitVec.zero_or]

/-- Bit 25 tells B and BL apart (R91). -/
theorem decode_branchReg (link : BitVec 1) (off : BitVec 20) (rs : Reg) :
    decodeWord (encodePred p ||| put 26 0b111#3 ||| put 25 link ||| put 5 off ||| put 0 rs) next =
      .ok (if link = 0#1 then .bReg p off rs else .blReg p off rs) := by
  rw [decodeWord_branchReg next (by simp (disch := omega) [field_encodePred]), decodeBranchReg]
  simp (disch := omega) only [field_or, field_encodePred, field_put_same, field_put_beside, decodePred_or_put,
    decodePred_encodePred, BitVec.or_zero, BitVec.zero_or]

end

-- Every instruction -----------------------------------------------------------------------------------------------------

/-- An instruction that is no Long form is one word, which decodes to it whatever the next word is. -/
theorem encode_oneWord {i : Instr} (h : i.isLong = false) :
    ∃ w, encode i = [w] ∧ ∀ next, decodeWord w next = .ok i := by
  cases i
  case addLong | andLong | norLong | orLong | subLong | rsbLong | xorLong | movLong | mvnLong | sxbLong | sxhLong
    | cmpltuLong | cmpleuLong | cmpeqLong | cmpltsLong | cmplesLong | cmpbsLong | cmpbcLong => cases h
  case addShort | andShort | norShort | orShort | subShort | rsbShort | xorShort =>
    exact ⟨_, rfl, fun next => decode_twoOperandShort next _ _ _ _ _ fun w hop => by rw [decodeAluShort, hop]; rfl⟩
  case movShort | mvnShort | sxbShort | sxhShort =>
    exact ⟨_, rfl, fun next => decode_oneOperandShort next _ _ _ _ fun w hop => by rw [decodeAluShort, hop]; rfl⟩
  case cmpltuShort | cmpleuShort | cmpeqShort | cmpltsShort | cmplesShort | cmpbsShort | cmpbcShort =>
    exact ⟨_, rfl, fun next => decode_compareShort next _ _ _ _ _ fun w hc => by rw [decodeCompareShort, hc]; rfl⟩
  case addReg | andReg | norReg | orReg | subReg | rsbReg | xorReg =>
    exact ⟨_, rfl, fun next => decode_twoOperandReg next _ _ _ _ _ _ fun w hop => by rw [decodeAluReg, hop]; rfl⟩
  case movReg | mvnReg | sxbReg | sxhReg =>
    exact ⟨_, rfl, fun next => decode_oneOperandReg next _ _ _ _ _ fun w hop => by rw [decodeAluReg, hop]; rfl⟩
  case movRegsh | mvnRegsh | sxbRegsh | sxhRegsh =>
    exact ⟨_, rfl, fun next => decode_regsh next _ _ _ _ _ fun w hop => by rw [decodeRegsh, hop]; rfl⟩
  case cmpltuReg | cmpleuReg | cmpeqReg | cmpltsReg | cmplesReg | cmpbsReg | cmpbcReg =>
    exact ⟨_, rfl, fun next => decode_compareReg next _ _ _ _ _ _ fun w hc => by rw [decodeCompareReg, hc]; rfl⟩
  case bImm | blImm => exact ⟨_, rfl, fun next => decode_branchImm next _ _ _⟩
  case bReg | blReg => exact ⟨_, rfl, fun next => decode_branchReg next _ _ _ _⟩
  case lb | lh | lw | ll =>
    exact ⟨_, rfl, fun next => decode_load next _ _ _ _ fun w hop => by rw [decodeLsu, hop]; rfl⟩
  case sb | sh | sw | sc =>
    exact ⟨_, rfl, fun next => decode_store next _ _ _ _ fun w hop => by rw [decodeLsu, hop]; rfl⟩
  case breakpoint | syscall | fence | eret =>
    exact ⟨_, rfl, fun next => decode_control next _ (by simp) fun w hp hop _ => by rw [decodeControl, hp, hop]; rfl⟩
  case flush | mfc | mult | mults | div =>
    refine ⟨_, rfl, fun next => decode_control next _ (by simp) fun w hp hop hlow => ?_⟩
    rw [decodeControl, hp, hop]
    simp [hlow]
  case mtc | mfhi | mthi =>
    refine ⟨_, rfl, fun next => decode_control next _ (by simp) fun w hp hop hlow => ?_⟩
    rw [decodeControl, hp, hop]
    simp [hlow, Config.ctrlopMtc, Config.ctrlopMfhi, Config.ctrlopMthi]

/-- A Long form is two words, and the first decodes to it with the second. -/
theorem encode_twoWords {i : Instr} (h : i.isLong = true) :
    ∃ w imm, encode i = [w, imm] ∧ decodeWord w (some imm) = .ok i := by
  cases i
  case addLong | andLong | norLong | orLong | subLong | rsbLong | xorLong =>
    exact ⟨_, _, rfl, decode_twoOperandLong _ _ _ _ fun w hop => by rw [decodeAluLong, hop]; rfl⟩
  case movLong | mvnLong | sxbLong | sxhLong =>
    exact ⟨_, _, rfl, decode_oneOperandLong _ _ _ fun w hop => by rw [decodeAluLong, hop]; rfl⟩
  case cmpltuLong | cmpleuLong | cmpeqLong | cmpltsLong | cmplesLong | cmpbsLong | cmpbcLong =>
    exact ⟨_, _, rfl, decode_compareLong _ _ _ _ fun w hc => by rw [decodeCompareLong, hc]; rfl⟩
  all_goals cases h

theorem isLongWord_of_decode {w : Word} {next : Option Word} {i : Instr} (h : decodeWord w next = .ok i) :
    isLongWord w = i.isLong :=
  (reads_decodeWord w next i h).2.symm

/-- Settles O1: an instruction is one word that is no Long form, or two, of which the first is one. -/
theorem decodeEncodeRoundTrip : Obligations.DecodeEncodeRoundTrip := by
  intro i rest
  cases hl : i.isLong with
  | false =>
    obtain ⟨w, he, hd⟩ := encode_oneWord hl
    have hw : isLongWord w = false := (isLongWord_of_decode (hd none)).trans hl
    simp [encodeBytes, he, decodeBytes_oneWord w rest hw, hd, Except.map]
  | true =>
    obtain ⟨w, imm, he, hd⟩ := encode_twoWords hl
    have hw : isLongWord w = true := (isLongWord_of_decode hd).trans hl
    simp [encodeBytes, he, decodeBytes_twoWords w imm rest hw, hd, Except.map]

end Sys2Proof.Machine


/-! PROOF. The decoder and back (30_encoding R82, R92, R106, R107). A field put back where it was read is the word under
a mask; so an encoded word is the word that was read under the union of the masks of its fields. -/

namespace Sys2Proof.Machine

-- Fields put back -------------------------------------------------------------------------------------------------------

/-- A field put back where it was read is the word on the bits of the field. -/
theorem put_field (w : Word) (lo k : Nat) : put lo (field lo k w) = w &&& put lo (BitVec.allOnes k) := by
  ext i hi
  by_cases hlo : i < lo
  · simp [put, hlo]
  · have : lo + (i - lo) = i := by omega
    by_cases hk : i - lo < k <;> simp [put, field, hlo, hk, this, hi]

theorem encodePred_decodePred (w : Word) : encodePred (decodePred w) = w &&& 0xE0000000#32 := by
  have hinv : BitVec.ofBool (field 29 1 w == 1#1) = field 29 1 w := by
    generalize field 29 1 w = b
    revert b
    decide
  rw [encodePred, decodePred, hinv, put_field, put_field, ← BitVec.and_or_distrib_left]
  rfl

@[simp] theorem shiftType_bits_ofBits (b : BitVec 2) : (ShiftType.ofBits b).bits = b := by
  revert b
  decide

@[simp] theorem flushType_bits_ofBits (b : BitVec 2) : (FlushType.ofBits b).bits = b := by
  revert b
  decide

theorem lowRegs_field (w : Word) : lowRegs (field 5 5 w) (field 0 5 w) = w &&& 0x3FF#32 := by
  rw [lowRegs, put_field, put_field, ← BitVec.and_or_distrib_left]
  rfl

theorem lowRegs_rd (w : Word) : lowRegs (field 5 5 w) 0#5 = w &&& 0x3E0#32 := by
  rw [lowRegs, put_field]
  exact BitVec.or_zero

theorem lowCompare_field {w : Word} {ctype : BitVec 3} (h : (field 7 3 w).toNat = ctype.toNat) :
    lowCompare ctype (field 5 2 w) (field 0 5 w) = w &&& 0x3FF#32 := by
  rw [lowCompare, ← BitVec.eq_of_toNat_eq h, put_field, put_field, put_field]
  simp only [← BitVec.and_or_distrib_left]
  rfl

theorem lowConst_field (w : Word) : lowConst (field 5 5 w) (field 0 5 w ++ field 18 10 w) = w &&& 0x3FF#32 := by
  have hhigh : (field 0 5 w ++ field 18 10 w).extractLsb' 10 5 = field 0 5 w := BitVec.extractLsb'_append_eq_left
  rw [lowConst, hhigh, put_field, put_field, ← BitVec.and_or_distrib_left]
  rfl

theorem lowProduct_field {w : Word} {b : BitVec 1} (h : field 19 1 w = b) :
    put 19 b ||| put 14 (field 14 5 w) ||| put 5 (field 5 5 w) ||| put 0 (field 0 5 w) = w &&& 0xFC3FF#32 := by
  rw [← h]
  simp only [put_field, ← BitVec.and_or_distrib_left]
  rfl

theorem lowDiv_field (w : Word) :
    put 14 (field 14 5 w) ||| put 5 (field 5 5 w) ||| put 0 (field 0 5 w) = w &&& 0x7C3FF#32 := by
  simp only [put_field, ← BitVec.and_or_distrib_left]
  rfl

theorem lowFlush_field (w : Word) :
    put 10 (FlushType.ofBits (field 10 2 w)).bits ||| put 0 (field 0 5 w) = w &&& 0xC1F#32 := by
  simp only [flushType_bits_ofBits, put_field, ← BitVec.and_or_distrib_left]
  rfl

section
variable {w : Word}

theorem encodeShort_field {op : BitVec 4} {low : Word} (h28 : field 28 1 w = 0#1)
    (hop : (field 10 4 w).toNat = op.toNat) (hlow : low = w &&& 0x3FF#32) :
    encodeShort (decodePred w) (field 18 10 w) (field 14 4 w) op low = w &&& 0xFFFFFFFF#32 := by
  have hzero : put 28 (field 28 1 w) = 0#32 := by
    rw [h28]
    rfl
  rw [← BitVec.or_zero (x := encodeShort ..), ← hzero, encodeShort, encodePred_decodePred, ← BitVec.eq_of_toNat_eq hop,
    hlow]
  simp only [put_field, ← BitVec.and_or_distrib_left]
  rfl

theorem encodeReg_field {op : BitVec 4} {low m m' : Word} (h26 : field 26 3 w = 0b101#3)
    (hop : (field 10 4 w).toNat = op.toNat) (hlow : low = w &&& m) (hm : 0xFFFFFC00#32 ||| m = m') :
    encodeReg (decodePred w) (field 21 5 w) (ShiftType.ofBits (field 19 2 w)) (field 14 5 w) op low = w &&& m' := by
  rw [← hm, encodeReg, encodePred_decodePred, ← BitVec.eq_of_toNat_eq hop, ← h26, hlow]
  simp only [shiftType_bits_ofBits, put_field, ← BitVec.and_or_distrib_left]
  rfl

theorem encodeRegsh_field {op : BitVec 4} (h21 : field 21 8 w = 0b10000001#8)
    (hop : (field 10 4 w).toNat = op.toNat) :
    encodeRegsh (decodePred w) (ShiftType.ofBits (field 19 2 w)) (field 14 5 w) op (field 5 5 w) (field 0 5 w) =
      w &&& 0xFFFFFFFF#32 := by
  rw [encodeRegsh, encodePred_decodePred, ← BitVec.eq_of_toNat_eq hop, ← h21]
  simp only [shiftType_bits_ofBits, put_field, ← BitVec.and_or_distrib_left]
  rfl

theorem longWord_field {op : BitVec 4} {low m m' : Word} (hw : isLongWord w = true)
    (hop : (field 10 4 w).toNat = op.toNat) (hlow : low = w &&& m) (hm : 0xFFFFFC00#32 ||| m = m') :
    longWord (decodePred w) op low = w &&& m' := by
  have format : put 28 1#1 = put 14 (field 14 15 w) := by
    rw [beq_iff_eq.mp hw]
    rfl
  rw [← hm, longWord, encodePred_decodePred, ← BitVec.eq_of_toNat_eq hop, format, hlow]
  simp only [put_field, ← BitVec.and_or_distrib_left]
  rfl

theorem encodeLoad_field {op : BitVec 3} (h25 : field 25 4 w = 0b1001#4) (hop : (field 10 3 w).toNat = op.toNat) :
    encodeLoad (decodePred w) (loadOffset w) op (field 5 5 w) (field 0 5 w) = w &&& 0xFFFFFFFF#32 := by
  rw [encodeLoad, encodePred_decodePred, ← BitVec.eq_of_toNat_eq hop, ← h25, loadOffset]
  simp only [put_field, ← BitVec.and_or_distrib_left]
  rfl

/-- The parts of a store offset are the fields it was read from (R100). -/
theorem storeOffset_parts (w : Word) :
    (storeOffset w).extractLsb' 6 6 = field 19 6 w ∧ (storeOffset w).extractLsb' 5 1 = field 13 1 w ∧
    (storeOffset w).extractLsb' 0 5 = field 5 5 w := by
  exact ⟨(BitVec.extractLsb'_append_eq_of_le (by decide)).trans BitVec.extractLsb'_append_eq_left,
    (BitVec.extractLsb'_append_eq_of_le (by decide)).trans BitVec.extractLsb'_append_eq_right,
    BitVec.extractLsb'_append_eq_right⟩

theorem encodeStore_field {op : BitVec 3} (h25 : field 25 4 w = 0b1001#4) (hop : (field 10 3 w).toNat = op.toNat) :
    encodeStore (decodePred w) (storeOffset w) op (field 14 5 w) (field 0 5 w) = w &&& 0xFFFFFFFF#32 := by
  obtain ⟨h6, h5, h0⟩ := storeOffset_parts w
  rw [encodeStore, encodePred_decodePred, ← BitVec.eq_of_toNat_eq hop, ← h25, h6, h5, h0]
  simp only [put_field, ← BitVec.and_or_distrib_left]
  rfl

theorem encodeControl_field {op : BitVec 4} {low m m' : Word} (h24 : field 24 5 w = 0b10001#5)
    (hop : field 20 4 w = op) (hlow : low = w &&& m) (hm : 0xFFF00000#32 ||| m = m') :
    encodeControl (decodePred w) op low = w &&& m' := by
  rw [← hm, encodeControl, encodePred_decodePred, ← hop, ← h24, hlow]
  simp only [put_field, ← BitVec.and_or_distrib_left]
  rfl

end

/-- Two fields side by side are one. -/
theorem field_join {w : Word} (lo j k : Nat) {a : BitVec j} {b : BitVec k} (ha : field (lo + k) j w = a)
    (hb : field lo k w = b) : field lo (j + k) w = a ++ b := by
  subst ha hb
  exact (BitVec.extractLsb'_append_extractLsb'_eq_extractLsb' rfl).symm

theorem bit_eq_zero {b : BitVec 1} (h : b ≠ 1#1) : b = 0#1 := by
  revert b
  decide

theorem bit_eq_one {b : BitVec 1} (h : b ≠ 0#1) : b = 1#1 := by
  revert b
  decide

-- A word that decodes ---------------------------------------------------------------------------------------------------

/-- Where a reading of the word `w` gives an instruction, the encoder writes back the used bits of `w` and the operand
of a Long form. -/
def WritesBack (w : Word) (next : Option Word) (x : Except DecodeError Instr) : Prop :=
  ∀ i, x = .ok i → (encode i).head? = some (w &&& usedBits i) ∧ (i.isLong = true → (encode i)[1]? = next)

section
variable {w : Word} {next : Option Word} {i : Instr} {v m : Word}

theorem writesBack_error {e : DecodeError} : WritesBack w next (.error e) := by
  intro j hj
  cases hj

theorem writesBack_oneWord (he : encode i = [v]) (hl : i.isLong = false) (hu : usedBits i = m) (hv : v = w &&& m) :
    WritesBack w next (.ok i) := by
  intro j hj
  cases hj
  simp [he, hl, hu, hv]

theorem writesBack_twoWords {imm : Word} (he : encode i = [v, imm]) (hu : usedBits i = m) (hv : v = w &&& m) :
    WritesBack w (some imm) (.ok i) := by
  intro j hj
  cases hj
  simp [he, hu, hv]

theorem writesBack_ite {c : Prop} [Decidable c] {x y : Except DecodeError Instr} (hx : c → WritesBack w next x)
    (hy : ¬c → WritesBack w next y) : WritesBack w next (if c then x else y) := by
  split
  case isTrue h => exact hx h
  case isFalse h => exact hy h

theorem writesBack_compareShort (h28 : field 28 1 w = 0#1) (hop : (field 10 4 w).toNat = 7) :
    WritesBack w next (decodeCompareShort w) := by
  unfold decodeCompareShort
  dsimp only
  split
  case h_8 => exact writesBack_error
  all_goals
    next hc => exact writesBack_oneWord rfl rfl rfl (encodeShort_field h28 hop (lowCompare_field hc))

theorem writesBack_aluShort (h28 : field 28 1 w = 0#1) : WritesBack w next (decodeAluShort w) := by
  have hhigh : (field 0 5 w ++ field 18 10 w).extractLsb' 0 10 = field 18 10 w := BitVec.extractLsb'_append_eq_right
  have oneOperand {op : BitVec 4} (hop : (field 10 4 w).toNat = op.toNat) :
      encodeShort (decodePred w) ((field 0 5 w ++ field 18 10 w).extractLsb' 0 10) (field 14 4 w) op
        (lowConst (field 5 5 w) (field 0 5 w ++ field 18 10 w)) = w &&& 0xFFFFFFFF#32 := by
    rw [hhigh]
    exact encodeShort_field h28 hop (lowConst_field w)
  unfold decodeAluShort
  dsimp only
  split
  case h_8 hop => exact writesBack_compareShort h28 hop
  case h_13 => exact writesBack_error
  case h_1 hop | h_2 hop | h_3 hop | h_4 hop | h_5 hop | h_6 hop | h_7 hop =>
    exact writesBack_oneWord rfl rfl rfl (encodeShort_field h28 hop (lowRegs_field w))
  case h_9 hop | h_10 hop | h_11 hop | h_12 hop => exact writesBack_oneWord rfl rfl rfl (oneOperand hop)

theorem writesBack_compareReg (h26 : field 26 3 w = 0b101#3) (hop : (field 10 4 w).toNat = 7) :
    WritesBack w next (decodeCompareReg w) := by
  unfold decodeCompareReg
  dsimp only
  split
  case h_8 => exact writesBack_error
  all_goals
    next hc => exact writesBack_oneWord rfl rfl rfl (encodeReg_field h26 hop (lowCompare_field hc) rfl)

theorem writesBack_aluReg (h26 : field 26 3 w = 0b101#3) : WritesBack w next (decodeAluReg w) := by
  unfold decodeAluReg
  dsimp only
  split
  case h_8 hop => exact writesBack_compareReg h26 hop
  case h_13 => exact writesBack_error
  case h_1 hop | h_2 hop | h_3 hop | h_4 hop | h_5 hop | h_6 hop | h_7 hop =>
    exact writesBack_oneWord rfl rfl rfl (encodeReg_field h26 hop (lowRegs_field w) rfl)
  case h_9 hop | h_10 hop | h_11 hop | h_12 hop =>
    exact writesBack_oneWord rfl rfl rfl (encodeReg_field h26 hop (lowRegs_rd w) rfl)

theorem writesBack_compareLong {imm : Word} (hw : isLongWord w = true) (hop : (field 10 4 w).toNat = 7) :
    WritesBack w (some imm) (decodeCompareLong w imm) := by
  unfold decodeCompareLong
  dsimp only
  split
  case h_8 => exact writesBack_error
  all_goals
    next hc => exact writesBack_twoWords rfl rfl (longWord_field hw hop (lowCompare_field hc) rfl)

theorem writesBack_aluLong {imm : Word} (hw : isLongWord w = true) : WritesBack w (some imm) (decodeAluLong w imm) := by
  unfold decodeAluLong
  dsimp only
  split
  case h_8 hop => exact writesBack_compareLong hw hop
  case h_13 => exact writesBack_error
  case h_1 hop | h_2 hop | h_3 hop | h_4 hop | h_5 hop | h_6 hop | h_7 hop =>
    exact writesBack_twoWords rfl rfl (longWord_field hw hop (lowRegs_field w) rfl)
  case h_9 hop | h_10 hop | h_11 hop | h_12 hop =>
    exact writesBack_twoWords rfl rfl (longWord_field hw hop (lowRegs_rd w) rfl)

theorem writesBack_regsh (h21 : field 21 8 w = 0b10000001#8) : WritesBack w next (decodeRegsh w) := by
  unfold decodeRegsh
  dsimp only
  split
  case h_5 => exact writesBack_error
  all_goals
    next hop => exact writesBack_oneWord rfl rfl rfl (encodeRegsh_field h21 hop)

theorem writesBack_lsu (h25 : field 25 4 w = 0b1001#4) : WritesBack w next (.ok (decodeLsu w)) := by
  unfold decodeLsu
  dsimp only
  split
  case h_1 hop | h_2 hop | h_3 hop | h_4 hop =>
    exact writesBack_oneWord rfl rfl rfl (encodeLoad_field h25 hop)
  case h_5 hop | h_6 hop | h_7 hop => exact writesBack_oneWord rfl rfl rfl (encodeStore_field h25 hop)
  case h_8 h0 h1 h2 h3 h4 h5 h6 =>
    have hop : (field 10 3 w).toNat = 7 := by
      have := (field 10 3 w).isLt
      simp only [imp_false] at h0 h1 h2 h3 h4 h5 h6
      omega
    exact writesBack_oneWord rfl rfl rfl (encodeStore_field h25 hop)

theorem writesBack_branchImm (h26 : field 26 3 w = 0b110#3) : WritesBack w next (.ok (decodeBranchImm w)) := by
  have back {b : BitVec 1} (hb : field 25 1 w = b) :
      encodePred (decodePred w) ||| put 26 0b110#3 ||| put 25 b ||| put 0 (field 0 25 w) = w &&& 0xFFFFFFFF#32 := by
    rw [encodePred_decodePred, ← h26, ← hb]
    simp only [put_field, ← BitVec.and_or_distrib_left]
    rfl
  unfold decodeBranchImm
  dsimp only
  split
  case isTrue hb => exact writesBack_oneWord rfl rfl rfl (back hb)
  case isFalse hb => exact writesBack_oneWord rfl rfl rfl (back (bit_eq_one hb))

theorem writesBack_branchReg (h26 : field 26 3 w = 0b111#3) : WritesBack w next (.ok (decodeBranchReg w)) := by
  have back {b : BitVec 1} (hb : field 25 1 w = b) :
      encodePred (decodePred w) ||| put 26 0b111#3 ||| put 25 b ||| put 5 (field 5 20 w) ||| put 0 (field 0 5 w) =
        w &&& 0xFFFFFFFF#32 := by
    rw [encodePred_decodePred, ← h26, ← hb]
    simp only [put_field, ← BitVec.and_or_distrib_left]
    rfl
  unfold decodeBranchReg
  dsimp only
  split
  case isTrue hb => exact writesBack_oneWord rfl rfl rfl (back hb)
  case isFalse hb => exact writesBack_oneWord rfl rfl rfl (back (bit_eq_one hb))

theorem writesBack_control (h24 : field 24 5 w = 0b10001#5) : WritesBack w next (decodeControl w) := by
  have noOperand : 0#32 = w &&& 0#32 := BitVec.and_zero.symm
  have back {i : Instr} {op : BitVec 4} {low m : Word} (hop : field 20 4 w = op) (hlow : low = w &&& m)
      (he : encode i = [encodeControl (decodePred w) op low]) (hl : i.isLong = false)
      (hm : 0xFFF00000#32 ||| m = usedBits i) : WritesBack w next (.ok i) :=
    writesBack_oneWord he hl rfl (encodeControl_field h24 hop hlow hm)
  unfold decodeControl
  dsimp only
  refine writesBack_ite (fun hop => back hop noOperand rfl rfl rfl) fun _ => ?_
  refine writesBack_ite (fun hop => back hop noOperand rfl rfl rfl) fun _ => ?_
  refine writesBack_ite (fun hop => back hop noOperand rfl rfl rfl) fun _ => ?_
  refine writesBack_ite (fun hop => back hop noOperand rfl rfl rfl) fun _ => ?_
  refine writesBack_ite (fun hop => back hop (lowFlush_field w) rfl rfl rfl) fun _ => ?_
  refine writesBack_ite (fun hop => back hop (lowRegs_field w) rfl rfl rfl) fun _ => ?_
  refine writesBack_ite (fun hop => ?_) fun _ => ?_
  · split
    case isTrue hb => exact back hop (lowProduct_field hb) rfl rfl rfl
    case isFalse hb => exact back hop (lowProduct_field (bit_eq_one hb)) rfl rfl rfl
  refine writesBack_ite (fun hop => back hop (lowDiv_field w) rfl rfl rfl) fun _ => ?_
  refine writesBack_ite (fun hop => back hop (lowRegs_field w) rfl rfl rfl) fun _ => ?_
  refine writesBack_ite (fun hop => back hop (put_field w 5 5) rfl rfl rfl) fun _ => ?_
  refine writesBack_ite (fun hop => back hop (put_field w 0 5) rfl rfl rfl) fun _ => ?_
  exact writesBack_error

/-- The format tree: the fields that its branches test make up the field that each format fixes. -/
theorem writesBack_decodeWord (w : Word) (next : Option Word) : WritesBack w next (decodeWord w next) := by
  have two : ∀ b : BitVec 2, b ≠ 1#2 → b ≠ 2#2 → b ≠ 3#2 → b = 0#2 := by decide
  unfold decodeWord
  refine writesBack_ite writesBack_aluShort fun h => ?_
  have h28 := bit_eq_one h
  refine writesBack_ite (fun h => writesBack_aluReg (field_join 26 1 2 h28 h)) fun h1 => ?_
  refine writesBack_ite (fun h => writesBack_branchImm (field_join 26 1 2 h28 h)) fun h2 => ?_
  refine writesBack_ite (fun h => writesBack_branchReg (field_join 26 1 2 h28 h)) fun h3 => ?_
  have h26 : field 26 3 w = 0b100#3 := field_join 26 1 2 h28 (two _ h1 h2 h3)
  refine writesBack_ite (fun h => writesBack_lsu (field_join 25 3 1 h26 h)) fun h => ?_
  have h25 : field 25 4 w = 0b1000#4 := field_join 25 3 1 h26 (bit_eq_zero h)
  refine writesBack_ite (fun h => writesBack_control (field_join 24 4 1 h25 h)) fun h => ?_
  have h24 : field 24 5 w = 0b10000#5 := field_join 24 4 1 h25 (bit_eq_zero h)
  refine writesBack_ite (fun h => writesBack_regsh (field_join 21 5 3 h24 h)) fun _ => ?_
  refine writesBack_ite (fun h21 => ?_) fun _ => writesBack_error
  refine writesBack_ite (fun h14 => ?_) fun _ => writesBack_error
  have hw : isLongWord w = true := beq_iff_eq.mpr (field_join 14 8 7 (field_join 21 5 3 h24 h21) h14)
  cases next with
  | none => exact writesBack_error
  | some imm => exact writesBack_aluLong hw

end

/-- Settles O2: on each path of the format tree the fields that were read make up the used bits of the word. -/
theorem encodeDecodeRoundTrip : Obligations.EncodeDecodeRoundTrip := writesBack_decodeWord

end Sys2Proof.Machine

/-! PROOF. Packets of instructions and packets of words (40_packet_execution R120 to R131). First what the issue checks
make of a slot decides what a packet does; then the words of a list of instructions are issued like the list; then an
exception in one lane is a trap of the packet. -/

namespace Sys2Proof.Machine

-- What a packet does depends on --------------------------------------------------------------------------------------

theorem mapLanes_get {α β : Type} (p : Packet α) (f : Lane → α → β) (n : Lane) :
    (p.mapLanes f).get n = f n (p.get n) := by
  fin_cases n <;> rfl

theorem packet_ext {α : Type} {p q : Packet α} (h : ∀ n, p.get n = q.get n) : p = q := by
  have h0 : p.s0 = q.s0 := h 0
  have h1 : p.s1 = q.s1 := h 1
  have h2 : p.s2 = q.s2 := h 2
  have h3 : p.s3 = q.s3 := h 3
  cases p
  cases q
  simp_all

/-- The outcome of one lane (R120 parts 2 to 5). -/
theorem laneEffects_get (p : Packet Slot) (s : State) (n : Lane) :
    (laneEffects p s).get n = evaluate (p.mapLanes (issue s)) s n (issue s n (p.get n)) := by
  fin_cases n <;> rfl

/-- An issued slot without the destination that an idle slot carries, which takes part in nothing (log 11). -/
def Issued.settled (x : Issued) : Issued :=
  match x with
  | .idle _ => .idle none
  | .illegal => .illegal
  | .live o => .live o

@[simp] theorem settled_idle (d : Option Dest) : (Issued.idle d).settled = .idle none := rfl
@[simp] theorem settled_illegal : Issued.illegal.settled = .illegal := rfl
@[simp] theorem settled_live (o : LaneOp) : (Issued.live o).settled = .live o := rfl

@[simp] theorem settled_claim (x : Issued) : x.settled.claim = x.claim := by
  cases x <;> rfl

theorem duplicate_settled (q : Packet Issued) (n : Lane) :
    (q.mapLanes fun _ x => x.settled).duplicate n = q.duplicate n := by
  fin_cases n <;> simp [Packet.duplicate, Packet.mapLanes]

theorem evaluate_settled (q : Packet Issued) (s : State) (n : Lane) (x : Issued) :
    evaluate (q.mapLanes fun _ y => y.settled) s n x.settled = evaluate q s n x := by
  cases x <;> simp only [settled_idle, settled_illegal, settled_live, evaluate, duplicate_settled]

/-- Two slots that the issue checks do not tell apart, in any lane. -/
def SameIssue (s : State) (x y : Slot) : Prop := ∀ n, (issue s n x).settled = (issue s n y).settled

theorem runPacket_congr {s : State} {p q : Packet Slot} (h : ∀ n, SameIssue s (p.get n) (q.get n)) :
    runPacket p s = runPacket q s := by
  have settled : (p.mapLanes (issue s)).mapLanes (fun _ x => x.settled) =
      (q.mapLanes (issue s)).mapLanes fun _ x => x.settled :=
    packet_ext fun n => by simpa [mapLanes_get] using h n n
  have effects : laneEffects p s = laneEffects q s := packet_ext fun n => by
    rw [laneEffects_get, laneEffects_get, ← evaluate_settled, ← evaluate_settled (q.mapLanes _), settled, h n n]
  rw [runPacket, runPacket, effects]

theorem runPacket_congr_toList {s : State} {p q : Packet Slot} (h : List.Forall₂ (SameIssue s) p.toList q.toList) :
    runPacket p s = runPacket q s := by
  simp only [Packet.toList, List.forall₂_cons, List.Forall₂.nil, and_true] at h
  obtain ⟨h0, h1, h2, h3⟩ := h
  exact runPacket_congr fun n => by fin_cases n <;> assumption

-- Slots that never execute ----------------------------------------------------------------------------------------------

theorem issue_slotOf_idle {s : State} {w : Word} (n : Lane) (next : Option Word)
    (h : s.predTrue (decodePred w) = false) : ∃ d, issue s n (slotOf w next) = .idle d := by
  unfold slotOf
  split
  · next i hi =>
    obtain ⟨hp, _⟩ := reads_decodeWord w next i hi
    exact ⟨(opOf i).dest, by simp [issue, hp, h, -decodePred_eq]⟩
  · exact ⟨none, by simp [issue, h, -decodePred_eq]⟩

/-- P3 inverted is false (10_state R14, 30_encoding R109). -/
theorem predTrue_neverExecuted {w : Word} (h : neverExecuted w) (s : State) : s.predTrue (decodePred w) = false := by
  have h30 : field 30 2 w = 3#2 := field_part h 1 2 (by decide)
  have h29 : field 29 1 w = 1#1 := field_part h 0 1 (by decide)
  rw [decodePred, h30, h29]
  rfl

/-- A word that is never executed issues like nothing. -/
theorem sameIssue_neverExecuted {w : Word} (h : neverExecuted w) (s : State) (next : Option Word) :
    SameIssue s (slotOf w next) .operand := by
  intro n
  obtain ⟨d, hd⟩ := issue_slotOf_idle n next (predTrue_neverExecuted h s)
  rw [hd]
  rfl

-- The slots of a list of words (R123) -------------------------------------------------------------------------------

/-- The slots of a list of words; `operand` says that the first word is the operand of a Long form before it. -/
def decodeSlots (operand : Bool) (ws : List Word) : List Slot :=
  match operand, ws with
  | _, [] => []
  | true, _ :: ws => .operand :: decodeSlots false ws
  | false, w :: ws => slotOf w ws.head? :: decodeSlots (isLongWord w) ws

theorem decodePacket_toList (w : Packet Word) : (decodePacket w).toList = decodeSlots false w.toList := by
  cases h0 : isLongWord w.s0 <;> cases h1 : isLongWord w.s1 <;> cases h2 : isLongWord w.s2 <;>
    simp [decodePacket, Packet.toList, decodeSlots, h0, h1, h2]

/-- The encodings of a list of instructions are the slots that the list takes. -/
theorem decodeSlots_encode (is : List Instr) (rest : List Word) :
    decodeSlots false (is.flatMap encode ++ rest) = (placed is).map slotFor ++ decodeSlots false rest := by
  induction is with
  | nil => rfl
  | cons i is ih =>
    cases hl : i.isLong with
    | false =>
      obtain ⟨w, he, hd⟩ := encode_oneWord hl
      have hw : isLongWord w = false := (isLongWord_of_decode (hd none)).trans hl
      simp [placed, hl, he, decodeSlots, slotOf, hd, hw, ih, slotFor]
    | true =>
      obtain ⟨w, imm, he, hd⟩ := encode_twoWords hl
      have hw : isLongWord w = true := (isLongWord_of_decode hd).trans hl
      simp [placed, hl, he, decodeSlots, slotOf, hd, hw, ih, slotFor]

theorem decodeSlots_filler (s : State) (k : Nat) :
    List.Forall₂ (SameIssue s) (decodeSlots false (List.replicate k fillerWord)) (List.replicate k .operand) := by
  have never : neverExecuted fillerWord := by
    unfold neverExecuted
    decide
  have short : isLongWord fillerWord = false := by decide
  induction k with
  | zero => exact .nil
  | succ k ih =>
    rw [List.replicate_succ, List.replicate_succ, decodeSlots, short]
    exact .cons (sameIssue_neverExecuted never s _) ih

-- Well-formed lists of instructions -----------------------------------------------------------------------------------

theorem length_flatMap_encode (is : List Instr) : (is.flatMap encode).length = (placed is).length := by
  induction is with
  | nil => rfl
  | cons i is ih =>
    cases hl : i.isLong with
    | false =>
      obtain ⟨w, he, _⟩ := encode_oneWord hl
      simp [placed, hl, he, ih, Nat.add_comm]
    | true =>
      obtain ⟨w, imm, he, _⟩ := encode_twoWords hl
      simp [placed, hl, he, ih, Nat.add_comm]

/-- A well-formed list from slot `n` on does not exceed the packet (30_encoding R110). -/
theorem placed_length_le {n : Nat} {is : List Instr} (hn : n ≤ 4) (h : wellFormedFrom n is = true) :
    n + (placed is).length ≤ 4 := by
  induction is generalizing n with
  | nil => simpa [placed] using hn
  | cons i is ih =>
    rw [wellFormedFrom] at h
    split at h
    case isFalse => cases h
    case isTrue hlt =>
      simp only [Bool.and_eq_true] at h
      obtain ⟨⟨_, hfits⟩, hrest⟩ := h
      cases hl : i.isLong with
      | false =>
        have := ih (n := n + 1) (by omega) (by simpa [hl] using hrest)
        simp only [placed, hl, Bool.false_eq_true, if_false, List.length_cons]
        omega
      | true =>
        have hlast : n ≠ 3 := by
          rintro rfl
          simp [Instr.fits, hl] at hfits
        have := ih (n := n + 2) (by omega) (by simpa [hl] using hrest)
        simp only [placed, hl, if_true, List.length_cons]
        omega

/-- The first four elements of a list of at most four, filled up. -/
theorem getD_four {α : Type} (l : List α) (d : α) (h : l.length ≤ 4) :
    [l.getD 0 d, l.getD 1 d, l.getD 2 d, l.getD 3 d] = l ++ List.replicate (4 - l.length) d := by
  match l, h with
  | [], _ => rfl
  | [_], _ => rfl
  | [_, _], _ => rfl
  | [_, _, _], _ => rfl
  | [_, _, _, _], _ => rfl

theorem wordsOfList_toList {is : List Instr} (h : (placed is).length ≤ 4) :
    (wordsOfList is).toList = is.flatMap encode ++ List.replicate (4 - (placed is).length) fillerWord := by
  rw [← length_flatMap_encode] at h ⊢
  exact getD_four _ _ h

theorem packetOfList_toList {is : List Instr} (h : (placed is).length ≤ 4) :
    (packetOfList is).toList = placed is ++ List.replicate (4 - (placed is).length) none := by
  have join (x : Option (Option Instr)) : x.join = x.getD none := by cases x <;> rfl
  rw [← getD_four _ _ h]
  simp [packetOfList, Packet.toList, join, List.getD_eq_getElem?_getD]

/-- Settles O46: the words of the list decode to the slots of the list, and the words beside them issue like nothing. -/
theorem stepRunsEncodedPacket : Obligations.StepRunsEncodedPacket := by
  intro s is fill hwf hf
  have hlen : (placed is).length ≤ 4 := by simpa using placed_length_le (n := 0) (by decide) hwf
  rw [step_of_fetches hf, runInstrs]
  refine runPacket_congr_toList ?_
  have slots : ((packetOfList is).mapLanes fun _ x => slotFor x).toList =
      (placed is).map slotFor ++ List.replicate (4 - (placed is).length) .operand := by
    change (packetOfList is).toList.map slotFor = _
    rw [packetOfList_toList hlen, List.map_append, List.map_replicate]
    rfl
  rw [decodePacket_toList, wordsOfList_toList hlen, decodeSlots_encode, slots]
  exact List.rel_append (List.forall₂_same.mpr fun _ _ _ => rfl) (decodeSlots_filler _ _)

end Sys2Proof.Machine

/-! PROOF. Exceptions in packets (40_packet_execution R126 to R130). First what a lane comes to, by what the issue
checks make of it; then the trap of a packet in which some lane raises; then the statements. -/

namespace Sys2Proof.Machine

-- Lanes -----------------------------------------------------------------------------------------------------------------

theorem exists_lane {P : Lane → Prop} : (∃ n, P n) ↔ P 0 ∨ P 1 ∨ P 2 ∨ P 3 := by
  simp [Fin.exists_fin_succ]

theorem mem_toList {α : Type} {p : Packet α} {x : α} : x ∈ p.toList ↔ ∃ n, p.get n = x := by
  simp [exists_lane, Packet.toList, Packet.get, eq_comm]

/-- Duplicate Destination, as R127 says it: another slot claims the destination of this one. -/
theorem duplicate_iff (q : Packet Issued) (n : Lane) :
    q.duplicate n = true ↔ (q.get n).claim ≠ none ∧ ∃ m, m ≠ n ∧ (q.get n).claim = (q.get m).claim := by
  rw [exists_lane]
  fin_cases n <;> simp [Packet.duplicate, claimedTwice, Packet.get, Option.isSome_iff_ne_none]

section
variable {p : Packet Slot} {s : State} {n : Lane}

theorem lane_idle {d : Option Dest} (h : issue s n (p.get n) = .idle d) : (laneEffects p s).get n = .writes {} := by
  have single : (p.mapLanes (issue s)).duplicate n = false := by
    rw [← Bool.not_eq_true, duplicate_iff, mapLanes_get, h, claim_idle]
    simp
  rw [laneEffects_get, h]
  simp [evaluate, single]

theorem lane_illegal (h : issue s n (p.get n) = .illegal) :
    (laneEffects p s).get n = .raises .illegalInstruction none := by
  rw [laneEffects_get, h]
  rfl

/-- Refusals come from slot 0; so a packet whose slot 0 is well formed has none (10_state R18, log 20). -/
theorem lane_ne_refuses {src : Lane → Instr → Prop} (hp : Holds p src) (hwf : ∀ i, src 0 i → i.wellFormed = true)
    (n : Lane) (r : Refusal) : (laneEffects p s).get n ≠ .refuses r := by
  intro h
  rcases lane_live_cases (s := s) hp n with h0 | ⟨x, h0⟩ | ⟨i, hi, hl, h0⟩
  all_goals rw [h0] at h
  · cases h
  · cases h
  · obtain ⟨_, hk, hill, _⟩ := effect_refuses h
    obtain rfl := liveIn_control hl hk
    rw [hwf i hi] at hill
    cases hill

end

-- Packets of instructions ---------------------------------------------------------------------------------------------

theorem slotFor_get (is : Packet (Option Instr)) (n : Lane) :
    (is.mapLanes fun _ x => slotFor x).get n = slotFor (is.get n) :=
  mapLanes_get is _ n

/-- The outcomes of the lanes of a packet of instructions. -/
def instrEffects (is : Packet (Option Instr)) (s : State) : Packet Effect :=
  laneEffects (is.mapLanes fun _ x => slotFor x) s

section
variable {is : Packet (Option Instr)} {s : State} {n : Lane} {i : Instr}

theorem issue_live (h : LiveIn s n i) : issue s n (.op (opOf i)) = .live (opOf i) := by
  obtain ⟨hr, hf, hm⟩ := h
  have allowed : (i.privileged && decide (s.mode = .user)) = false := by
    cases hi : i.privileged
    · rfl
    · simp [hm hi]
  simp [issue, (runs_iff s i.pred).1 hr, mayIssueIn_eq_fits, hf, allowed]

/-- A claim is that of an executing instruction (log 11). -/
theorem claim_issue {d : Dest} (h : (issue s n (slotFor (is.get n))).claim = some d) :
    ∃ j, is.get n = some j ∧ s.runs j.pred ∧ j.destination = some d := by
  cases hj : is.get n with
  | none =>
    rw [hj] at h
    cases h
  | some j =>
    rw [hj] at h
    refine ⟨j, rfl, ?_⟩
    simp only [slotFor, issue, opOf_pred] at h
    split at h
    · cases h
    case isFalse hr =>
      refine ⟨(runs_iff s j.pred).2 (by simpa using hr), ?_⟩
      rw [← opOf_dest]
      split at h
      · cases h
      split at h
      · cases h
      · exact h

/-- A live instruction that shares its destination with no other one comes to its own outcome. -/
theorem lane_live (hi : is.get n = some i) (hl : LiveIn s n i) (hd : NoOtherWriter s is n) :
    (instrEffects is s).get n = (opOf i).effect n s := by
  have issued : issue s n (slotFor (is.get n)) = .live (opOf i) := by
    rw [hi]
    exact issue_live hl
  have single : ((is.mapLanes fun _ x => slotFor x).mapLanes (issue s)).duplicate n = false := by
    rw [← Bool.not_eq_true, duplicate_iff]
    rintro ⟨hc, m, hm, he⟩
    rw [mapLanes_get, slotFor_get, issued] at hc he
    rw [mapLanes_get, slotFor_get] at he
    obtain ⟨d, hd'⟩ := Option.ne_none_iff_exists'.mp hc
    obtain ⟨j, hj, hrun, hdest⟩ := claim_issue (he.symm.trans hd')
    have hown : i.destination = some d := (opOf_dest i).symm.trans hd'
    exact hd i j m hi hm hj hrun (by simp [hown]) (hdest.trans hown.symm)
  rw [instrEffects, laneEffects_get, slotFor_get, issued]
  simp [evaluate, single]

/-- An instruction without a destination shares it with no other one. -/
theorem noOtherWriter_of_none (hi : is.get n = some i) (hd : i.destination = none) : NoOtherWriter s is n := by
  intro i' _ _ hi' _ _ _ hne
  rw [hi] at hi'
  cases hi'
  exact absurd hd hne

/-- An instruction that runs in a slot which its type may not occupy (R126), or against its privilege (R237). -/
theorem lane_misplaced (hi : is.get n = some i) (hr : s.runs i.pred)
    (h : i.kind.fits n = false ∨ i.privileged = true ∧ s.mode = .user) :
    (instrEffects is s).get n = .raises .illegalInstruction none := by
  refine lane_illegal ?_
  rw [slotFor_get, hi, slotFor, issue, opOf_pred, opOf_kind, opOf_privileged, (runs_iff s i.pred).1 hr,
    mayIssueIn_eq_fits]
  rcases h with h | ⟨hp, hm⟩
  · simp [h]
  · simp [hp, hm]

end

-- The trap of a packet (R128) -----------------------------------------------------------------------------------------

/-- A packet in which a lane raises and none refuses is the trap of what the lanes report. -/
theorem runPacket_raises {p : Packet Slot} {s : State} {n : Lane} {x : Exc} {ea : Option Word}
    (hw : s.ehaWritten = true) (hr : ∀ m r, (laneEffects p s).get m ≠ .refuses r)
    (hx : (laneEffects p s).get n = .raises x ea) :
    runPacket p s = .next (s.trapped ((laneEffects p s).mapLanes fun _ e => e.report.ec)
      ((laneEffects p s).s0.report.ea.getD s.ea0) ((laneEffects p s).s1.report.ea.getD s.ea1)) := by
  unfold runPacket
  generalize laneEffects p s = e at hr hx
  have noRefusal : e.toList.findSome? Effect.refusal? = none := by
    refine List.findSome?_eq_none_iff.mpr fun y hy => ?_
    obtain ⟨m, rfl⟩ := mem_toList.mp hy
    cases he : e.get m with
    | refuses r => exact absurd he (hr m r)
    | writes w => rfl
    | raises x ea => rfl
  have raised : e.toList.any Effect.raised = true :=
    List.any_eq_true.mpr ⟨e.get n, mem_toList.mpr ⟨n, rfl⟩, by rw [hx]; rfl⟩
  rw [finish_trap e s noRefusal raised, takeException_trapped, trapTo_next _ hw]
  rfl

/-- `r` is a trap of `s` in which lane `n` reports the exception `x`, with the address `ea` if it reports one. -/
def CancelledBy (s : State) (n : Lane) (x : Exc) (ea : Option Word) (r : Result) : Prop :=
  ∃ t, r = .next t ∧ TrapOf s t ∧ t.ecs.get n = x.code.setWidth 32 ∧
    (n = 0 → t.ea0 = ea.getD s.ea0) ∧ (n = 1 → t.ea1 = ea.getD s.ea1)

theorem CancelledBy.trap {s : State} {n : Lane} {x : Exc} {ea : Option Word} {r : Result} (h : CancelledBy s n x ea r) :
    ∃ t, r = .next t ∧ TrapOf s t ∧ t.ecs.get n = x.code.setWidth 32 := by
  obtain ⟨t, hr, ht, hec, _⟩ := h
  exact ⟨t, hr, ht, hec⟩

theorem runPacket_cancelled {p : Packet Slot} {s : State} {n : Lane} {x : Exc} {ea : Option Word}
    (hw : s.ehaWritten = true) (hr : ∀ m r, (laneEffects p s).get m ≠ .refuses r)
    (hx : (laneEffects p s).get n = .raises x ea) : CancelledBy s n x ea (runPacket p s) := by
  refine ⟨_, runPacket_raises hw hr hx, rfl, ?_, ?_, ?_⟩
  · change ((laneEffects p s).mapLanes fun _ e => e.report.ec).get n = _
    rw [mapLanes_get, hx, report_ec]
  · rintro rfl
    change (Effect.report ((laneEffects p s).get 0)).ea.getD s.ea0 = _
    rw [hx]
    rfl
  · rintro rfl
    change (Effect.report ((laneEffects p s).get 1)).ea.getD s.ea1 = _
    rw [hx]
    rfl

/-- The accesses of Safety.lean are those that the instructions make (43_loadstore R200 to R202, R212). -/
theorem effect_of_dataAccess {i : Instr} {s : State} {a : DataAccess} (h : dataAccessOf i s = some a) :
    i.kind = .memory ∧ ∃ size, a.aligned = size.align a.computed ∧ a.bytes = size.bytes ∧
      ∀ n, ∃ k, (opOf i).effect n s = dataAccess s n a.kind size a.computed k := by
  cases i
  case lb | sb =>
    cases h
    exact ⟨rfl, .byte, rfl, rfl, fun n => ⟨_, rfl⟩⟩
  case lh | sh =>
    cases h
    exact ⟨rfl, .half, rfl, rfl, fun n => ⟨_, rfl⟩⟩
  case lw | ll | sw =>
    cases h
    exact ⟨rfl, .word, rfl, rfl, fun n => ⟨_, rfl⟩⟩
  case sc =>
    simp only [dataAccessOf] at h
    split at h
    case isTrue hlink =>
      cases h
      exact ⟨rfl, .word, rfl, rfl, fun n => ⟨_, if_pos hlink⟩⟩
    case isFalse => cases h
  all_goals cases h

/-- A data access that page-faults raises code 4 with the computed address (43_loadstore R202). -/
theorem effect_pageFault {i : Instr} {n : Lane} {s : State} {a : DataAccess} (h : dataAccessOf i s = some a)
    (ht : (s.translate a.kind (1 + n.val) a.aligned a.bytes).result = .pageFault) :
    (opOf i).effect n s = .raises .dataPageFault (some a.computed) := by
  obtain ⟨_, size, ha, hb, he⟩ := effect_of_dataAccess h
  obtain ⟨k, hk⟩ := he n
  rw [ha, hb] at ht
  simp [hk, dataAccess, ht]

/-- A data access outside the physical address space raises code 5 with the computed address (43_loadstore R202). -/
theorem effect_invalidPhys {i : Instr} {n : Lane} {s : State} {a : DataAccess} (h : dataAccessOf i s = some a)
    (ht : (s.translate a.kind (1 + n.val) a.aligned a.bytes).result = .invalidPhys) :
    (opOf i).effect n s = .raises .invalidPhysicalAddress (some a.computed) := by
  obtain ⟨_, size, ha, hb, he⟩ := effect_of_dataAccess h
  obtain ⟨k, hk⟩ := he n
  rw [ha, hb] at ht
  simp [hk, dataAccess, ht]

/-- A FLUSH of a cache line whose page-table walk as a read faults raises code 4 with the address (45_control R234). -/
theorem effect_flush_pageFault {p : Pred} {k : FlushType} {rs : Reg} {n : Lane} {s : State} (hk : k = .data ∨ k = .inst)
    (ht : (s.translatePage .read 1 (s.reg rs)).result = .pageFault) :
    (opOf (.flush p k rs)).effect n s = .raises .dataPageFault (some (s.reg rs)) := by
  rcases hk with rfl | rfl <;>
    simp [opOf, opFlush, controlOp, flushEffect, flushCacheEffect, ht]

/-- Settles O51: each clause names a lane that raises, and of well-formed instructions none refuses. -/
theorem exceptionCancelsPacket : Obligations.ExceptionCancelsPacket := by
  intro s is hwf hw
  have cancelled {n : Lane} {x : Exc} {ea : Option Word} (hx : (instrEffects is s).get n = .raises x ea) :
      CancelledBy s n x ea (runInstrs is s) :=
    runPacket_cancelled hw (lane_ne_refuses (holds_slotFor is) (hwf 0)) hx
  have inSlot0 {i : Instr} {x : Exc} {ea : Option Word} (hi : is.s0 = some i) (hr : s.runs i.pred)
      (hp : i.privileged = false) (hd : NoOtherWriter s is 0) (he : (opOf i).effect 0 s = .raises x ea) :
      CancelledBy s 0 x ea (runInstrs is s) := by
    have live : LiveIn s 0 i := ⟨hr, by rw [← mayIssueIn_eq_fits, mayIssueIn_zero], by simp [hp]⟩
    exact cancelled ((lane_live (n := 0) hi live hd).trans he)
  refine ⟨fun n i hi hr hf => (cancelled (lane_misplaced hi hr (.inl hf))).trap,
    fun i hi hr hp hm => (cancelled (n := 0) (lane_misplaced hi hr (.inr ⟨hp, hm⟩))).trap,
    fun p hi hr => (inSlot0 hi hr rfl (noOtherWriter_of_none hi rfl) rfl).trap,
    fun p hi hr => (inSlot0 hi hr rfl (noOtherWriter_of_none hi rfl) rfl).trap,
    fun p rt rd rs hi hr hz hd => (inSlot0 hi hr rfl hd (if_pos hz)).trap,
    fun p k rs hi hr hk ht => ?_, fun n i a hi hl ha hd => ?_⟩
  · obtain ⟨t, h, ht, hec, hea, _⟩ := inSlot0 hi hr rfl (noOtherWriter_of_none hi rfl) (effect_flush_pageFault hk ht)
    exact ⟨t, h, ht, hec, hea rfl⟩
  · obtain ⟨hmem, _⟩ := effect_of_dataAccess ha
    have faults {x : Exc} (he : (opOf i).effect n s = .raises x (some a.computed)) :
        ∃ t, runInstrs is s = .next t ∧ TrapOf s t ∧ t.ecs.get n = x.code.setWidth 32 ∧
          (if n = 0 then t.ea0 else t.ea1) = a.computed := by
      obtain ⟨t, h, ht, hec, hea0, hea1⟩ := cancelled ((lane_live hi hl hd).trans he)
      refine ⟨t, h, ht, hec, ?_⟩
      rcases liveIn_memory hl hmem with rfl | rfl
      · exact hea0 rfl
      · exact hea1 rfl
    exact ⟨fun ht => faults (effect_pageFault ha ht), fun ht => faults (effect_invalidPhys ha ht)⟩

-- Words that select no instruction (30_encoding R108) ----------------------------------------------------------------

theorem lane_unassigned {w : Packet Word} {s : State} {n : Lane} {x : Word} {next : Option Word} {e : DecodeError}
    (hx : slotWord w n = some (x, next)) (hd : decodeWord x next = .error e) (hr : s.runs (predField x)) :
    (laneEffects (decodePacket w) s).get n = .raises .illegalInstruction none := by
  refine lane_illegal ?_
  rw [decodePacket_get, hx]
  simp [slotOf, hd, issue, (runs_iff s _).1 hr]

/-- A slot that is an operand, or whose word is never executed, comes to nothing (R109, R123). -/
theorem lane_never {w : Packet Word} {s : State} {n : Lane}
    (h : ∀ x next, slotWord w n = some (x, next) → neverExecuted x) :
    (laneEffects (decodePacket w) s).get n = .writes {} := by
  cases hx : slotWord w n with
  | none => exact lane_idle (d := none) (by rw [decodePacket_get, hx]; rfl)
  | some v =>
    obtain ⟨x, next⟩ := v
    obtain ⟨d, hd⟩ := issue_slotOf_idle (s := s) n next (predTrue_neverExecuted (h x next hx) s)
    exact lane_idle (d := d) (by rw [decodePacket_get, hx]; exact hd)

/-- Slot 3 has no word after it (R126). -/
theorem slotWord_three {w : Packet Word} {x : Word} {next : Option Word} (h : slotWord w 3 = some (x, next)) :
    next = none := by
  simp only [slotWord] at h
  split at h <;> cases h
  rfl

/-- Settles O48: the word is rejected, a Long form in slot 3 because no word follows it, and so its lane raises. -/
theorem unassignedWordTraps : Obligations.UnassignedWordTraps := by
  intro s w fill n x next hf hw hwf hx hr hbad
  have rejected : Rejected (decodeWord x next) := by
    rcases hbad with h | ⟨rfl, hlong⟩
    · exact h
    · rw [slotWord_three hx]
      exact ⟨_, decodeWord_long_none (beq_iff_eq.mpr hlong)⟩
  obtain ⟨e, hd⟩ := rejected
  have raises := lane_unassigned hx hd ((fetched_runs s fill _).2 hr)
  have noRefusal := lane_ne_refuses (s := s.fetched fill) (holds_decodePacket w)
    fun i hi => hwf i (decodesIn_zero hi)
  have hstep := (step_of_fetches hf).trans (runPacket_raises (by simpa using hw) noRefusal raises)
  refine ⟨_, hstep, rfl, ?_, fun hothers => ?_⟩
  · change ((laneEffects _ _).mapLanes fun _ e => e.report.ec).get n = _
    rw [mapLanes_get, raises]
    rfl
  · have others {m : Lane} (hm : m ≠ n) : (laneEffects (decodePacket w) (s.fetched fill)).get m = .writes {} :=
      lane_never fun y next' => hothers m y next' hm
    have noAddress (m : Lane) : ((laneEffects (decodePacket w) (s.fetched fill)).get m).report.ea = none := by
      by_cases hm : m = n
      · rw [hm, raises]
        rfl
      · rw [others hm]
        rfl
    refine ⟨fun m hm => ?_, ?_, ?_⟩
    · change ((laneEffects _ _).mapLanes fun _ e => e.report.ec).get m = _
      rw [mapLanes_get, others hm]
      rfl
    · exact (congrArg (fun ea : Option Word => ea.getD _) (noAddress 0)).trans (arrived_ea0 s)
    · exact (congrArg (fun ea : Option Word => ea.getD _) (noAddress 1)).trans (arrived_ea1 s)

end Sys2Proof.Machine

/-! PROOF. The packet as a whole (40_packet_execution R120 to R133): what a step fetches and runs, two lanes with one
destination, a fault in lane 1, and four instructions that commit together. -/

namespace Sys2Proof.Machine

-- False predicates (R121, R131) ---------------------------------------------------------------------------------------

/-- Settles O15, by everything a lone instruction can do. -/
theorem falsePredicateDoesNothing : Obligations.FalsePredicateDoesNothing := fun _ _ h => exec_of_not_runs h

-- The fetch (R122) ----------------------------------------------------------------------------------------------------

/-- A step whose fetch is not translated traps with the code in EC0, once EHA has been written (60_exceptions R261,
R265). -/
theorem step_of_fetchFault {s : State} {fill : Option TlbEntry} {r : Translated} {code : Word}
    (hi : s.interrupt = none) (hp : s.pc &&& 0xF#32 = 0#32) (hw : s.ehaWritten = true)
    (ht : s.arrived.translate .fetch 0 s.pc 16 = { fill := fill, result := r })
    (hr : r = .pageFault ∧ code = 1#32 ∨ r = .invalidPhys ∧ code = 5#32) :
    step s = .next ((s.fetched fill).trapped ⟨code, 0#32, 0#32, 0#32⟩ s.ea0 s.ea1) := by
  rcases step_cases s with ⟨src, h, _⟩ | ⟨_, h, _⟩ | ⟨_, _, fill', r', code', h, hr', hstep⟩ | ⟨w, fill', hf, _⟩
  · rw [hi] at h
    cases h
  · exact absurd hp h
  · rw [ht] at h
    cases h
    have same : code' = code := by rcases hr with ⟨rfl, rfl⟩ | ⟨rfl, rfl⟩ <;> simpa using hr'
    rw [hstep, trapTo_next _ hw, same]
  · obtain ⟨_, _, pa, h, _⟩ := hf
    rw [ht] at h
    cases h
    simp at hr

/-- Settles O47: the two results of a fetch that is not translated. -/
theorem fetchFaults : Obligations.FetchFaults := fun _ _ hi hp hw =>
  ⟨fun ht => step_of_fetchFault hi hp hw ht (.inl ⟨rfl, rfl⟩),
    fun ht => step_of_fetchFault hi hp hw ht (.inr ⟨rfl, rfl⟩)⟩

/-- A slot that is an operand or never executed issues like nothing (30_encoding R109, R123). -/
theorem sameIssue_decodePacket {s : State} {w : Packet Word} {n : Lane}
    (h : ∀ x next, slotWord w n = some (x, next) → neverExecuted x) :
    SameIssue s ((decodePacket w).get n) .operand := by
  rw [decodePacket_get]
  cases hx : slotWord w n with
  | none => exact fun _ => rfl
  | some v => exact sameIssue_neverExecuted (h v.1 v.2 hx) s v.2

/-- The first instruction of a packet's bytes is the one that slot 0 decodes to, and a Long form takes slot 1. -/
theorem decodeBytes_packetBytes {w : Packet Word} {i : Instr} {rest : List Byte}
    (h : decodeBytes (packetBytes w) = .ok (i, rest)) :
    decodeWord w.s0 (some w.s1) = .ok i ∧ isLongWord w.s0 = i.isLong := by
  have decodes : decodeWord w.s0 (some w.s1) = .ok i := by
    cases hl : isLongWord w.s0 with
    | false =>
      rw [packetBytes, List.append_assoc, List.append_assoc, decodeBytes_oneWord _ _ hl] at h
      rw [decodeWord_next _ _ none hl]
      cases hd : decodeWord w.s0 none <;> rw [hd] at h <;> cases h
      rfl
    | true =>
      rw [packetBytes, List.append_assoc, List.append_assoc, decodeBytes_twoWords _ _ _ hl] at h
      cases hd : decodeWord w.s0 (some w.s1) <;> rw [hd] at h <;> cases h
      rfl
  exact ⟨decodes, isLongWord_of_decode decodes⟩

/-- A slot that is no operand holds its own word. -/
theorem slotWord_get {w : Packet Word} {n : Lane} {x : Word} {next : Option Word}
    (h : slotWord w n = some (x, next)) : x = w.get n := by
  fin_cases n <;> simp only [slotWord] at h
  · cases h
    rfl
  all_goals
    split at h <;> cases h
    rfl

/-- Slot 1 is the operand of a Long form in slot 0 (R123). -/
theorem slotWord_one_long {w : Packet Word} (h : isLongWord w.s0 = true) : slotWord w 1 = none := if_pos h

/-- Settles O45: slot 0 holds the instruction, and each other slot is its operand or never executes. -/
theorem stepRunsInstruction : Obligations.StepRunsInstruction := by
  intro s w fill i rest hf hd h1 h2 h3
  obtain ⟨hi, hlong⟩ := decodeBytes_packetBytes hd
  rw [step_of_fetches hf, exec_eq_alone, alone]
  refine runPacket_congr fun n => ?_
  fin_cases n
  · change SameIssue _ (slotOf w.s0 (some w.s1)) _
    rw [slotOf, hi]
    exact fun _ => rfl
  · refine sameIssue_decodePacket (n := 1) fun x next hx => ?_
    cases hl : i.isLong with
    | true => simp [slotWord_one_long (hlong.trans hl)] at hx
    | false => exact slotWord_get hx ▸ h1 hl
  · exact sameIssue_decodePacket (n := 2) fun x next hx => slotWord_get hx ▸ h2
  · exact sameIssue_decodePacket (n := 3) fun x next hx => slotWord_get hx ▸ h3

-- One destination in two slots (R127) ---------------------------------------------------------------------------------

section
variable {is : Packet (Option Instr)} {s : State} {m n : Lane} {i j : Instr} {d : Dest}

/-- A live instruction claims its destination. -/
theorem claim_live (hi : is.get n = some i) (hl : LiveIn s n i) :
    (issue s n (slotFor (is.get n))).claim = i.destination := by
  rw [hi, slotFor, issue_live hl]
  exact opOf_dest i

/-- Of two live instructions with one destination each raises Duplicate Destination. -/
theorem lane_duplicate (hmn : m ≠ n) (hi : is.get n = some i) (hj : is.get m = some j) (hli : LiveIn s n i)
    (hlj : LiveIn s m j) (hdi : i.destination = some d) (hdj : j.destination = some d) :
    (instrEffects is s).get n = .raises .duplicateDestination none := by
  have shared : ((is.mapLanes fun _ x => slotFor x).mapLanes (issue s)).duplicate n = true := by
    rw [duplicate_iff]
    simp only [mapLanes_get]
    rw [claim_live hi hli, hdi]
    exact ⟨by simp, m, hmn, ((claim_live hj hlj).trans hdj).symm⟩
  rw [instrEffects, laneEffects_get, slotFor_get, hi, slotFor, issue_live hli]
  simp [evaluate, shared]

/-- A slot that holds nothing comes to nothing. -/
theorem lane_empty (h : is.get n = none) : (instrEffects is s).get n = .writes {} := by
  refine lane_idle (d := none) ?_
  rw [slotFor_get, h]
  rfl

end

/-- Settles O50: both lanes raise, and of well-formed instructions none refuses. -/
theorem duplicateDestinationTraps : Obligations.DuplicateDestinationTraps := by
  intro s is m n i j d hwf hmn hi hj hli hlj hw hdi hdj
  have noRefusal := lane_ne_refuses (s := s) (holds_slotFor is) (hwf 0)
  obtain ⟨t, ht, htrap, hecm⟩ :=
    (runPacket_cancelled hw noRefusal (lane_duplicate hmn.symm hi hj hli hlj hdi hdj)).trap
  obtain ⟨t', ht', _, hecn⟩ :=
    (runPacket_cancelled hw noRefusal (lane_duplicate hmn hj hi hlj hli hdj hdi)).trap
  obtain rfl : t = t' := by
    rw [ht] at ht'
    exact Host.Outcome.next.inj ht'
  exact ⟨t, ht, htrap, hecm, hecn⟩

-- Slots with destinations of their own (R127) -------------------------------------------------------------------------

/-- A relation between any two slots, from the list of slots. -/
theorem pairwise_get {α : Type} {R : α → α → Prop} {p : Packet α} (hs : ∀ x y, R x y → R y x)
    (h : p.toList.Pairwise R) {m n : Lane} (hmn : m ≠ n) : R (p.get m) (p.get n) := by
  have slots (k : Lane) : p.get k = p.toList.get k := by fin_cases k <;> rfl
  rw [slots, slots]
  rcases lt_or_gt_of_ne hmn with hlt | hgt
  · exact List.pairwise_iff_get.mp h _ _ hlt
  · exact hs _ _ (List.pairwise_iff_get.mp h _ _ hgt)

/-- Two slots whose instructions share no destination of R127's table. -/
def Separate (x y : Option Instr) : Prop :=
  ∀ d, ¬(x.bind Instr.destination = some d ∧ y.bind Instr.destination = some d)

theorem separate_of_ne {i j : Instr} {d : Dest} (hi : i.destination = some d) (hj : j.destination ≠ some d) :
    Separate (some i) (some j) := fun _ ⟨hid, hjd⟩ => hj (hjd.trans (hid.symm.trans hi))

/-- A compare writes no general register (R127). -/
theorem predDest_ne_reg (n : PredReg) (r : Reg) : predDest n ≠ some (.reg r) := by
  unfold predDest
  split <;> nofun

theorem noOtherWriter_of_separate {is : Packet (Option Instr)} (h : is.toList.Pairwise Separate) (s : State)
    (n : Lane) : NoOtherWriter s is n := by
  intro i j m hi hmn hj _ hne hsame
  obtain ⟨d, hd⟩ := Option.ne_none_iff_exists'.mp hne
  refine pairwise_get (fun x y hxy d hd => hxy d hd.symm) h hmn d ?_
  simp [hi, hj, hd, hsame]

-- A fault in lane 1 (R130) --------------------------------------------------------------------------------------------

/-- A packet of instructions whose lanes come to `e`, of which one raises and none refuses, is the trap of `e`. -/
theorem runInstrs_raises {is : Packet (Option Instr)} {s : State} {e : Packet Effect} {n : Lane} {x : Exc}
    {ea : Option Word} (hw : s.ehaWritten = true) (he : instrEffects is s = e) (hr : ∀ m r, e.get m ≠ .refuses r)
    (hx : e.get n = .raises x ea) :
    runInstrs is s = .next (s.trapped (e.mapLanes fun _ y => y.report.ec) (e.s0.report.ea.getD s.ea0)
      (e.s1.report.ea.getD s.ea1)) := by
  subst he
  exact runPacket_raises hw hr hx

/-- Settles O53: lane 1 raises code 4 with the computed address, and the other lanes hold nothing. -/
theorem laneOneFault : Obligations.LaneOneFault := by
  intro s p off rd rs hr hw ht
  have effects : instrEffects ⟨none, some (.lw p off rd rs), none, none⟩ s =
      ⟨.writes {}, .raises .dataPageFault (some (s.reg rs + off.signExtend 32)), .writes {}, .writes {}⟩ := by
    have single := noOtherWriter_of_separate
      (is := ⟨none, some (.lw p off rd rs), none, none⟩) (by simp [Packet.toList, Separate]) s 1
    have faults := effect_pageFault (i := .lw p off rd rs) (n := 1) rfl ht
    refine packet_ext fun n => ?_
    fin_cases n
    · exact lane_empty (n := 0) rfl
    · exact (lane_live (i := .lw p off rd rs) rfl ⟨hr, rfl, nofun⟩ single).trans faults
    · exact lane_empty (n := 2) rfl
    · exact lane_empty (n := 3) rfl
  refine runInstrs_raises (n := 1) hw effects (fun m r => ?_) rfl
  fin_cases m <;> simp [Packet.get]

-- Four instructions that commit together (R133) -----------------------------------------------------------------------

/-- A packet of instructions whose lanes pend `ws`, without a conflict over the link bit, commits them (R125). -/
theorem runInstrs_writes {is : Packet (Option Instr)} {s : State} {ws : Packet Writes}
    (h : instrEffects is s = ws.mapLanes fun _ w => .writes w) (hl : linkConflict ws = false) :
    runInstrs is s = .next (commit ws s) := by
  unfold runInstrs runPacket
  rw [show laneEffects _ s = _ from h]
  exact finish_commit _ s rfl rfl hl

/-- What the call, the load, the add and the compare of R133 pend. -/
def mixedWrites (s : State) (target : Word) (l : Load) (fill : Option TlbEntry) (r3 : Reg) (sum : Word) (pd : PredReg)
    (eq : Bool) : Packet Writes where
  s0 := { reg := some (31#5, s.pc), target := some target }
  s1 := { load := some l, fill := fill }
  s2 := { reg := some (r3, sum) }
  s3 := { pred := some (pd, eq) }

/-- A load's value is that of the state before the packet: the call before it writes a register (R124). -/
theorem commit_mixedWrites (s : State) (target : Word) (l : Load) (fill : Option TlbEntry) (r3 : Reg) (sum : Word)
    (pd : PredReg) (eq : Bool) :
    commit (mixedWrites s target l fill r3 sum pd eq) s =
      ((((({ s with dtlb := addEntry s.dtlb fill } : State).setReg 31#5 s.pc).setReg l.rd
        (s.loadLE l.pa l.size.bytes)).setReg r3 sum).setPred pd eq).advance (some target) s.pc := by
  rw [commit, commitOrder_inOrder _ _ rfl rfl]
  rfl

/-- A write to a predicate register changes no other field. -/
theorem setPred_eq (s : State) (n : PredReg) (b : Bool) :
    s.setPred n b = { s with p0 := (s.setPred n b).p0, p1 := (s.setPred n b).p1, p2 := (s.setPred n b).p2 } := by
  unfold State.setPred
  split <;> rfl

/-- A word load as its four bytes (20_memory R43). -/
theorem loadLE_word (s : State) (pa : Nat) :
    s.loadLE pa 4 = wordLE (s.memByte pa) (s.memByte (pa + 1)) (s.memByte (pa + 2)) (s.memByte (pa + 3)) := by
  simp [State.loadLE, assembleLE, wordLE, BitVec.shiftLeft_or_distrib, ← BitVec.shiftLeft_add, BitVec.or_assoc]

/-- The target of a branch to a label, as a number (44_branch R220). -/
theorem targetImm_eq (s : State) (off : BitVec 25) :
    s.targetImm off = BitVec.ofInt 32 (s.pc.toNat + 16 * off.toInt) := by
  have offset : off.signExtend 32 <<< 4 = BitVec.ofInt 32 (16 * off.toInt) := by
    rw [BitVec.shiftLeft_eq_mul_twoPow, BitVec.mul_comm, BitVec.ofInt_mul]
    rfl
  rw [State.targetImm, offset, BitVec.ofInt_add, BitVec.ofInt_natCast, BitVec.ofNat_toNat, BitVec.setWidth_eq]

/-- A register operand that is not shifted (41_alu R153). -/
theorem op2Reg_unshifted (s : State) (rt : Reg) : s.op2Reg 0 .lsl rt = s.reg rt := by
  simp [State.op2Reg, shift]

/-- A load that is translated pends the register write and the TLB entry (43_loadstore R202). -/
theorem loadEffect_ok {size : Size} {link : Option Bool} {off : BitVec 12} {rd rs : Reg} {n : Lane} {s : State}
    {pa : Nat} {fill : Option TlbEntry}
    (h : s.translate .read (1 + n.val) (size.align (s.address off rs)) size.bytes =
      { fill := fill, result := .ok pa }) :
    loadEffect size link off rd rs n s =
      .writes { load := some { rd := rd, pa := pa, size := size }, link := link, fill := fill } := by
  simp [loadEffect, dataAccess, h]

/-- The packet of R133. -/
def mixedPacketInstrs (p : Pred) (off : BitVec 25) (lo : BitVec 12) (rd rb r3 r4 r5 r6 r7 : Reg) (pd : PredReg) :
    Packet (Option Instr) :=
  ⟨some (.blImm p off), some (.lw p lo rd rb), some (.addReg p 0 .lsl r5 r3 r4), some (.cmpeqReg p 0 .lsl r7 pd r6)⟩

theorem mixedPacketInstrs_separate (p : Pred) (off : BitVec 25) (lo : BitVec 12) (rb r4 r5 r6 r7 : Reg) (pd : PredReg)
    {rd r3 : Reg} (hrd : rd ≠ 31#5) (hr3 : r3 ≠ 31#5) (hne : rd ≠ r3) :
    (mixedPacketInstrs p off lo rd rb r3 r4 r5 r6 r7 pd).toList.Pairwise Separate := by
  have registers {q r : Reg} {i j : Instr} (hi : i.destination = some (.reg q)) (hj : j.destination = some (.reg r))
      (h : r ≠ q) : Separate (some i) (some j) := separate_of_ne hi (by simp [hj, h])
  have compare {q : Reg} {i : Instr} (hi : i.destination = some (.reg q)) :
      Separate (some i) (some (.cmpeqReg p 0 .lsl r7 pd r6)) := separate_of_ne hi (predDest_ne_reg pd q)
  simp only [mixedPacketInstrs, Packet.toList, List.pairwise_cons, List.mem_cons, List.not_mem_nil, or_false,
    forall_eq_or_imp, forall_eq]
  exact ⟨⟨registers rfl rfl hrd, registers rfl rfl hr3, compare rfl⟩, ⟨registers rfl rfl hne.symm, compare rfl⟩,
    compare rfl, nofun, .nil⟩

theorem mixedPacketInstrs_effects {s : State} {p : Pred} {off : BitVec 25} {lo : BitVec 12}
    {rd rb r3 r4 r5 r6 r7 : Reg} {pd : PredReg} {pa : Nat} {fill : Option TlbEntry} (hr : s.runs p) (hrd : rd ≠ 31#5)
    (hr3 : r3 ≠ 31#5) (hne : rd ≠ r3)
    (ht : s.translate .read 2 ((s.reg rb + lo.signExtend 32) &&& 0xFFFFFFFC#32) 4 =
      { fill := fill, result := .ok pa }) :
    instrEffects (mixedPacketInstrs p off lo rd rb r3 r4 r5 r6 r7 pd) s =
      (mixedWrites s (s.targetImm off) ⟨rd, pa, .word⟩ fill r3 (s.reg r4 + s.reg r5) pd
        (decide (s.reg r6 = s.reg r7))).mapLanes fun _ w => .writes w := by
  have live {n : Lane} {i : Instr} := lane_live (n := n) (i := i)
    (hd := noOtherWriter_of_separate (mixedPacketInstrs_separate p off lo rb r4 r5 r6 r7 pd hrd hr3 hne) s n)
  refine packet_ext fun n => ?_
  fin_cases n
  · exact live (n := 0) rfl ⟨hr, rfl, nofun⟩
  · exact (live (n := 1) rfl ⟨hr, rfl, nofun⟩).trans (loadEffect_ok ht)
  · rw [← op2Reg_unshifted s r5]
    exact live (n := 2) rfl ⟨hr, rfl, nofun⟩
  · rw [← op2Reg_unshifted s r7]
    exact live (n := 3) rfl ⟨hr, rfl, nofun⟩

/-- Settles O49: the four lanes have separate destinations, and so each pends its result from the old state. -/
theorem mixedPacket : Obligations.MixedPacket := by
  intro s p off lo rd rb r3 r4 r5 r6 r7 pd pa fill hr hrd hr3 hne ht
  refine ⟨_, runInstrs_writes (mixedPacketInstrs_effects hr hrd hr3 hne ht) rfl, ?_⟩
  rw [commit_mixedWrites]
  refine ⟨targetImm_eq s off, fun r => ?_, fun n => pred_setPred _ pd n _, ?_⟩
  · have kept : State.reg { s with dtlb := addEntry s.dtlb fill } r = s.reg r := rfl
    simp only [advance_reg, setPred_reg, reg_setReg, kept, Size.bytes, loadLE_word]
    by_cases h31 : r = 31#5
    · simp [h31, hrd.symm, hr3.symm]
    · by_cases hd : r = rd
      · simp [hd, hrd, hne]
      · simp [h31, hd]
  · rw [setPred_eq]
    rfl

end Sys2Proof.Machine

/-! PROOF. The ALU instructions (41_alu R150 to R167). First the shift function and the Short constants; then how an ALU
instruction runs and how the words of each format are read, once for all instructions; then the statements. -/

namespace Sys2Proof.Machine

-- Shifts and constants (41_alu R150, R151, R155) -----------------------------------------------------------------------

theorem getLsbD_rotateRight_mod (v : Word) (n : Nat) {i : Nat} (hi : i < 32) :
    (v.rotateRight n).getLsbD i = v.getLsbD ((i + n) % 32) := by
  rw [BitVec.getLsbD_rotateRight]
  by_cases h : i < 32 - n % 32
  · simp [h, show (i + n) % 32 = n % 32 + i by omega]
  · simp [h, hi, show (i + n) % 32 = i - (32 - n % 32) by omega]

theorem toNat_shift_lsl (v : Word) (n : Nat) :
    (shift v .lsl n).toNat = if n > 31 then 0 else v.toNat * 2 ^ n % 2 ^ 32 := by
  by_cases h : n > 31
  · simp [shift, h]
  · simp [shift, h, Nat.shiftLeft_eq]

theorem toNat_shift_lsr (v : Word) (n : Nat) :
    (shift v .lsr n).toNat = if n > 31 then 0 else v.toNat / 2 ^ n := by
  by_cases h : n > 31
  · simp [shift, h]
  · simp [shift, h, Nat.shiftRight_eq_div_pow]

theorem signBit_eq (v : Word) : v.getLsbD 31 = decide (v.toInt < 0) := by
  rw [← BitVec.msb_eq_toInt, BitVec.msb_eq_getLsbD_last]

theorem toInt_shift_asr (v : Word) (n : Nat) :
    (shift v .asr n).toInt = if n > 31 then (if v.toInt < 0 then -1 else 0) else v.toInt / 2 ^ n := by
  by_cases h : n > 31
  · simp only [shift, h, signBit_eq, if_true, decide_eq_true_eq]
    split <;> rfl
  · simp [shift, h, BitVec.toInt_sshiftRight, Int.shiftRight_eq_div_pow]

theorem getLsbD_shift_ror (v : Word) (n : Nat) {i : Nat} (hi : i < 32) :
    (shift v .ror n).getLsbD i = v.getLsbD ((i + n) % 32) := by
  rw [shift, getLsbD_rotateRight_mod v _ hi, Nat.add_mod_mod]

/-- A zero-extended constant, rotated right. -/
theorem getLsbD_rotatedConstant {k : Nat} (c : BitVec k) (n : Nat) {i : Nat} (hi : i < 32) :
    ((c.setWidth 32).rotateRight n).getLsbD i = c.getLsbD ((i + n) % 32) := by
  have inWord : (i + n) % 32 < 32 := Nat.mod_lt _ (by decide)
  simp [getLsbD_rotateRight_mod _ _ hi, inWord]

/-- Settles O10: each shift type by its own lemma, and both constants are rotated zero-extensions. -/
theorem operandForms : Obligations.OperandForms :=
  ⟨fun v n => ⟨toNat_shift_lsl v n, toNat_shift_lsr v n, toInt_shift_asr v n, fun _ hi => getLsbD_shift_ror v n hi⟩,
    fun c d _ _ hi => ⟨getLsbD_rotatedConstant c _ hi, getLsbD_rotatedConstant d _ hi⟩⟩

-- How an ALU instruction runs (41_alu R156) ----------------------------------------------------------------------------

/-- An instruction that runs as an ALU operation leaves its value in Rd and changes nothing else. -/
theorem exec_of_aluOp {i : Instr} {s : State} {p : Pred} {rd : Reg} {v : State → Word} (ho : opOf i = aluOp p rd v)
    (h : s.runs p) : exec i s = .next (s.onwardReg rd (v s)) := by
  have hpred : i.pred = p := by rw [← opOf_pred, ho, aluOp]
  have hpriv : i.privileged = false := by rw [← opOf_privileged, ho, aluOp]
  exact exec_writes i s { reg := some (rd, v s) } (hpred ▸ h) (by simp [hpriv]) (by rw [ho, aluOp]) (.inr rfl)

section
variable {short : Pred → BitVec 10 → BitVec 4 → Reg → Reg → Instr}
  {reg : Pred → BitVec 5 → ShiftType → Reg → Reg → Reg → Instr} {long : Pred → Word → Reg → Reg → Instr}

/-- A two-operand instruction gives the result `f` in every form when every form runs as the ALU operation of a function
`g` of the model that computes `f`. -/
theorem twoOperandResult_of_aluOp {f g : Word → Word → Word} (value : ∀ a b, g a b = f a b)
    (ops : ∀ p rd rs,
      (∀ imm rot, opOf (short p imm rot rd rs) = aluOp p rd fun s => g (s.reg rs) (op2Short imm rot)) ∧
      (∀ amt st rt, opOf (reg p amt st rt rd rs) = aluOp p rd fun s => g (s.reg rs) (s.op2Reg amt st rt)) ∧
      ∀ imm, opOf (long p imm rd rs) = aluOp p rd fun s => g (s.reg rs) (op2Long imm)) :
    TwoOperandResult f short reg long := by
  obtain rfl : g = f := funext₂ value
  intro s p rd rs h
  obtain ⟨shortOp, regOp, longOp⟩ := ops p rd rs
  exact ⟨fun imm rot => exec_of_aluOp (shortOp imm rot) h, fun amt st rt => exec_of_aluOp (regOp amt st rt) h,
    fun imm => exec_of_aluOp (longOp imm) h⟩

/-- The words of a two-operand instruction decode to it when its rows of the three ALU opcode tables name it. -/
theorem twoOperandForms_of_rows {op : BitVec 4}
    (rows : ∀ w imm, field 10 4 w = op →
      decodeAluShort w = .ok (short (predField w) (field 18 10 w) (field 14 4 w) (field 5 5 w) (field 0 5 w)) ∧
      decodeAluReg w = .ok (reg (predField w) (field 21 5 w) (ShiftType.ofBits (field 19 2 w)) (field 14 5 w)
        (field 5 5 w) (field 0 5 w)) ∧
      decodeAluLong w imm = .ok (long (predField w) imm (field 5 5 w) (field 0 5 w))) :
    TwoOperandForms op short reg long := by
  refine fun w imm => ⟨fun ⟨h28, hop⟩ next => ?_, fun ⟨h26, hop⟩ next => ?_, fun ⟨h14, hop⟩ => ?_⟩
  · obtain ⟨shortRow, _, _⟩ := rows w imm hop
    exact (decodeWord_short next h28).trans shortRow
  · obtain ⟨_, regRow, _⟩ := rows w imm hop
    exact (decodeWord_register next h26).trans regRow
  · obtain ⟨_, _, longRow⟩ := rows w imm hop
    exact (decodeWord_long imm (beq_iff_eq.mpr h14)).trans longRow

end

section
variable {short : Pred → BitVec 15 → BitVec 4 → Reg → Instr} {reg : Pred → BitVec 5 → ShiftType → Reg → Reg → Instr}
  {regsh : Pred → ShiftType → Reg → Reg → Reg → Instr} {long : Pred → Word → Reg → Instr}

/-- A one-operand instruction gives the result `f` in every form when every form runs as the ALU operation of a function
`g` of the model that computes `f`. -/
theorem oneOperandResult_of_aluOp {f g : Word → Word} (value : ∀ b, g b = f b)
    (ops : ∀ p rd,
      (∀ imm rot, opOf (short p imm rot rd) = aluOp p rd fun _ => g (op2Short15 imm rot)) ∧
      (∀ amt st rt, opOf (reg p amt st rt rd) = aluOp p rd fun s => g (s.op2Reg amt st rt)) ∧
      (∀ st rt rs, opOf (regsh p st rt rd rs) = aluOp p rd fun s => g (s.op2Regsh st rt rs)) ∧
      ∀ imm, opOf (long p imm rd) = aluOp p rd fun _ => g (op2Long imm)) :
    OneOperandResult f short reg regsh long := by
  obtain rfl : g = f := funext value
  intro s p rd h
  obtain ⟨shortOp, regOp, regshOp, longOp⟩ := ops p rd
  exact ⟨fun imm rot => exec_of_aluOp (shortOp imm rot) h, fun amt st rt => exec_of_aluOp (regOp amt st rt) h,
    fun st rt rs => exec_of_aluOp (regshOp st rt rs) h, fun imm => exec_of_aluOp (longOp imm) h⟩

/-- The words of a one-operand instruction decode to it when its rows of the four ALU opcode tables name it. -/
theorem oneOperandForms_of_rows {op : BitVec 4}
    (rows : ∀ w imm, field 10 4 w = op →
      decodeAluShort w = .ok (short (predField w) (field 0 5 w ++ field 18 10 w) (field 14 4 w) (field 5 5 w)) ∧
      decodeAluReg w = .ok (reg (predField w) (field 21 5 w) (ShiftType.ofBits (field 19 2 w)) (field 14 5 w)
        (field 5 5 w)) ∧
      decodeRegsh w = .ok (regsh (predField w) (ShiftType.ofBits (field 19 2 w)) (field 14 5 w) (field 5 5 w)
        (field 0 5 w)) ∧
      decodeAluLong w imm = .ok (long (predField w) imm (field 5 5 w))) :
    OneOperandForms op short reg regsh long := by
  intro w imm
  refine ⟨fun ⟨h28, hop⟩ next => ?_, fun ⟨h26, hop⟩ next => ?_, fun ⟨h21, hop⟩ next => ?_, fun ⟨h14, hop⟩ => ?_⟩
  · obtain ⟨shortRow, _, _, _⟩ := rows w imm hop
    exact (decodeWord_short next h28).trans shortRow
  · obtain ⟨_, regRow, _, _⟩ := rows w imm hop
    exact (decodeWord_register next h26).trans regRow
  · obtain ⟨_, _, regshRow, _⟩ := rows w imm hop
    exact (decodeWord_regsh next h21).trans regshRow
  · obtain ⟨_, _, _, longRow⟩ := rows w imm hop
    exact (decodeWord_long imm (beq_iff_eq.mpr h14)).trans longRow

end

-- Results as numbers (41_alu R157, R161, R162, R166, R167) -----------------------------------------------------------

theorem add_eq_ofNat (a b : Word) : a + b = BitVec.ofNat 32 (a.toNat + b.toNat) := by
  simp [BitVec.ofNat_add]

/-- A difference wraps as the difference of the two numbers does. -/
theorem sub_eq_ofInt (a b : Word) : a - b = BitVec.ofInt 32 ((a.toNat : Int) - b.toNat) := by
  apply BitVec.eq_of_toNat_eq
  rw [BitVec.toNat_sub, BitVec.toNat_ofInt]
  omega

/-- The low `k` bits of a word, sign-extended, are those bits read as a two's complement number. -/
theorem signExtend_setWidth (b : Word) {k : Nat} (hk : 0 < k) :
    (b.setWidth k).signExtend 32 =
      BitVec.ofInt 32 (if b.toNat % 2 ^ k < 2 ^ (k - 1) then (b.toNat : Int) % 2 ^ k else b.toNat % 2 ^ k - 2 ^ k) := by
  obtain ⟨k, rfl⟩ : ∃ j, k = j + 1 := ⟨k - 1, by omega⟩
  rw [BitVec.signExtend, BitVec.toInt_eq_toNat_cond, BitVec.toNat_setWidth]
  have half : 2 * (b.toNat % 2 ^ (k + 1)) < 2 ^ (k + 1) ↔ b.toNat % 2 ^ (k + 1) < 2 ^ k := by omega
  simp [half]

-- The statements -------------------------------------------------------------------------------------------------------

/-- Settles O11: every form runs as the ALU operation of the wrapping sum or difference. -/
theorem addSubtractResults : Obligations.AddSubtractResults := by
  refine ⟨twoOperandResult_of_aluOp (g := aluAdd) add_eq_ofNat ?addOps,
    twoOperandResult_of_aluOp (g := aluSub) sub_eq_ofInt ?subOps,
    twoOperandResult_of_aluOp (g := aluRsb) (fun a b => sub_eq_ofInt b a) ?rsbOps⟩
  case addOps | subOps | rsbOps => exact fun _ _ _ => ⟨fun _ _ => rfl, fun _ _ _ => rfl, fun _ => rfl⟩

/-- Settles O12: the instruction's rows of the ALU opcode tables, and the ALU operation that every form runs as. -/
theorem logicResults : Obligations.LogicResults := by
  refine ⟨twoOperandForms_of_rows ?andRows, twoOperandResult_of_aluOp (g := aluAnd) (fun _ _ => rfl) ?andOps,
    twoOperandForms_of_rows ?norRows, twoOperandResult_of_aluOp (g := aluNor) (fun _ _ => rfl) ?norOps,
    twoOperandForms_of_rows ?orRows, twoOperandResult_of_aluOp (g := aluOr) (fun _ _ => rfl) ?orOps,
    twoOperandForms_of_rows ?xorRows, twoOperandResult_of_aluOp (g := aluXor) (fun _ _ => rfl) ?xorOps⟩
  case andRows | norRows | orRows | xorRows =>
    intro w imm hop
    simp [decodeAluShort, decodeAluReg, decodeAluLong, hop]
  case andOps | norOps | orOps | xorOps => exact fun _ _ _ => ⟨fun _ _ => rfl, fun _ _ _ => rfl, fun _ => rfl⟩

/-- Settles O13: the rows of the four ALU opcode tables, Regsh too, and the ALU operation that every form runs as. -/
theorem moveResults : Obligations.MoveResults := by
  refine ⟨oneOperandForms_of_rows ?movRows, oneOperandResult_of_aluOp (g := aluMov) (fun _ => rfl) ?movOps,
    oneOperandForms_of_rows ?mvnRows, oneOperandResult_of_aluOp (g := aluMvn) (fun _ => rfl) ?mvnOps⟩
  case movRows | mvnRows =>
    intro w imm hop
    simp [decodeAluShort, decodeAluReg, decodeRegsh, decodeAluLong, hop]
  case movOps | mvnOps => exact fun _ _ => ⟨fun _ _ => rfl, fun _ _ _ => rfl, fun _ _ _ => rfl, fun _ => rfl⟩

/-- Settles O14: as for MOV and MVN, with the value of a sign extension as a number. -/
theorem signExtendResults : Obligations.SignExtendResults := by
  have sxbValue (b : Word) := signExtend_setWidth b (k := 8) (by decide)
  have sxhValue (b : Word) := signExtend_setWidth b (k := 16) (by decide)
  refine ⟨oneOperandForms_of_rows ?sxbRows, oneOperandResult_of_aluOp (g := aluSxb) sxbValue ?sxbOps,
    oneOperandForms_of_rows ?sxhRows, oneOperandResult_of_aluOp (g := aluSxh) sxhValue ?sxhOps⟩
  case sxbRows | sxhRows =>
    intro w imm hop
    simp [decodeAluShort, decodeAluReg, decodeRegsh, decodeAluLong, hop]
  case sxbOps | sxhOps => exact fun _ _ => ⟨fun _ _ => rfl, fun _ _ _ => rfl, fun _ _ _ => rfl, fun _ => rfl⟩

end Sys2Proof.Machine

/-! PROOF. The compares (42_compare R180 to R187). First how a compare runs and how its words are read, once for all
seven conditions; then the two bit conditions as statements about single bits; then the statements. -/

namespace Sys2Proof.Machine

-- How a compare runs (42_compare R180) ---------------------------------------------------------------------------------

/-- A write to a predicate register and the step to the next packet; a write to P3 is dropped (10_state R14). -/
theorem setPred_advance (s : State) (n : PredReg) (b : Bool) :
    (s.setPred n b).advance none s.pc = s.onwardPred n b := by
  have registers : n = 0#2 ∨ n = 1#2 ∨ n = 2#2 ∨ n = 3#2 := by revert n; decide
  rcases registers with rfl | rfl | rfl | rfl <;> rfl

/-- An instruction that runs as a compare leaves its condition in Pd and changes nothing else. -/
theorem exec_of_compareOp {i : Instr} {s : State} {p : Pred} {pd : PredReg} {v : State → Bool}
    (ho : opOf i = compareOp p pd v) (h : s.runs p) : exec i s = .next (s.onwardPred pd (v s)) := by
  rw [exec_eq_alone, ho, alone_compareOp p pd v s ((runs_iff s p).1 h), setPred_advance]

section
variable {short : Pred → BitVec 10 → BitVec 4 → PredReg → Reg → Instr}
  {reg : Pred → BitVec 5 → ShiftType → Reg → PredReg → Reg → Instr} {long : Pred → Word → PredReg → Reg → Instr}

/-- A compare answers the condition `c` in every form when every form runs as the compare of a function `g` of the model
that decides `c`. -/
theorem compareResult_of_compareOp {c : Word → Word → Prop} {g : Word → Word → Bool}
    (value : ∀ a b, g a b = true ↔ c a b)
    (ops : ∀ p pd rs,
      (∀ imm rot, opOf (short p imm rot pd rs) = compareOp p pd fun s => g (s.reg rs) (op2Short imm rot)) ∧
      (∀ amt st rt, opOf (reg p amt st rt pd rs) = compareOp p pd fun s => g (s.reg rs) (s.op2Reg amt st rt)) ∧
      ∀ imm, opOf (long p imm pd rs) = compareOp p pd fun s => g (s.reg rs) (op2Long imm)) :
    CompareResult c short reg long := by
  intro s p pd rs b h
  have answer {x y : Word} (hb : b = true ↔ c x y) : b = g x y := Bool.eq_iff_iff.mpr (hb.trans (value x y).symm)
  obtain ⟨shortOp, regOp, longOp⟩ := ops p pd rs
  exact ⟨fun imm rot hb => answer hb ▸ exec_of_compareOp (shortOp imm rot) h,
    fun amt st rt hb => answer hb ▸ exec_of_compareOp (regOp amt st rt) h,
    fun imm hb => answer hb ▸ exec_of_compareOp (longOp imm) h⟩

/-- The words of a compare decode to it when its rows of the three compare type tables name it: ALU opcode `0111` of
every format leads to that format's table (R102, R103). -/
theorem compareForms_of_rows {ctype : BitVec 3}
    (rows : ∀ w imm, field 7 3 w = ctype →
      decodeCompareShort w = .ok (short (predField w) (field 18 10 w) (field 14 4 w) (field 5 2 w) (field 0 5 w)) ∧
      decodeCompareReg w = .ok (reg (predField w) (field 21 5 w) (ShiftType.ofBits (field 19 2 w)) (field 14 5 w)
        (field 5 2 w) (field 0 5 w)) ∧
      decodeCompareLong w imm = .ok (long (predField w) imm (field 5 2 w) (field 0 5 w))) :
    CompareForms ctype short reg long := by
  intro w imm htype
  obtain ⟨shortRow, regRow, longRow⟩ := rows w imm htype
  refine ⟨fun ⟨h28, hop⟩ next => ?_, fun ⟨h26, hop⟩ next => ?_, fun ⟨h14, hop⟩ => ?_⟩
  all_goals rw [field_def] at hop
  · rw [decodeWord_short next h28, decodeAluShort, hop]
    exact shortRow
  · rw [decodeWord_register next h26, decodeAluReg, hop]
    exact regRow
  · rw [decodeWord_long imm (beq_iff_eq.mpr h14), decodeAluLong, hop]
    exact longRow

end

-- The bit conditions (42_compare R186, R187) ---------------------------------------------------------------------------

theorem ne_zero_iff_exists_bit (v : Word) : v ≠ 0#32 ↔ ∃ k < 32, v.getLsbD k = true := by
  constructor
  · intro nonzero
    by_contra noBit
    push Not at noBit
    exact nonzero (BitVec.eq_of_getLsbD_eq fun k hk => by simp [noBit k hk])
  · rintro ⟨k, _, hk⟩ rfl
    simp at hk

theorem condBs_iff (a b : Word) : condBs a b = true ↔ ∃ k < 32, a.getLsbD k = true ∧ b.getLsbD k = true := by
  rw [condBs, decide_eq_true_iff, ne_zero_iff_exists_bit]
  simp

/-- The formula of 90_conflicts C3, bit by bit. -/
theorem condBc_iff (a b : Word) : condBc a b = true ↔ ∃ k < 32, a.getLsbD k = false ∧ b.getLsbD k = true := by
  rw [condBc, decide_eq_true_iff, ne_zero_iff_exists_bit]
  refine exists_congr fun k => and_congr_right fun hk => ?_
  simp [hk]

-- The statements -------------------------------------------------------------------------------------------------------

/-- Settles O17: the compare's rows of the three compare type tables, and the condition that every form decides. -/
theorem compareResults : Obligations.CompareResults := by
  refine ⟨
    compareForms_of_rows ?ltuRows, compareResult_of_compareOp (g := condLtu) (fun _ _ => decide_eq_true_iff) ?ltuOps,
    compareForms_of_rows ?leuRows, compareResult_of_compareOp (g := condLeu) (fun _ _ => decide_eq_true_iff) ?leuOps,
    compareForms_of_rows ?eqRows, compareResult_of_compareOp (g := condEq) (fun _ _ => decide_eq_true_iff) ?eqOps,
    compareForms_of_rows ?ltsRows, compareResult_of_compareOp (g := condLts) (fun _ _ => decide_eq_true_iff) ?ltsOps,
    compareForms_of_rows ?lesRows, compareResult_of_compareOp (g := condLes) (fun _ _ => decide_eq_true_iff) ?lesOps,
    compareForms_of_rows ?bsRows, compareResult_of_compareOp (g := condBs) condBs_iff ?bsOps⟩
  case ltuRows | leuRows | eqRows | ltsRows | lesRows | bsRows =>
    intro w imm htype
    simp [decodeCompareShort, decodeCompareReg, decodeCompareLong, htype]
  case ltuOps | leuOps | eqOps | ltsOps | lesOps | bsOps =>
    exact fun _ _ _ => ⟨fun _ _ => rfl, fun _ _ _ => rfl, fun _ => rfl⟩

/-- Settles O18: as for the other compares, with compare type `111` and the condition of C3's formula. -/
theorem bitsClearCompareResult : Obligations.BitsClearCompareResult := by
  refine ⟨compareForms_of_rows fun w imm htype => ?rows, compareResult_of_compareOp (g := condBc) condBc_iff ?ops⟩
  case rows => simp [decodeCompareShort, decodeCompareReg, decodeCompareLong, htype]
  case ops => exact fun _ _ _ => ⟨fun _ _ => rfl, fun _ _ _ => rfl, fun _ => rfl⟩

end Sys2Proof.Machine

/-! PROOF. Loads and stores (43_loadstore R200 to R212). First a data access that is not translated; then what a load
and a store leave, once for all widths; then the link bit, alone and in a packet that would set and clear it. -/

namespace Sys2Proof.Machine

-- Accesses that are not translated (R202) -----------------------------------------------------------------------------

/-- A Memory instruction needs no privilege (R202, 45_control R237). -/
theorem privileged_of_memory {i : Instr} (h : i.kind = .memory) : i.privileged = false := by
  rw [← Bool.not_eq_true]
  intro hp
  rcases privileged_cases hp with ⟨p, rfl⟩ | ⟨p, rg, k, rfl⟩ | ⟨p, k, rg, rfl⟩ <;> cases h

/-- An instruction whose data access page-faults or leaves the physical address space is the trap with code 4 or 5 and
the computed address. -/
theorem exec_accessFaults {i : Instr} {s : State} {a : DataAccess} (ha : dataAccessOf i s = some a) (hr : s.runs i.pred)
    (hw : s.ehaWritten = true) :
    ((s.translate a.kind 1 a.aligned a.bytes).result = .pageFault →
      exec i s = .next (s.trapped ⟨4#32, 0#32, 0#32, 0#32⟩ a.computed s.ea1)) ∧
    ((s.translate a.kind 1 a.aligned a.bytes).result = .invalidPhys →
      exec i s = .next (s.trapped ⟨5#32, 0#32, 0#32, 0#32⟩ a.computed s.ea1)) := by
  obtain ⟨hmem, _⟩ := effect_of_dataAccess ha
  have raises {x : Exc} := exec_raises i s x (some a.computed) hw hr (by simp [privileged_of_memory hmem])
  exact ⟨fun ht => raises (effect_pageFault (n := 0) ha ht), fun ht => raises (effect_invalidPhys (n := 0) ha ht)⟩

/-- Settles O24: each listed access is the data access of its instruction, SC's only with the link bit set. -/
theorem dataAccessFaults : Obligations.DataAccessFaults := by
  intro s p off r rs hr hw a accesses c hc
  have faults {i : Instr} {kind : AccessKind} {aligned : Word} {bytes : Nat} (hp : i.pred = p)
      (ha : dataAccessOf i s = some ⟨kind, a, aligned, bytes⟩) := exec_accessFaults ha (hp ▸ hr) hw
  simp only [accesses, List.mem_append, List.mem_cons, List.not_mem_nil, or_false] at hc
  rcases hc with (rfl | rfl | rfl | rfl | rfl | rfl | rfl) | hsc
  case inr =>
    split at hsc
    case isTrue hlink =>
      obtain rfl := List.mem_singleton.mp hsc
      exact faults rfl (if_pos hlink)
    case isFalse => cases hsc
  all_goals exact faults rfl rfl

-- Loads (R203 to R206) ------------------------------------------------------------------------------------------------

theorem loadLE_byte (s : State) (pa : Nat) : s.loadLE pa 1 = wordLE (s.memByte pa) 0 0 0 := by
  simp [State.loadLE, assembleLE, wordLE]

theorem loadLE_half (s : State) (pa : Nat) :
    s.loadLE pa 2 = wordLE (s.memByte pa) (s.memByte (pa + 1)) 0 0 := by
  simp [State.loadLE, assembleLE, wordLE]

/-- An instruction that runs as a translated load leaves the bytes read in Rd and its link bit, and changes nothing else
but the data TLB. -/
theorem exec_of_loadEffect {i : Instr} {s : State} {size : Size} {link : Option Bool} {off : BitVec 12} {rd rs : Reg}
    {pa : Nat} {fill : Option TlbEntry} (he : (opOf i).effect 0 s = loadEffect size link off rd rs 0 s)
    (hk : i.kind = .memory) (hr : s.runs i.pred)
    (ht : s.translate .read 1 (size.align (s.address off rs)) size.bytes = { fill := fill, result := .ok pa }) :
    exec i s = .next { s.onwardReg rd (s.loadLE pa size.bytes) with
      dtlb := addEntry s.dtlb fill, link := link.getD s.link } := by
  rw [exec_writes i s _ hr (by simp [privileged_of_memory hk]) (he.trans (loadEffect_ok (n := 0) ht)) (.inr rfl)]
  cases link <;> rfl

/-- Settles O21: each load is the one of its width, LL with the link bit set, and the bytes read are those of memory. -/
theorem loadResults : Obligations.LoadResults := by
  intro s p off rd rs pa fill hr
  refine ⟨fun ht => ?_, fun ht => ?_, fun ht => ?_⟩
  · rw [← loadLE_byte]
    exact exec_of_loadEffect (size := .byte) (link := none) rfl rfl hr ht
  · rw [← loadLE_half]
    exact exec_of_loadEffect (size := .half) (link := none) rfl rfl hr ht
  · rw [← loadLE_word]
    exact ⟨exec_of_loadEffect (size := .word) (link := none) rfl rfl hr ht,
      exec_of_loadEffect (size := .word) (link := some true) rfl rfl hr ht⟩

-- Stores (R207 to R210) -----------------------------------------------------------------------------------------------

/-- A store changes memory and what the L2 cache has not yet taken, and no other field. -/
theorem storeLE_eq (s : State) (pa n : Nat) (v : Word) :
    s.storeLE pa n v = { s with mem := (s.storeLE pa n v).mem, l2 := (s.storeLE pa n v).l2 } := by
  induction n generalizing s pa v with
  | zero => rfl
  | succ n ih =>
    rw [State.storeLE, ih]
    rfl

/-- A store that is translated pends the memory write, what it does to P0 and the link bit, and the TLB entry (R202). -/
theorem storeEffect_ok {size : Size} {flag : Option (PredReg × Bool)} {link : Option Bool} {off : BitVec 12}
    {rt rs : Reg} {n : Lane} {s : State} {pa : Nat} {fill : Option TlbEntry}
    (h : s.translate .write (1 + n.val) (size.align (s.address off rs)) size.bytes =
      { fill := fill, result := .ok pa }) :
    storeEffect size flag link off rt rs n s =
      .writes
        { store := some { pa := pa, size := size, value := s.reg rt }, pred := flag, link := link, fill := fill } := by
  simp [storeEffect, dataAccess, h]

/-- The state after a store of the low `n` bytes of `v` at `pa` that passed on to the next packet. -/
def State.onwardStore (s : State) (pa n : Nat) (v : Word) (fill : Option TlbEntry) : State :=
  { s.storeLE pa n v with dtlb := addEntry s.dtlb fill, pc := s.pc + 16#32, draw := s.draw + 1 }

theorem storedAt_onwardStore (s : State) (pa n : Nat) (v : Word) (fill : Option TlbEntry) :
    StoredAt s (s.onwardStore pa n v fill) pa n v fill := by
  refine ⟨fun x => memByte_storeLE s pa n v x, fun x => l2Byte_storeLE s pa n v x, ?_⟩
  rw [State.onwardStore, storeLE_eq]

/-- A store depends on memory and the L2 cache only, so writes to P0, the link bit and the data TLB commute with it. -/
theorem storeLE_writes_comm (s : State) (pa n : Nat) (v : Word) (p0 link : Bool) (dtlb : List TlbEntry) :
    State.storeLE { s with p0 := p0, link := link, dtlb := dtlb } pa n v =
      { s.storeLE pa n v with p0 := p0, link := link, dtlb := dtlb } := by
  induction n generalizing s pa v with
  | zero => rfl
  | succ n ih => exact ih (s.storeByte pa (v.setWidth 8)) (pa + 1) (v >>> 8)

-- Store conditional (R212) --------------------------------------------------------------------------------------------

/-- With the link bit set, SC is a word store that also writes P0 and the link bit. -/
theorem effect_sc_linked {s : State} (hl : s.link = true) (p : Pred) (off : BitVec 12) (rt rs : Reg) (n : Lane) :
    (opOf (.sc p off rt rs)).effect n s = storeEffect .word (some (0#2, true)) (some false) off rt rs n s :=
  if_pos hl

/-- With the link bit clear, SC makes no access. -/
theorem effect_sc_unlinked {s : State} (hl : s.link = false) (p : Pred) (off : BitVec 12) (rt rs : Reg) (n : Lane) :
    (opOf (.sc p off rt rs)).effect n s = .writes { pred := some (0#2, false), link := some false } :=
  if_neg (by simp [hl])

/-- What a lane leaves that stores and writes P0 and the link bit. -/
theorem apply_flaggedStore (s : State) (t : Store) (p0 link : Bool) (fill : Option TlbEntry) :
    (State.apply { s with dtlb := addEntry s.dtlb fill }
      { store := some t, pred := some (0#2, p0), link := some link, fill := fill }).advance none s.pc =
      { s.onwardStore t.pa t.size.bytes t.value fill with p0 := p0, link := link } := by
  change (State.storeLE { s with p0 := p0, link := link, dtlb := addEntry s.dtlb fill } t.pa t.size.bytes
    t.value).advance none s.pc = _
  rw [storeLE_writes_comm]
  simp [State.onwardStore, State.advance]

/-- But for P0 and the link bit, that is a store. -/
theorem storedAt_flagged (s : State) (pa n : Nat) (v : Word) (fill : Option TlbEntry) (p0 link : Bool) :
    let t : State := { s.onwardStore pa n v fill with p0 := p0, link := link }
    StoredAt s { t with p0 := s.p0, link := s.link } pa n v fill := by
  have restored : { s.onwardStore pa n v fill with p0 := s.p0, link := s.link } = s.onwardStore pa n v fill := by
    rw [State.onwardStore, storeLE_eq]
  exact restored.symm ▸ storedAt_onwardStore s pa n v fill

/-- With the link bit set, SC where its access is translated is SW that also writes 1 to P0 and clears the link bit. -/
theorem exec_sc_linked {s : State} {p : Pred} {off : BitVec 12} {rt rs : Reg} {pa : Nat} {fill : Option TlbEntry}
    (hr : s.runs p) (hl : s.link = true)
    (ht : s.translate .write 1 (Size.word.align (s.address off rs)) 4 = { fill := fill, result := .ok pa }) :
    exec (.sc p off rt rs) s = .next { s.onwardStore pa 4 (s.reg rt) fill with p0 := true, link := false } := by
  have stores := (effect_sc_linked hl p off rt rs 0).trans (storeEffect_ok (n := 0) ht)
  exact (exec_writes (.sc p off rt rs) s _ hr nofun stores (.inr rfl)).trans
    (congrArg _ (apply_flaggedStore s ⟨pa, .word, s.reg rt⟩ true false fill))

/-- Settles O23: SC with the link bit set is a store with two more writes, and with it clear those two writes alone. -/
theorem storeConditionalResults : Obligations.StoreConditionalResults := by
  intro s p off rt rs pa fill hr
  refine ⟨fun hl ht => ⟨_, exec_sc_linked hr hl ht, rfl, rfl, ?_⟩, fun hl => ?_⟩
  · exact storedAt_flagged s pa 4 (s.reg rt) fill true false
  · exact exec_writes (.sc p off rt rs) s _ hr nofun (effect_sc_unlinked hl p off rt rs 0) (.inr rfl)

-- Packets that set and clear the link bit (R211) ----------------------------------------------------------------------

/-- An instruction without a destination shares none. -/
theorem separate_none {i j : Instr} (h : i.destination = none) : Separate (some i) (some j) := by
  rintro d ⟨hd, _⟩
  cases h.symm.trans hd

/-- Two live instructions in slots 0 and 1 without a destination in common come to their own outcomes. -/
theorem instrEffects_pair {i j : Instr} {s : State} (hi : LiveIn s 0 i) (hj : LiveIn s 1 j)
    (hd : Separate (some i) (some j)) :
    instrEffects ⟨some i, some j, none, none⟩ s =
      ⟨(opOf i).effect 0 s, (opOf j).effect 1 s, .writes {}, .writes {}⟩ := by
  have single := noOtherWriter_of_separate (is := ⟨some i, some j, none, none⟩)
    (by simpa [Packet.toList, Separate] using hd) s
  refine packet_ext fun n => ?_
  fin_cases n
  · exact lane_live (i := i) rfl hi (single 0)
  · exact lane_live (i := j) rfl hj (single 1)
  · exact lane_empty (n := 2) rfl
  · exact lane_empty (n := 3) rfl

/-- Two such instructions that pend opposite writes of the link bit are refused. -/
theorem runInstrs_linkConflict {i j : Instr} {s : State} {w v : Writes} (hi : LiveIn s 0 i) (hj : LiveIn s 1 j)
    (hd : Separate (some i) (some j)) (hw : (opOf i).effect 0 s = .writes w) (hv : (opOf j).effect 1 s = .writes v)
    (hl : linkConflict ⟨w, v, {}, {}⟩ = true) :
    runInstrs ⟨some i, some j, none, none⟩ s = .refused .linkConflict := by
  have effects := instrEffects_pair hi hj hd
  rw [hw, hv] at effects
  unfold runInstrs runPacket
  rw [show laneEffects _ s = _ from effects]
  exact if_pos hl

/-- A translation with the result `r`, in full. -/
theorem translation_eq {t : Translation} {r : Translated} (h : t.result = r) : t = { fill := t.fill, result := r } := by
  rw [← h]

/-- An LL whose access is translated pends a 1 for the link bit. -/
theorem effect_ll_link {s : State} {n : Lane} {off : BitVec 12} {rs : Reg} {pa : Nat} (p : Pred) (rd : Reg)
    (ht : (s.translate .read (1 + n.val) (Size.word.align (s.address off rs)) 4).result = .ok pa) :
    ∃ w, (opOf (.ll p off rd rs)).effect n s = .writes w ∧ w.link = some true :=
  ⟨_, loadEffect_ok (size := .word) (translation_eq ht), rfl⟩

/-- An SC pends a 0 for the link bit, if its access is translated where it makes one. -/
theorem effect_sc_link {s : State} {n : Lane} {off : BitVec 12} {rs : Reg} (p : Pred) (rt : Reg)
    (ht : s.link = true →
      ∃ pa, (s.translate .write (1 + n.val) (Size.word.align (s.address off rs)) 4).result = .ok pa) :
    ∃ w, (opOf (.sc p off rt rs)).effect n s = .writes w ∧ w.link = some false := by
  cases hl : s.link with
  | false => exact ⟨_, effect_sc_unlinked hl p off rt rs n, rfl⟩
  | true =>
    obtain ⟨pa, hpa⟩ := ht hl
    exact ⟨_, (effect_sc_linked hl p off rt rs n).trans (storeEffect_ok (size := .word) (translation_eq hpa)), rfl⟩

/-- Settles O55: the two lanes have separate destinations, and LL pends a 1 for the link bit that the other clears. -/
theorem linkConflictRefused : Obligations.LinkConflictRefused := by
  intro s p q off off' rd rs rt rs' hp hq
  have separate : Separate (some (.sc q off' rt rs')) (some (.ll p off rd rs)) := separate_of_ne rfl nofun
  refine ⟨fun ⟨_, hload⟩ hstore => ?_, fun hstore ⟨_, hload⟩ => ?_, fun hmode ⟨_, hload⟩ => ?_⟩
  · obtain ⟨w, hw, sets⟩ := effect_ll_link (n := 0) p rd hload
    obtain ⟨v, hv, clears⟩ := effect_sc_link (n := 1) q rt hstore
    exact runInstrs_linkConflict ⟨hp, rfl, nofun⟩ ⟨hq, rfl, nofun⟩ (fun d h => separate d h.symm) hw hv
      (by simp [linkConflict, Packet.toList, sets, clears])
  · obtain ⟨w, hw, clears⟩ := effect_sc_link (n := 0) q rt hstore
    obtain ⟨v, hv, sets⟩ := effect_ll_link (n := 1) p rd hload
    exact runInstrs_linkConflict ⟨hq, rfl, nofun⟩ ⟨hp, rfl, nofun⟩ separate hw hv
      (by simp [linkConflict, Packet.toList, sets, clears])
  · obtain ⟨v, hv, sets⟩ := effect_ll_link (n := 1) p rd hload
    have live : LiveIn s 0 (.eret q) := ⟨hq, rfl, fun _ => hmode⟩
    exact runInstrs_linkConflict live ⟨hp, rfl, nofun⟩ (separate_none rfl) rfl hv
      (by simp [linkConflict, Packet.toList, sets])

end Sys2Proof.Machine

/-! PROOF. The branches (44_branch R220 to R223). First the targets as numbers, then how a branch runs, with and without the
link, once for both forms; then the statements. -/

namespace Sys2Proof.Machine

-- Targets (44_branch R220) ---------------------------------------------------------------------------------------------

/-- An offset field counts packets from its base, as a number (30_encoding R101). -/
theorem add_packetOffset {k : Nat} (base : Word) (off : BitVec k) :
    base + off.signExtend 32 <<< 4 = BitVec.ofInt 32 (base.toNat + 16 * off.toInt) := by
  have bytes : off.signExtend 32 <<< 4 = BitVec.ofInt 32 (16 * off.toInt) := by
    rw [BitVec.shiftLeft_eq_mul_twoPow, BitVec.mul_comm, BitVec.ofInt_mul]
    rfl
  rw [bytes, BitVec.ofInt_add, BitVec.ofInt_natCast, BitVec.ofNat_toNat, BitVec.setWidth_eq]

/-- The target of a branch to a base register plus offset, as a number. -/
theorem targetReg_eq (s : State) (off : BitVec 20) (rs : Reg) :
    s.targetReg off rs = BitVec.ofInt 32 ((s.reg rs).toNat + 16 * off.toInt) &&& 0xFFFFFFF0#32 := by
  rw [State.targetReg, packetAddress, add_packetOffset]

/-- Offset field 1 goes to the packet after an aligned base. -/
theorem targetReg_one {s : State} {rs : Reg} (h : s.reg rs &&& 0xF#32 = 0#32) :
    s.targetReg 1#20 rs = s.reg rs + 16#32 := by
  rw [State.targetReg, show (1#20).signExtend 32 <<< 4 = 16#32 by decide]
  exact (packetAddress_eq_iff _).mpr (packetAddress_next _ h)

-- How a branch runs (44_branch R221, R222) -----------------------------------------------------------------------------

section
variable {i : Instr} {s : State} {p : Pred} {target : State → Word}

/-- An instruction that runs as a branch without link goes to its target and changes nothing else. -/
theorem exec_of_branch (ho : opOf i = controlOp p none fun s => .writes { target := some (target s) }) (h : s.runs p) :
    exec i s = .next (s.jumped (target s)) := by
  rw [exec_eq_alone, ho, alone_controlOp p none _ s _ ((runs_iff s p).1 h) rfl rfl]
  rfl

/-- An instruction that runs as a branch with link goes to its target, taken before the link is written, leaves its
packet's address in R31, and changes nothing else. -/
theorem exec_of_branchLink
    (ho : opOf i = controlOp p (some (.reg 31#5)) fun s =>
      .writes { reg := some (31#5, s.pc), target := some (target s) })
    (h : s.runs p) : exec i s = .next ((s.jumped (target s)).setReg 31#5 s.pc) := by
  rw [exec_eq_alone, ho, alone_controlOp p _ _ s _ ((runs_iff s p).1 h) rfl rfl]
  rfl

end

-- The statements -------------------------------------------------------------------------------------------------------

/-- Settles O19: each form runs as a branch, and its target is the number of R220. -/
theorem branchResults : Obligations.BranchResults := by
  refine fun s p h => ⟨fun off => ?_, fun off rs => ?_⟩
  · rw [← targetImm_eq]
    exact ⟨exec_of_branch (target := (·.targetImm off)) rfl h, exec_of_branchLink (target := (·.targetImm off)) rfl h⟩
  · rw [← targetReg_eq]
    exact ⟨exec_of_branch (target := (·.targetReg off rs)) rfl h,
      exec_of_branchLink (target := (·.targetReg off rs)) rfl h⟩

/-- After a BL to anywhere, `B (R31 + 1)` goes to the packet after the call: the BL keeps the predicates, and what it
leaves in R31 is aligned because `pc` is (44_branch R223). -/
theorem exec_return_of_linked {s t : State} {q : Pred} {target : Word} (hpc : s.pc &&& 0xF#32 = 0#32) (hq : s.runs q)
    (ht : t = (s.jumped target).setReg 31#5 s.pc) :
    exec (.bReg q 1#20 31#5) t = .next (t.jumped (s.pc + 16#32)) := by
  have link : t.reg 31#5 = s.pc := by rw [ht, reg_setReg_same]
  have runs : t.runs q := by rw [ht]; exact hq
  rw [exec_of_branch (target := (·.targetReg 1#20 31#5)) rfl runs, targetReg_one (by rw [link, hpc]), link]

/-- Settles O20: both forms of BL link, and the return follows from the link alone. -/
theorem callThenReturn : Obligations.CallThenReturn := by
  intro s p q off off' rs hpc hp hq call hcall
  have linked : ∃ target, exec call s = .next ((s.jumped target).setReg 31#5 s.pc) := by
    rcases List.mem_pair.mp hcall with rfl | rfl
    · exact ⟨_, exec_of_branchLink (target := (·.targetImm off)) rfl hp⟩
    · exact ⟨_, exec_of_branchLink (target := (·.targetReg off' rs)) rfl hp⟩
  obtain ⟨target, hcalled⟩ := linked
  exact ⟨_, _, hcalled, exec_return_of_linked hpc hq rfl, rfl⟩

end Sys2Proof.Machine

/-! PROOF. The Control instructions (45_control R236 to R244). First the words that ERET reads and writes; then how ERET, a
privileged instruction in user mode and the division run; then the statements. -/

namespace Sys2Proof.Machine

-- Words of a trap and its return (45_control R236, 60_exceptions R270) -------------------------------------------------

theorem withBit0_eq (v : Word) (b : Bool) : withBit0 v b = (v &&& 0xFFFFFFFE#32) ||| (if b then 1#32 else 0#32) := by
  cases b <;> rfl

/-- Writing back the bit that was there restores the word. -/
theorem withBit0_restore (v : Word) (b : Bool) : withBit0 (withBit0 v b) (v.getLsbD 0) = v := by
  refine BitVec.eq_of_getLsbD_eq fun i _ => ?_
  rw [getLsbD_withBit0, getLsbD_withBit0]
  split_ifs with h
  · rw [h]
  · rfl

/-- The mode that a trap saves in EPC[0] is that of the trapped packet. -/
theorem modeOfBit_contextWord (s : State) : modeOfBit (s.contextWord.getLsbD 0) = s.mode := by
  unfold State.contextWord
  cases s.pflags.getLsbD 0 <;> cases s.mode <;> simp [modeOfBit]

/-- The interrupt enable that a trap saves in EPC[1] is that of the trapped packet. -/
theorem getLsbD_one_contextWord (s : State) : s.contextWord.getLsbD 1 = s.pflags.getLsbD 0 := by
  unfold State.contextWord
  cases s.pflags.getLsbD 0 <;> cases s.mode <;> simp

/-- The address that a trap saves in EPC[31:4] is that of the trapped packet. -/
theorem packetAddress_contextWord (s : State) : packetAddress s.contextWord = packetAddress s.pc := by
  unfold State.contextWord packetAddress
  cases s.pflags.getLsbD 0 <;> cases s.mode <;> simp [BitVec.and_or_distrib_right, BitVec.and_assoc]

-- How the instructions run ---------------------------------------------------------------------------------------------

/-- ERET in kernel mode is the return from a trap, to the packet that EPC names (45_control R236). -/
theorem exec_eret {s : State} {p : Pred} (h : s.runs p) (hm : s.mode = .kernel) :
    exec (.eret p) s = .next ((s.returnFromTrap s.epc).advance (some (packetAddress s.epc)) s.pc) :=
  exec_writes (.eret p) s { ret := some s.epc, target := some (packetAddress s.epc) } h (fun _ => hm) rfl (.inl nofun)

/-- In user mode a live privileged instruction raises Illegal Instruction on lane 0 (45_control R237). -/
theorem exec_privileged_user {i : Instr} {s : State} (h : s.runs i.pred) (hi : i.privileged = true)
    (hm : s.mode = .user) (hw : s.ehaWritten = true) :
    exec i s = .next (s.trapped ⟨2#32, 0#32, 0#32, 0#32⟩ s.ea0 s.ea1) := by
  rcases exec_cases i s with ⟨dead, _⟩ | ⟨_, _, _, traps⟩ | ⟨_, kernel, _⟩
  · exact absurd h dead
  · rw [traps, trapTo_next _ hw]
  · rw [kernel hi] at hm
    cases hm

/-- DIV by a divisor that is not 0 (45_control R244). -/
theorem exec_div {s : State} {p : Pred} {rt : Reg} (rd rs : Reg) (h : s.runs p) (hd : s.reg rt ≠ 0#32) :
    exec (.div p rt rd rs) s = .next (s.onwardRegHi rd (s.reg rs / s.reg rt) (s.reg rs % s.reg rt)) :=
  exec_writes (.div p rt rd rs) s
    { reg := some (rd, s.reg rs / s.reg rt), hi := some (s.reg rs % s.reg rt) } h nofun (if_neg hd) (.inr rfl)

-- The statements -------------------------------------------------------------------------------------------------------

/-- Settles O34: ERET reads back from EPC the packet address, the mode and the interrupt enable that the trap put
there. -/
theorem trapThenEret : Obligations.TrapThenEret := by
  intro s ec ea0 ea1 p h hpc
  have flags : withBit0 (s.pflags &&& 0xFFFFFFFE#32) (s.contextWord.getLsbD 1) = s.pflags := by
    rw [getLsbD_one_contextWord, ← withBit0_false, withBit0_restore]
  have target : packetAddress s.contextWord = s.pc := by
    rw [packetAddress_contextWord, (packetAddress_eq_iff s.pc).2 hpc]
  rw [exec_eret (s := s.trapped ec ea0 ea1) h rfl]
  simp only [State.trapped, State.returnFromTrap, State.advance, Option.getD_some, modeOfBit_contextWord, flags, target]

/-- Settles O41: a quotient and a remainder below the divisor are the only ones, and a zero divisor raises code 6. -/
theorem divideResults : Obligations.DivideResults := by
  intro s p rt rd rs h
  refine ⟨fun q r hd hsum hr => ?_, fun hz hw => ?_⟩
  · have positive : 0#32 < s.reg rt := (BitVec.pos_iff_ne_zero _).mpr hd
    have division : (s.reg rt).toNat * q.toNat + r.toNat = (s.reg rs).toNat := by rw [hsum, Nat.mul_comm]
    rw [exec_div rd rs h hd, BitVec.udiv_eq_of_mul_add_toNat positive hr division,
      BitVec.umod_eq_of_mul_add_toNat hr division]
  · exact exec_raises (.div p rt rd rs) s .divideByZero none hw h nofun (if_pos hz)

/-- Settles O33: the return from a trap, with the bit of PFLAGS written out. -/
theorem eretResult : Obligations.EretResult := by
  intro s p h hm
  rw [exec_eret h hm, ← withBit0_eq]
  rfl

/-- Settles O35: the three instructions are privileged. -/
theorem privilegedInUserMode : Obligations.PrivilegedInUserMode := by
  intro s p r n h hm hw i hi
  have privileged : i.pred = p ∧ i.privileged = true := by
    simp only [List.mem_cons, List.not_mem_nil, or_false] at hi
    rcases hi with rfl | rfl | rfl
    all_goals exact ⟨rfl, rfl⟩
  obtain ⟨hp, hpriv⟩ := privileged
  exact exec_privileged_user (hp ▸ h) hpriv hm hw

/-- Settles O39: each pends its one write. -/
theorem moveHiResults : Obligations.MoveHiResults := by
  intro s p r h
  exact ⟨exec_writes (.mfhi p r) s { reg := some (r, s.hi) } h nofun rfl (.inr rfl),
    exec_writes (.mthi p r) s { hi := some (s.reg r) } h nofun rfl (.inr rfl)⟩

end Sys2Proof.Machine

/-! PROOF. Exceptions and interrupts that are taken (60_exceptions R267 to R275). First the state of an interrupt's trap
entry, in the words of Safety.lean, and the step that takes it; then the statements. -/

namespace Sys2Proof.Machine

/-- Trap entry for an interrupt, after the environment's actions: all that it reads of the state they leave is as it was
before them (60_exceptions R270). -/
theorem takeInterrupt_arrived (s : State) (src : IrqSource) :
    s.arrived.takeInterrupt src =
      { s.arrived with
        epc := s.contextWord
        ec0 := src.ec
        pflags := s.pflags &&& 0xFFFFFFFE#32
        mode := .kernel
        link := false
        pc := s.eha &&& 0xFFFFFFF0#32 } := by
  simp only [State.takeInterrupt, State.enterTrap, packetAddress, savedContext_eq, withBit0_false, arrived_contextWord,
    arrived_pflags, arrived_eha]

/-- A step that takes an interrupt is its trap entry: of the four kinds of step the other three have no interrupt. -/
theorem step_of_interrupt {s : State} {src : IrqSource} (hi : s.interrupt = some src) (hw : s.ehaWritten = true) :
    step s = .next (s.arrived.takeInterrupt src) := by
  rcases step_cases s with ⟨taken, htaken, hstep⟩ | ⟨hnone, _⟩ | ⟨hnone, _⟩ | ⟨_, _, ⟨hnone, _⟩, _⟩
  · obtain rfl : taken = src := Option.some.inj (htaken.symm.trans hi)
    rw [hstep, trapTo_next _ hw]
  all_goals
    rw [hi] at hnone
    cases hnone

/-- Settles O31: each of the two raises its exception, with no address, and is not privileged. -/
theorem syscallAndBreakTrap : Obligations.SyscallAndBreakTrap := by
  intro s p h hw
  exact ⟨exec_raises (.syscall p) s .syscall none hw h nofun rfl,
    exec_raises (.breakpoint p) s .breakpoint none hw h nofun rfl⟩

/-- Settles O56: the step is the trap entry, and the number in EC0 is that of the source. -/
theorem interruptTaken : Obligations.InterruptTaken := by
  intro s src hi hw
  rw [step_of_interrupt hi hw, takeInterrupt_arrived]
  cases src <;> rfl

end Sys2Proof.Machine

/-! PROOF. The state after reset (70_reset R300, R301). First what each kind of register reads there; then the
statement. -/

namespace Sys2Proof.Machine

/-- Every general register is 0 after reset (70_reset R301, log 2). -/
@[simp] theorem reset_reg (r : Reg) : State.reset.reg r = 0#32 :=
  Vector.getElem_replicate r.isLt

/-- Only P3 reads 1 after reset: it is constant (10_state R14), the writable ones are 0 (log 3). -/
@[simp] theorem reset_pred (n : PredReg) : State.reset.pred n = decide (n = 3#2) := by
  obtain ⟨i⟩ := n
  fin_cases i <;> rfl

/-- Every coprocessor register reads 0 after reset: PFLAGS by R300, the others by the model's choice (log 5). -/
@[simp] theorem reset_readCp (c : CpReg) : State.reset.readCp c = 0#32 := by
  cases c <;> rfl

/-- Settles O5: the registers by what they read, `pc` aligned by the invariant, every other field as reset sets it. -/
theorem resetState : Obligations.ResetState :=
  have ⟨aligned, _⟩ := (inv_iff State.reset).1 resetKeepsInvariant
  ⟨rfl, rfl, rfl, rfl, rfl, rfl, aligned, reset_reg, reset_pred, rfl, reset_readCp, rfl, rfl, rfl, rfl, rfl, rfl⟩

end Sys2Proof.Machine
